-- ==== Sys2Proof/Word.lean ====
section
/-! DEFINITION. The one word type of the card: every frame on a caller port and on the display link is made of bytes.
Everything the manual counts or orders (times, lengths, cue numbers, text ids) is a `Nat`, not a word. -/

namespace Sys2Proof

/-- A byte on the wire (section 4.5 of `00_scope.md`). -/
abbrev Byte := BitVec 8

end Sys2Proof
end

