-- ==== Sys2Proof/Config.lean ====
section
/-! DEFINITION. What the manual fixes for every FN-316 (capacities, windows, line rates) and the two values it leaves
free: which of several things that are ready at the same moment the card takes first, and in which of two ways the spacing
of a line break discards a frame. -/

namespace Sys2Proof

/-- Cue records the cue table holds at most (R1). -/
def Config.maxCues : Nat := 2048
/-- Text records the text store holds at most (R5). -/
def Config.maxTexts : Nat := 16384
/-- Text bytes the text store holds at most (R5). -/
def Config.maxTextBytes : Nat := 1048576
/-- Bytes one text record holds at most (R4). -/
def Config.maxTextLen : Nat := 192
/-- Commands the display link's command queue holds at most (R100, R102). -/
def Config.maxCommands : Nat := 64
/-- Queue length at or below which the out-of-step heads are caught up (R105). -/
def Config.catchUpLevel : Nat := 16
/-- Requests one port's queue holds at most (R141). -/
def Config.maxRequests : Nat := 8
/-- Immediate answers one port's outgoing list holds at most (R142). -/
def Config.maxImmediate : Nat := 8
/-- Payload bytes one caller frame holds at most (R139, R168). -/
def Config.maxPayload : Nat := 240
/-- The ack window in milliseconds (R107). -/
def Config.ackWindow : Nat := 5
/-- The value at which an attempt count stops (R100). -/
def Config.maxAttempts : Nat := 65535
/-- Microseconds one byte takes on the display link (R107). -/
def Config.linkByteMicros : Nat := 5
/-- Line time of one byte on a caller port, in tenths of a bit time: ten bit times (section 8.2). -/
def Config.callerByteTenths : Nat := 100
/-- Tenths of a bit time that pass on a caller port in one millisecond at 230,400 bit/s (section 8.2). -/
def Config.callerTenthsPerMs : Nat := 2304

/-- FREE VALUE (log entry 3). When several things are ready at one moment (counts that ran out in the same
millisecond, requests whose turn has come on different ports) the manual gives no order among them: R45, R63, R76,
R99, R119 and R136 give the outcome of either order. The `n`-th such choice is `eventChoice n`, taken modulo the
number of things that are ready. -/
opaque Config.eventChoice : Nat → Nat

/-- FREE VALUE (log entry 24). The spacing that becomes a line break discards a frame begun on the line as a bad byte or as a
gap (R140), and the manual does not say as which. The `n`-th choice of the card is a bad byte where `breakIsBadByte n`. -/
opaque Config.breakIsBadByte : Nat → Bool

end Sys2Proof
end

