-- ==== Sys2Proof/Syntax.lean ====
section
/-! DEFINITION. The names the commands speak of (section 4.2) and `Instr`, the commands the card takes: one constructor
for each row of the table of operations and events.

A request row (OPEN, GO, PUT_CUE, ...) is the EXECUTION of the oldest request in its port's queue (R143), so its only
operand is the port: tag and payload stand in the queue, where FRAME_RECEIVED or CALLER_BYTE_RECEIVED put them.
The rows of a clock event (FADE_END, FLOOR_END, ...) say that the event has come; the card's own clock, which decides
when it comes, is `Sys2Proof.Machine.State.idle`. -/

namespace Sys2Proof

/-- The three caller ports (4.2). -/
inductive Port where
  | A | B | C
deriving DecidableEq, Repr

/-- The two layers of a head, BASE and OVER (4.2). -/
inductive Layer where
  | base | overlay
deriving DecidableEq, Repr

/-- A head address, 0 to 15 (4.2). -/
abbrev HeadId := Fin 16
/-- A screen group, G0 to G7 (4.2). -/
abbrev GroupId := Fin 8
/-- A language, L0 to L7 (4.2). -/
abbrev Lang := Fin 8

/-- The six role strap pins, two for each port (6.1). -/
structure Straps where
  a : BitVec 2
  b : BitVec 2
  c : BitVec 2
deriving DecidableEq, Repr

/-- The straps of one port. -/
def Straps.of (t : Straps) : Port → BitVec 2
  | .A => t.a
  | .B => t.b
  | .C => t.c

/-- The commands: one constructor for each row of the table. -/
inductive Instr where
  /-- POWER_ON (R23): power-up with the role straps and the level of the BEAT input found then. -/
  | powerOn (straps : Straps) (beatHigh : Bool)
  /-- RESET (R120): the RESET input, with the straps and the BEAT level found then. -/
  | reset (straps : Straps) (beatHigh : Bool)
  /-- LINE_BREAK (R140): the port's receive line has been spacing for 2 ms. -/
  | lineBreak (p : Port)
  /-- FRAME_RECEIVED (R141): a complete frame, with the CRC received as one 16-bit value. -/
  | frameReceived (p : Port) (tag : Byte) (kind : Byte) (payload : List Byte) (crc : BitVec 16)
  /-- FRAME_GAP_TIMEOUT (R139): more than 1 ms has passed since the last byte of the frame. -/
  | frameGapTimeout (p : Port)
  /-- UNLOCK (R148): a good UNLOCK frame arrives. -/
  | unlock (p : Port) (tag : Byte) (payload : List Byte)
  /-- CALLER_FRAME_SENT (R143): the last byte of the frame being sent has left. -/
  | callerFrameSent (p : Port)
  /-- DROPPED (R148): the turn of a request marked for dropping. -/
  | dropped (p : Port)
  /-- UNKNOWN_KIND_REQUEST (R144): the turn of a request whose kind is no request kind. -/
  | unknownKindRequest (p : Port)
  /-- OPEN (R25, R26). -/
  | openShow (p : Port)
  /-- CLOSE (R41, R42). -/
  | closeShow (p : Port)
  /-- GO (R27, R28). -/
  | go (p : Port)
  /-- BACK (R35, R36). -/
  | back (p : Port)
  /-- STANDBY (R37). -/
  | standby (p : Port)
  /-- HOLD (R38). -/
  | hold (p : Port)
  /-- RELEASE (R40). -/
  | release (p : Port)
  /-- FOLLOW_EXPIRY (R51): the follow countdown has run out. -/
  | followExpiry
  /-- FLOOR_END (R52, R55): the floor of one group-layer has run out. -/
  | floorEnd (g : GroupId) (l : Layer)
  /-- BEAT_EDGE (R66): the BEAT input is now at this level. -/
  | beatEdge (high : Bool)
  /-- BEAT (R72). -/
  | beat (p : Port)
  /-- CLAIM (R125, R126). -/
  | claim (p : Port)
  /-- YIELD (R128). -/
  | yieldRight (p : Port)
  /-- SET_ROLE (R132). -/
  | setRole (p : Port)
  /-- SET_PORT (R149). -/
  | setPort (p : Port)
  /-- PUT_CUE (R9, R10). -/
  | putCue (p : Port)
  /-- DROP_CUE (R11). -/
  | dropCue (p : Port)
  /-- PUT_TEXT (R13, R14). -/
  | putText (p : Port)
  /-- DROP_TEXT (R15). -/
  | dropText (p : Port)
  /-- SET_HEAD (R92). -/
  | setHead (p : Port)
  /-- REFRESH_HEAD (R96). -/
  | refreshHead (p : Port)
  /-- SET_LINK (R111). -/
  | setLink (p : Port)
  /-- SET_BEAT (R73). -/
  | setBeat (p : Port)
  /-- SET_WATCH (R159). -/
  | setWatch (p : Port)
  /-- SET_NOTICE (R164). -/
  | setNotice (p : Port)
  /-- READ_POSITION (R44, R62, R135, R160). -/
  | readPosition (p : Port)
  /-- READ_CUE (R17). -/
  | readCue (p : Port)
  /-- READ_TEXT (R18). -/
  | readText (p : Port)
  /-- READ_HEAD (R98). -/
  | readHead (p : Port)
  /-- READ_CAUSES (R165). -/
  | readCauses (p : Port)
  /-- CLEAR_CAUSES (R165). -/
  | clearCauses (p : Port)
  /-- READ_CAPTURE (R166). -/
  | readCapture (p : Port)
  /-- CLEAR_CAPTURE (R166). -/
  | clearCapture (p : Port)
  /-- LIST_CUES (R151). -/
  | listCues (p : Port)
  /-- SYNC (R150). -/
  | sync (p : Port)
  /-- FADE_END (R86): the fade of one layer slot has run out. -/
  | fadeEnd (h : HeadId) (l : Layer)
  /-- LINK_FRAME_SENT (R107): the last byte of the display-link frame has left. -/
  | linkFrameSent
  /-- ACKNOWLEDGEMENT (R108, R109): these bytes arrive from a head as one frame. -/
  | acknowledgement (frame : List Byte)
  /-- ACK_TIMEOUT (R110): the ack window has closed with no acknowledgement. -/
  | ackTimeout
  /-- HOLD_OFF_END (R110): the hold-off has run out. -/
  | holdOffEnd
  /-- CALLER_BYTE_RECEIVED (R138): one byte on a receive line, with a good or a bad stop bit. -/
  | callerByteReceived (p : Port) (b : Byte) (stopGood : Bool)
  /-- LINE_RETURNS_TO_MARKING (R140): the break on this port is over. -/
  | lineReturnsToMarking (p : Port)
deriving DecidableEq, Repr

end Sys2Proof
end

