-- ==== Sys2Proof/Decode.lean ====
section
/-! DEFINITION. The table of operations and events gives no row any bits: the card's commands are requests, line events and
clock events, not words of an instruction set. So no word spells a command. What a desk's frame spells is read by the
request tables of `Machine/Operands.lean`. -/

namespace Sys2Proof

/-- The command a word spells by the table's bits: none, since no row of the table has bits. -/
def decodeTableWord (_nbits _w : Nat) : Option Instr := none

end Sys2Proof
end

