-- ==== Sys2Proof/Machine/State.lean ====
section
/-! DEFINITION. The card's state as plain data: the nine blocks of section 2 of `00_scope.md`, each with every item its
chapter's rules give it, the card time, the pins, and the queue of commands waiting to be taken. -/

namespace Sys2Proof.Machine

/-! ## Cue Store (R1 to R21) -/

/-- A cue number, major part then minor part (4.1). -/
structure CueNum where
  major : Nat
  minor : Nat
deriving DecidableEq, Repr

/-- One text entry of a TITLE cue: a language and the text id for it (R2). -/
structure TextEntry where
  lang : Lang
  text : Nat
deriving DecidableEq, Repr

/-- What a cue does to the screens, with the fields its kind has (the table of 1.1). Times are in milliseconds; a set
of groups has bit n for Gn (R169). -/
inductive CueBody where
  | title (layer : Layer) (groups : BitVec 8) (texts : List TextEntry) (fadeIn fadeOut floor : Nat)
  /-- `only = none` is the layer BOTH. -/
  | clear (only : Option Layer) (groups : BitVec 8) (floor : Nat)
  | mark
deriving DecidableEq, Repr

/-- How a cue comes to fire (the table of 1.1); the delay is in ms or in beats. -/
inductive Trigger where
  | manual
  | afterTime (ms : Nat)
  | afterBeats (beats : Nat)
deriving DecidableEq, Repr

/-- A cue record (R1, R2). -/
structure CueRec where
  num : CueNum
  body : CueBody
  trigger : Trigger
deriving DecidableEq, Repr

/-- A text record with its reference count (R4, R6); the line count is computed from the bytes. -/
structure TextRec where
  id : Nat
  bytes : List Byte
  refs : Nat
deriving DecidableEq, Repr

/-! ## Show Engine (R22) -/

inductive ShowState where
  | idle | ready | running | held
deriving DecidableEq, Repr

/-- The state the show left when it entered HELD (R22). -/
inductive HeldFrom where
  | ready | running
deriving DecidableEq, Repr

structure ShowEngine where
  state : ShowState
  heldFrom : HeldFrom
  current : Option CueNum
  standby : Option CueNum
deriving DecidableEq, Repr

/-- Who a firing comes from: a port, or AUTO at a follow expiry (R28, R34). -/
inductive Origin where
  | port (p : Port)
  | auto
deriving DecidableEq, Repr

inductive FiringKind where
  | go | back | follow
deriving DecidableEq, Repr

/-! ## Run Queue (R46 to R48) -/

inductive CountMode where
  | time | beats
deriving DecidableEq, Repr

inductive RunEntry where
  | follow (cue : CueNum) (mode : CountMode) (full remaining : Nat)
  | deferred (g : GroupId) (l : Layer) (cue : CueNum) (origin : Origin)
deriving DecidableEq, Repr

/-- One record of the group-layer table (R48). -/
structure GroupLayer where
  owner : Option CueNum
  floor : Nat
deriving DecidableEq, Repr

structure RunQueue where
  /-- oldest first (R46) -/
  entries : List RunEntry
  /-- the records of the eight groups for BASE and for OVER -/
  baseTable : Vector GroupLayer 8
  overTable : Vector GroupLayer 8
deriving DecidableEq, Repr

/-! ## Beat Unit (R64) -/

inductive BeatSource where
  | off | line | request
deriving DecidableEq, Repr

inductive EdgeSel where
  | rising | falling | both
deriving DecidableEq, Repr

structure BeatUnit where
  source : BeatSource
  edge : EdgeSel
  guard : Nat
  settling : Bool
  lastAccepted : Option Nat
  /-- the level of the BEAT input (R66) -/
  level : Bool
deriving DecidableEq, Repr

/-! ## Screen Image Unit (R77, R80) -/

/-- A text part: the slot's own copy of what a change put onto the layer (R80). -/
structure TextPart where
  text : Nat
  fadeIn : Nat
  fadeOut : Nat
  cue : CueNum
deriving DecidableEq, Repr

/-- A layer slot. Its four states carry just the parts R80 allows them: no shown part in DARK, a next part only in
FALLING. The fade remaining is in ms and is 0 in DARK and LIT. -/
inductive Slot where
  | dark
  | rising (shown : TextPart) (fade : Nat)
  | lit (shown : TextPart)
  | falling (shown : TextPart) (next : Option TextPart) (fade : Nat)
deriving DecidableEq, Repr

inductive HeadState where
  | absent | probing | online | fault
deriving DecidableEq, Repr

inductive GapPolicy where
  | blank | keep
deriving DecidableEq, Repr

structure Head where
  state : HeadState
  lang : Lang
  group : GroupId
  gap : GapPolicy
  outOfStep : Bool
  baseSlot : Slot
  overSlot : Slot
deriving DecidableEq, Repr

/-! ## Link Controller (R100, R101) -/

inductive CmdBody where
  | put (l : Layer) (text : List Byte) (fade : Nat) (cue : CueNum)
  | take (l : Layer) (fade : Nat) (cue : Option CueNum)
  | probe
deriving DecidableEq, Repr

/-- A command of the display link (R101). `id` tells commands apart for a waiting SYNC (R150); it is the model's own and
is never sent. -/
structure Command where
  id : Nat
  head : HeadId
  body : CmdBody
  seq : Option (BitVec 8)
deriving DecidableEq, Repr

/-- The in-flight phase (R100) with the time left of what runs in it. -/
inductive LinkPhase where
  | none
  /-- the frame goes out; `tail` when it is that of an abandoned command (R117) -/
  | sending (micros : Nat) (tail : Bool)
  | waiting (ms : Nat)
  | holding (ms : Nat)
deriving DecidableEq, Repr

inductive CmdKind where
  | put | take | probe
deriving DecidableEq, Repr

/-- The link capture's record (R115). -/
structure LinkCapture where
  head : HeadId
  kind : CmdKind
  layer : Option Layer
  attempts : Nat
  cue : Option CueNum
  more : Bool
deriving DecidableEq, Repr

structure LinkController where
  /-- oldest first, the in-flight command included -/
  queue : List Command
  phase : LinkPhase
  attempts : Nat
  nextSeq : BitVec 8
  retryLimit : Nat
  holdOff : Nat
  capture : Option LinkCapture
  /-- the `id` of the next command; the model's own (log entry 4) -/
  nextId : Nat
deriving DecidableEq, Repr

/-! ## Call Arbiter (R120, R121) -/

inductive Profile where
  | observer | desk | backup | stage
deriving DecidableEq, Repr

inductive Ring where
  | low | high
deriving DecidableEq, Repr

/-- Three like things, one for each caller port. -/
structure PerPort (α : Type) where
  a : α
  b : α
  c : α
deriving DecidableEq, Repr

/-- A port's profile and ring (R121). -/
structure Role where
  profile : Profile
  ring : Ring
deriving DecidableEq, Repr

structure CallArbiter where
  roles : PerPort Role
  /-- the call right: `none` is FREE -/
  holder : Option Port
  /-- the claim list, first to be served first -/
  claims : List Port
deriving DecidableEq, Repr

/-! ## Watch Unit (R155) -/

inductive WatchType where
  | off | equal | below | atOrAbove
deriving DecidableEq, Repr

structure Watch where
  type : WatchType
  value : CueNum
  matched : Bool
deriving DecidableEq, Repr

inductive Combine where
  | or | and
deriving DecidableEq, Repr

structure WatchUnit where
  w0 : Watch
  w1 : Watch
  combine : Combine
  silent : Bool
  /-- the WATCH output: asserted or not -/
  line : Bool
deriving DecidableEq, Repr

/-! ## Port Units (R137) -/

/-- The statuses of 10.4. -/
inductive Status where
  | done | unknown | form | role | notCaller | state | held | stale | atEnd | noCue | noText | inUse | full | range
  | busy | dropped | cut | listed
deriving DecidableEq, Repr

/-- The 19 causes (9.4, 10.5). -/
inductive Cause where
  | fired | held | released | opened | closed | endReached
  | callGranted | callLost
  | overrun | skipped | headFault | headOnline | outOfStep
  | beatReject | watch
  | lineError | refusal | locked | busy
deriving DecidableEq, Repr

/-- How the call right was gained or lost (R129, R169). -/
inductive CallWay where
  | free | passed | takeover | lock | portReset | role
deriving DecidableEq, Repr

/-- The cases of LINE_ERROR (R139). -/
inductive LineCase where
  | length | gap | byte | crc
deriving DecidableEq, Repr

/-- A raise: a cause with its detail (the table of R172). -/
inductive Raise where
  | fired (cue : CueNum) (origin : Origin) (kind : FiringKind)
  | held (fr : HeldFrom)
  | released (st : HeldFrom)
  | opened (standby : CueNum)
  | closed (p : Port)
  | endReached (cue : CueNum)
  | callGranted (way : CallWay) (former : Option Port)
  | callLost (way : CallWay) (holder : Option Port)
  | overrun (h : HeadId) (l : Layer) (cue : CueNum)
  | skipped (g : GroupId) (l : Layer) (cue : CueNum)
  | headFault (h : HeadId) (kind : CmdKind) (attempts : Nat)
  | headOnline (h : HeadId)
  | outOfStep (h : HeadId)
  | beatReject (source : BeatSource) (since : Nat)
  | watch (cue : CueNum) (m0 m1 : Bool)
  /-- the tag and the kind where the receiver got that far -/
  | lineError (why : LineCase) (tag kind : Option Byte)
  | refusal (tag kind : Byte) (status : Status)
  | locked (tag kind : Byte) (status : Status)
  | busy (tag kind : Byte)
deriving DecidableEq, Repr

/-- A set of causes, bit n for the cause of code n (R169). -/
abbrev CauseSet := BitVec 19

/-- A queued request (R137, R141). `drop` is the mark of UNLOCK with discard (R148). -/
structure Request where
  tag : Byte
  kind : Byte
  payload : List Byte
  drop : Bool
deriving DecidableEq, Repr

/-- What an answer frame is, for what happens when it has been sent (R142, R143, R151). -/
inductive AnswerSort where
  /-- a request's last response: the request leaves the queue when it has been sent -/
  | response
  /-- a LISTED frame: the next one is made when it has been sent -/
  | listed
  /-- a BUSY answer or the answer to an UNLOCK -/
  | immediate
  /-- a response whose request a port reset has removed while it was being sent (R153) -/
  | orphan
deriving DecidableEq, Repr

/-- A frame the port has made (R142). -/
inductive OutFrame where
  | answer (sort : AnswerSort) (tag kind : Byte) (payload : List Byte)
  | notice (r : Raise)
deriving DecidableEq, Repr

/-- Where the assembly of the incoming frame stands (R138). -/
inductive Receiver where
  | hunting
  /-- the bytes after the sync byte, oldest first, and the milliseconds left until the gap of R139 -/
  | inFrame (got : List Byte) (gapLeft : Nat)
deriving DecidableEq, Repr

/-- The refusal capture's record (R145). -/
structure RefusalCapture where
  tag : Byte
  kind : Byte
  status : Status
  more : Bool
deriving DecidableEq, Repr

/-- The listing cursor (R151): the records left and the last number sent, with the LISTED frames made so far, which
the final frame reports (R152). -/
structure Listing where
  left : Nat
  last : Option CueNum
  made : Nat
deriving DecidableEq, Repr

/-- A waiting SYNC (R150): the commands still waited for, by `id`, and the two numbers its answer carries. -/
structure SyncWait where
  waiting : List Nat
  total : Nat
  unacked : Nat
deriving DecidableEq, Repr

structure PortUnit where
  receiver : Receiver
  /-- a line break lasts on the receive line (R140) -/
  inBreak : Bool
  /-- oldest first, the executing request included -/
  queue : List Request
  locked : Bool
  lockPolicy : Bool
  capture : Option RefusalCapture
  listing : Option Listing
  sync : Option SyncWait
  /-- the frame whose sending has begun (R142) -/
  sending : Option OutFrame
  /-- its line time left, in tenths of a bit time -/
  sendLeft : Nat
  /-- the frames made whose sending has not begun, oldest first -/
  outgoing : List OutFrame
  /-- the pending-cause set with details, in ascending code order -/
  pending : List Raise
  repeats : CauseSet
  enabled : CauseSet
deriving DecidableEq, Repr

/-! ## The card -/

structure State where
  /-- milliseconds since the last power-on or RESET (4.3) -/
  cardTime : Nat
  /-- the role straps as last read (R120) -/
  straps : Straps
  /-- the cue table, ascending (R1) -/
  cues : List CueRec
  /-- the text store, ascending by text id (R4) -/
  texts : List TextRec
  engine : ShowEngine
  run : RunQueue
  beat : BeatUnit
  heads : Vector Head 16
  link : LinkController
  arbiter : CallArbiter
  watch : WatchUnit
  ports : PerPort PortUnit
  /-- the commands waiting to be taken, first in, first out -/
  pending : List Instr
  /-- clock events whose time came in this millisecond and that have not been taken; the model's own (log entry 2) -/
  due : List Instr
  /-- how many free choices have been made; the model's own (log entry 3) -/
  choices : Nat
deriving DecidableEq, Repr

/-! ## Reset values -/

/-- The profile and ring the two straps of a port select (R121). -/
def Role.ofStraps (b : BitVec 2) : Role :=
  if b = 0 then { profile := .observer, ring := .low }
  else if b = 1 then { profile := .desk, ring := .low }
  else if b = 2 then { profile := .backup, ring := .low }
  else { profile := .stage, ring := .high }

/-- The value of one thing for each port. -/
def PerPort.get {α : Type} (v : PerPort α) : Port → α
  | .A => v.a
  | .B => v.b
  | .C => v.c

/-- Write one port's value. -/
def PerPort.set {α : Type} (v : PerPort α) (p : Port) (x : α) : PerPort α :=
  match p with
  | .A => { v with a := x }
  | .B => { v with b := x }
  | .C => { v with c := x }

/-- The Call Arbiter after reset: roles from the straps, the right FREE, the list empty (R120). -/
def CallArbiter.atReset (t : Straps) : CallArbiter :=
  { roles := { a := Role.ofStraps t.a, b := Role.ofStraps t.b, c := Role.ofStraps t.c }, holder := none, claims := [] }

/-- A Port Unit after power-on or RESET (R137). -/
def PortUnit.atReset : PortUnit :=
  { receiver := .hunting, inBreak := false, queue := [], locked := false, lockPolicy := true, capture := none,
    listing := none, sync := none, sending := none, sendLeft := 0, outgoing := [], pending := [], repeats := 0,
    enabled := 0 }

/-- A head after power-on or RESET (R77, R80). -/
def Head.atReset : Head :=
  { state := .absent, lang := 0, group := 0, gap := .blank, outOfStep := false, baseSlot := .dark, overSlot := .dark }

/-- The Beat Unit after power-on or RESET, with the level found on BEAT (R64, R66). -/
def BeatUnit.atReset (level : Bool) : BeatUnit :=
  { source := .off, edge := .rising, guard := 150, settling := false, lastAccepted := none, level := level }

/-- A watch after power-on or RESET (R155). -/
def Watch.atReset : Watch := { type := .off, value := { major := 1, minor := 0 }, matched := false }

/-- Every block at its reset value, for the straps and the BEAT level found then (R21, R23, R61, R64, R77, R80, R100,
R120, R137, R155). Card time starts again (4.3). -/
def State.resetWith (t : Straps) (level : Bool) : State :=
  { cardTime := 0, straps := t, cues := [], texts := [],
    engine := { state := .idle, heldFrom := .ready, current := none, standby := none },
    run := { entries := [], baseTable := Vector.replicate 8 { owner := none, floor := 0 },
             overTable := Vector.replicate 8 { owner := none, floor := 0 } },
    beat := BeatUnit.atReset level,
    heads := Vector.replicate 16 Head.atReset,
    link := { queue := [], phase := .none, attempts := 0, nextSeq := 0, retryLimit := 3, holdOff := 2, capture := none,
              nextId := 0 },
    arbiter := CallArbiter.atReset t,
    watch := { w0 := Watch.atReset, w1 := Watch.atReset, combine := .or, silent := false, line := false },
    ports := { a := PortUnit.atReset, b := PortUnit.atReset, c := PortUnit.atReset },
    pending := [], due := [], choices := 0 }

/-- The machine right after reset, strapped as the installation of 11.1 (port A DESK, port B BACKUP, port C STAGE) with
the BEAT input low. The straps and the BEAT level are DESIGN CHOICE (log entry 1): the manual takes both from the pins. -/
def State.reset : State := State.resetWith { a := 1, b := 2, c := 3 } false

/-- Why a step can fault: never. The manual gives every command of the card an effect in every state, so no command
raises a fault and the type has no constructor (safe: nothing is stopped). -/
inductive Fault where
deriving DecidableEq, Repr

/-- Why a command can be refused by the model. -/
inductive Refusal where
  /-- The command has no meaning yet. No arm of `exec` raises it. Safe: the machine stops where the card goes on. -/
  | notModelled (mnemonic : String)
deriving DecidableEq, Repr

end Sys2Proof.Machine
end

