-- ==== Sys2Proof/Machine/Operands.lean ====
section
/-! DEFINITION. The operand forms of the card: how the bytes of a request payload are read and how the bytes of responses,
notices and display-link frames are laid out (10_frame_formats.md, R168 to R174), the check value, and the table of
request kinds with their codes, lengths and flags. -/

namespace Sys2Proof.Machine

/-! ## Bytes and the check value -/

/-- The low byte of a number. -/
def byteOf (n : Nat) : Byte := BitVec.ofNat 8 n

/-- A 16-bit field, least significant byte first (4.5). -/
def le2 (n : Nat) : List Byte := [byteOf n, byteOf (n / 256)]

/-- A 24-bit field, least significant byte first (4.5). -/
def le3 (n : Nat) : List Byte := [byteOf n, byteOf (n / 256), byteOf (n / 65536)]

/-- The value of a 16-bit field, least significant byte first. -/
def nat2 (lo hi : Byte) : Nat := lo.toNat + 256 * hi.toNat

/-- A yes/no field (R169). -/
def yesNo (b : Bool) : Byte := if b then 1 else 0

/-- A yes/no field of a request: any other value is out of range (R169). -/
def yesNoOf (b : Byte) : Option Bool :=
  if b = 0 then some false else if b = 1 then some true else none

/-- One bit of the CRC: polynomial 0x1021, most significant bit first (R168). -/
def crcBit (c : BitVec 16) : BitVec 16 := if c.msb then (c <<< 1) ^^^ 0x1021#16 else c <<< 1

/-- One byte of the CRC (R168). -/
def crcByte (c : BitVec 16) (b : Byte) : BitVec 16 :=
  crcBit (crcBit (crcBit (crcBit (crcBit (crcBit (crcBit (crcBit (c ^^^ (b.zeroExtend 16 <<< 8)))))))))

/-- The CRC of a run of bytes, starting from 0xFFFF (R168). -/
def crc16 (bs : List Byte) : BitVec 16 := bs.foldl crcByte 0xFFFF#16

/-- The two CRC bytes, least significant first (R168). -/
def crcBytes (bs : List Byte) : List Byte := le2 (crc16 bs).toNat

/-- The check value of a caller frame: over tag, kind, length and payload (R168). -/
def frameCrc (tag kind : Byte) (payload : List Byte) : BitVec 16 :=
  crc16 (tag :: kind :: byteOf payload.length :: payload)

/-- A caller frame's bytes (R168). -/
def frameBytes (tag kind : Byte) (payload : List Byte) : List Byte :=
  0xC3#8 :: tag :: kind :: byteOf payload.length :: payload ++ le2 (frameCrc tag kind payload).toNat

/-! ## Cue numbers -/

/-- The cue-number order of 4.1: major part first, then minor part. -/
def CueNum.lt (m n : CueNum) : Bool := decide (m.major < n.major ∨ (m.major = n.major ∧ m.minor < n.minor))

/-- A cue number in range (4.1, R2). -/
def CueNum.valid (n : CueNum) : Bool := decide (1 ≤ n.major ∧ n.major ≤ 9999 ∧ n.minor ≤ 9)

/-- The cue number of three bytes on the wire (R169). -/
def cueOf (lo hi minor : Byte) : CueNum := { major := nat2 lo hi, minor := minor.toNat }

/-- A cue number on the wire (R169). -/
def cueBytes (n : CueNum) : List Byte := le2 n.major ++ [byteOf n.minor]

/-- A cue number or none on the wire: none is three zero bytes (R169). -/
def optCueBytes : Option CueNum → List Byte
  | none => [0, 0, 0]
  | some n => cueBytes n

/-! ## Codes (the table of R169, 10.4, 10.5) -/

def portByte : Port → Byte
  | .A => 0
  | .B => 1
  | .C => 2

/-- A port, or none or FREE (R169). -/
def optPortByte : Option Port → Byte
  | none => 0xFF
  | some p => portByte p

def portOf (b : Byte) : Option Port :=
  if b = 0 then some .A else if b = 1 then some .B else if b = 2 then some .C else none

def layerByte : Layer → Byte
  | .base => 1
  | .overlay => 2

def optLayerByte : Option Layer → Byte
  | none => 0
  | some l => layerByte l

def ShowState.code : ShowState → Byte
  | .idle => 0
  | .ready => 1
  | .running => 2
  | .held => 3

def HeldFrom.code : HeldFrom → Byte
  | .ready => 1
  | .running => 2

def Origin.code : Origin → Byte
  | .port p => portByte p
  | .auto => 3

def FiringKind.code : FiringKind → Byte
  | .go => 0
  | .back => 1
  | .follow => 2

def HeadState.code : HeadState → Byte
  | .absent => 0
  | .probing => 1
  | .online => 2
  | .fault => 3

def GapPolicy.code : GapPolicy → Byte
  | .blank => 0
  | .keep => 1

def CmdKind.code : CmdKind → Byte
  | .put => 0
  | .take => 1
  | .probe => 2

def Profile.code : Profile → Byte
  | .observer => 0
  | .desk => 1
  | .backup => 2
  | .stage => 3

def profileOf (b : Byte) : Option Profile :=
  if b = 0 then some .observer else if b = 1 then some .desk else if b = 2 then some .backup
  else if b = 3 then some .stage else none

def Ring.code : Ring → Byte
  | .low => 0
  | .high => 1

def ringOf (b : Byte) : Option Ring := if b = 0 then some .low else if b = 1 then some .high else none

def BeatSource.code : BeatSource → Byte
  | .off => 0
  | .line => 1
  | .request => 2

def beatSourceOf (b : Byte) : Option BeatSource :=
  if b = 0 then some .off else if b = 1 then some .line else if b = 2 then some .request else none

def EdgeSel.code : EdgeSel → Byte
  | .rising => 0
  | .falling => 1
  | .both => 2

def edgeOf (b : Byte) : Option EdgeSel :=
  if b = 0 then some .rising else if b = 1 then some .falling else if b = 2 then some .both else none

def WatchType.code : WatchType → Byte
  | .off => 0
  | .equal => 1
  | .below => 2
  | .atOrAbove => 3

def watchTypeOf (b : Byte) : Option WatchType :=
  if b = 0 then some .off else if b = 1 then some .equal else if b = 2 then some .below
  else if b = 3 then some .atOrAbove else none

def Combine.code : Combine → Byte
  | .or => 0
  | .and => 1

def combineOf (b : Byte) : Option Combine := if b = 0 then some .or else if b = 1 then some .and else none

def gapOf (b : Byte) : Option GapPolicy := if b = 0 then some .blank else if b = 1 then some .keep else none

def CallWay.code : CallWay → Byte
  | .free => 0
  | .passed => 1
  | .takeover => 2
  | .lock => 3
  | .portReset => 4
  | .role => 5

def LineCase.code : LineCase → Byte
  | .length => 0
  | .gap => 1
  | .byte => 2
  | .crc => 3

def Status.code : Status → Byte
  | .done => 0x00
  | .unknown => 0x01
  | .form => 0x02
  | .role => 0x03
  | .notCaller => 0x04
  | .state => 0x05
  | .held => 0x06
  | .stale => 0x07
  | .atEnd => 0x08
  | .noCue => 0x09
  | .noText => 0x0A
  | .inUse => 0x0B
  | .full => 0x0C
  | .range => 0x0D
  | .busy => 0x0E
  | .dropped => 0x0F
  | .cut => 0x10
  | .listed => 0x11

def Cause.code : Cause → Nat
  | .fired => 0
  | .held => 1
  | .released => 2
  | .opened => 3
  | .closed => 4
  | .endReached => 5
  | .callGranted => 6
  | .callLost => 7
  | .overrun => 8
  | .skipped => 9
  | .headFault => 10
  | .headOnline => 11
  | .outOfStep => 12
  | .beatReject => 13
  | .watch => 14
  | .lineError => 15
  | .refusal => 16
  | .locked => 17
  | .busy => 18

/-- A head address of a request, 0 to 15. -/
def headOf (b : Byte) : Option HeadId := if h : b.toNat < 16 then some ⟨b.toNat, h⟩ else none

/-- A group or a language of a request, 0 to 7. -/
def eighthOf (b : Byte) : Option (Fin 8) := if h : b.toNat < 8 then some ⟨b.toNat, h⟩ else none

/-! ## Causes with their details (R172) -/

def Raise.cause : Raise → Cause
  | .fired _ _ _ => .fired
  | .held _ => .held
  | .released _ => .released
  | .opened _ => .opened
  | .closed _ => .closed
  | .endReached _ => .endReached
  | .callGranted _ _ => .callGranted
  | .callLost _ _ => .callLost
  | .overrun _ _ _ => .overrun
  | .skipped _ _ _ => .skipped
  | .headFault _ _ _ => .headFault
  | .headOnline _ => .headOnline
  | .outOfStep _ => .outOfStep
  | .beatReject _ _ => .beatReject
  | .watch _ _ _ => .watch
  | .lineError _ _ _ => .lineError
  | .refusal _ _ _ => .refusal
  | .locked _ _ _ => .locked
  | .busy _ _ => .busy

/-- Two match bits: bit 0 for W0, bit 1 for W1 (R171, R172). -/
def matchByte (m0 m1 : Bool) : Byte := byteOf ((if m0 then 1 else 0) + (if m1 then 2 else 0))

/-- The bytes of a cause's detail (the table of R172). -/
def Raise.detail : Raise → List Byte
  | .fired cue o k => cueBytes cue ++ [o.code, k.code]
  | .held fr => [fr.code]
  | .released st => [st.code]
  | .opened c => cueBytes c
  | .closed p => [portByte p]
  | .endReached c => cueBytes c
  | .callGranted w f => [w.code, optPortByte f]
  | .callLost w n => [w.code, optPortByte n]
  | .overrun h l c => [byteOf h.val, layerByte l] ++ cueBytes c
  | .skipped g l c => [byteOf g.val, layerByte l] ++ cueBytes c
  | .headFault h k n => [byteOf h.val, k.code] ++ le2 n
  | .headOnline h => [byteOf h.val]
  | .outOfStep h => [byteOf h.val]
  | .beatReject src n => src.code :: le2 n
  | .watch c m0 m1 => cueBytes c ++ [matchByte m0 m1]
  | .lineError why none _ => [why.code, 0, 0, 0]
  | .lineError why (some t) none => [why.code, 1, t, 0]
  | .lineError why (some t) (some k) => [why.code, 2, t, k]
  | .refusal t k s => [t, k, s.code]
  | .locked t k s => [t, k, s.code]
  | .busy t k => [t, k]

/-- The payload of an outgoing frame: for a NOTICE the cause code and its detail (R172). -/
def OutFrame.payload : OutFrame → List Byte
  | .answer _ _ _ pl => pl
  | .notice r => byteOf r.cause.code :: r.detail

/-- The bytes of an outgoing frame on the wire; a NOTICE has tag 0x00 and kind 0xFF (R168, R172). -/
def OutFrame.bytes : OutFrame → List Byte
  | .answer _ t k pl => frameBytes t k pl
  | .notice r => frameBytes 0x00 0xFF (byteOf r.cause.code :: r.detail)

/-! ## The cue record (R2, R170) -/

/-- The trigger of a record: its code and its delay (R2, R170). -/
def triggerOf (code : Byte) (delay : Nat) : Option Trigger :=
  if code = 0 then (if delay = 0 then some .manual else none)
  else if code = 1 then (if 1 ≤ delay ∧ delay ≤ 60000 then some (.afterTime (10 * delay)) else none)
  else if code = 2 then (if 1 ≤ delay ∧ delay ≤ 255 then some (.afterBeats delay) else none)
  else none

/-- The text entries of a record: languages in range and strictly ascending, text ids in range (R2). `least` is the
smallest language the next entry may have. -/
def textEntriesOf (least : Nat) : List Byte → Option (List TextEntry)
  | [] => some []
  | lang :: lo :: hi :: rest =>
    match eighthOf lang with
    | some l =>
      if least ≤ lang.toNat ∧ nat2 lo hi ≤ 16383 then
        (textEntriesOf (lang.toNat + 1) rest).map ({ lang := l, text := nat2 lo hi } :: ·)
      else none
    | none => none
  | _ => none

/-- The fields that depend on the kind (R2, R170). -/
def cueBodyOf (kind layer groups fadeIn fadeOut floor : Byte) (entries : List TextEntry) : Option CueBody :=
  if kind = 1 then
    if groups ≠ 0 ∧ floor.toNat ≤ 50 ∧ entries ≠ [] ∧ entries.length ≤ 8 then
      if layer = 1 then
        some (.title .base groups entries (10 * fadeIn.toNat) (10 * fadeOut.toNat) (100 * floor.toNat))
      else if layer = 2 then
        some (.title .overlay groups entries (10 * fadeIn.toNat) (10 * fadeOut.toNat) (100 * floor.toNat))
      else none
    else none
  else if kind = 2 then
    if groups ≠ 0 ∧ floor.toNat ≤ 50 ∧ entries = [] ∧ fadeIn = 0 ∧ fadeOut = 0 then
      if layer = 1 then some (.clear (some .base) groups (100 * floor.toNat))
      else if layer = 2 then some (.clear (some .overlay) groups (100 * floor.toNat))
      else if layer = 3 then some (.clear none groups (100 * floor.toNat))
      else none
    else none
  else if kind = 3 then
    if layer = 0 ∧ groups = 0 ∧ fadeIn = 0 ∧ fadeOut = 0 ∧ floor = 0 ∧ entries = [] then some .mark else none
  else none

/-- The cue record of a PUT_CUE payload, or none where it fails a test of R2. -/
def cueRecOf : List Byte → Option CueRec
  | n0 :: n1 :: n2 :: kind :: layer :: groups :: fadeIn :: fadeOut :: floor :: trig :: d0 :: d1 :: rest =>
    if (cueOf n0 n1 n2).valid then
      match textEntriesOf 0 rest with
      | some entries =>
        match cueBodyOf kind layer groups fadeIn fadeOut floor entries, triggerOf trig (nat2 d0 d1) with
        | some body, some t => some { num := cueOf n0 n1 n2, body := body, trigger := t }
        | _, _ => none
      | none => none
    else none
  | _ => none

/-- The trigger and delay slots of a record (R170). -/
def Trigger.bytes : Trigger → List Byte
  | .manual => [0, 0, 0]
  | .afterTime ms => 1 :: le2 (ms / 10)
  | .afterBeats n => 2 :: le2 n

/-- The kind, layer, groups, fade and floor slots of a record (R170). -/
def CueBody.bytes : CueBody → List Byte
  | .title l g _ fi fo fl => [1, layerByte l, g, byteOf (fi / 10), byteOf (fo / 10), byteOf (fl / 100)]
  | .clear (some l) g fl => [2, layerByte l, g, 0, 0, byteOf (fl / 100)]
  | .clear none g fl => [2, 3, g, 0, 0, byteOf (fl / 100)]
  | .mark => [3, 0, 0, 0, 0, 0]

/-- The text entries of a cue (R2). -/
def CueBody.texts : CueBody → List TextEntry
  | .title _ _ ts _ _ _ => ts
  | .clear _ _ _ => []
  | .mark => []

/-- One text entry on the wire (R170). -/
def TextEntry.bytes (e : TextEntry) : List Byte := byteOf e.lang.val :: le2 e.text

/-- A cue record on the wire (R170). -/
def CueRec.bytes (c : CueRec) : List Byte :=
  cueBytes c.num ++ c.body.bytes ++ c.trigger.bytes ++ c.body.texts.flatMap TextEntry.bytes

/-! ## Requests (R144, R171) and the flags they need (R121, R122) -/

/-- The request kinds that are queued: all of R171's table but UNLOCK, which is taken on arrival (R148). -/
inductive ReqKind where
  | openShow | closeShow | go | back | standby | hold | release | beat
  | claim | yieldRight | setRole | setPort
  | putCue | dropCue | putText | dropText
  | setHead | refreshHead | setLink | setBeat | setWatch | setNotice
  | readPosition | readCue | readText | readHead | readCauses | readCapture | listCues | sync
  | clearCauses | clearCapture
deriving DecidableEq, Repr

/-- Every queued request kind. -/
def ReqKind.all : List ReqKind :=
  [.openShow, .closeShow, .go, .back, .standby, .hold, .release, .beat, .claim, .yieldRight, .setRole, .setPort,
   .putCue, .dropCue, .putText, .dropText, .setHead, .refreshHead, .setLink, .setBeat, .setWatch, .setNotice,
   .readPosition, .readCue, .readText, .readHead, .readCauses, .readCapture, .listCues, .sync, .clearCauses,
   .clearCapture]

/-- The kind codes of R171. -/
def ReqKind.code : ReqKind → Byte
  | .openShow => 0x01
  | .closeShow => 0x02
  | .go => 0x03
  | .back => 0x04
  | .standby => 0x05
  | .hold => 0x06
  | .release => 0x07
  | .beat => 0x08
  | .claim => 0x10
  | .yieldRight => 0x11
  | .setRole => 0x12
  | .setPort => 0x13
  | .putCue => 0x20
  | .dropCue => 0x21
  | .putText => 0x22
  | .dropText => 0x23
  | .setHead => 0x30
  | .refreshHead => 0x31
  | .setLink => 0x32
  | .setBeat => 0x33
  | .setWatch => 0x34
  | .setNotice => 0x35
  | .readPosition => 0x40
  | .readCue => 0x41
  | .readText => 0x42
  | .readHead => 0x43
  | .readCauses => 0x44
  | .readCapture => 0x45
  | .listCues => 0x46
  | .sync => 0x47
  | .clearCauses => 0x48
  | .clearCapture => 0x49

/-- The kind code of UNLOCK (R171). -/
def unlockCode : Byte := 0x14

/-- The queued request kind a code names, if any (R144). -/
def ReqKind.ofCode (b : Byte) : Option ReqKind := ReqKind.all.find? (fun k => decide (k.code = b))

/-- The payload lengths the class check allows (R171). -/
def ReqKind.lengthOk : ReqKind → Nat → Bool
  | .openShow, n => decide (n = 0 ∨ n = 3)
  | .closeShow, n => decide (n = 0)
  | .go, n => decide (n = 0 ∨ n = 3)
  | .back, n => decide (n = 0)
  | .standby, n => decide (n = 3)
  | .hold, n => decide (n = 0)
  | .release, n => decide (n = 0)
  | .beat, n => decide (n = 0)
  | .claim, n => decide (n = 0 ∨ n = 1)
  | .yieldRight, n => decide (n = 0)
  | .setRole, n => decide (n = 3)
  | .setPort, n => decide (n = 1)
  | .putCue, n => decide (12 ≤ n ∧ n ≤ 36 ∧ n % 3 = 0)
  | .dropCue, n => decide (n = 3)
  | .putText, n => decide (2 ≤ n ∧ n ≤ 240)
  | .dropText, n => decide (n = 2)
  | .setHead, n => decide (n = 5)
  | .refreshHead, n => decide (n = 1)
  | .setLink, n => decide (n = 2)
  | .setBeat, n => decide (n = 4)
  | .setWatch, n => decide (n = 10)
  | .setNotice, n => decide (n = 3)
  | .readPosition, n => decide (n = 0)
  | .readCue, n => decide (n = 3)
  | .readText, n => decide (n = 2)
  | .readHead, n => decide (n = 1)
  | .readCauses, n => decide (n = 0)
  | .readCapture, n => decide (n = 1)
  | .listCues, n => decide (n = 4)
  | .sync, n => decide (n = 0)
  | .clearCauses, n => decide (n = 3)
  | .clearCapture, n => decide (n = 1)

/-- The flags of a role profile (R121). -/
inductive Flag where
  | call | hold | edit | takeover | admin
deriving DecidableEq, Repr

/-- The flags a profile carries (the table of R121). -/
def Profile.has : Profile → Flag → Bool
  | .observer, _ => false
  | .desk, f => decide (f = .call ∨ f = .edit)
  | .backup, f => decide (f = .call ∨ f = .edit ∨ f = .takeover)
  | .stage, f => decide (f = .call ∨ f = .hold ∨ f = .takeover ∨ f = .admin)

/-- CLAIM's force field: absent or 0 means without, any other value means with (R125, R169). -/
def claimForce : List Byte → Bool
  | [] => false
  | b :: _ => decide (b ≠ 0)

/-- The flags a request needs (the table of R122); CLAIM and CLEAR_CAPTURE are judged by their payload. -/
def ReqKind.needs : ReqKind → List Byte → List Flag
  | .openShow, _ => [.call]
  | .closeShow, _ => [.call]
  | .go, _ => [.call]
  | .back, _ => [.call]
  | .standby, _ => [.call]
  | .beat, _ => [.call]
  | .hold, _ => [.hold]
  | .release, _ => [.hold]
  | .claim, pl => if claimForce pl then [.call, .takeover] else [.call]
  | .yieldRight, _ => [.call]
  | .setRole, _ => [.admin]
  | .putCue, _ => [.edit]
  | .dropCue, _ => [.edit]
  | .putText, _ => [.edit]
  | .dropText, _ => [.edit]
  | .setHead, _ => [.edit]
  | .refreshHead, _ => [.edit]
  | .setLink, _ => [.edit]
  | .setBeat, _ => [.edit]
  | .setWatch, _ => [.edit]
  | .clearCapture, pl => if pl = [1] then [.edit] else []
  | .setPort, _ => []
  | .setNotice, _ => []
  | .clearCauses, _ => []
  | .readPosition, _ => []
  | .readCue, _ => []
  | .readText, _ => []
  | .readHead, _ => []
  | .readCauses, _ => []
  | .readCapture, _ => []
  | .listCues, _ => []
  | .sync, _ => []

/-- The command that executes a queued request of this kind on a port. -/
def ReqKind.command : ReqKind → Port → Instr
  | .openShow, p => .openShow p
  | .closeShow, p => .closeShow p
  | .go, p => .go p
  | .back, p => .back p
  | .standby, p => .standby p
  | .hold, p => .hold p
  | .release, p => .release p
  | .beat, p => .beat p
  | .claim, p => .claim p
  | .yieldRight, p => .yieldRight p
  | .setRole, p => .setRole p
  | .setPort, p => .setPort p
  | .putCue, p => .putCue p
  | .dropCue, p => .dropCue p
  | .putText, p => .putText p
  | .dropText, p => .dropText p
  | .setHead, p => .setHead p
  | .refreshHead, p => .refreshHead p
  | .setLink, p => .setLink p
  | .setBeat, p => .setBeat p
  | .setWatch, p => .setWatch p
  | .setNotice, p => .setNotice p
  | .readPosition, p => .readPosition p
  | .readCue, p => .readCue p
  | .readText, p => .readText p
  | .readHead, p => .readHead p
  | .readCauses, p => .readCauses p
  | .readCapture, p => .readCapture p
  | .listCues, p => .listCues p
  | .sync, p => .sync p
  | .clearCauses, p => .clearCauses p
  | .clearCapture, p => .clearCapture p

/-- A set of causes in a request: none where a bit that names no cause is set (R164, R165, R169). -/
def causeSetOf (b0 b1 b2 : Byte) : Option CauseSet :=
  if b2.toNat < 8 then some (BitVec.ofNat 19 (b0.toNat + 256 * b1.toNat + 65536 * b2.toNat)) else none

/-- A set of causes on the wire (R169). -/
def causeSetBytes (c : CauseSet) : List Byte := le3 c.toNat

/-! ## Display-link frames (R174) -/

def CmdBody.kind : CmdBody → CmdKind
  | .put _ _ _ _ => .put
  | .take _ _ _ => .take
  | .probe => .probe

def CmdBody.layer : CmdBody → Option Layer
  | .put l _ _ _ => some l
  | .take l _ _ => some l
  | .probe => none

def CmdBody.cue : CmdBody → Option CueNum
  | .put _ _ _ c => some c
  | .take _ _ c => c
  | .probe => none

/-- The payload of a command frame (R174). -/
def CmdBody.payload : CmdBody → List Byte
  | .put l text fade cue => [layerByte l, byteOf (fade / 10)] ++ cueBytes cue ++ text
  | .take l fade cue => [layerByte l, byteOf (fade / 10)] ++ optCueBytes cue
  | .probe => []

/-- A command frame's bytes from the address to the end of the payload (R174). -/
def Command.core (c : Command) (seq : BitVec 8) : List Byte :=
  byteOf c.head.val :: seq :: c.body.kind.code :: byteOf c.body.payload.length :: c.body.payload

/-- A command frame (R174). -/
def Command.frame (c : Command) (seq : BitVec 8) : List Byte := 0xA5#8 :: c.core seq ++ crcBytes (c.core seq)

/-- Microseconds a command's frame takes on the link: five header bytes, the payload and two CRC bytes (R107, R174). -/
def Command.micros (c : Command) : Nat := Config.linkByteMicros * (7 + c.body.payload.length)

/-- The head and the sequence number of a good acknowledgement frame: sync 0xA5, kind 0x80, length 0, good CRC
(R108, R174). -/
def ackOf : List Byte → Option (Byte × Byte)
  | [sync, addr, seq, kind, len, c0, c1] =>
    if sync = 0xA5 ∧ kind = 0x80 ∧ len = 0 ∧ [c0, c1] = crcBytes [addr, seq, kind, len] then some (addr, seq) else none
  | _ => none

end Sys2Proof.Machine
end

