-- ==== Sys2Proof/Machine/Access.lean ====
section
/-! DEFINITION. The named reads and updates of the state: one update for each block, one home for each port, head, slot and
group-layer record. Every meaning reads and writes through these. -/

namespace Sys2Proof.Machine

/-- The heads in ascending address order (R82). -/
def allHeads : List HeadId := [0, 1, 2, 3, 4, 5, 6, 7, 8, 9, 10, 11, 12, 13, 14, 15]

/-- The groups in ascending order (R31). -/
def allGroups : List GroupId := [0, 1, 2, 3, 4, 5, 6, 7]

/-- The ports in order. -/
def allPorts : List Port := [.A, .B, .C]

/-! ## One update for each block -/

def State.withTime (s : State) (x : Nat) : State := { s with cardTime := x }
def State.withStraps (s : State) (x : Straps) : State := { s with straps := x }
def State.withCues (s : State) (x : List CueRec) : State := { s with cues := x }
def State.withTexts (s : State) (x : List TextRec) : State := { s with texts := x }
def State.withEngine (s : State) (x : ShowEngine) : State := { s with engine := x }
def State.withRun (s : State) (x : RunQueue) : State := { s with run := x }
def State.withBeat (s : State) (x : BeatUnit) : State := { s with beat := x }
def State.withHeads (s : State) (x : Vector Head 16) : State := { s with heads := x }
def State.withLink (s : State) (x : LinkController) : State := { s with link := x }
def State.withArbiter (s : State) (x : CallArbiter) : State := { s with arbiter := x }
def State.withWatch (s : State) (x : WatchUnit) : State := { s with watch := x }
def State.withPorts (s : State) (x : PerPort PortUnit) : State := { s with ports := x }
def State.withPending (s : State) (x : List Instr) : State := { s with pending := x }
def State.withDue (s : State) (x : List Instr) : State := { s with due := x }
def State.withChoices (s : State) (x : Nat) : State := { s with choices := x }

/-! ## Ports -/

/-- Port p's Port Unit. -/
def State.port (s : State) (p : Port) : PortUnit := s.ports.get p

/-- Change port p's Port Unit alone. -/
def State.onPort (s : State) (p : Port) (f : PortUnit → PortUnit) : State :=
  s.withPorts (s.ports.set p (f (s.ports.get p)))

/-- Change every Port Unit, each by itself. -/
def State.onPorts (s : State) (f : PortUnit → PortUnit) : State :=
  s.withPorts { a := f s.ports.a, b := f s.ports.b, c := f s.ports.c }

/-! ## Heads and slots -/

/-- Head h's entry of the head table (R77). -/
def State.head (s : State) (h : HeadId) : Head := s.heads.get h

/-- Write head h's entry. -/
def State.setHead (s : State) (h : HeadId) (x : Head) : State := s.withHeads (s.heads.set h.val x h.isLt)

/-- A head's slot on a layer (R80). -/
def Head.slot (x : Head) : Layer → Slot
  | .base => x.baseSlot
  | .overlay => x.overSlot

/-- Write a head's slot on a layer. -/
def Head.setSlot (x : Head) (l : Layer) (y : Slot) : Head :=
  match l with
  | .base => { x with baseSlot := y }
  | .overlay => { x with overSlot := y }

/-- An enabled head is one in PROBING, ONLINE or FAULT (4.6). -/
def Head.enabled (x : Head) : Bool := decide (x.state ≠ .absent)

/-- The text ids a slot's shown and next parts name (R6). -/
def Slot.names : Slot → List Nat
  | .dark => []
  | .rising p _ => [p.text]
  | .lit p => [p.text]
  | .falling p none _ => [p.text]
  | .falling p (some n) _ => [p.text, n.text]

/-! ## The group-layer table -/

/-- The record of a group-layer (R48). -/
def RunQueue.table (r : RunQueue) (g : GroupId) : Layer → GroupLayer
  | .base => r.baseTable.get g
  | .overlay => r.overTable.get g

/-- Write the record of a group-layer. -/
def RunQueue.setTable (r : RunQueue) (g : GroupId) (l : Layer) (x : GroupLayer) : RunQueue :=
  match l with
  | .base => { r with baseTable := r.baseTable.set g.val x g.isLt }
  | .overlay => { r with overTable := r.overTable.set g.val x g.isLt }

/-- Every group-layer, in the order G0 BASE, G0 OVER, G1 BASE and so on (R62). -/
def allGroupLayers : List (GroupId × Layer) := allGroups.flatMap (fun g => [(g, .base), (g, .overlay)])

end Sys2Proof.Machine
end

