-- ==== Sys2Proof/Machine/Flags.lean ====
section
/-! DEFINITION. The flag computations of the card: the cause sets of the ports and the notices made from them (R161 to
R163), the refusal capture (R145), and the watches' match flags and condition (R156, R157). -/

namespace Sys2Proof.Machine

/-! ## Cause sets -/

/-- The cause is in the set. -/
def hasCause (c : CauseSet) (x : Cause) : Bool := c.getLsbD x.code

/-- The set with the cause in it. -/
def addCause (c : CauseSet) (x : Cause) : CauseSet := c ||| (1#19 <<< x.code)

/-- Every cause, in code order. -/
def Cause.all : List Cause :=
  [.fired, .held, .released, .opened, .closed, .endReached, .callGranted, .callLost, .overrun, .skipped, .headFault,
   .headOnline, .outOfStep, .beatReject, .watch, .lineError, .refusal, .locked, .busy]

/-- The pending set with this raise in it: in place of an earlier raise of the same cause, else at its place by code. -/
def putRaise (r : Raise) : List Raise → List Raise
  | [] => [r]
  | x :: xs =>
    if x.cause = r.cause then r :: xs
    else if r.cause.code < x.cause.code then r :: x :: xs
    else x :: putRaise r xs

/-- The cause is pending on the port (R162). -/
def PortUnit.isPending (u : PortUnit) (x : Cause) : Bool := u.pending.any (fun r => decide (r.cause = x))

/-- The pending set as a set of causes. -/
def PortUnit.pendingSet (u : PortUnit) : CauseSet := u.pending.foldl (fun c r => addCause c r.cause) 0

/-- The frame is a NOTICE of this cause. -/
def OutFrame.noticeOf (x : Cause) : OutFrame → Bool
  | .notice r => decide (r.cause = x)
  | .answer _ _ _ _ => false

/-- A NOTICE of this raise in the outgoing list (R163): a waiting NOTICE of the same cause takes the new detail and keeps its
place; else a new NOTICE joins behind the frames already made. -/
def putNotice (r : Raise) (out : List OutFrame) : List OutFrame :=
  if out.any (OutFrame.noticeOf r.cause) then
    out.map (fun f => if f.noticeOf r.cause then .notice r else f)
  else out ++ [.notice r]

/-- A cause raised on one port (R162, R163). -/
def PortUnit.raise (u : PortUnit) (r : Raise) : PortUnit :=
  { u with
    repeats := if u.isPending r.cause then addCause u.repeats r.cause else u.repeats
    pending := putRaise r u.pending
    outgoing := if hasCause u.enabled r.cause then putNotice r u.outgoing else u.outgoing }

/-- A cause of the CALL or PORT group, raised on the port concerned alone (R161). -/
def State.raiseOn (s : State) (p : Port) (r : Raise) : State := s.onPort p (fun u => u.raise r)

/-- A cause of the SHOW, SCREEN or TIMING group, raised on all three ports (R161). -/
def State.raiseAll (s : State) (r : Raise) : State := s.onPorts (fun u => u.raise r)

/-! ## The refusal capture -/

/-- The refusal capture after one more refusal: filled if empty, else marked "more" (R145). -/
def noteRefusal (cap : Option RefusalCapture) (tag kind : Byte) (st : Status) : Option RefusalCapture :=
  match cap with
  | none => some { tag := tag, kind := kind, status := st, more := false }
  | some c => some { c with more := true }

/-! ## The link capture -/

/-- The link capture after one more failure: filled if empty, else marked "more" (R115). -/
def noteFailure (cap : Option LinkCapture) (h : HeadId) (b : CmdBody) (attempts : Nat) : Option LinkCapture :=
  match cap with
  | none => some { head := h, kind := b.kind, layer := b.layer, attempts := attempts, cue := b.cue, more := false }
  | some c => some { c with more := true }

/-! ## Watches -/

/-- A watch compares a fired cue number (the table of R156). -/
def Watch.compares (w : Watch) (n : CueNum) : Bool :=
  match w.type with
  | .off => false
  | .equal => decide (n = w.value)
  | .below => n.lt w.value
  | .atOrAbove => !n.lt w.value

/-- A match sets the watch's flag, a non-match leaves it (R156). -/
def Watch.note (w : Watch) (n : CueNum) : Watch := { w with matched := w.matched || w.compares n }

/-- The two results combined (R157): under AND a watch of type OFF is left out. -/
def WatchUnit.condition (w : WatchUnit) (n : CueNum) : Bool :=
  match w.combine with
  | .or => w.w0.compares n || w.w1.compares n
  | .and =>
    if w.w0.type = .off then w.w1.compares n
    else if w.w1.type = .off then w.w0.compares n
    else w.w0.compares n && w.w1.compares n

/-- The Watch Unit after a firing: match flags set, and the line driven unless silent (R156, R157). -/
def WatchUnit.afterFiring (w : WatchUnit) (n : CueNum) : WatchUnit :=
  { w with w0 := w.w0.note n, w1 := w.w1.note n, line := if w.silent then w.line else w.condition n }

/-- The Watch Unit's part of a firing (R156, R157). -/
def State.compareWatches (s : State) (n : CueNum) : State :=
  let t := s.withWatch (s.watch.afterFiring n)
  if s.watch.condition n then t.raiseAll (.watch n (s.watch.w0.compares n) (s.watch.w1.compares n)) else t

end Sys2Proof.Machine
end

