-- ==== Sys2Proof/Machine/Ops.lean ====
section
/-! DEFINITION. The operations the commands share: the cue table and the text store, the command queue of the display link,
layer slots and refreshes, the call right, the Run Queue and the firing procedure, and beats. Each follows the rules its
docstring names. -/

namespace Sys2Proof.Machine

/-! ## The cue table (R1) -/

/-- The record with this number. -/
def findCue (cues : List CueRec) (n : CueNum) : Option CueRec := cues.find? (fun c => decide (c.num = n))

/-- The cue with the smallest number (R1). -/
def firstCue (cues : List CueRec) : Option CueRec := cues.head?

/-- The next cue after n: the record with the smallest number greater than n (R1). -/
def cueAfter (cues : List CueRec) (n : CueNum) : Option CueRec := cues.find? (fun c => n.lt c.num)

/-- The record with the smallest number not less than n (R151). -/
def cueFrom (cues : List CueRec) (n : CueNum) : Option CueRec := cues.find? (fun c => !c.num.lt n)

/-- The cue before n: the record with the largest number less than n (R1). -/
def cueBefore (cues : List CueRec) (n : CueNum) : Option CueRec := (cues.filter (fun c => c.num.lt n)).getLast?

/-- Put a record at its place in the order, in place of one with its number (R1, R10). -/
def putCueRec (c : CueRec) : List CueRec → List CueRec
  | [] => [c]
  | x :: xs => if x.num = c.num then c :: xs else if c.num.lt x.num then c :: x :: xs else x :: putCueRec c xs

/-- The table without the record of this number (R11). -/
def dropCueRec (n : CueNum) (cues : List CueRec) : List CueRec := cues.filter (fun c => decide (c.num ≠ n))

/-- The canonical form of the cue table: strictly ascending numbers, so no two records share one (R1). -/
def cuesAscending (cues : List CueRec) : Bool := decide (cues.Pairwise (fun a b => a.num.lt b.num = true))

/-- The read floor of a cue, in ms; 0 for a MARK, which has none (R53). -/
def CueBody.floor : CueBody → Nat
  | .title _ _ _ _ _ fl => fl
  | .clear _ _ fl => fl
  | .mark => 0

/-- The group-layers a cue affects: groups ascending, and within a group BASE before OVER (R31). -/
def CueBody.groupLayers : CueBody → List (GroupId × Layer)
  | .title l g _ _ _ _ => (allGroups.filter (fun x => g.getLsbD x.val)).map (fun x => (x, l))
  | .clear (some l) g _ => (allGroups.filter (fun x => g.getLsbD x.val)).map (fun x => (x, l))
  | .clear none g _ =>
    (allGroups.filter (fun x => g.getLsbD x.val)).flatMap (fun x => [(x, .base), (x, .overlay)])
  | .mark => []

/-- The text ids a cue's entries name (R6). -/
def CueRec.names (c : CueRec) : List Nat := c.body.texts.map TextEntry.text

/-! ## The text store (R4 to R7) -/

/-- The record with this id. -/
def findText (texts : List TextRec) (i : Nat) : Option TextRec := texts.find? (fun t => decide (t.id = i))

/-- The bytes of the record with this id; a slot or a cue names present records only (R8). -/
def textBytes (texts : List TextRec) (i : Nat) : List Byte :=
  match findText texts i with
  | some t => t.bytes
  | none => []

/-- The byte total (R5). -/
def byteTotal (texts : List TextRec) : Nat := (texts.map (fun t => t.bytes.length)).sum

/-- The line count: the number of 0x0A bytes plus one (R4). -/
def lineCount (bytes : List Byte) : Nat := bytes.count 0x0A + 1

/-- Put a text at its place by id: a new record has count 0, a replaced one keeps its count (R14). -/
def putTextRec (i : Nat) (bytes : List Byte) : List TextRec → List TextRec
  | [] => [{ id := i, bytes := bytes, refs := 0 }]
  | x :: xs =>
    if x.id = i then { x with bytes := bytes } :: xs
    else if i < x.id then { id := i, bytes := bytes, refs := 0 } :: x :: xs
    else x :: putTextRec i bytes xs

/-- The store without the record of this id (R15). -/
def dropTextRec (i : Nat) (texts : List TextRec) : List TextRec := texts.filter (fun t => decide (t.id ≠ i))

/-- The canonical form of the text store: strictly ascending ids, so one record to an id (R4). -/
def textsAscending (texts : List TextRec) : Bool := decide (texts.Pairwise (fun a b => a.id < b.id))

/-- The reference counts after these names are added: one each (R6). -/
def addNames (names : List Nat) (texts : List TextRec) : List TextRec :=
  texts.map (fun t => { t with refs := t.refs + names.count t.id })

/-- The reference counts after these names have gone: one each (R6). -/
def removeNames (names : List Nat) (texts : List TextRec) : List TextRec :=
  texts.map (fun t => { t with refs := t.refs - names.count t.id })

/-- The text stands on a screen: a shown or next part of some slot names it (R16). -/
def State.onScreen (s : State) (i : Nat) : Bool :=
  allHeads.any (fun h => (s.head h).baseSlot.names.contains i || (s.head h).overSlot.names.contains i)

/-- The Run Queue entry names the cue (R12). -/
def RunEntry.cue : RunEntry → CueNum
  | .follow c _ _ _ => c
  | .deferred _ _ c _ => c

/-- A cue number in use by the show: current, standby or named by a Run Queue entry (R12). -/
def State.cueInUse (s : State) (n : CueNum) : Bool :=
  decide (s.engine.current = some n) || decide (s.engine.standby = some n) ||
    s.run.entries.any (fun e => decide (e.cue = n))

/-! ## The command queue (R102 to R106) -/

/-- Join the queue as the newest command (R102). -/
def State.enqueue (s : State) (h : HeadId) (b : CmdBody) : State :=
  s.withLink { s.link with
    queue := s.link.queue ++ [{ id := s.link.nextId, head := h, body := b, seq := none }]
    nextId := s.link.nextId + 1 }

/-- With no command in flight and the queue not empty, the oldest command takes the next sequence number and its first
attempt begins (R106). -/
def State.startLink (s : State) : State :=
  match s.link.phase, s.link.queue with
  | .none, c :: cs =>
    s.withLink { s.link with
      queue := { c with seq := some s.link.nextSeq } :: cs
      nextSeq := s.link.nextSeq + 1
      attempts := 1
      phase := .sending c.micros false }
  | _, _ => s

/-- A command for the head was dropped: the head is out of step, and OUT_OF_STEP is raised if it was not (R104). -/
def State.markOutOfStep (s : State) (h : HeadId) : State :=
  if (s.head h).outOfStep then s
  else (s.setHead h { s.head h with outOfStep := true }).raiseAll (.outOfStep h)

/-- Clear the head's out-of-step flag. -/
def State.clearOutOfStep (s : State) (h : HeadId) : State := s.setHead h { s.head h with outOfStep := false }

/-- What a slot transition asks of the Link Controller (R87). -/
inductive Ask where
  | put (part : TextPart)
  | take (fade : Nat) (cue : Option CueNum)
deriving DecidableEq, Repr

/-- The command an ask makes; the bytes of a PUT are copied now (R87, R101). -/
def Ask.body (a : Ask) (l : Layer) (texts : List TextRec) : CmdBody :=
  match a with
  | .put part => .put l (textBytes texts part.text) part.fadeIn part.cue
  | .take fade cue => .take l fade cue

/-- A PUT or TAKE asked for a head by a slot transition: queued for an ONLINE head in step with room in the queue, dropped
with the head marked out of step where there is no room, dropped silently while the head is out of step, and without
effect for a head that is not ONLINE (R87, R102, R104). -/
def State.ask (s : State) (h : HeadId) (l : Layer) (a : Ask) : State :=
  if (s.head h).state ≠ .online then s
  else if (s.head h).outOfStep then s
  else if s.link.queue.length < Config.maxCommands then (s.enqueue h (a.body l s.texts)).startLink
  else s.markOutOfStep h

/-- A PROBE asked for a PROBING head (R93, R96, R102, R104). -/
def State.askProbe (s : State) (h : HeadId) : State :=
  if s.link.queue.length < Config.maxCommands then (s.enqueue h .probe).startLink else s.markOutOfStep h

/-- The refresh target of a slot (R90). -/
def Slot.target : Slot → Option TextPart
  | .dark => none
  | .rising p _ => some p
  | .lit p => some p
  | .falling _ n _ => n

/-- The command a refresh carries for a layer: a PUT of the target with fade 0, else a TAKE with fade 0 and no cue (R91). -/
def refreshBody (x : Slot) (l : Layer) (texts : List TextRec) : CmdBody :=
  match x.target with
  | some part => .put l (textBytes texts part.text) 0 part.cue
  | none => .take l 0 none

/-- A refresh asked for a head: for an ONLINE head with two free places it joins whole and clears the out-of-step flag; where
it does not fit the head is out of step; a head that is not ONLINE takes none (R103, R104). The in-flight command is
started by the caller. -/
def State.queueRefresh (s : State) (h : HeadId) : State :=
  if (s.head h).state ≠ .online then s
  else if s.link.queue.length + 2 ≤ Config.maxCommands then
    ((s.clearOutOfStep h).enqueue h (refreshBody (s.head h).baseSlot .base s.texts)).enqueue h
      (refreshBody (s.head h).overSlot .overlay s.texts)
  else s.markOutOfStep h

/-- The catch-up of one head (R105). -/
def State.catchUpHead (s : State) (h : HeadId) : State :=
  if (s.head h).outOfStep then
    match (s.head h).state with
    | .online => s.queueRefresh h
    | .probing => (s.clearOutOfStep h).enqueue h .probe
    | .absent => s
    | .fault => s
  else s

/-- After commands have left: with 16 commands or fewer in the queue, the out-of-step heads are caught up in ascending
address order (R105). -/
def State.catchUp (s : State) : State :=
  if s.link.queue.length ≤ Config.catchUpLevel then allHeads.foldl State.catchUpHead s else s

/-- A waiting SYNC after these commands have left, acknowledged or not (R118, R150). -/
def SyncWait.leave (w : SyncWait) (ids : List Nat) (acked : Bool) : SyncWait :=
  { w with
    waiting := w.waiting.filter (fun i => !ids.contains i)
    unacked := if acked then w.unacked else w.unacked + (w.waiting.filter (fun i => ids.contains i)).length }

/-- Tell every port with a SYNC waiting which commands have left (R118). -/
def State.commandsLeft (s : State) (ids : List Nat) (acked : Bool) : State :=
  s.onPorts (fun u => { u with sync := u.sync.map (fun w => w.leave ids acked) })

/-- Commands leave the queue: the queue that is left, the phase after, and the ports told (R109, R113, R117). The attempt
count becomes 0. -/
def State.takeOut (s : State) (rest : List Command) (phase : LinkPhase) (ids : List Nat) (acked : Bool) : State :=
  (s.withLink { s.link with queue := rest, phase := phase, attempts := 0 }).commandsLeft ids acked

/-- The last step of every leaving: the catch-up, then the oldest command starts (R105, R106). -/
def State.afterLeaving (s : State) : State := s.catchUp.startLink

/-- An acknowledged PROBE at the Screen Image Unit (R97): a head still PROBING becomes ONLINE, HEAD_ONLINE is raised and a
refresh is asked for. -/
def State.probeAnswered (s : State) (h : HeadId) : State :=
  if (s.head h).state = .probing then
    ((s.setHead h { s.head h with state := .online }).raiseAll (.headOnline h)).queueRefresh h
  else s

/-- The in-flight command leaves acknowledged (R109). -/
def State.acknowledged (s : State) (c : Command) (rest : List Command) : State :=
  let t := s.takeOut rest .none [c.id] true
  (if c.body.kind = .probe then t.probeAnswered c.head else t).afterLeaving

/-- A failed command at the Screen Image Unit: an ONLINE head whose PUT or TAKE failed, or a PROBING head whose PROBE
failed, becomes FAULT; leaving ONLINE clears the out-of-step flag (R97, R79). -/
def State.headFailed (s : State) (h : HeadId) (k : CmdKind) : State :=
  match k, (s.head h).state with
  | .probe, .probing => s.setHead h { s.head h with state := .fault }
  | .put, .online => s.setHead h { s.head h with state := .fault, outOfStep := false }
  | .take, .online => s.setHead h { s.head h with state := .fault, outOfStep := false }
  | _, _ => s

/-- The commands that go with a failed one: the head's others for a PUT or TAKE, none for a PROBE (R113, R114). -/
def alsoRemoved (c : Command) (rest : List Command) : List Command :=
  if c.body.kind = .probe then [] else rest.filter (fun d => decide (d.head = c.head))

/-- The commands that stay when one fails (R113, R114). -/
def stillQueued (c : Command) (rest : List Command) : List Command :=
  if c.body.kind = .probe then rest else rest.filter (fun d => decide (d.head ≠ c.head))

/-- The in-flight command fails (R113, R114): its head is FAULT, the head's other commands go, the link capture is filled or
marked, HEAD_FAULT is raised, the link is free again and goes on. -/
def State.failCommand (s : State) (c : Command) (rest : List Command) : State :=
  let n := s.link.attempts
  let t := (s.headFailed c.head c.body.kind).takeOut (stillQueued c rest) .none
    (c.id :: (alsoRemoved c rest).map Command.id) false
  ((t.withLink { t.link with capture := noteFailure t.link.capture c.head c.body n }).raiseAll
    (.headFault c.head c.body.kind n)).afterLeaving

/-- The in-flight command is used up: under a limit of L from 1 to 15 once its attempts have reached L + 1, under a limit of
0 never (R110). -/
def LinkController.usedUp (k : LinkController) : Bool :=
  decide (k.retryLimit ≠ 0 ∧ k.retryLimit + 1 ≤ k.attempts)

/-- The hold-off has ended: the command fails if it is used up now, else it is sent again with the attempt count one higher,
stopping at 65,535 (R100, R110). -/
def State.holdOffOver (s : State) : State :=
  match s.link.queue with
  | [] => s
  | c :: rest =>
    if s.link.usedUp then s.failCommand c rest
    else s.withLink { s.link with
      attempts := min Config.maxAttempts (s.link.attempts + 1)
      phase := .sending c.micros false }

/-- The ack window has closed on a timeout (R110): used up, the command fails at once; else the hold-off runs, and one of
0 ms ends at once. -/
def State.windowClosed (s : State) : State :=
  match s.link.queue with
  | [] => s
  | c :: rest =>
    if s.link.usedUp then s.failCommand c rest
    else if s.link.holdOff = 0 then s.holdOffOver
    else s.withLink { s.link with phase := .holding s.link.holdOff }

/-- The commands of a disabled head that wait behind the in-flight command go; the in-flight command is abandoned if it is
the head's, its frame running out as a tail in SENDING (R117). -/
def State.dropHeadCommands (s : State) (h : HeadId) : State :=
  let mine := fun (d : Command) => decide (d.head = h)
  let gone := (s.link.queue.filter mine).map Command.id
  let rest := s.link.queue.filter (fun d => !mine d)
  let inFlight := match s.link.phase, s.link.queue with
    | .sending _ false, c :: _ => mine c
    | .waiting _, c :: _ => mine c
    | .holding _, c :: _ => mine c
    | _, _ => false
  if gone = [] then s
  else if inFlight then
    (s.takeOut rest (match s.link.phase with | .sending n _ => .sending n true | _ => .none) gone false).afterLeaving
  else ((s.withLink { s.link with queue := rest }).commandsLeft gone false).afterLeaving

/-! ## Layer slots (R84 to R89) -/

/-- What a put, a clear or a fade end does to a slot: the slot after it, the commands asked for in order, and the cue of a
next part that was displaced (R84 to R88). -/
structure SlotMove where
  slot : Slot
  asks : List Ask
  displaced : Option CueNum
deriving DecidableEq, Repr

/-- A rise begins; one of 0 ms ends at once (R81). -/
def rise (p : TextPart) : Slot := if p.fadeIn = 0 then .lit p else .rising p p.fadeIn

/-- The fade end of a slot (R86). -/
def Slot.fadeEnd : Slot → SlotMove
  | .rising p _ => { slot := .lit p, asks := [], displaced := none }
  | .falling _ (some n) _ => { slot := rise n, asks := [.put n], displaced := none }
  | .falling _ none _ => { slot := .dark, asks := [], displaced := none }
  | .lit p => { slot := .lit p, asks := [], displaced := none }
  | .dark => { slot := .dark, asks := [], displaced := none }

/-- A shown text starts to fall over its full fade-out, with or without a text to follow; a fall of 0 ms ends at once
(R81, R84, R85). `cue` is the cue the TAKE carries (R87). -/
def startFall (shown : TextPart) (next : Option TextPart) (cue : Option CueNum) : SlotMove :=
  if shown.fadeOut = 0 then
    let e := Slot.fadeEnd (.falling shown next 0)
    { e with asks := .take 0 cue :: e.asks }
  else { slot := .falling shown next shown.fadeOut, asks := [.take shown.fadeOut cue], displaced := none }

/-- A put of a text part into a slot (R84). -/
def Slot.put (x : Slot) (t : TextPart) : SlotMove :=
  match x with
  | .dark => { slot := rise t, asks := [.put t], displaced := none }
  | .rising p _ => startFall p (some t) (some t.cue)
  | .lit p => startFall p (some t) (some t.cue)
  | .falling p n f => { slot := .falling p (some t) f, asks := [], displaced := n.map TextPart.cue }

/-- A clear into a slot, carrying a cue or none (R85). -/
def Slot.clear (x : Slot) (cue : Option CueNum) : SlotMove :=
  match x with
  | .dark => { slot := .dark, asks := [], displaced := none }
  | .rising p _ => startFall p none cue
  | .lit p => startFall p none cue
  | .falling p n f => { slot := .falling p none f, asks := [], displaced := n.map TextPart.cue }

/-- Write a slot and move the reference counts of the texts it names (R7, R89). -/
def State.writeSlot (s : State) (h : HeadId) (l : Layer) (x : Slot) : State :=
  (s.setHead h ((s.head h).setSlot l x)).withTexts
    (removeNames ((s.head h).slot l).names (addNames x.names s.texts))

/-- Carry out a slot's move whole: the slot and its counts, its commands asked for, its OVERRUN raised (R82, R87, R88). -/
def State.moveSlot (s : State) (h : HeadId) (l : Layer) (m : SlotMove) : State :=
  let t := m.asks.foldl (fun t a => t.ask h l a) (s.writeSlot h l m.slot)
  match m.displaced with
  | some c => t.raiseAll (.overrun h l c)
  | none => t

/-- A change for one head and one layer (R82). -/
inductive Change where
  | put (part : TextPart)
  | clear (cue : Option CueNum)
deriving DecidableEq, Repr

/-- A slot takes a change by the transition rules (R84, R85). -/
def State.change (s : State) (h : HeadId) (l : Layer) (c : Change) : State :=
  match c with
  | .put t => s.moveSlot h l (((s.head h).slot l).put t)
  | .clear cue => s.moveSlot h l (((s.head h).slot l).clear cue)

/-- The change a cue makes on one head: the text of the head's language; without one a clear under BLANK and nothing under
KEEP; a clear for a CLEAR cue (R82, R83). -/
def CueRec.changeFor (c : CueRec) (x : Head) : Option Change :=
  match c.body with
  | .title _ _ texts fadeIn fadeOut _ =>
    match texts.find? (fun e => decide (e.lang = x.lang)) with
    | some e => some (.put { text := e.text, fadeIn := fadeIn, fadeOut := fadeOut, cue := c.num })
    | none => match x.gap with
      | .blank => some (.clear (some c.num))
      | .keep => none
  | .clear _ _ _ => some (.clear (some c.num))
  | .mark => none

/-- One head takes a cue's change if it is enabled and in the group (R82). -/
def State.changeHead (s : State) (c : CueRec) (g : GroupId) (l : Layer) (h : HeadId) : State :=
  if (s.head h).enabled = true ∧ (s.head h).group = g then
    match c.changeFor (s.head h) with
    | some ch => s.change h l ch
    | none => s
  else s

/-- A head's slots go DARK at once and its state becomes ABSENT; the counts of the texts named fall (R94). -/
def State.darken (s : State) (h : HeadId) : State :=
  let t := (s.writeSlot h .base .dark).writeSlot h .overlay .dark
  t.setHead h { t.head h with state := .absent, outOfStep := false }

/-! ## The Run Queue (R46 to R57) -/

/-- The entry is the FOLLOW entry. -/
def RunEntry.isFollow : RunEntry → Bool
  | .follow _ _ _ _ => true
  | .deferred _ _ _ _ => false

/-- The entry waits on this group-layer. -/
def RunEntry.waitsOn (g : GroupId) (l : Layer) : RunEntry → Bool
  | .follow _ _ _ _ => false
  | .deferred g' l' _ _ => decide (g' = g ∧ l' = l)

/-- Remove the FOLLOW entry, if there is one. -/
def RunQueue.dropFollow (r : RunQueue) : RunQueue := { r with entries := r.entries.filter (fun e => !e.isFollow) }

/-- Remove the DEFERRED entry of a group-layer, if there is one. -/
def RunQueue.dropDeferred (r : RunQueue) (g : GroupId) (l : Layer) : RunQueue :=
  { r with entries := r.entries.filter (fun e => !e.waitsOn g l) }

/-- The FOLLOW entry for a new standby cue: made for an automatic trigger, with both counts at its delay (R30, R47). -/
def followFor (c : CueRec) : Option RunEntry :=
  match c.trigger with
  | .manual => none
  | .afterTime ms => some (.follow c.num .time ms ms)
  | .afterBeats n => some (.follow c.num .beats n n)

/-- Apply a cue's change to a group-layer (R53): its owner and its floor, then every enabled head of the group in ascending
address order. -/
def State.applyChange (s : State) (g : GroupId) (l : Layer) (n : CueNum) : State :=
  match findCue s.cues n with
  | some c =>
    allHeads.foldl (fun t h => t.changeHead c g l h)
      (s.withRun (s.run.setTable g l { owner := some n, floor := c.body.floor }))
  | none => s

/-- Replace a waiting entry in place: the new change's cue and origin (R54). -/
def replaceDeferred (g : GroupId) (l : Layer) (n : CueNum) (o : Origin) (es : List RunEntry) : List RunEntry :=
  es.map (fun e => if e.waitsOn g l then .deferred g l n o else e)

/-- Offer a change to a group-layer: applied at once at floor 0, else deferred, in place of a waiting entry with SKIPPED
raised (R53, R54). -/
def State.offer (s : State) (n : CueNum) (o : Origin) (g : GroupId) (l : Layer) : State :=
  if (s.run.table g l).floor = 0 then s.applyChange g l n
  else match s.run.entries.find? (fun e => e.waitsOn g l) with
    | some e =>
      (s.withRun { s.run with entries := replaceDeferred g l n o s.run.entries }).raiseAll (.skipped g l e.cue)
    | none => s.withRun { s.run with entries := s.run.entries ++ [.deferred g l n o] }

/-- A recalled cue's change: a waiting entry is discarded and the change applied whatever floor remains (R36, R57). -/
def State.recall (s : State) (n : CueNum) (g : GroupId) (l : Layer) : State :=
  (s.withRun (s.run.dropDeferred g l)).applyChange g l n

/-! ## The firing procedure (R29 to R32, R36) -/

/-- A firing moves the show position (R29). -/
def State.movePosition (s : State) (n : CueNum) : State :=
  s.withEngine { s.engine with
    current := some n
    standby := (cueAfter s.cues n).map CueRec.num
    state := if s.engine.state = .ready then .running else s.engine.state }

/-- A firing sets the FOLLOW entry: any old one goes, and one is made for an automatic standby, but never by a BACK
(R30, R36). -/
def State.setFollow (s : State) (k : FiringKind) : State :=
  let r := s.run.dropFollow
  let made := match k, s.engine.standby with
    | .back, _ => none
    | _, some n => (findCue s.cues n).bind followFor
    | _, none => none
  s.withRun { r with entries := r.entries ++ made.toList }

/-- A firing offers its changes, one group-layer at a time (R31); a BACK has them applied at once (R36). -/
def State.offerChanges (s : State) (n : CueNum) (o : Origin) (k : FiringKind) : State :=
  match findCue s.cues n with
  | some c =>
    c.body.groupLayers.foldl
      (fun t gl => if k = .back then t.recall n gl.1 gl.2 else t.offer n o gl.1 gl.2) s
  | none => s

/-- A firing completes: watches, FIRED, and END_REACHED where no standby is left (R32). -/
def State.completeFiring (s : State) (n : CueNum) (o : Origin) (k : FiringKind) : State :=
  let t := (s.compareWatches n).raiseAll (.fired n o k)
  if t.engine.standby = none then t.raiseAll (.endReached n) else t

/-- The firing procedure: what a GO, a BACK and a follow expiry all do (R29 to R32). -/
def State.fire (s : State) (n : CueNum) (o : Origin) (k : FiringKind) : State :=
  (((s.movePosition n).setFollow k).offerChanges n o k).completeFiring n o k

/-- The FOLLOW entry's cue, if there is one. -/
def RunQueue.followCue (r : RunQueue) : Option CueNum := (r.entries.find? RunEntry.isFollow).map RunEntry.cue

/-- The expiry of the FOLLOW entry: it is removed and its cue fires with origin AUTO and kind FOLLOW (R34, R51). -/
def State.expire (s : State) : State :=
  match s.run.followCue with
  | some n => (s.withRun s.run.dropFollow).fire n .auto .follow
  | none => s

/-! ## Beats (R65 to R71) -/

/-- The outcome of a beat (4.3); a counted beat carries the BEATS count left, if there is such a countdown (R72). -/
inductive BeatResult where
  | ignored
  | rejected (since : Nat)
  | settling
  | counted (left : Option Nat)
deriving DecidableEq, Repr

/-- The remaining count of a BEATS countdown, if there is one. -/
def RunQueue.beatsLeft (r : RunQueue) : Option Nat :=
  r.entries.findSome? (fun e => match e with | .follow _ .beats _ n => some n | _ => none)

/-- Write the remaining count of the BEATS countdown as a function of its full and remaining counts. -/
def RunQueue.setBeats (r : RunQueue) (f : Nat → Nat → Nat) : RunQueue :=
  { r with entries := r.entries.map (fun e => match e with
      | .follow c .beats full n => .follow c .beats full (f full n)
      | e => e) }

/-- A counted beat at the Run Queue (R49, R51): a BEATS countdown loses one and expires at 0. -/
def State.countBeat (s : State) : State :=
  match s.run.beatsLeft with
  | none => s
  | some n => if n ≤ 1 then s.expire else s.withRun (s.run.setBeats (fun _ m => m - 1))

/-- The card time of this beat is inside the guard after the last accepted one (R68). -/
def BeatUnit.insideGuard (b : BeatUnit) (now : Nat) : Option Nat :=
  match b.lastAccepted with
  | some t => if now - t < b.guard then some (now - t) else none
  | none => none

/-- What becomes of a beat (R67 to R71). -/
def State.beatResult (s : State) : BeatResult :=
  if s.engine.state ≠ .running then .ignored
  else match s.beat.insideGuard s.cardTime with
    | some d => .rejected d
    | none => if s.beat.settling then .settling else .counted (s.run.beatsLeft.map (· - 1))

/-- A beat from a source is taken whole: the gate, the guard, the settling flag, the count (R67 to R71). -/
def State.takeBeat (s : State) (src : BeatSource) : State :=
  match s.beatResult with
  | .ignored => s
  | .rejected d => s.raiseAll (.beatReject src d)
  | .settling => s.withBeat { s.beat with lastAccepted := some s.cardTime, settling := false }
  | .counted _ => (s.withBeat { s.beat with lastAccepted := some s.cardTime }).countBeat

/-- An edge to this level is of a selected kind (R66). -/
def EdgeSel.selects (e : EdgeSel) (high : Bool) : Bool :=
  match e with
  | .rising => high
  | .falling => !high
  | .both => true

/-! ## The call right (R124 to R132) -/

/-- The ring of a port. -/
def CallArbiter.ring (a : CallArbiter) (p : Port) : Ring := (a.roles.get p).ring

/-- The claim list in its order: HIGH-ring entries ahead of LOW-ring ones, and within a ring in the order they had (R124). -/
def CallArbiter.inOrder (a : CallArbiter) (ps : List Port) : List Port :=
  ps.filter (fun p => decide (a.ring p = .high)) ++ ps.filter (fun p => decide (a.ring p = .low))

/-- Pass the call right on from a port (R127): to the head of the claim list, with CALL_GRANTED, or to FREE. Where the port did
not ask for it CALL_LOST with `way` is raised on it first (R129). -/
def State.passRight (s : State) (p : Port) (way : Option CallWay) : State :=
  let next := s.arbiter.claims.head?
  let t := s.withArbiter { s.arbiter with holder := next, claims := s.arbiter.claims.tail }
  let t := match way with
    | some w => t.raiseOn p (.callLost w next)
    | none => t
  match next with
  | some q => t.raiseOn q (.callGranted .passed (some p))
  | none => t

/-- A port loses its standing at the Call Arbiter: the right is passed on if it holds it, else its list entry goes (R130,
R131, R132). -/
def State.leaveArbiter (s : State) (p : Port) (way : CallWay) : State :=
  if s.arbiter.holder = some p then s.passRight p (some way)
  else s.withArbiter { s.arbiter with claims := s.arbiter.claims.filter (fun q => decide (q ≠ p)) }

end Sys2Proof.Machine
end

