-- ==== Sys2Proof/Machine/Service.lean ====
section
/-! DEFINITION. What a Port Unit does: receive bytes and frames, queue requests, execute the oldest one through its checks,
refuse, lock, answer, list and send (08_caller_ports.md). -/

namespace Sys2Proof.Machine

/-! ## Frames made and sent (R142) -/

/-- The frame is a response, of any sort: while one waits or is being sent no request begins (R143). -/
def OutFrame.isResponse : OutFrame → Bool
  | .answer .response _ _ _ => true
  | .answer .listed _ _ _ => true
  | .answer .orphan _ _ _ => true
  | .answer .immediate _ _ _ => false
  | .notice _ => false

/-- The frame is the last response of the request at the head of the queue. -/
def OutFrame.answersOldest : OutFrame → Bool
  | .answer .response _ _ _ => true
  | .answer .listed _ _ _ => false
  | .answer .orphan _ _ _ => false
  | .answer .immediate _ _ _ => false
  | .notice _ => false

/-- The frame is an immediate answer (R142). -/
def OutFrame.isImmediate : OutFrame → Bool
  | .answer .immediate _ _ _ => true
  | .answer .response _ _ _ => false
  | .answer .listed _ _ _ => false
  | .answer .orphan _ _ _ => false
  | .notice _ => false

/-- The outgoing list, the frame being sent included (R142). -/
def PortUnit.frames (u : PortUnit) : List OutFrame := u.sending.toList ++ u.outgoing

/-- A response waits or is being sent (R143). -/
def PortUnit.responding (u : PortUnit) : Bool := u.frames.any OutFrame.isResponse

/-- Make a frame: it joins the outgoing list as its newest (R142). -/
def PortUnit.make (u : PortUnit) (f : OutFrame) : PortUnit := { u with outgoing := u.outgoing ++ [f] }

/-- The line time of a frame, in tenths of a bit time (8.2). -/
def OutFrame.lineTime (f : OutFrame) : Nat := Config.callerByteTenths * f.bytes.length

/-- A free transmit line begins the oldest frame (R142). -/
def PortUnit.startSending (u : PortUnit) : PortUnit :=
  match u.sending, u.outgoing with
  | none, f :: fs => { u with sending := some f, sendLeft := f.lineTime, outgoing := fs }
  | _, _ => u

/-- A response to a request: the request's tag and kind, the status, and what follows it (R172). -/
def responseFrame (sort : AnswerSort) (r : Request) (st : Status) (pl : List Byte) : OutFrame :=
  .answer sort r.tag r.kind (st.code :: pl)

/-- Answer a request of the port. -/
def State.respond (s : State) (p : Port) (r : Request) (st : Status) (pl : List Byte) : State :=
  s.onPort p (fun u => u.make (responseFrame .response r st pl))

/-- A SYNC whose commands have all left is answered DONE, with the number waited for and the number that left other than
acknowledged (R150). -/
def PortUnit.answerSync (u : PortUnit) : PortUnit :=
  match u.sync, u.queue with
  | some w, r :: _ =>
    if w.waiting = [] then
      ({ u with sync := none }).make (responseFrame .response r .done [byteOf w.total, byteOf w.unacked])
    else u
  | _, _ => u

/-- The end of an event: SYNCs that wait for nothing more are answered, after every other frame the event made (R142), and
each free transmit line begins its oldest frame. -/
def State.settle (s : State) : State := s.onPorts (fun u => u.answerSync.startSending)

/-! ## Execution (R143 to R146) -/

/-- The request whose turn has come on the port: the oldest, when the port is NORMAL, no response of the port waits or is being
sent, and no SYNC or listing of it is under way (R143, R147). -/
def State.turn (s : State) (p : Port) : Option Request :=
  let u := s.port p
  if u.locked = true ∨ u.responding = true ∨ u.sync.isSome = true ∨ u.listing.isSome = true then none
  else u.queue.head?

/-- What the owner of a request answers: the state after it and the DONE payload, a refusal with what follows its status, or
a state in which the request goes on. -/
inductive Verdict where
  | done (t : State) (payload : List Byte)
  | refuse (st : Status) (extra : List Byte)
  | wait (t : State)

/-- The refusals that lock (R146). -/
def Status.locks (st : Status) : Bool := decide (st = .unknown ∨ st = .form ∨ st = .role)

/-- A refusal is recorded: the capture filled or marked, and REFUSAL raised (steps 1 and 2 of R145). -/
def State.noteRefusal (s : State) (p : Port) (tag kind : Byte) (st : Status) : State :=
  (s.onPort p (fun u => { u with capture := Sys2Proof.Machine.noteRefusal u.capture tag kind st })).raiseOn p
    (.refusal tag kind st)

/-- The port becomes LOCKED: LOCKED is raised and the lock reported to the Call Arbiter (R146, R130). -/
def State.lockPort (s : State) (p : Port) (tag kind : Byte) (st : Status) : State :=
  ((s.onPort p (fun u => { u with locked := true })).raiseOn p (.locked tag kind st)).leaveArbiter p .lock

/-- A request is refused (R145): recorded, the port locked if the lock applies, and answered. -/
def State.refuse (s : State) (p : Port) (r : Request) (st : Status) (extra : List Byte) : State :=
  let t := s.noteRefusal p r.tag r.kind st
  let t := if st.locks = true ∧ (s.port p).lockPolicy = true then t.lockPort p r.tag r.kind st else t
  t.respond p r st extra

/-- The port's profile carries a flag (R122). -/
def State.hasFlag (s : State) (p : Port) (f : Flag) : Bool := (s.arbiter.roles.get p).profile.has f

/-- The checks of R144 before the owner's own: a length the kind does not allow is refused FORM, a missing flag ROLE. -/
def State.checkRequest (s : State) (k : ReqKind) (p : Port) (r : Request) : Option Status :=
  if k.lengthOk r.payload.length = false then some .form
  else if (k.needs r.payload).all (s.hasFlag p) = false then some .role
  else none

/-- Execute the request: the checks, then its owner, then its answer (R143 to R145). -/
def State.execute (s : State) (k : ReqKind) (p : Port) (owner : Port → List Byte → State → Verdict) (r : Request) : State :=
  match s.checkRequest k p r with
  | some st => s.refuse p r st []
  | none =>
    match owner p r.payload s with
    | .done t pl => t.respond p r .done pl
    | .refuse st extra => s.refuse p r st extra
    | .wait t => t

/-- The execution of the request of this kind whose turn has come on the port. Where no unmarked request of the kind has its
turn there is nothing to execute. -/
def State.serve (s : State) (k : ReqKind) (p : Port) (owner : Port → List Byte → State → Verdict) : State :=
  match s.turn p with
  | some r => if r.drop = false ∧ ReqKind.ofCode r.kind = some k then (s.execute k p owner r).settle else s
  | none => s

/-- The holder test (R123): the sending port holds the call right. -/
def State.isHolder (s : State) (p : Port) : Bool := decide (s.arbiter.holder = some p)

/-! ## Listings (R151, R152) -/

/-- The listing makes its next frame: LISTED with the record given, or its final DONE when none is left to send or none is
found. The DONE carries the frames made and whether a record stands above the last number sent. For a listing that made no
frame there is no last number sent and the manual does not say what the second field is: the model answers 0 (DESIGN CHOICE,
log entry 23). -/
def PortUnit.listNext (u : PortUnit) (next : Option CueRec) : PortUnit :=
  match u.listing, u.queue with
  | some k, r :: _ =>
    match next with
    | some c =>
      if k.left = 0 then
        ({ u with listing := none }).make (responseFrame .response r .done [byteOf k.made, 1])
      else
        ({ u with listing := some { left := k.left - 1, last := some c.num, made := k.made + 1 } }).make
          (responseFrame .listed r .listed c.bytes)
    | none => ({ u with listing := none }).make (responseFrame .response r .done [byteOf k.made, 0])
  | _, _ => u

/-- The record the running listing would send next: the smallest number above the last one sent (R151). -/
def State.nextListed (s : State) (p : Port) : Option CueRec :=
  match (s.port p).listing with
  | some k => match k.last with
    | some n => cueAfter s.cues n
    | none => none
  | none => none

/-- A good frame cuts a running listing: a final CUT response with the LISTED frames made (R152). -/
def PortUnit.cutListing (u : PortUnit) : PortUnit :=
  match u.listing, u.queue with
  | some k, r :: _ => ({ u with listing := none }).make (responseFrame .response r .cut [byteOf k.made])
  | _, _ => u

/-! ## Arrival (R138 to R141, R148) -/

/-- The port can make no further immediate answer (R142). -/
def PortUnit.immediateFull (u : PortUnit) : Bool :=
  decide (Config.maxImmediate ≤ (u.frames.filter OutFrame.isImmediate).length)

/-- An immediate answer to a frame (R142). -/
def State.answerNow (s : State) (p : Port) (tag kind : Byte) (st : Status) (pl : List Byte) : State :=
  s.onPort p (fun u => u.make (.answer .immediate tag kind (st.code :: pl)))

/-- The queued requests that have no answer yet: all, but for the oldest where its response is made (R148). -/
def PortUnit.heldCount (u : PortUnit) : Nat :=
  if u.frames.any OutFrame.answersOldest then u.queue.length - 1 else u.queue.length

/-- Mark the queued requests that have no answer yet for dropping (R148). -/
def PortUnit.markHeld (u : PortUnit) : PortUnit :=
  let mark := fun (r : Request) => { r with drop := true }
  if u.frames.any OutFrame.answersOldest then
    { u with queue := u.queue.take 1 ++ (u.queue.drop 1).map mark }
  else { u with queue := u.queue.map mark }

/-- A good UNLOCK frame, after the cut of a listing (R148). Without room for an immediate answer it is discarded and BUSY is
raised (R142); a wrong length is refused FORM without a lock; a LOCKED port becomes NORMAL, its held requests released or
marked for dropping; a NORMAL port is left as it is. -/
def State.takeUnlock (s : State) (p : Port) (tag : Byte) (payload : List Byte) : State :=
  if (s.port p).immediateFull then s.raiseOn p (.busy tag unlockCode)
  else match payload with
    | [discard] =>
      if (s.port p).locked then
        let n := (s.port p).heldCount
        let t := s.onPort p (fun u => let v := { u with locked := false }; if discard = 0 then v else v.markHeld)
        t.answerNow p tag unlockCode .done [1, byteOf n]
      else s.answerNow p tag unlockCode .done [0, 0]
    | _ => (s.noteRefusal p tag unlockCode .form).answerNow p tag unlockCode .form []

/-- A good frame at its arrival (R141): a running listing is cut; UNLOCK is taken at once; a full queue is answered BUSY, or the
frame discarded where no immediate answer has room (R142); else the frame joins the queue. -/
def State.goodFrame (s : State) (p : Port) (tag kind : Byte) (payload : List Byte) : State :=
  let s := s.onPort p PortUnit.cutListing
  if kind = unlockCode then s.takeUnlock p tag payload
  else if Config.maxRequests ≤ (s.port p).queue.length then
    if (s.port p).immediateFull then s.raiseOn p (.busy tag kind)
    else (s.answerNow p tag kind .busy []).raiseOn p (.busy tag kind)
  else s.onPort p (fun u => { u with queue := u.queue ++ [{ tag := tag, kind := kind, payload := payload, drop := false }] })

/-- A frame is discarded: the receiver hunts again and LINE_ERROR is raised on the port (R139). -/
def State.lineError (s : State) (p : Port) (why : LineCase) (tag kind : Option Byte) : State :=
  (s.onPort p (fun u => { u with receiver := .hunting })).raiseOn p (.lineError why tag kind)

/-- A complete frame is tested (R138, R139): a length above 240 and a wrong CRC discard it, else it is a good frame. The
receiver hunts again. -/
def State.frameComplete (s : State) (p : Port) (tag kind : Byte) (payload : List Byte) (crc : BitVec 16) : State :=
  if Config.maxPayload < payload.length then s.lineError p .length (some tag) (some kind)
  else if crc ≠ frameCrc tag kind payload then s.lineError p .crc (some tag) (some kind)
  else (s.onPort p (fun u => { u with receiver := .hunting })).goodFrame p tag kind payload

/-- Milliseconds from a byte to the gap timeout, as the one-millisecond clock counts them (R139, log entry 5). -/
def gapTicks : Nat := 2

/-- A byte with a good stop bit inside a frame (R138): a length byte above 240 discards the frame at once, the second CRC byte
completes it, any other byte is taken. `got` holds the bytes after the sync byte, this one included. -/
def State.frameByte (s : State) (p : Port) (got : List Byte) : State :=
  match got with
  | tag :: kind :: len :: rest =>
    if Config.maxPayload < len.toNat then s.lineError p .length (some tag) (some kind)
    else if len.toNat + 2 ≤ rest.length then
      let payload := rest.take len.toNat
      match rest.drop len.toNat with
      | lo :: hi :: _ => s.frameComplete p tag kind payload (BitVec.ofNat 16 (nat2 lo hi))
      | _ => s
    else s.onPort p (fun u => { u with receiver := .inFrame got gapTicks })
  | _ => s.onPort p (fun u => { u with receiver := .inFrame got gapTicks })

/-- One byte at the receiver (R138, R139, R140): none is taken during a break; in HUNTING only a good 0xC3 starts a frame;
inside a frame a bad byte discards the frame. -/
def State.receiveByte (s : State) (p : Port) (b : Byte) (stopGood : Bool) : State :=
  if (s.port p).inBreak then s
  else match (s.port p).receiver with
    | .hunting =>
      if stopGood = true ∧ b = 0xC3 then s.onPort p (fun u => { u with receiver := .inFrame [] gapTicks }) else s
    | .inFrame got _ =>
      if stopGood then s.frameByte p (got ++ [b]) else s.lineError p .byte got[0]? got[1]?

/-! ## The port reset (R153) -/

/-- A frame being sent goes on to its last byte; if it is a response, its request is gone (R153). -/
def OutFrame.orphaned : OutFrame → OutFrame
  | .answer .response t k pl => .answer .orphan t k pl
  | .answer .listed t k pl => .answer .orphan t k pl
  | .answer .orphan t k pl => .answer .orphan t k pl
  | .answer .immediate t k pl => .answer .immediate t k pl
  | .notice r => .notice r

/-- The Port Unit after a port reset (R137, R153): the queue, what runs in it and the frames not begun are gone, the port is
NORMAL, the cause sets and the refusal capture are empty; the lock policy and the notice enable set are kept. -/
def PortUnit.afterBreak (u : PortUnit) : PortUnit :=
  { u with
    receiver := .hunting, inBreak := true, queue := [], listing := none, sync := none, outgoing := [],
    sending := u.sending.map OutFrame.orphaned, locked := false, pending := [], repeats := 0, capture := none }

/-- The spacing that becomes a line break discards a frame begun on the port before the break is due, as a bad byte or as a
gap (R140); the manual leaves open as which (log entry 24). The discard is an event of its own, so its NOTICE may begin to be
sent before the reset. -/
def State.spacingDiscard (s : State) (p : Port) : State :=
  match (s.port p).receiver with
  | .hunting => s
  | .inFrame got _ =>
    ((s.lineError p (if Config.breakIsBadByte s.choices then .byte else .gap) got[0]? got[1]?).settle).withChoices
      (s.choices + 1)

/-- A line break resets its port (R140, R153), then is reported to the Call Arbiter (R131). -/
def State.portReset (s : State) (p : Port) : State := (s.onPort p PortUnit.afterBreak).leaveArbiter p .portReset

/-! ## A frame has been sent (R143, R151) -/

/-- What the end of a sent frame lets happen: after a response its request leaves the queue, after a LISTED frame the listing
goes on. -/
def State.frameSent (s : State) (p : Port) : State :=
  match (s.port p).sending with
  | none => s
  | some f =>
    let t := s.onPort p (fun u => { u with sending := none, sendLeft := 0 })
    match f with
    | .answer .response _ _ _ => t.onPort p (fun u => { u with queue := u.queue.tail })
    | .answer .listed _ _ _ => t.onPort p (fun u => u.listNext (t.nextListed p))
    | .answer .orphan _ _ _ => t
    | .answer .immediate _ _ _ => t
    | .notice _ => t

end Sys2Proof.Machine
end

