-- ==== Sys2Proof/Machine/Beat.lean ====
section
/-! DEFINITION. The Beat Unit (04_beat_input.md): BEAT_EDGE, BEAT and SET_BEAT. -/

namespace Sys2Proof.Machine

/-- BEAT_EDGE (R65, R66): a change of level is an edge; one of a selected kind is a beat while the source is LINE. -/
def execBeatEdge (high : Bool) (s : State) : Host.Outcome State Fault Refusal :=
  .next (if s.beat.level = high then s
    else
      let t := s.withBeat { s.beat with level := high }
      if s.beat.source = .line ∧ s.beat.edge.selects high = true then (t.takeBeat .line).settle else t)

/-- A BEATS count left, or 0xFFFF for no beat countdown (R171). -/
def beatsField : Option Nat → Nat
  | some n => n
  | none => 0xFFFF

/-- The DONE payload of a BEAT: the outcome and its value (R72, R171). -/
def beatBytes : BeatResult → List Byte
  | .ignored => 0 :: le2 0
  | .rejected d => 1 :: le2 d
  | .settling => 2 :: le2 0
  | .counted n => 3 :: le2 (beatsField n)

/-- BEAT at the Beat Unit (R72). -/
def ownBeat (p : Port) (_pl : List Byte) (s : State) : Verdict :=
  if s.isHolder p = false then .refuse .notCaller []
  else if s.beat.source ≠ .request then .refuse .state []
  else .done (s.takeBeat .request) (beatBytes s.beatResult)

def execBeat (p : Port) (s : State) : Host.Outcome State Fault Refusal := .next (s.serve .beat p ownBeat)

/-- SET_BEAT's settings, or none where one is out of range (R73). -/
def beatSettingsOf (src edge g0 g1 : Byte) : Option (BeatSource × EdgeSel × Nat) :=
  match beatSourceOf src, edgeOf edge with
  | some b, some e => if 50 ≤ nat2 g0 g1 ∧ nat2 g0 g1 ≤ 2000 then some (b, e, nat2 g0 g1) else none
  | _, _ => none

/-- SET_BEAT taken (R49, R73): the settings, the settling flag, and a BEATS countdown back at its full count. -/
def State.setBeatUnit (s : State) (b : BeatSource) (e : EdgeSel) (g : Nat) : State :=
  (s.withBeat { s.beat with source := b, edge := e, guard := g, settling := true }).withRun
    (s.run.setBeats (fun full _ => full))

/-- SET_BEAT at the Beat Unit (R73). -/
def ownSetBeat (_p : Port) (pl : List Byte) (s : State) : Verdict :=
  match pl with
  | [src, edge, g0, g1] =>
    match beatSettingsOf src edge g0 g1 with
    | some (b, e, g) =>
      .done (s.setBeatUnit b e g) ([b.code, e.code] ++ le2 g ++ [yesNo s.run.beatsLeft.isSome])
    | none => .refuse .range []
  | _ => .refuse .form []

def execSetBeat (p : Port) (s : State) : Host.Outcome State Fault Refusal := .next (s.serve .setBeat p ownSetBeat)

end Sys2Proof.Machine
end

