-- ==== Sys2Proof/Machine/Call.lean ====
section
/-! DEFINITION. The Call Arbiter's requests (07_the_call_right_and_port_roles.md): CLAIM, YIELD and SET_ROLE. -/

namespace Sys2Proof.Machine

/-- The place of a port in the claim list, 1 or 2 (R125). -/
def CallArbiter.position (a : CallArbiter) (p : Port) : Nat := a.claims.idxOf p + 1

/-- A port is granted a FREE right; its own list entry, if any, goes (R125, R126). -/
def State.grantFree (s : State) (p : Port) : State :=
  (s.withArbiter { s.arbiter with
    holder := some p, claims := s.arbiter.claims.filter (fun q => decide (q ≠ p)) }).raiseOn p (.callGranted .free none)

/-- A forced claim takes the right from its holder: CALL_LOST there, then CALL_GRANTED here (R126). -/
def State.takeOver (s : State) (p former : Port) : State :=
  ((s.withArbiter { s.arbiter with
    holder := some p, claims := s.arbiter.claims.filter (fun q => decide (q ≠ p)) }).raiseOn former
      (.callLost .takeover (some p))).raiseOn p (.callGranted .takeover (some former))

/-- A port joins the claim list at its place by ring and arrival; one in the list keeps its place (R124, R125). -/
def State.joinList (s : State) (p : Port) : State :=
  if s.arbiter.claims.contains p then s
  else s.withArbiter { s.arbiter with claims := s.arbiter.inOrder (s.arbiter.claims ++ [p]) }

/-- CLAIM at the Call Arbiter (R125, R126). The DONE payload is the outcome (0 ALREADY, 1 GRANTED, 2 WAITING), the position
and the former holder (R171). -/
def ownClaim (p : Port) (pl : List Byte) (s : State) : Verdict :=
  match s.arbiter.holder with
  | none => .done (s.grantFree p) [1, 0, 0xFF]
  | some q =>
    if q = p then .done s [0, 0, 0xFF]
    else if claimForce pl then .done (s.takeOver p q) [1, 0, portByte q]
    else .done (s.joinList p) [2, byteOf ((s.joinList p).arbiter.position p), 0xFF]

def execClaim (p : Port) (s : State) : Host.Outcome State Fault Refusal := .next (s.serve .claim p ownClaim)

/-- YIELD at the Call Arbiter (R128). The DONE payload is the outcome (0 PASSED, 1 FREED, 2 WITHDRAWN, 3 NONE) and the new
holder (R171). -/
def ownYield (p : Port) (_pl : List Byte) (s : State) : Verdict :=
  if s.arbiter.holder = some p then
    match s.arbiter.claims.head? with
    | some q => .done (s.passRight p none) [0, portByte q]
    | none => .done (s.passRight p none) [1, 0xFF]
  else if s.arbiter.claims.contains p then
    .done (s.withArbiter { s.arbiter with claims := s.arbiter.claims.filter (fun q => decide (q ≠ p)) }) [2, 0xFF]
  else .done s [3, 0xFF]

def execYield (p : Port) (s : State) : Host.Outcome State Fault Refusal := .next (s.serve .yieldRight p ownYield)

/-- The new role at the Call Arbiter, and what it does to the right and the list (R132). -/
def State.setRoleOf (s : State) (target : Port) (r : Role) : State :=
  let t := s.withArbiter { s.arbiter with roles := s.arbiter.roles.set target r }
  if r.profile.has .call then t.withArbiter { t.arbiter with claims := t.arbiter.inOrder t.arbiter.claims }
  else t.leaveArbiter target .role

/-- The claim list on the wire: its count and two entries, 0xFF unused (R171, R173). -/
def claimBytes (claims : List Port) : List Byte := [byteOf claims.length, optPortByte claims[0]?, optPortByte claims[1]?]

/-- SET_ROLE at the Call Arbiter (R132). -/
def ownSetRole (_p : Port) (pl : List Byte) (s : State) : Verdict :=
  match pl with
  | [port, profile, ring] =>
    match portOf port, profileOf profile, ringOf ring with
    | some target, some pr, some ri =>
      if s.engine.state ≠ .idle then .refuse .state []
      else
        let t := s.setRoleOf target { profile := pr, ring := ri }
        .done t ([portByte target, pr.code, ri.code, optPortByte t.arbiter.holder] ++ claimBytes t.arbiter.claims)
    | _, _, _ => .refuse .range []
  | _ => .refuse .form []

def execSetRole (p : Port) (s : State) : Host.Outcome State Fault Refusal := .next (s.serve .setRole p ownSetRole)

end Sys2Proof.Machine
end

