-- ==== Sys2Proof/Machine/Notice.lean ====
section
/-! DEFINITION. Watches, cause sets and captures (09_watches_and_notices.md): SET_WATCH, SET_NOTICE, READ_CAUSES, CLEAR_CAUSES,
READ_CAPTURE and CLEAR_CAPTURE. -/

namespace Sys2Proof.Machine

/-- A watch as SET_WATCH sets it, or none where it is out of range; the value of a watch of type OFF is kept where it is in
range and 1 otherwise (R159). Its match flag is clear. -/
def watchOf (type lo hi mi : Byte) : Option Watch :=
  match watchTypeOf type with
  | some .off =>
    some { type := .off, value := if (cueOf lo hi mi).valid then cueOf lo hi mi else { major := 1, minor := 0 }, matched := false }
  | some t => if (cueOf lo hi mi).valid then some { type := t, value := cueOf lo hi mi, matched := false } else none
  | none => none

/-- A watch's type and value on the wire (R171). -/
def Watch.bytes (w : Watch) : List Byte := w.type.code :: cueBytes w.value

/-- The Watch Unit SET_WATCH asks for, with the line as it is, or none where a field is out of range (R159). -/
def watchUnitOf (line : Bool) : List Byte → Option WatchUnit
  | [t0, a0, b0, c0, t1, a1, b1, c1, comb, sil] =>
    match watchOf t0 a0 b0 c0, watchOf t1 a1 b1 c1, combineOf comb, yesNoOf sil with
    | some w0, some w1, some c, some q => some { w0 := w0, w1 := w1, combine := c, silent := q, line := line }
    | _, _, _, _ => none
  | _ => none

/-- The ten setting bytes of the Watch Unit (R171). -/
def WatchUnit.settingBytes (w : WatchUnit) : List Byte := w.w0.bytes ++ w.w1.bytes ++ [w.combine.code, yesNo w.silent]

/-- SET_WATCH at the Watch Unit (R159): it answers with the settings now in force and the match flags before the clear. -/
def ownSetWatch (_p : Port) (pl : List Byte) (s : State) : Verdict :=
  match watchUnitOf s.watch.line pl with
  | some w => .done (s.withWatch w) (w.settingBytes ++ [matchByte s.watch.w0.matched s.watch.w1.matched])
  | none => .refuse .range []

def execSetWatch (p : Port) (s : State) : Host.Outcome State Fault Refusal := .next (s.serve .setWatch p ownSetWatch)

/-- The frame is a waiting NOTICE of a cause in the set. -/
def OutFrame.noticeIn (c : CauseSet) : OutFrame → Bool
  | .notice r => hasCause c r.cause
  | .answer _ _ _ _ => false

/-- A new notice enable set: waiting notices of the causes taken out are discarded (R164). -/
def PortUnit.enable (u : PortUnit) (c : CauseSet) : PortUnit :=
  { u with enabled := c, outgoing := u.outgoing.filter (fun f => !f.noticeIn (u.enabled &&& ~~~c)) }

/-- SET_NOTICE at the Port Unit (R164). -/
def ownSetNotice (p : Port) (pl : List Byte) (s : State) : Verdict :=
  match pl with
  | [b0, b1, b2] => match causeSetOf b0 b1 b2 with
    | some c => .done (s.onPort p (fun u => u.enable c)) (causeSetBytes c)
    | none => .refuse .range []
  | _ => .refuse .form []

def execSetNotice (p : Port) (s : State) : Host.Outcome State Fault Refusal := .next (s.serve .setNotice p ownSetNotice)

/-- A pending cause on the wire: its code and its detail (R171). -/
def Raise.bytes (r : Raise) : List Byte := byteOf r.cause.code :: r.detail

/-- The READ_CAUSES payload (R165, R171). -/
def PortUnit.causeBytes (u : PortUnit) : List Byte :=
  causeSetBytes u.pendingSet ++ causeSetBytes u.repeats ++ causeSetBytes u.enabled ++ u.pending.flatMap Raise.bytes

/-- READ_CAUSES at the Port Unit (R165). -/
def ownReadCauses (p : Port) (_pl : List Byte) (s : State) : Verdict := .done s (s.port p).causeBytes

def execReadCauses (p : Port) (s : State) : Host.Outcome State Fault Refusal := .next (s.serve .readCauses p ownReadCauses)

/-- The named causes leave the pending set and the repeat set (R165). -/
def PortUnit.clearCauses (u : PortUnit) (c : CauseSet) : PortUnit :=
  { u with pending := u.pending.filter (fun r => !hasCause c r.cause), repeats := u.repeats &&& ~~~c }

/-- CLEAR_CAUSES at the Port Unit (R165). -/
def ownClearCauses (p : Port) (pl : List Byte) (s : State) : Verdict :=
  match pl with
  | [b0, b1, b2] => match causeSetOf b0 b1 b2 with
    | some c =>
      let u := (s.port p).clearCauses c
      .done (s.onPort p (fun u => u.clearCauses c)) (causeSetBytes u.pendingSet ++ causeSetBytes u.repeats)
    | none => .refuse .range []
  | _ => .refuse .form []

def execClearCauses (p : Port) (s : State) : Host.Outcome State Fault Refusal :=
  .next (s.serve .clearCauses p ownClearCauses)

/-- A port's refusal capture as READ_CAPTURE gives it (R166, R171). -/
def portCaptureBytes : Option RefusalCapture → List Byte
  | none => [0, 0, 0]
  | some c => [0, 1, yesNo c.more, c.tag, c.kind, c.status.code]

/-- The link capture as READ_CAPTURE gives it (R166, R171). -/
def linkCaptureBytes : Option LinkCapture → List Byte
  | none => [1, 0, 0]
  | some c =>
    [1, 1, yesNo c.more, byteOf c.head.val, c.kind.code, optLayerByte c.layer] ++ le2 c.attempts ++ optCueBytes c.cue

/-- READ_CAPTURE (R166). -/
def ownReadCapture (p : Port) (pl : List Byte) (s : State) : Verdict :=
  match pl with
  | [which] =>
    if which = 0 then .done s (portCaptureBytes (s.port p).capture)
    else if which = 1 then .done s (linkCaptureBytes s.link.capture)
    else .refuse .range []
  | _ => .refuse .form []

def execReadCapture (p : Port) (s : State) : Host.Outcome State Fault Refusal :=
  .next (s.serve .readCapture p ownReadCapture)

/-- CLEAR_CAPTURE (R166): it answers with the content just before the clear. -/
def ownClearCapture (p : Port) (pl : List Byte) (s : State) : Verdict :=
  match pl with
  | [which] =>
    if which = 0 then
      .done (s.onPort p (fun u => { u with capture := none })) (portCaptureBytes (s.port p).capture)
    else if which = 1 then .done (s.withLink { s.link with capture := none }) (linkCaptureBytes s.link.capture)
    else .refuse .range []
  | _ => .refuse .form []

def execClearCapture (p : Port) (s : State) : Host.Outcome State Fault Refusal :=
  .next (s.serve .clearCapture p ownClearCapture)

end Sys2Proof.Machine
end

