-- ==== Sys2Proof/Machine/PortOwn.lean ====
section
/-! DEFINITION. The Port Unit's own requests (08_caller_ports.md): SET_PORT, SYNC and LIST_CUES; and READ_POSITION, whose response
gathers the show position, the Run Queue, the call right and the watches. -/

namespace Sys2Proof.Machine

/-- SET_PORT at the Port Unit (R149). -/
def ownSetPort (p : Port) (pl : List Byte) (s : State) : Verdict :=
  match pl with
  | [policy] => match yesNoOf policy with
    | some b => .done (s.onPort p (fun u => { u with lockPolicy := b })) [yesNo b]
    | none => .refuse .range []
  | _ => .refuse .form []

def execSetPort (p : Port) (s : State) : Host.Outcome State Fault Refusal := .next (s.serve .setPort p ownSetPort)

/-- SYNC at the Port Unit (R150): it waits for the commands now in the queue; with none the end of the event answers it. -/
def ownSync (p : Port) (_pl : List Byte) (s : State) : Verdict :=
  .wait (s.onPort p (fun u => { u with
    sync := some { waiting := s.link.queue.map Command.id, total := s.link.queue.length, unacked := 0 } }))

def execSync (p : Port) (s : State) : Host.Outcome State Fault Refusal := .next (s.serve .sync p ownSync)

/-- LIST_CUES at the Port Unit (R151): the cursor is set and the first frame made. -/
def ownListCues (p : Port) (pl : List Byte) (s : State) : Verdict :=
  match pl with
  | [lo, hi, mi, count] =>
    if (cueOf lo hi mi).valid = false ∨ count.toNat = 0 ∨ 64 < count.toNat then .refuse .range []
    else
      .wait (s.onPort p (fun u =>
        ({ u with listing := some { left := count.toNat, last := none, made := 0 } }).listNext
          (cueFrom s.cues (cueOf lo hi mi))))
  | _ => .refuse .form []

def execListCues (p : Port) (s : State) : Host.Outcome State Fault Refusal := .next (s.serve .listCues p ownListCues)

/-- A Run Queue entry on the wire (R173). -/
def RunEntry.bytes : RunEntry → List Byte
  | .follow c m full left =>
    0 :: cueBytes c ++ [match m with | .time => 0 | .beats => 1] ++ le3 full ++ le3 left
  | .deferred g l c o => [1, byteOf g.val, layerByte l] ++ cueBytes c ++ [o.code]

/-- A group-layer record on the wire (R173). -/
def GroupLayer.bytes (x : GroupLayer) : List Byte := optCueBytes x.owner ++ le2 x.floor

/-- A role on the wire: profile, ring (R173). -/
def Role.bytes (r : Role) : List Byte := [r.profile.code, r.ring.code]

/-- The show position on the wire (R44, R173). -/
def ShowEngine.bytes (e : ShowEngine) : List Byte :=
  [e.state.code, e.heldFrom.code] ++ optCueBytes e.current ++ optCueBytes e.standby

/-- The Run Queue and the group-layer table on the wire (R62, R173). -/
def RunQueue.bytes (r : RunQueue) : List Byte :=
  byteOf r.entries.length :: r.entries.flatMap RunEntry.bytes
    ++ allGroupLayers.flatMap (fun gl => (r.table gl.1 gl.2).bytes)

/-- The Call Arbiter on the wire, with the sending port (R135, R173). -/
def CallArbiter.bytes (a : CallArbiter) (p : Port) : List Byte :=
  optPortByte a.holder :: claimBytes a.claims ++ a.roles.a.bytes ++ a.roles.b.bytes ++ a.roles.c.bytes ++ [portByte p]

/-- The Watch Unit on the wire (R160, R173). -/
def WatchUnit.bytes (w : WatchUnit) : List Byte :=
  w.w0.bytes ++ w.w1.bytes ++ [matchByte w.w0.matched w.w1.matched, w.combine.code, yesNo w.silent, yesNo w.line]

/-- READ_POSITION (R44, R62, R135, R160). -/
def ownReadPosition (p : Port) (_pl : List Byte) (s : State) : Verdict :=
  .done s (s.engine.bytes ++ s.run.bytes ++ s.arbiter.bytes p ++ s.watch.bytes)

def execReadPosition (p : Port) (s : State) : Host.Outcome State Fault Refusal :=
  .next (s.serve .readPosition p ownReadPosition)

end Sys2Proof.Machine
end

