-- ==== Sys2Proof/Machine/Clock.lean ====
section
/-! DEFINITION. What the card does by itself when no command waits (log entries 2 and 3): it takes up a request whose turn has come
or a clock event whose time has come, and where there is none a millisecond of card time passes. The table gives the clock
no row of its own; its events (FOLLOW_EXPIRY, FLOOR_END, FADE_END, ACK_TIMEOUT, HOLD_OFF_END, LINK_FRAME_SENT,
CALLER_FRAME_SENT, FRAME_GAP_TIMEOUT) are put into the queue of commands when they are due.

A count that stands at 1 has its end in the next millisecond. It is left at 1 until its event takes it to 0: a hold that
comes first freezes it "just short of 0" (R63). -/

namespace Sys2Proof.Machine

/-- One millisecond off a running count; the last one is taken by the count's own event. -/
def countDown (n : Nat) : Nat := if n ≤ 1 then n else n - 1

/-- The fade running on a slot (R81). -/
def Slot.fadeLeft : Slot → Option Nat
  | .rising _ f => some f
  | .falling _ _ f => some f
  | .lit _ => none
  | .dark => none

/-- A slot's fade falls in every show state (R81). -/
def Slot.tick : Slot → Slot
  | .rising p f => .rising p (countDown f)
  | .falling p n f => .falling p n (countDown f)
  | .lit p => .lit p
  | .dark => .dark

/-- Both slots of a head (R81). -/
def Head.tick (x : Head) : Head := { x with baseSlot := x.baseSlot.tick, overSlot := x.overSlot.tick }

/-- An entry's countdown on card time (R50); a BEATS countdown and a DEFERRED entry have none. -/
def RunEntry.tick : RunEntry → RunEntry
  | .follow c .time full n => .follow c .time full (countDown n)
  | .follow c .beats full n => .follow c .beats full n
  | .deferred g l c o => .deferred g l c o

/-- A group-layer's floor on card time (R52). -/
def GroupLayer.tick (x : GroupLayer) : GroupLayer := { x with floor := countDown x.floor }

/-- The Run Queue's countdowns and floors (R50, R52). -/
def RunQueue.tick (r : RunQueue) : RunQueue :=
  allGroupLayers.foldl (fun r gl => r.setTable gl.1 gl.2 (r.table gl.1 gl.2).tick)
    { r with entries := r.entries.map RunEntry.tick }

/-- What runs on the display link: the frame going out, the ack window, the hold-off (R107, R110). -/
def LinkPhase.tick : LinkPhase → LinkPhase
  | .none => .none
  | .sending n tail => .sending (if n ≤ 1000 then n else n - 1000) tail
  | .waiting n => .waiting (countDown n)
  | .holding n => .holding (countDown n)

/-- The gap timer of a receiver (R139). -/
def Receiver.tick : Receiver → Receiver
  | .hunting => .hunting
  | .inFrame got n => .inFrame got (countDown n)

/-- A port's line times: the gap timer and the frame being sent (R139, 8.2). -/
def PortUnit.tick (u : PortUnit) : PortUnit :=
  { u with
    receiver := u.receiver.tick
    sendLeft := if u.sendLeft ≤ Config.callerTenthsPerMs then u.sendLeft else u.sendLeft - Config.callerTenthsPerMs }

/-- The follow countdown ends in the next millisecond (R50). -/
def RunQueue.followDue (r : RunQueue) : Bool :=
  r.entries.any (fun e => match e with | .follow _ .time _ n => decide (n ≤ 1) | _ => false)

/-- A port's line events that are due: the end of the frame being sent, and the gap timeout. -/
def PortUnit.dueEvents (u : PortUnit) (p : Port) : List Instr :=
  (if u.sending.isSome = true ∧ u.sendLeft ≤ Config.callerTenthsPerMs then [.callerFrameSent p] else [])
    ++ (match u.receiver with | .inFrame _ n => if n ≤ 1 then [.frameGapTimeout p] else [] | .hunting => [])

/-- The link's event that is due. -/
def LinkPhase.dueEvents : LinkPhase → List Instr
  | .none => []
  | .sending n _ => if n ≤ 1000 then [.linkFrameSent] else []
  | .waiting n => if n ≤ 1 then [.ackTimeout] else []
  | .holding n => if n ≤ 1 then [.holdOffEnd] else []

/-- A slot's fade end, if it is due (R81). -/
def Slot.dueEvents (x : Slot) (h : HeadId) (l : Layer) : List Instr :=
  if x.fadeLeft.any (fun f => decide (f ≤ 1)) then [.fadeEnd h l] else []

/-- The clock events whose counts end in the next millisecond. Follow countdowns and floors run only while the show is RUNNING
(R50, R52, R58), fades in every show state (R81). -/
def State.dueEvents (s : State) : List Instr :=
  (if s.engine.state = .running then
    (if s.run.followDue then [.followExpiry] else [])
      ++ (allGroupLayers.filter (fun gl => decide ((s.run.table gl.1 gl.2).floor = 1))).map
          (fun gl => .floorEnd gl.1 gl.2)
   else [])
  ++ allHeads.flatMap (fun h => (s.head h).baseSlot.dueEvents h .base ++ (s.head h).overSlot.dueEvents h .overlay)
  ++ s.link.phase.dueEvents
  ++ allPorts.flatMap (fun p => (s.port p).dueEvents p)

/-- A millisecond of card time passes (4.3). The events whose counts end in it become due. -/
def State.tick (s : State) : State :=
  { s with
    cardTime := s.cardTime + 1
    run := if s.engine.state = .running then s.run.tick else s.run
    heads := allHeads.foldl (fun v h => v.set h.val (v.get h).tick h.isLt) s.heads
    link := { s.link with phase := s.link.phase.tick }
    ports := { a := s.ports.a.tick, b := s.ports.b.tick, c := s.ports.c.tick }
    due := s.dueEvents }

/-- The command that executes the request whose turn has come on a port, if there is one (R143, R144, R148). -/
def State.turnCommand (s : State) (p : Port) : Option Instr :=
  match s.turn p with
  | none => none
  | some r =>
    if r.drop then some (.dropped p)
    else match ReqKind.ofCode r.kind with
      | some k => some (k.command p)
      | none => some (.unknownKindRequest p)

/-- What is ready to happen now: clock events that came in this millisecond and still stand (a count frozen, restarted or gone
since has no event), and requests whose turn has come. -/
def State.ready (s : State) : List Instr :=
  s.due.filter (fun e => s.dueEvents.contains e) ++ allPorts.filterMap s.turnCommand

/-- Take one of several ready things: which one is free (log entry 3). -/
def pickReady (n : Nat) (xs : List Instr) (default : Instr) : Instr :=
  (xs[Config.eventChoice n % xs.length]?).getD default

/-- The card with no command waiting: one ready thing is put into the queue, or a millisecond passes. -/
def State.idle (s : State) : State :=
  match s.ready with
  | [] => s.tick
  | [e] => (s.withPending [e]).withDue (s.due.erase e)
  | e :: es =>
    let c := pickReady s.choices (e :: es) e
    ((s.withPending [c]).withDue (s.due.erase c)).withChoices (s.choices + 1)

end Sys2Proof.Machine
end

