-- ==== Sys2Proof/Machine/Countdown.lean ====
section
/-! DEFINITION. The Run Queue's own events (03_the_run_queue_follow_cues_and_read_floors.md): FOLLOW_EXPIRY and FLOOR_END. Each
says that the count has run out; neither can come unless the show is RUNNING (R51, R52, R58). -/

namespace Sys2Proof.Machine

/-- FOLLOW_EXPIRY (R34, R51). -/
def execFollowExpiry (s : State) : Host.Outcome State Fault Refusal :=
  .next (if s.engine.state = .running then s.expire.settle else s)

/-- The floor end of a group-layer (R52, R55): the floor is 0, and a waiting entry is removed and its change applied. -/
def State.floorEnd (s : State) (g : GroupId) (l : Layer) : State :=
  let t := s.withRun (s.run.setTable g l { s.run.table g l with floor := 0 })
  match s.run.entries.find? (fun e => e.waitsOn g l) with
  | some e => (t.withRun (t.run.dropDeferred g l)).applyChange g l e.cue
  | none => t

/-- FLOOR_END (R52, R55). -/
def execFloorEnd (g : GroupId) (l : Layer) (s : State) : Host.Outcome State Fault Refusal :=
  .next (if s.engine.state = .running then (s.floorEnd g l).settle else s)

end Sys2Proof.Machine
end

