-- ==== Sys2Proof/Machine/Link.lean ====
section
/-! DEFINITION. The Link Controller (06_the_display_link.md): SET_LINK and the link's own events. -/

namespace Sys2Proof.Machine

/-- SET_LINK at the Link Controller (R111, R112). -/
def ownSetLink (_p : Port) (pl : List Byte) (s : State) : Verdict :=
  match pl with
  | [limit, hold] =>
    if 15 < limit.toNat ∨ 31 < hold.toNat then .refuse .range []
    else
      .done (s.withLink { s.link with retryLimit := limit.toNat, holdOff := hold.toNat })
        ([limit, hold] ++ le2 s.link.attempts)
  | _ => .refuse .form []

def execSetLink (p : Port) (s : State) : Host.Outcome State Fault Refusal := .next (s.serve .setLink p ownSetLink)

/-- LINK_FRAME_SENT (R107, R117): the ack window opens; after the tail of an abandoned frame the phase returns to NONE and the
oldest command starts. -/
def execLinkFrameSent (s : State) : Host.Outcome State Fault Refusal :=
  .next (match s.link.phase with
    | .sending _ false => s.withLink { s.link with phase := .waiting Config.ackWindow }
    | .sending _ true => (s.withLink { s.link with phase := .none }).startLink
    | .none => s
    | .waiting _ => s
    | .holding _ => s)

/-- The frame counts as an acknowledgement of the command: it is a good one, from the command's head, with its sequence
number (R108, R174). -/
def Command.ackedBy (c : Command) (frame : List Byte) : Bool :=
  match ackOf frame, c.seq with
  | some (addr, seq), some n => decide (addr = byteOf c.head.val ∧ seq = n)
  | _, _ => false

/-- ACKNOWLEDGEMENT (R108, R109): in WAITING, a frame that counts for the in-flight command ends it as acknowledged; any other
frame is ignored. -/
def execAcknowledgement (frame : List Byte) (s : State) : Host.Outcome State Fault Refusal :=
  .next (match s.link.phase, s.link.queue with
    | .waiting _, c :: rest => if c.ackedBy frame then (s.acknowledged c rest).settle else s
    | _, _ => s)

/-- ACK_TIMEOUT (R110). -/
def execAckTimeout (s : State) : Host.Outcome State Fault Refusal :=
  .next (match s.link.phase with
    | .waiting _ => s.windowClosed.settle
    | .none => s
    | .sending _ _ => s
    | .holding _ => s)

/-- HOLD_OFF_END (R110). -/
def execHoldOffEnd (s : State) : Host.Outcome State Fault Refusal :=
  .next (match s.link.phase with
    | .holding _ => s.holdOffOver.settle
    | .none => s
    | .sending _ _ => s
    | .waiting _ => s)

end Sys2Proof.Machine
end

