-- ==== Sys2Proof/Machine/Power.lean ====
section
/-! DEFINITION. POWER_ON and RESET: every block at its reset value, the straps and the BEAT level read anew. -/

namespace Sys2Proof.Machine

/-- Power-on reset (R21, R23, R61, R64, R77, R80, R100, R120, R137, R155). What waits outside the card (the commands still to
be taken) and the model's count of free choices are no state of the card and stay. -/
def State.powerOnReset (s : State) (t : Straps) (level : Bool) : State :=
  ((State.resetWith t level).withPending s.pending).withChoices s.choices

/-- POWER_ON (R23). -/
def execPowerOn (t : Straps) (level : Bool) (s : State) : Host.Outcome State Fault Refusal :=
  .next (s.powerOnReset t level)

/-- RESET (R120): the RESET input is the same reset (section 5, "power-on reset"). -/
def execReset (t : Straps) (level : Bool) (s : State) : Host.Outcome State Fault Refusal :=
  .next (s.powerOnReset t level)

end Sys2Proof.Machine
end

