-- ==== Sys2Proof/Machine/Receive.lean ====
section
/-! DEFINITION. The caller ports' line events: bytes and frames arriving, the gap timeout, line breaks, UNLOCK, frames sent,
and the two turns that execute no request kind of their own (a request marked for dropping, a request of unknown kind). -/

namespace Sys2Proof.Machine

/-- LINE_BREAK (R140, R153): a frame begun is discarded with LINE_ERROR, then the port is reset; one break causes one port reset
however long it lasts. -/
def execLineBreak (p : Port) (s : State) : Host.Outcome State Fault Refusal :=
  .next (if (s.port p).inBreak then s else ((s.spacingDiscard p).portReset p).settle)

/-- LINE_RETURNS_TO_MARKING (R140): the break is over and the receiver starts in HUNTING. -/
def execLineReturnsToMarking (p : Port) (s : State) : Host.Outcome State Fault Refusal :=
  .next (if (s.port p).inBreak then s.onPort p (fun u => { u with inBreak := false, receiver := .hunting }) else s)

/-- CALLER_BYTE_RECEIVED (R138, R139). -/
def execCallerByteReceived (p : Port) (b : Byte) (stopGood : Bool) (s : State) : Host.Outcome State Fault Refusal :=
  .next (s.receiveByte p b stopGood).settle

/-- FRAME_RECEIVED (R139, R141): a complete frame; none is received during a break (R140). -/
def execFrameReceived (p : Port) (tag kind : Byte) (payload : List Byte) (crc : BitVec 16) (s : State) :
    Host.Outcome State Fault Refusal :=
  .next (if (s.port p).inBreak then s else (s.frameComplete p tag kind payload crc).settle)

/-- FRAME_GAP_TIMEOUT (R139): a frame begun is discarded with case GAP; in HUNTING there is no frame. -/
def execFrameGapTimeout (p : Port) (s : State) : Host.Outcome State Fault Refusal :=
  .next (match (s.port p).receiver with
    | .inFrame got _ => (s.lineError p .gap got[0]? got[1]?).settle
    | .hunting => s)

/-- UNLOCK (R138, R141, R148): a good UNLOCK frame is complete, so the receiver hunts again; it cuts a running listing and is
taken at once. -/
def execUnlock (p : Port) (tag : Byte) (payload : List Byte) (s : State) : Host.Outcome State Fault Refusal :=
  .next (if (s.port p).inBreak then s
    else ((s.onPort p (fun u => { u with receiver := .hunting })).goodFrame p tag unlockCode payload).settle)

/-- CALLER_FRAME_SENT (R143, R151, R152). -/
def execCallerFrameSent (p : Port) (s : State) : Host.Outcome State Fault Refusal :=
  .next (s.frameSent p).settle

/-- DROPPED (R148): the turn of a marked request, which is answered DROPPED and not executed. -/
def execDropped (p : Port) (s : State) : Host.Outcome State Fault Refusal :=
  .next (match s.turn p with
    | some r => if r.drop then (s.respond p r .dropped []).settle else s
    | none => s)

/-- UNKNOWN_KIND_REQUEST (R144, R145): the turn of a request whose kind is no request kind, which is refused UNKNOWN. -/
def execUnknownKindRequest (p : Port) (s : State) : Host.Outcome State Fault Refusal :=
  .next (match s.turn p with
    | some r =>
      if r.drop = false ∧ ReqKind.ofCode r.kind = none then (s.refuse p r .unknown []).settle else s
    | none => s)

end Sys2Proof.Machine
end

