-- ==== Sys2Proof/Machine/Screen.lean ====
section
/-! DEFINITION. The Screen Image Unit (05_screen_image_and_layer_timing.md): SET_HEAD, REFRESH_HEAD, READ_HEAD and
FADE_END. -/

namespace Sys2Proof.Machine

/-- FADE_END (R81, R86): a RISING or FALLING slot's fade has run out, in every show state. -/
def execFadeEnd (h : HeadId) (l : Layer) (s : State) : Host.Outcome State Fault Refusal :=
  .next (match (s.head h).slot l with
    | .rising p f => (s.moveSlot h l (Slot.rising p f).fadeEnd).settle
    | .falling p n f => (s.moveSlot h l (Slot.falling p n f).fadeEnd).settle
    | .lit _ => s
    | .dark => s)

/-- SET_HEAD's fields, or none where one is out of range (R92). -/
def headSettingsOf (head enable lang group gap : Byte) : Option (HeadId × Bool × Lang × GroupId × GapPolicy) :=
  match headOf head, yesNoOf enable, eighthOf lang, eighthOf group, gapOf gap with
  | some h, some e, some l, some g, some k => some (h, e, l, g, k)
  | _, _, _, _, _ => none

/-- An ABSENT head is enabled: PROBING, in step, and a PROBE asked for (R93). -/
def State.enableHead (s : State) (h : HeadId) : State :=
  (s.setHead h { s.head h with state := .probing, outOfStep := false }).askProbe h

/-- An enabled head is disabled: ABSENT with DARK slots, its link work ended (R94, R117). -/
def State.disableHead (s : State) (h : HeadId) : State := (s.darken h).dropHeadCommands h

/-- The enable field acts (the table of R92). -/
def State.actOnEnable (s : State) (h : HeadId) (enable : Bool) : State :=
  if enable = true ∧ (s.head h).enabled = false then s.enableHead h
  else if enable = false ∧ (s.head h).enabled = true then s.disableHead h
  else s

/-- SET_HEAD at the Screen Image Unit (R92 to R95). -/
def ownSetHead (_p : Port) (pl : List Byte) (s : State) : Verdict :=
  match pl with
  | [head, enable, lang, group, gap] =>
    match headSettingsOf head enable lang group gap with
    | some (h, e, l, g, k) =>
      if (l ≠ (s.head h).lang ∨ g ≠ (s.head h).group) ∧ s.engine.state ≠ .idle then .refuse .state []
      else
        let t := (s.setHead h { s.head h with lang := l, group := g, gap := k }).actOnEnable h e
        .done t [(t.head h).state.code]
    | none => .refuse .range []
  | _ => .refuse .form []

def execSetHead (p : Port) (s : State) : Host.Outcome State Fault Refusal := .next (s.serve .setHead p ownSetHead)

/-- REFRESH_HEAD taken for a head (the table of R96); an ABSENT head is refused before. -/
def State.refreshHead (s : State) (h : HeadId) : State :=
  match (s.head h).state with
  | .absent => s
  | .probing => s
  | .online => (s.queueRefresh h).startLink
  | .fault => (s.setHead h { s.head h with state := .probing }).askProbe h

/-- REFRESH_HEAD at the Screen Image Unit (R96). -/
def ownRefreshHead (_p : Port) (pl : List Byte) (s : State) : Verdict :=
  match pl with
  | [head] => match headOf head with
    | some h =>
      if (s.head h).state = .absent then .refuse .state []
      else .done (s.refreshHead h) [((s.refreshHead h).head h).state.code]
    | none => .refuse .range []
  | _ => .refuse .form []

def execRefreshHead (p : Port) (s : State) : Host.Outcome State Fault Refusal :=
  .next (s.serve .refreshHead p ownRefreshHead)

/-- A text part on the wire, in units of 10 ms; an absent part has text id 0xFFFF and zeros (R173). -/
def partBytes : Option TextPart → List Byte
  | some t => le2 t.text ++ [byteOf (t.fadeIn / 10), byteOf (t.fadeOut / 10)] ++ cueBytes t.cue
  | none => [0xFF, 0xFF, 0, 0, 0, 0, 0]

/-- A slot on the wire: state, fade remaining, shown part, next part (R173). -/
def Slot.bytes : Slot → List Byte
  | .dark => 0 :: le2 0 ++ partBytes none ++ partBytes none
  | .rising p f => 1 :: le2 f ++ partBytes (some p) ++ partBytes none
  | .lit p => 2 :: le2 0 ++ partBytes (some p) ++ partBytes none
  | .falling p n f => 3 :: le2 f ++ partBytes (some p) ++ partBytes n

/-- The number of commands addressed to a head, the in-flight command included (R98, R118). -/
def LinkController.countFor (k : LinkController) (h : HeadId) : Nat := (k.queue.filter (fun c => decide (c.head = h))).length

/-- The in-flight command: the oldest, while the phase is SENDING, WAITING or HOLDING but not the tail of an abandoned
frame (R100). -/
def LinkController.inFlight (k : LinkController) : Option Command :=
  match k.phase with
  | .sending _ false => k.queue.head?
  | .waiting _ => k.queue.head?
  | .holding _ => k.queue.head?
  | .sending _ true => none
  | .none => none

/-- The in-flight command is addressed to the head (R98). -/
def LinkController.inFlightFor (k : LinkController) (h : HeadId) : Bool := k.inFlight.any (fun c => decide (c.head = h))

/-- The READ_HEAD payload (R98, R173). -/
def headBytes (s : State) (h : HeadId) : List Byte :=
  let x := s.head h
  [x.state.code, byteOf x.lang.val, byteOf x.group.val, x.gap.code, yesNo x.outOfStep]
    ++ x.baseSlot.bytes ++ x.overSlot.bytes ++ [byteOf (s.link.countFor h), yesNo (s.link.inFlightFor h)]

/-- READ_HEAD at the Screen Image Unit (R98). -/
def ownReadHead (_p : Port) (pl : List Byte) (s : State) : Verdict :=
  match pl with
  | [head] => match headOf head with
    | some h => .done s (headBytes s h)
    | none => .refuse .range []
  | _ => .refuse .form []

def execReadHead (p : Port) (s : State) : Host.Outcome State Fault Refusal := .next (s.serve .readHead p ownReadHead)

end Sys2Proof.Machine
end

