-- ==== Sys2Proof/Machine/Show.lean ====
section
/-! DEFINITION. The Show Engine's requests (02_show_position_and_firing.md): OPEN, CLOSE, GO, BACK, STANDBY, HOLD and
RELEASE. -/

namespace Sys2Proof.Machine

/-- The show opens on a cue (R26). -/
def State.openAt (s : State) (n : CueNum) : State :=
  ((s.withEngine { s.engine with state := .ready, current := none, standby := some n }).withBeat
    { s.beat with settling := true }).raiseAll (.opened n)

/-- OPEN at the Show Engine (R24, R25, R26). -/
def ownOpen (p : Port) (pl : List Byte) (s : State) : Verdict :=
  if s.isHolder p = false then .refuse .notCaller []
  else if s.engine.state ≠ .idle then .refuse .state []
  else match pl with
    | [] => match firstCue s.cues with
      | some c => .done (s.openAt c.num) (cueBytes c.num)
      | none => .refuse .noCue []
    | [lo, hi, mi] =>
      if (cueOf lo hi mi).valid = false then .refuse .range []
      else match findCue s.cues (cueOf lo hi mi) with
        | some c => .done (s.openAt c.num) (cueBytes c.num)
        | none => .refuse .noCue []
    | _ => .refuse .form []

def execOpen (p : Port) (s : State) : Host.Outcome State Fault Refusal := .next (s.serve .openShow p ownOpen)

/-- The show position, the Run Queue and the group-layer table after CLOSE (R41, R60). -/
def State.closePosition (s : State) : State :=
  (s.withEngine { s.engine with state := .idle, current := none, standby := none }).withRun
    { entries := [], baseTable := Vector.replicate 8 { owner := none, floor := 0 },
      overTable := Vector.replicate 8 { owner := none, floor := 0 } }

/-- The clears of one head at CLOSE: BASE and then OVER, carrying no cue, if it is enabled (R42, R82). -/
def State.clearHead (s : State) (h : HeadId) : State :=
  if (s.head h).enabled then (s.change h .base (.clear none)).change h .overlay (.clear none) else s

/-- CLOSE takes the show down (R41, R42, R158). -/
def State.closeDown (s : State) (p : Port) : State :=
  let t := allHeads.foldl State.clearHead s.closePosition
  (t.withWatch { t.watch with line := false }).raiseAll (.closed p)

/-- CLOSE at the Show Engine (R24, R41). -/
def ownClose (p : Port) (_pl : List Byte) (s : State) : Verdict :=
  if s.isHolder p = false then .refuse .notCaller []
  else if s.engine.state = .idle then .refuse .state []
  else .done (s.closeDown p) []

def execClose (p : Port) (s : State) : Host.Outcome State Fault Refusal := .next (s.serve .closeShow p ownClose)

/-- The response to a firing: the fired cue and the new standby cue or none (R28, R36, R171). -/
def firedBytes (n : CueNum) (t : State) : List Byte := cueBytes n ++ optCueBytes t.engine.standby

/-- GO fires the standby cue (R28). -/
def State.goFire (s : State) (p : Port) (n : CueNum) : Verdict :=
  .done (s.fire n (.port p) .go) (firedBytes n (s.fire n (.port p) .go))

/-- GO at the Show Engine (R24, R27, R28). -/
def ownGo (p : Port) (pl : List Byte) (s : State) : Verdict :=
  if s.isHolder p = false then .refuse .notCaller []
  else match s.engine.state with
    | .idle => .refuse .state []
    | .held => .refuse .held []
    | .ready | .running =>
      match pl with
      | [] => match s.engine.standby with
        | some n => s.goFire p n
        | none => .refuse .atEnd []
      | [lo, hi, mi] =>
        if (cueOf lo hi mi).valid = false then .refuse .range []
        else match s.engine.standby with
          | some n => if cueOf lo hi mi = n then s.goFire p n else .refuse .stale []
          | none => .refuse .atEnd []
      | _ => .refuse .form []

def execGo (p : Port) (s : State) : Host.Outcome State Fault Refusal := .next (s.serve .go p ownGo)

/-- BACK at the Show Engine (R24, R35, R36): it recalls the cue before current. -/
def ownBack (p : Port) (_pl : List Byte) (s : State) : Verdict :=
  if s.isHolder p = false then .refuse .notCaller []
  else match s.engine.state with
    | .idle => .refuse .state []
    | .ready => .refuse .state []
    | .held => .refuse .held []
    | .running => match s.engine.current.bind (cueBefore s.cues) with
      | some c => .done (s.fire c.num (.port p) .back) (firedBytes c.num (s.fire c.num (.port p) .back))
      | none => .refuse .noCue []

def execBack (p : Port) (s : State) : Host.Outcome State Fault Refusal := .next (s.serve .back p ownBack)

/-- STANDBY moves the standby cue without firing and removes any FOLLOW entry (R37). -/
def State.standBy (s : State) (n : CueNum) : State :=
  (s.withEngine { s.engine with standby := some n }).withRun s.run.dropFollow

/-- STANDBY at the Show Engine (R24, R37). -/
def ownStandby (p : Port) (pl : List Byte) (s : State) : Verdict :=
  if s.isHolder p = false then .refuse .notCaller []
  else if s.engine.state = .idle then .refuse .state []
  else match pl with
    | [lo, hi, mi] =>
      if (cueOf lo hi mi).valid = false then .refuse .range []
      else match findCue s.cues (cueOf lo hi mi) with
        | some c => .done (s.standBy c.num) (cueBytes c.num)
        | none => .refuse .noCue []
    | _ => .refuse .form []

def execStandby (p : Port) (s : State) : Host.Outcome State Fault Refusal := .next (s.serve .standby p ownStandby)

/-- The show is frozen from a state (R38). -/
def State.holdFrom (s : State) (fr : HeldFrom) : State :=
  (s.withEngine { s.engine with state := .held, heldFrom := fr }).raiseAll (.held fr)

/-- HOLD at the Show Engine (R38): taken from any port with HOLD, the holder or not. -/
def ownHold (_p : Port) (_pl : List Byte) (s : State) : Verdict :=
  match s.engine.state with
  | .idle => .refuse .state []
  | .held => .done s []
  | .ready => .done (s.holdFrom .ready) []
  | .running => .done (s.holdFrom .running) []

def execHold (p : Port) (s : State) : Host.Outcome State Fault Refusal := .next (s.serve .hold p ownHold)

/-- The show state a held-from state returns to (R40). -/
def HeldFrom.state : HeldFrom → ShowState
  | .ready => .ready
  | .running => .running

/-- The command is the end of a count that stands still in HELD: a TIME countdown or a floor (R58). -/
def endsHeldCount : Instr → Bool
  | .followExpiry => true
  | .floorEnd _ _ => true
  | _ => false

/-- The show goes on, with the settling beat armed (R40). Its counts fall again from the next millisecond on (R59), so an end that
was due when the HOLD froze its count is due no longer. -/
def State.releaseShow (s : State) : State :=
  (((s.withEngine { s.engine with state := s.engine.heldFrom.state }).withBeat
    { s.beat with settling := true }).withDue (s.due.filter (fun e => !endsHeldCount e))).raiseAll
    (.released s.engine.heldFrom)

/-- RELEASE at the Show Engine (R40). -/
def ownRelease (_p : Port) (_pl : List Byte) (s : State) : Verdict :=
  if s.engine.state = .held then .done s.releaseShow [] else .refuse .state []

def execRelease (p : Port) (s : State) : Host.Outcome State Fault Refusal := .next (s.serve .release p ownRelease)

end Sys2Proof.Machine
end

