-- ==== Sys2Proof/Machine/Store.lean ====
section
/-! DEFINITION. The Cue Store's requests (01_cue_table_and_text_store.md): PUT_CUE, DROP_CUE, PUT_TEXT, DROP_TEXT, READ_CUE and
READ_TEXT. -/

namespace Sys2Proof.Machine

/-- A record that is new to the table (R10, ADDED). -/
def State.addCueRec (s : State) (c : CueRec) : State :=
  (s.withCues (putCueRec c s.cues)).withTexts (addNames c.names s.texts)

/-- A record in place of an old one: the old names' counts fall, then the new names' counts rise (R10, REPLACED). -/
def State.replaceCueRec (s : State) (old c : CueRec) : State :=
  (s.withCues (putCueRec c s.cues)).withTexts (addNames c.names (removeNames old.names s.texts))

/-- PUT_CUE at the Cue Store (R9, R10). The DONE payload is the outcome (0 ADDED, 1 REPLACED) and the record count. -/
def ownPutCue (_p : Port) (pl : List Byte) (s : State) : Verdict :=
  match cueRecOf pl with
  | none => .refuse .range []
  | some c =>
    match c.body.texts.find? (fun e => (findText s.texts e.text).isNone) with
    | some e => .refuse .noText e.bytes
    | none =>
      match findCue s.cues c.num with
      | none =>
        if Config.maxCues ≤ s.cues.length then .refuse .full []
        else .done (s.addCueRec c) (0 :: le2 (s.addCueRec c).cues.length)
      | some old =>
        if s.cueInUse c.num then .refuse .inUse []
        else .done (s.replaceCueRec old c) (1 :: le2 (s.replaceCueRec old c).cues.length)

def execPutCue (p : Port) (s : State) : Host.Outcome State Fault Refusal := .next (s.serve .putCue p ownPutCue)

/-- A record is removed and its names' counts fall (R11). -/
def State.removeCueRec (s : State) (c : CueRec) : State :=
  (s.withCues (dropCueRec c.num s.cues)).withTexts (removeNames c.names s.texts)

/-- DROP_CUE at the Cue Store (R11). -/
def ownDropCue (_p : Port) (pl : List Byte) (s : State) : Verdict :=
  match pl with
  | [lo, hi, mi] =>
    if (cueOf lo hi mi).valid = false then .refuse .range []
    else match findCue s.cues (cueOf lo hi mi) with
      | none => .refuse .noCue []
      | some c =>
        if s.cueInUse c.num then .refuse .inUse []
        else .done (s.removeCueRec c) (le2 (s.removeCueRec c).cues.length)
  | _ => .refuse .form []

def execDropCue (p : Port) (s : State) : Host.Outcome State Fault Refusal := .next (s.serve .dropCue p ownDropCue)

/-- The record count and the byte total on the wire (R171). -/
def storeBytes (texts : List TextRec) : List Byte := le2 texts.length ++ le3 (byteTotal texts)

/-- A text within the ranges of R4 and R13. -/
def textInRange (i : Nat) (bytes : List Byte) : Bool :=
  decide (i ≤ 16383 ∧ 1 ≤ bytes.length ∧ bytes.length ≤ Config.maxTextLen ∧ lineCount bytes ≤ 3)

/-- PUT_TEXT at the Cue Store (R13, R14). -/
def ownPutText (_p : Port) (pl : List Byte) (s : State) : Verdict :=
  match pl with
  | lo :: hi :: bytes =>
    let i := nat2 lo hi
    if textInRange i bytes = false then .refuse .range []
    else
      let texts := putTextRec i bytes s.texts
      match findText s.texts i with
      | none =>
        if Config.maxTexts ≤ s.texts.length ∨ Config.maxTextBytes < byteTotal s.texts + bytes.length then
          .refuse .full []
        else .done (s.withTexts texts) (0 :: storeBytes texts)
      | some old =>
        if Config.maxTextBytes < byteTotal s.texts - old.bytes.length + bytes.length then .refuse .full []
        else if s.onScreen i then .refuse .inUse []
        else .done (s.withTexts texts) (1 :: storeBytes texts)
  | _ => .refuse .form []

def execPutText (p : Port) (s : State) : Host.Outcome State Fault Refusal := .next (s.serve .putText p ownPutText)

/-- DROP_TEXT at the Cue Store (R15). -/
def ownDropText (_p : Port) (pl : List Byte) (s : State) : Verdict :=
  match pl with
  | [lo, hi] =>
    if 16383 < nat2 lo hi then .refuse .range []
    else match findText s.texts (nat2 lo hi) with
      | none => .refuse .noText []
      | some t =>
        if t.refs ≠ 0 then .refuse .inUse []
        else .done (s.withTexts (dropTextRec (nat2 lo hi) s.texts)) (storeBytes (dropTextRec (nat2 lo hi) s.texts))
  | _ => .refuse .form []

def execDropText (p : Port) (s : State) : Host.Outcome State Fault Refusal := .next (s.serve .dropText p ownDropText)

/-- READ_CUE at the Cue Store (R17). -/
def ownReadCue (_p : Port) (pl : List Byte) (s : State) : Verdict :=
  match pl with
  | [lo, hi, mi] =>
    if (cueOf lo hi mi).valid = false then .refuse .range []
    else match findCue s.cues (cueOf lo hi mi) with
      | some c => .done s (yesNo (s.cueInUse c.num) :: c.bytes)
      | none => .refuse .noCue []
  | _ => .refuse .form []

def execReadCue (p : Port) (s : State) : Host.Outcome State Fault Refusal := .next (s.serve .readCue p ownReadCue)

/-- READ_TEXT at the Cue Store (R18). -/
def ownReadText (_p : Port) (pl : List Byte) (s : State) : Verdict :=
  match pl with
  | [lo, hi] =>
    if 16383 < nat2 lo hi then .refuse .range []
    else match findText s.texts (nat2 lo hi) with
      | some t =>
        .done s (le2 t.id ++ [byteOf (lineCount t.bytes)] ++ le2 t.refs ++ [yesNo (s.onScreen t.id)] ++ t.bytes)
      | none => .refuse .noText []
  | _ => .refuse .form []

def execReadText (p : Port) (s : State) : Host.Outcome State Fault Refusal := .next (s.serve .readText p ownReadText)

end Sys2Proof.Machine
end

