-- ==== Sys2Proof/Machine/Dispatch.lean ====
section
/-! DEFINITION. The meaning of each command: one arm for each row of the table of operations and events. -/

namespace Sys2Proof.Machine

def exec (i : Instr) (s : State) : Host.Outcome State Fault Refusal :=
  match i with
  | .powerOn straps beatHigh => Sys2Proof.Machine.execPowerOn straps beatHigh s
  | .reset straps beatHigh => Sys2Proof.Machine.execReset straps beatHigh s
  | .lineBreak p => Sys2Proof.Machine.execLineBreak p s
  | .frameReceived p tag kind payload crc => Sys2Proof.Machine.execFrameReceived p tag kind payload crc s
  | .frameGapTimeout p => Sys2Proof.Machine.execFrameGapTimeout p s
  | .unlock p tag payload => Sys2Proof.Machine.execUnlock p tag payload s
  | .callerFrameSent p => Sys2Proof.Machine.execCallerFrameSent p s
  | .dropped p => Sys2Proof.Machine.execDropped p s
  | .unknownKindRequest p => Sys2Proof.Machine.execUnknownKindRequest p s
  | .openShow p => Sys2Proof.Machine.execOpen p s
  | .closeShow p => Sys2Proof.Machine.execClose p s
  | .go p => Sys2Proof.Machine.execGo p s
  | .back p => Sys2Proof.Machine.execBack p s
  | .standby p => Sys2Proof.Machine.execStandby p s
  | .hold p => Sys2Proof.Machine.execHold p s
  | .release p => Sys2Proof.Machine.execRelease p s
  | .followExpiry => Sys2Proof.Machine.execFollowExpiry s
  | .floorEnd g l => Sys2Proof.Machine.execFloorEnd g l s
  | .beatEdge high => Sys2Proof.Machine.execBeatEdge high s
  | .beat p => Sys2Proof.Machine.execBeat p s
  | .claim p => Sys2Proof.Machine.execClaim p s
  | .yieldRight p => Sys2Proof.Machine.execYield p s
  | .setRole p => Sys2Proof.Machine.execSetRole p s
  | .setPort p => Sys2Proof.Machine.execSetPort p s
  | .putCue p => Sys2Proof.Machine.execPutCue p s
  | .dropCue p => Sys2Proof.Machine.execDropCue p s
  | .putText p => Sys2Proof.Machine.execPutText p s
  | .dropText p => Sys2Proof.Machine.execDropText p s
  | .setHead p => Sys2Proof.Machine.execSetHead p s
  | .refreshHead p => Sys2Proof.Machine.execRefreshHead p s
  | .setLink p => Sys2Proof.Machine.execSetLink p s
  | .setBeat p => Sys2Proof.Machine.execSetBeat p s
  | .setWatch p => Sys2Proof.Machine.execSetWatch p s
  | .setNotice p => Sys2Proof.Machine.execSetNotice p s
  | .readPosition p => Sys2Proof.Machine.execReadPosition p s
  | .readCue p => Sys2Proof.Machine.execReadCue p s
  | .readText p => Sys2Proof.Machine.execReadText p s
  | .readHead p => Sys2Proof.Machine.execReadHead p s
  | .readCauses p => Sys2Proof.Machine.execReadCauses p s
  | .clearCauses p => Sys2Proof.Machine.execClearCauses p s
  | .readCapture p => Sys2Proof.Machine.execReadCapture p s
  | .clearCapture p => Sys2Proof.Machine.execClearCapture p s
  | .listCues p => Sys2Proof.Machine.execListCues p s
  | .sync p => Sys2Proof.Machine.execSync p s
  | .fadeEnd h l => Sys2Proof.Machine.execFadeEnd h l s
  | .linkFrameSent => Sys2Proof.Machine.execLinkFrameSent s
  | .acknowledgement frame => Sys2Proof.Machine.execAcknowledgement frame s
  | .ackTimeout => Sys2Proof.Machine.execAckTimeout s
  | .holdOffEnd => Sys2Proof.Machine.execHoldOffEnd s
  | .callerByteReceived p b stopGood => Sys2Proof.Machine.execCallerByteReceived p b stopGood s
  | .lineReturnsToMarking p => Sys2Proof.Machine.execLineReturnsToMarking p s

end Sys2Proof.Machine
end

