-- ==== Sys2Proof/Safety.lean ====
section
/-! DEFINITION. The words the statements are written in: which blocks a command may change, when a request executes, what it is
answered, what a refusal leaves; and the laws of the device (the manual names twelve) as predicates on the state. -/

namespace Sys2Proof.Machine

/-! ## What a command leaves alone -/

/-- The items of the state, for frame statements. -/
inductive Block where
  | time | straps | cues | texts | engine | run | beat | heads | link | arbiter | watch | ports | pending | due | choices
deriving DecidableEq, Repr

/-- Two states agree in a block. -/
def Block.same : Block → State → State → Prop
  | .time, s, t => t.cardTime = s.cardTime
  | .straps, s, t => t.straps = s.straps
  | .cues, s, t => t.cues = s.cues
  | .texts, s, t => t.texts = s.texts
  | .engine, s, t => t.engine = s.engine
  | .run, s, t => t.run = s.run
  | .beat, s, t => t.beat = s.beat
  | .heads, s, t => t.heads = s.heads
  | .link, s, t => t.link = s.link
  | .arbiter, s, t => t.arbiter = s.arbiter
  | .watch, s, t => t.watch = s.watch
  | .ports, s, t => t.ports = s.ports
  | .pending, s, t => t.pending = s.pending
  | .due, s, t => t.due = s.due
  | .choices, s, t => t.choices = s.choices

/-- The two states agree in every block but those listed. -/
def OnlyChanges (bs : List Block) (s t : State) : Prop := ∀ b : Block, b ∉ bs → b.same s t

/-- What a port keeps when causes are raised on it and frames made and sent: all but the cause sets, the frames and a waiting
SYNC. -/
def PortUnit.SameButFrames (u v : PortUnit) : Prop :=
  v.receiver = u.receiver ∧ v.inBreak = u.inBreak ∧ v.queue = u.queue ∧ v.locked = u.locked ∧
    v.lockPolicy = u.lockPolicy ∧ v.capture = u.capture ∧ v.listing = u.listing ∧ v.enabled = u.enabled

/-- Every port keeps what `PortUnit.SameButFrames` says. -/
def PortsKeepState (s t : State) : Prop := ∀ q : Port, (s.port q).SameButFrames (t.port q)

/-- No port but this one changes. -/
def OtherPortsSame (p : Port) (s t : State) : Prop := ∀ q : Port, q ≠ p → t.port q = s.port q

/-- The cause with this detail is pending on all three ports (R161, R162). -/
def RaisedOnAll (t : State) (r : Raise) : Prop := ∀ q : Port, r ∈ (t.port q).pending

/-- Between s and t just these raises of one cause have come on all three ports, in this order (R161, R162). With none, what is
pending and repeated of the cause stays. Else the last is pending, and the cause is in the repeat set where it was there, was
pending already, or came more than once. That the last one alone is pending of the cause is the law `CauseSetsLaw`. -/
structure RaisedJust (s t : State) (x : Cause) (rs : List Raise) : Prop where
  unraised : rs = [] → ∀ q, (∀ r : Raise, r.cause = x → (r ∈ (t.port q).pending ↔ r ∈ (s.port q).pending)) ∧
    hasCause (t.port q).repeats x = hasCause (s.port q).repeats x
  last : ∀ r, rs.getLast? = some r → RaisedOnAll t r
  again : rs ≠ [] → ∀ q, hasCause (t.port q).repeats x =
    (hasCause (s.port q).repeats x || (s.port q).isPending x || decide (2 ≤ rs.length))

/-- No cause but those listed is raised on any port. -/
def OnlyRaises (xs : List Cause) (s t : State) : Prop := ∀ x, x ∉ xs → RaisedJust s t x []

/-! ## Requests -/

/-- Nothing is left over from an earlier event: no free transmit line has a frame waiting (R142) and no SYNC that waits for nothing
is unanswered (R150). -/
def Settled (s : State) : Prop := s.settle = s

/-- The request r of kind k executes on the port now and passes the checks before its owner's (R143, R144): its turn has come,
it is not marked for dropping, its length is one the kind allows and the port's profile has every flag it needs. -/
structure Executes (s : State) (p : Port) (k : ReqKind) (r : Request) : Prop where
  turn : s.turn p = some r
  unmarked : r.drop = false
  kind : r.kind = k.code
  length : k.lengthOk r.payload.length = true
  flags : ∀ f ∈ k.needs r.payload, (s.arbiter.roles.get p).profile.has f = true

/-- The newest frame of the port is the response to the request: its tag and kind, the status and what follows it (R172). -/
def Answers (t : State) (p : Port) (r : Request) (st : Status) (pl : List Byte) : Prop :=
  (t.port p).frames.getLast? = some (.answer .response r.tag r.kind (st.code :: pl))

/-- The command refuses the request with a status that does not lock (R145): the response, the refusal capture filled or marked,
REFUSAL raised on the port, and no effect beyond these. -/
def Refuses (i : Instr) (s : State) (p : Port) (r : Request) (st : Status) (extra : List Byte) : Prop :=
  ∃ t, exec i s = .next t ∧ Answers t p r st extra ∧
    (t.port p).capture = (match (s.port p).capture with
      | none => some { tag := r.tag, kind := r.kind, status := st, more := false }
      | some c => some { c with more := true }) ∧
    .refusal r.tag r.kind st ∈ (t.port p).pending ∧
    (t.port p).queue = (s.port p).queue ∧ (t.port p).locked = false ∧
    OnlyChanges [.ports] s t ∧ OtherPortsSame p s t

/-- The command answers the request DONE and does nothing else: a read, or a request that finds nothing to do. -/
def OnlyAnswers (i : Instr) (s : State) (p : Port) (r : Request) (pl : List Byte) : Prop :=
  ∃ t, exec i s = .next t ∧ OnlyChanges [.ports] s t ∧ OtherPortsSame p s t ∧
    (t.port p).frames = (s.port p).frames ++ [.answer .response r.tag r.kind (0x00 :: pl)] ∧
    (s.port p).SameButFrames (t.port p) ∧ (t.port p).sync = (s.port p).sync ∧
    (t.port p).pending = (s.port p).pending ∧ (t.port p).repeats = (s.port p).repeats

/-- The command refuses the request with a status that locks (R145, R146, R130): as `Refuses`, and under lock policy on the port
becomes LOCKED with LOCKED raised, and loses the call right with CALL_LOST or its place in the claim list. -/
def RefusesAndLocks (i : Instr) (s : State) (p : Port) (r : Request) (st : Status) : Prop :=
  ∃ t, exec i s = .next t ∧ Answers t p r st [] ∧
    (t.port p).capture = (match (s.port p).capture with
      | none => some { tag := r.tag, kind := r.kind, status := st, more := false }
      | some c => some { c with more := true }) ∧
    .refusal r.tag r.kind st ∈ (t.port p).pending ∧ (t.port p).queue = (s.port p).queue ∧
    ((s.port p).lockPolicy = false →
      (t.port p).locked = false ∧ OnlyChanges [.ports] s t ∧ OtherPortsSame p s t) ∧
    ((s.port p).lockPolicy = true →
      (t.port p).locked = true ∧ .locked r.tag r.kind st ∈ (t.port p).pending ∧
      OnlyChanges [.ports, .arbiter] s t ∧ t.arbiter.roles = s.arbiter.roles ∧
      (s.arbiter.holder = some p →
        t.arbiter.holder = s.arbiter.claims.head? ∧ t.arbiter.claims = s.arbiter.claims.tail ∧
        .callLost .lock s.arbiter.claims.head? ∈ (t.port p).pending ∧
        (∀ q, s.arbiter.claims.head? = some q → .callGranted .passed (some p) ∈ (t.port q).pending) ∧
        (∀ q, q ≠ p → s.arbiter.claims.head? ≠ some q → t.port q = s.port q)) ∧
      (s.arbiter.holder ≠ some p →
        t.arbiter.holder = s.arbiter.holder ∧
        t.arbiter.claims = s.arbiter.claims.filter (fun q => decide (q ≠ p)) ∧ OtherPortsSame p s t))

/-- Causes raised on a port one after another, as its pending set takes them (R162). -/
def raisedInto (pending : List Raise) (rs : List Raise) : List Raise := rs.foldl (fun l r => putRaise r l) pending

/-- The command answers the request DONE with these bytes after the status, changes no block but those listed, leaves every port's
own state alone, and raises on each port just the causes named for it. -/
structure Completes (i : Instr) (s : State) (p : Port) (r : Request) (pl : List Byte) (bs : List Block)
    (raised : Port → List Raise) (t : State) : Prop where
  runs : exec i s = .next t
  answer : Answers t p r .done pl
  frame : OnlyChanges bs s t
  ports : PortsKeepState s t
  causes : ∀ q, (t.port q).pending = raisedInto (s.port q).pending (raised q)

/-- The port q alone gets these causes. -/
def onlyOn (q : Port) (rs : List Raise) : Port → List Raise := fun x => if x = q then rs else []

/-- What every firing does (R29, R30, R32, R156, R157): the position, the FOLLOW entry (none by a BACK, R36), the watches and the
lamp; WATCH where the condition is true, FIRED, and END_REACHED where no standby cue is left; and what it leaves alone. -/
structure FiringDone (s t : State) (n : CueNum) (o : Origin) (k : FiringKind) : Prop where
  position : t.engine = {
    state := .running
    heldFrom := s.engine.heldFrom
    current := some n
    standby := (cueAfter s.cues n).map CueRec.num }
  follow : t.run.entries.filter RunEntry.isFollow =
    (if k = .back then none
     else ((cueAfter s.cues n).bind (fun c => findCue s.cues c.num)).bind followFor).toList
  watches : t.watch = s.watch.afterFiring n
  watchRaised : RaisedJust s t .watch
    (if s.watch.condition n = true then [.watch n (s.watch.w0.compares n) (s.watch.w1.compares n)] else [])
  firedRaised : RaisedJust s t .fired [.fired n o k]
  endRaised : RaisedJust s t .endReached (if cueAfter s.cues n = none then [.endReached n] else [])
  otherCauses : OnlyRaises [.watch, .fired, .endReached, .overrun, .skipped, .outOfStep] s t
  frame : OnlyChanges [.engine, .run, .heads, .texts, .link, .watch, .ports] s t
  ports : PortsKeepState s t

/-- The optional cue number of OPEN and GO: no bytes or three (R171). -/
def optCueOf : List Byte → Option CueNum
  | [lo, hi, mi] => some (cueOf lo hi mi)
  | _ => none

/-- What a cue's change does to a head's slot on that layer: the slot after it, the commands asked for and the cue of a displaced
next part (R82 to R88); a head that takes no change keeps its slot and asks for nothing. -/
def moveFor (c : CueRec) (x : Head) (l : Layer) : SlotMove :=
  match c.changeFor x with
  | some (.put part) => (x.slot l).put part
  | some (.clear cue) => (x.slot l).clear cue
  | none => { slot := x.slot l, asks := [], displaced := none }

/-- A slot after a cue's change has reached its head on that layer (R82 to R85). -/
def slotAfter (c : CueRec) (x : Head) (l : Layer) : Slot := (moveFor c x l).slot

/-- The screen image after a cue's change has been applied to the group-layers named: the slots of the enabled heads of those groups
on those layers took it, every other slot is as it was, and no head changed its state or settings. -/
def AppliedTo (applied : GroupId → Layer → Prop) (c : CueRec) (s t : State) : Prop :=
  ∀ (h : HeadId) (l : Layer),
    (t.head h).state = (s.head h).state ∧ (t.head h).lang = (s.head h).lang ∧ (t.head h).group = (s.head h).group ∧
    (t.head h).gap = (s.head h).gap ∧
    ((s.head h).enabled = true → applied (s.head h).group l → (t.head h).slot l = slotAfter c (s.head h) l) ∧
    ((s.head h).enabled = false ∨ ¬ applied (s.head h).group l → (t.head h).slot l = (s.head h).slot l)

/-- A move of one slot: its head, its layer and what the transition does. -/
abbrev HeadMove := HeadId × Layer × SlotMove

/-- The moves of a cue's change on these group-layers, in their order, and on each the enabled heads of the group in ascending
address order (R31, R82). -/
def changeMoves (s : State) (c : CueRec) (gls : List (GroupId × Layer)) : List HeadMove :=
  gls.flatMap (fun gl =>
    (allHeads.filter (fun h => (s.head h).enabled && decide ((s.head h).group = gl.1))).map
      (fun h => (h, gl.2, moveFor c (s.head h) gl.2)))

/-- The moves of CLOSE: a clear of BASE and then of OVER, carrying no cue, on every enabled head in ascending address order
(R42, R82). -/
def closeMoves (s : State) : List HeadMove :=
  (allHeads.filter (fun h => (s.head h).enabled)).flatMap (fun h =>
    [(h, .base, (s.head h).baseSlot.clear none), (h, .overlay, (s.head h).overSlot.clear none)])

/-- The commands of these moves asked of the Link Controller one after another (R87). What one ask does is stated in
`Obligations.FadeEndsAndAskedCommands`. -/
def State.askMoves (s : State) (ms : List HeadMove) : State :=
  ms.foldl (fun t m => m.2.2.asks.foldl (fun u a => u.ask m.1 m.2.1 a) t) s

/-- The next parts these moves displace, in order: head, layer and cue (R88). -/
def displacedBy (ms : List HeadMove) : List (HeadId × Layer × CueNum) :=
  ms.filterMap (fun m => m.2.2.displaced.map (fun c => (m.1, m.2.1, c)))

/-- What the moves ask for and raise (R87, R88, R104): the display link, the out-of-step flags and OUT_OF_STEP are as if their
commands had been asked for one after another, and OVERRUN is raised on every port for each displaced next part, in their
order. -/
structure MovesMade (s : State) (ms : List HeadMove) (t : State) : Prop where
  link : t.link = (s.askMoves ms).link
  flags : ∀ h, (t.head h).outOfStep = ((s.askMoves ms).head h).outOfStep
  outOfStepRaised : RaisedJust (s.askMoves ms) t .outOfStep []
  overrun : RaisedJust s t .overrun ((displacedBy ms).map (fun d => .overrun d.1 d.2.1 d.2.2))

/-- The group-layers of a cue on which its change is deferred: those whose floor is above 0 (R54). -/
def deferredBy (s : State) (c : CueRec) : List (GroupId × Layer) :=
  c.body.groupLayers.filter (fun gl => decide ((s.run.table gl.1 gl.2).floor ≠ 0))

/-- A DEFERRED entry that waits on one of these group-layers, with the new change's cue and origin; any other entry as it is (R54). -/
def RunEntry.superseded (gls : List (GroupId × Layer)) (n : CueNum) (o : Origin) : RunEntry → RunEntry
  | .deferred g l n' o' => if (g, l) ∈ gls then .deferred g l n o else .deferred g l n' o'
  | .follow c m full left => .follow c m full left

/-- The SKIPPED causes of a firing's deferrals, in order: group, layer and the superseded cue (R54). -/
def skippedBy (s : State) (c : CueRec) : List Raise :=
  (deferredBy s c).filterMap (fun gl =>
    (s.run.entries.find? (RunEntry.waitsOn gl.1 gl.2)).map (fun e => .skipped gl.1 gl.2 e.cue))

/-- A firing by GO or FOLLOW has offered its cue's change to each group-layer of the cue (R31, R51, R53, R54): applied where the
floor is 0, else deferred, in place of a waiting entry with SKIPPED raised, or as the newest entry where none waits; the other
group-layers are left alone, and every entry keeps its place. -/
structure OffersDone (s t : State) (c : CueRec) (o : Origin) : Prop where
  image : AppliedTo (fun g l => (g, l) ∈ c.body.groupLayers ∧ (s.run.table g l).floor = 0) c s t
  moves : MovesMade s
    (changeMoves s c (c.body.groupLayers.filter (fun gl => decide ((s.run.table gl.1 gl.2).floor = 0)))) t
  applied : ∀ g l, (g, l) ∈ c.body.groupLayers → (s.run.table g l).floor = 0 →
    t.run.table g l = { owner := some c.num, floor := c.body.floor } ∧
    t.run.entries.filter (RunEntry.waitsOn g l) = []
  deferred : ∀ g l, (g, l) ∈ c.body.groupLayers → (s.run.table g l).floor ≠ 0 →
    t.run.table g l = s.run.table g l ∧
    t.run.entries.filter (RunEntry.waitsOn g l) = [.deferred g l c.num o]
  others : ∀ g l, (g, l) ∉ c.body.groupLayers →
    t.run.table g l = s.run.table g l ∧
    t.run.entries.filter (RunEntry.waitsOn g l) = s.run.entries.filter (RunEntry.waitsOn g l)
  order : t.run.entries =
    (s.run.entries.filter (fun e => !e.isFollow) ++ t.run.entries.filter RunEntry.isFollow).map
        (RunEntry.superseded (deferredBy s c) c.num o) ++
      ((deferredBy s c).filter (fun gl => !s.run.entries.any (RunEntry.waitsOn gl.1 gl.2))).map
        (fun gl => .deferred gl.1 gl.2 c.num o)
  skipped : RaisedJust s t .skipped (skippedBy s c)

/-- A counted beat at the Run Queue that ends no countdown (R49): the remaining count of a BEATS countdown falls by one; its cue and
its full count, every other entry and the group-layer table stay. -/
structure BeatCounted (s t : State) : Prop where
  entries : t.run.entries = s.run.entries.map (fun e => match e with
    | .follow c .beats full n => .follow c .beats full (n - 1)
    | y => y)
  baseTable : t.run.baseTable = s.run.baseTable
  overTable : t.run.overTable = s.run.overTable

/-- The good bytes received one after another on a port. -/
def State.afterBytes (p : Port) : List Byte → State → Option State
  | [], s => some s
  | b :: bs, s => match exec (.callerByteReceived p b true) s with
    | .next t => t.afterBytes p bs
    | _ => none

/-- A cue record that passes the tests of R2, with every time a multiple of its step. -/
def CueRec.WellFormed (c : CueRec) : Prop :=
  c.num.valid = true ∧
  (match c.body with
    | .title _ groups texts fadeIn fadeOut floor =>
      groups ≠ 0 ∧ texts ≠ [] ∧ texts.length ≤ 8 ∧ texts.Pairwise (fun a b => a.lang < b.lang) ∧
        (∀ e ∈ texts, e.text ≤ 16383) ∧ fadeIn ≤ 2550 ∧ fadeIn % 10 = 0 ∧ fadeOut ≤ 2550 ∧ fadeOut % 10 = 0 ∧
        floor ≤ 5000 ∧ floor % 100 = 0
    | .clear _ groups floor => groups ≠ 0 ∧ floor ≤ 5000 ∧ floor % 100 = 0
    | .mark => True) ∧
  (match c.trigger with
    | .manual => True
    | .afterTime ms => 10 ≤ ms ∧ ms ≤ 600000 ∧ ms % 10 = 0
    | .afterBeats n => 1 ≤ n ∧ n ≤ 255)

/-- The cue number is in use by the show (R12). -/
def CueInUse (s : State) (n : CueNum) : Prop :=
  s.engine.current = some n ∨ s.engine.standby = some n ∨ ∃ e ∈ s.run.entries, e.cue = n

/-- A layer slot of some head names the text (R16). -/
def TextOnScreen (s : State) (i : Nat) : Prop := ∃ (h : HeadId) (l : Layer), i ∈ ((s.head h).slot l).names

/-- The commands of the display link without their ids and sequence numbers, oldest first. -/
def State.commands (s : State) : List (HeadId × CmdBody) := s.link.queue.map (fun c => (c.head, c.body))

/-! ## The display link -/

/-- What the catch-up adds to the command queue (R105): for each out-of-step head, in ascending address order, its refresh where it
is ONLINE and its PROBE where it is PROBING. -/
def State.catchUpCommands (s : State) : List (HeadId × CmdBody) :=
  allHeads.flatMap (fun h =>
    if (s.head h).outOfStep = true ∧ (s.head h).state = .online then
      [(h, refreshBody (s.head h).baseSlot .base s.texts), (h, refreshBody (s.head h).overSlot .overlay s.texts)]
    else if (s.head h).outOfStep = true ∧ (s.head h).state = .probing then [(h, .probe)]
    else [])

/-- Commands have left and these stay (R105): in t they stand in their order; with 16 or fewer of them the out-of-step heads of s
are caught up behind them and their flags cleared; else no head is touched. -/
structure CatchesUp (s : State) (stay : List (HeadId × CmdBody)) (t : State) : Prop where
  commands : t.commands = stay ++ (if stay.length ≤ 16 then s.catchUpCommands else [])
  heads : ∀ h, t.head h =
    if stay.length ≤ 16 ∧ ((s.head h).state = .online ∨ (s.head h).state = .probing) then
      { s.head h with outOfStep := false }
    else s.head h

/-- The phase has returned to NONE and the link goes on (R106): the oldest command of t takes the sequence number that was next
in s and its first attempt begins; with none the phase stays NONE. -/
structure LinkGoesOn (s t : State) : Prop where
  idle : t.link.queue = [] → t.link.phase = .none ∧ t.link.attempts = 0 ∧ t.link.nextSeq = s.link.nextSeq
  starts : ∀ c rest, t.link.queue = c :: rest →
    c.seq = some s.link.nextSeq ∧ t.link.nextSeq = s.link.nextSeq + 1 ∧ t.link.attempts = 1 ∧
      t.link.phase = .sending (5 * (7 + c.body.payload.length)) false

/-- Every waiting SYNC has been told which commands left (R118, R150): they are taken out of its waiting set, and counted where they
left other than acknowledged; while the set is not empty it waits on, and at once when it is empty it is answered DONE with
the number waited for and the number that left other than acknowledged. No SYNC begins to wait. -/
structure SyncsTold (s : State) (gone : List Nat) (acked : Bool) (t : State) : Prop where
  noneBegins : ∀ q, (s.port q).sync = none → (t.port q).sync = none
  told : ∀ q w stay left unacked, (s.port q).sync = some w → stay = w.waiting.filter (fun i => !gone.contains i) →
    left = (w.waiting.filter (fun i => gone.contains i)).length →
    unacked = (if acked = true then w.unacked else w.unacked + left) →
    (stay ≠ [] → (t.port q).sync = some { waiting := stay, total := w.total, unacked := unacked }) ∧
    (stay = [] → ∀ r rest, (s.port q).queue = r :: rest →
      (t.port q).sync = none ∧ Answers t q r .done [byteOf w.total, byteOf unacked])

/-! ## The order of cue numbers -/

/-- The record with the smallest number of those with the property, or none where no record has it. -/
def SmallestOf (cues : List CueRec) (p : CueNum → Prop) : Option CueRec → Prop
  | some c => c ∈ cues ∧ p c.num ∧ ∀ d ∈ cues, p d.num → d = c ∨ c.num.lt d.num = true
  | none => ∀ d ∈ cues, ¬ p d.num

/-- The record with the largest number of those with the property, or none where no record has it. -/
def LargestOf (cues : List CueRec) (p : CueNum → Prop) : Option CueRec → Prop
  | some c => c ∈ cues ∧ p c.num ∧ ∀ d ∈ cues, p d.num → d = c ∨ d.num.lt c.num = true
  | none => ∀ d ∈ cues, ¬ p d.num

/-! ## The laws of the device

The manual numbers twelve. Law 7 (nothing fires while HELD) and law 12 (a capture keeps its content) are about steps; law 8 (which
parts a slot has in which state) holds by the type `Slot`. The others are predicates on a state. -/

/-- The cue table and the text store stand in strictly ascending order (R1, R4). -/
def StoresAscending (s : State) : Prop := cuesAscending s.cues = true ∧ textsAscending s.texts = true

/-- The stores stay within their limits: 2,048 cue records (R1), 16,384 text records and 1,048,576 bytes in all (R5), and each text
has an id, a length and a line count in range (R4). -/
structure StoreLimits (s : State) : Prop where
  cues : s.cues.length ≤ 2048
  texts : s.texts.length ≤ 16384
  bytes : byteTotal s.texts ≤ 1048576
  each : ∀ t ∈ s.texts, t.id ≤ 16383 ∧ t.bytes ≠ [] ∧ t.bytes.length ≤ 192 ∧ lineCount t.bytes ≤ 3

/-- Each port's pending set holds a cause at most once, in ascending code order (R162, R165, R171), and a cause that is in the repeat
set is pending (R162). -/
structure CauseSetsLaw (s : State) : Prop where
  ascending : ∀ p, (s.port p).pending.Pairwise (fun a b => a.cause.code < b.cause.code)
  repeatsPending : ∀ p x, hasCause (s.port p).repeats x = true → (s.port p).isPending x = true

/-- Law 1 (R124): the claim list names at most two ports, none twice and never the holder, HIGH ring before LOW; it is empty while
the right is FREE, and every port in it, like the holder, has CALL. Law 10 (R146): a LOCKED port neither holds the right nor
stands in the list. -/
structure CallRightLaw (s : State) : Prop where
  atMostTwo : s.arbiter.claims.length ≤ 2
  noneTwice : s.arbiter.claims.Nodup
  notHolder : ∀ p, s.arbiter.holder = some p → p ∉ s.arbiter.claims
  emptyWhenFree : s.arbiter.holder = none → s.arbiter.claims = []
  highFirst : s.arbiter.claims.Pairwise (fun p q => s.arbiter.ring q = .high → s.arbiter.ring p = .high)
  haveCall : ∀ p, s.arbiter.holder = some p ∨ p ∈ s.arbiter.claims → (s.arbiter.roles.get p).profile.has .call = true
  lockedHoldsNothing : ∀ p, (s.port p).locked = true → s.arbiter.holder ≠ some p ∧ p ∉ s.arbiter.claims

/-- Law 11 (R141): a request queue holds at most 8 requests. -/
def RequestQueueLaw (s : State) : Prop := ∀ p, (s.port p).queue.length ≤ Config.maxRequests

/-- Law 5 (R46): at most one FOLLOW entry, at most one DEFERRED entry for a group-layer, none in IDLE or READY. A show held from
READY has an empty queue too (R46, R59), and a DEFERRED entry waits only where the floor is above 0 (R55). -/
structure RunQueueLaw (s : State) : Prop where
  deferredWaits : ∀ g l, s.run.entries.any (RunEntry.waitsOn g l) = true → (s.run.table g l).floor ≠ 0
  oneFollow : (s.run.entries.filter RunEntry.isFollow).length ≤ 1
  oneDeferred : ∀ g l, (s.run.entries.filter (RunEntry.waitsOn g l)).length ≤ 1
  emptyWhenIdleOrReady : s.engine.state = .idle ∨ s.engine.state = .ready → s.run.entries = []
  emptyWhenHeldFromReady : s.engine.state = .held → s.engine.heldFrom = .ready → s.run.entries = []

/-- Law 2 (R11): the current cue, the standby cue and every cue a Run Queue entry names are in the cue table. -/
structure PositionLaw (s : State) : Prop where
  current : ∀ n, s.engine.current = some n → (findCue s.cues n).isSome = true
  standby : ∀ n, s.engine.standby = some n → (findCue s.cues n).isSome = true
  entries : ∀ e ∈ s.run.entries, (findCue s.cues e.cue).isSome = true

/-- Which cues the show position holds in which state (the table of R22). -/
structure ShowStateLaw (s : State) : Prop where
  idle : s.engine.state = .idle → s.engine.current = none ∧ s.engine.standby = none
  ready : s.engine.state = .ready → s.engine.current = none ∧ s.engine.standby.isSome = true
  running : s.engine.state = .running → s.engine.current.isSome = true
  held : s.engine.state = .held →
    if s.engine.heldFrom = .ready then s.engine.current = none ∧ s.engine.standby.isSome = true
    else s.engine.current.isSome = true

/-- Law 6 (R47): a FOLLOW entry names the standby cue, which has the automatic trigger the entry was made from, and no more than
the full count remains. -/
def FollowLaw (s : State) : Prop :=
  ∀ c m full n, .follow c m full n ∈ s.run.entries →
    s.engine.standby = some c ∧ n ≤ full ∧
      ∃ x, findCue s.cues c = some x ∧ followFor x = some (.follow c m full full)

/-- Law 9 (R102): the command queue holds at most 64 commands, each a PUT or TAKE for an ONLINE head or the one PROBE of a PROBING
head; an out-of-step PROBING head has none, and an ABSENT or FAULT head is not out of step (R79). No two commands share the
serial number by which a SYNC names them (log entry 4), and a waiting SYNC waits for commands of the queue alone (R150). -/
structure CommandQueueLaw (s : State) : Prop where
  atMost : s.link.queue.length ≤ Config.maxCommands
  addressed : ∀ c ∈ s.link.queue,
    if c.body = .probe then (s.head c.head).state = .probing else (s.head c.head).state = .online
  oneProbe : ∀ h, (s.head h).state = .probing → (s.link.queue.filter (fun c => decide (c.head = h))).length ≤ 1
  noneOutOfStep : ∀ h, (s.head h).state = .probing → (s.head h).outOfStep = true →
    s.link.queue.filter (fun c => decide (c.head = h)) = []
  inStep : ∀ h, (s.head h).state = .absent ∨ (s.head h).state = .fault → (s.head h).outOfStep = false
  idsDistinct : (s.link.queue.map Command.id).Nodup
  idsGiven : ∀ c ∈ s.link.queue, c.id < s.link.nextId
  syncsWaitHere : ∀ p w, (s.port p).sync = some w → ∀ i ∈ w.waiting, i ∈ s.link.queue.map Command.id

/-- The in-flight phase (R100, R106): with no command in flight the attempt count is 0; in NONE the queue is empty; a command in
flight is the oldest of the queue, has its sequence number and has been sent at least once. -/
structure LinkPhaseLaw (s : State) : Prop where
  empty : s.link.phase = .none → s.link.queue = [] ∧ s.link.attempts = 0
  tail : ∀ n, s.link.phase = .sending n true → s.link.attempts = 0
  inFlight : s.link.phase ≠ .none → (∀ n, s.link.phase ≠ .sending n true) →
    (∃ c, s.link.queue.head? = some c ∧ c.seq.isSome = true) ∧ 1 ≤ s.link.attempts ∧ s.link.attempts ≤ Config.maxAttempts

/-- The text ids that all slots name (R6). -/
def State.slotNames (s : State) : List Nat :=
  allHeads.flatMap (fun h => (s.head h).baseSlot.names ++ (s.head h).overSlot.names)

/-- The text ids that all cues name (R6). -/
def State.cueNames (s : State) : List Nat := s.cues.flatMap CueRec.names

/-- Laws 3 and 4 (R2, R6, R8): every cue is well formed, so that none lists a language twice; every text that a cue or a slot names is
present; and every record's reference count is the number of cue entries and slot parts that name it. -/
structure ReferenceLaw (s : State) : Prop where
  wellFormed : ∀ c ∈ s.cues, c.WellFormed
  languages : ∀ c ∈ s.cues, (c.body.texts.map TextEntry.lang).Nodup
  present : ∀ i ∈ s.cueNames ++ s.slotNames, (findText s.texts i).isSome = true
  exact : ∀ t ∈ s.texts, t.refs = s.cueNames.count t.id + s.slotNames.count t.id

/-- A step from s keeps a property. -/
def KeptByStep (Inv : State → Prop) : Prop := ∀ s t, Inv s → step s = .next t → Inv t

end Sys2Proof.Machine
end

