-- ==== Sys2Proof/Certificates/Slice0/Obligations.lean ====
section
/-! DEFINITION. The statements for the provers. Each is a closed proposition about every state, every port and every request; the
words it uses are in `Sys2Proof/Safety.lean`. -/

set_option Elab.async false

open Sys2Proof Sys2Proof.Machine

/-! ## The step and the reset -/

/-- A step takes the command at the front of the queue and executes it with the queue's rest. The queue of commands is the
form of this model (log entry 2). -/
def Obligations.StepTakesFrontCommand : Prop :=
  ∀ (c : Instr) (s : State), step (s.withPending (c :: s.pending)) = exec c s

/-- With no command waiting a step either puts one ready thing into the queue, or lets one millisecond of card time pass
where nothing is ready (the model's own choice, log entries 2 and 3). In that millisecond a TIME countdown and every floor
lose one in RUNNING alone, every fade loses one in every show state, and a count whose end comes with this millisecond makes
its event due and stands at its last one until the event is taken (R50, R52, R58, R81; log entry 2). Every command completes
in every state (log entry 20), and leaves alone what waits outside the card (POWER_ON and RESET too, log entry 17); none but
a LINE_BREAK makes a free choice (log entry 24). -/
def Obligations.EveryStepIsAnsweredByTheMachine : Prop :=
  (∀ s : State, s.pending = [] → ∃ t, step s = .next t ∧
    (s.ready = [] → t.cardTime = s.cardTime + 1 ∧ t.pending = [] ∧
      OnlyChanges [.time, .run, .heads, .link, .ports, .due] s t ∧
      (s.engine.state ≠ .running → t.run = s.run) ∧
      (s.engine.state = .running →
        t.run.entries = s.run.entries.map (fun e => match e with
          | .follow c .time full n => .follow c .time full (if n ≤ 1 then n else n - 1)
          | y => y) ∧
        ∀ g l, t.run.table g l = { s.run.table g l with
          floor := if (s.run.table g l).floor ≤ 1 then (s.run.table g l).floor else (s.run.table g l).floor - 1 }) ∧
      (∀ h, (t.head h).state = (s.head h).state ∧ (t.head h).lang = (s.head h).lang ∧
        (t.head h).group = (s.head h).group ∧ (t.head h).gap = (s.head h).gap ∧
        (t.head h).outOfStep = (s.head h).outOfStep) ∧
      (∀ h l, (t.head h).slot l = (match (s.head h).slot l with
        | .rising shown f => .rising shown (if f ≤ 1 then f else f - 1)
        | .falling shown next f => .falling shown next (if f ≤ 1 then f else f - 1)
        | y => y)) ∧
      (.followExpiry ∈ t.due ↔
        s.engine.state = .running ∧ ∃ c full n, .follow c .time full n ∈ s.run.entries ∧ n ≤ 1) ∧
      (∀ g l, .floorEnd g l ∈ t.due ↔ s.engine.state = .running ∧ (s.run.table g l).floor = 1) ∧
      (∀ h l, .fadeEnd h l ∈ t.due ↔ ∃ shown f, f ≤ 1 ∧
        ((s.head h).slot l = .rising shown f ∨ ∃ next, (s.head h).slot l = .falling shown next f))) ∧
    (s.ready ≠ [] → (∃ c ∈ s.ready, t.pending = [c] ∧ t.due = s.due.erase c) ∧
      OnlyChanges [.pending, .due, .choices] s t)) ∧
  (∀ (c : Instr) (s : State), ∃ t, exec c s = .next t ∧ t.pending = s.pending ∧
    ((∀ p, c ≠ .lineBreak p) → t.choices = s.choices))

/-- POWER_ON and RESET give every block its reset value, with the profiles and rings the straps select; and each profile
carries the flags of its row. That the waiting commands stay, and that no line is in a break after a reset, is the model's
choice (log entries 17 and 16). -/
def Obligations.PowerOnAndResetGiveResetValues : Prop :=
  (∀ (s : State) (straps : Straps) (high : Bool),
    exec (.powerOn straps high) s = exec (.reset straps high) s ∧
    ∃ t, exec (.powerOn straps high) s = .next t ∧
      t.cardTime = 0 ∧ t.straps = straps ∧ t.cues = [] ∧ t.texts = [] ∧
      t.engine = { state := .idle, heldFrom := .ready, current := none, standby := none } ∧
      t.run.entries = [] ∧ (∀ g l, t.run.table g l = { owner := none, floor := 0 }) ∧
      t.beat = { source := .off, edge := .rising, guard := 150, settling := false, lastAccepted := none, level := high } ∧
      (∀ h, (t.head h).state = .absent ∧ (t.head h).lang = 0 ∧ (t.head h).group = 0 ∧ (t.head h).gap = .blank ∧
        (t.head h).outOfStep = false ∧ (t.head h).baseSlot = .dark ∧ (t.head h).overSlot = .dark) ∧
      t.link.queue = [] ∧ t.link.phase = .none ∧ t.link.attempts = 0 ∧ t.link.nextSeq = 0 ∧ t.link.retryLimit = 3 ∧
      t.link.holdOff = 2 ∧ t.link.capture = none ∧
      t.arbiter.holder = none ∧ t.arbiter.claims = [] ∧
      (∀ p, (straps.of p = 0 → t.arbiter.roles.get p = { profile := .observer, ring := .low }) ∧
        (straps.of p = 1 → t.arbiter.roles.get p = { profile := .desk, ring := .low }) ∧
        (straps.of p = 2 → t.arbiter.roles.get p = { profile := .backup, ring := .low }) ∧
        (straps.of p = 3 → t.arbiter.roles.get p = { profile := .stage, ring := .high })) ∧
      t.watch.w0 = { type := .off, value := { major := 1, minor := 0 }, matched := false } ∧ t.watch.w1 = t.watch.w0 ∧
      t.watch.combine = .or ∧ t.watch.silent = false ∧ t.watch.line = false ∧
      (∀ p, (t.port p).receiver = .hunting ∧ (t.port p).inBreak = false ∧ (t.port p).queue = [] ∧
        (t.port p).locked = false ∧ (t.port p).lockPolicy = true ∧ (t.port p).capture = none ∧
        (t.port p).listing = none ∧ (t.port p).sync = none ∧ (t.port p).frames = [] ∧ (t.port p).pending = [] ∧
        (t.port p).repeats = 0 ∧ (t.port p).enabled = 0) ∧
      t.pending = s.pending) ∧
  (∀ (pr : Profile) (f : Flag), pr.has f = true ↔
    (pr = .desk ∧ (f = .call ∨ f = .edit)) ∨
    (pr = .backup ∧ (f = .call ∨ f = .edit ∨ f = .takeover)) ∨
    (pr = .stage ∧ (f = .call ∨ f = .hold ∨ f = .takeover ∨ f = .admin)))

/-- The machine right after reset obeys every law of the device and is settled. Its straps and BEAT level are the model's
choice (log entry 1). -/
def Obligations.ResetStateIsLawful : Prop :=
  StoresAscending State.reset ∧ CallRightLaw State.reset ∧ RequestQueueLaw State.reset ∧ RunQueueLaw State.reset ∧
    PositionLaw State.reset ∧ FollowLaw State.reset ∧ ShowStateLaw State.reset ∧ CommandQueueLaw State.reset ∧
    LinkPhaseLaw State.reset ∧ ReferenceLaw State.reset ∧ StoreLimits State.reset ∧ CauseSetsLaw State.reset ∧
    Settled State.reset

/-! ## Invariants of every step -/

/-- The cue table and the text store keep their strictly ascending order and their limits (2,048 cues, 16,384 texts,
1,048,576 bytes, and each text's own); no request queue ever holds more than 8 requests; each port's pending set holds a
cause at most once, in ascending code order, and every repeated cause; and between events no free transmit line has a
frame waiting and no SYNC that waits for nothing is unanswered. When in an event a frame begins and where a SYNC's answer
stands is read by inference (log entries 10 and 11). -/
def Obligations.EveryStepKeepsStoresQueuesAndLines : Prop :=
  (KeptByStep StoresAscending) ∧
  (KeptByStep (fun s => StoresAscending s ∧ StoreLimits s)) ∧
  (KeptByStep RequestQueueLaw) ∧
  (KeptByStep CauseSetsLaw) ∧
  (KeptByStep Settled)

/-- The laws of the call right and the claim list, and the tenth law (a LOCKED port holds and claims nothing). -/
def Obligations.EveryStepKeepsTheCallRightLaw : Prop :=
 KeptByStep CallRightLaw

/-- The fifth law (one FOLLOW entry, one DEFERRED entry for each group-layer, none in IDLE or READY), and which cues the show position
holds in which show state. -/
def Obligations.EveryStepKeepsTheRunQueueAndShowStateLaws : Prop :=
  (KeptByStep RunQueueLaw) ∧
  (KeptByStep ShowStateLaw)

/-- The second and sixth laws: what the show names is in the table, and the FOLLOW entry names the standby cue. -/
def Obligations.EveryStepKeepsThePositionAndFollowLaws : Prop :=
  KeptByStep (fun s => RunQueueLaw s ∧ PositionLaw s ∧ FollowLaw s)

/-- The ninth law: the command queue is bounded and each command is addressed to a head that may have it. The serial numbers
by which a SYNC names commands are distinct in the queue, and a waiting SYNC waits for commands of the queue alone (the
serial numbers are the model's own choice, log entry 4). -/
def Obligations.EveryStepKeepsTheCommandQueueLaw : Prop :=
 KeptByStep CommandQueueLaw

/-- The in-flight phase, its command and the attempt count stay together. -/
def Obligations.EveryStepKeepsTheLinkPhaseLaw : Prop :=
 KeptByStep LinkPhaseLaw

/-- The third and fourth laws: every cue of the table is well formed and so lists no language twice (R2), every text that a
cue or a slot names is present (R8), and every reference count is exact (R6). -/
def Obligations.EveryStepKeepsTheReferenceLaw : Prop :=
  KeptByStep (fun s => StoresAscending s ∧ ReferenceLaw s)

/-! ## Steps that leave a thing alone -/

/-- The seventh and twelfth laws. While the show is HELD no command but a reset, RELEASE, CLOSE, STANDBY or SET_BEAT touches
the show position, the Run Queue, the group-layer table or the Beat Unit's last accepted beat, nor does a step with no
command waiting. A filled capture keeps its content until it is cleared or reset; only its "more" flag can be set. What a
step does with no command waiting is the model's choice (log entry 2). -/
def Obligations.HeldFreezesAndCapturesKeep : Prop :=
  ((∀ (c : Instr) (s t : State), s.engine.state = .held → exec c s = .next t →
    (∀ st b, c ≠ .powerOn st b) → (∀ st b, c ≠ .reset st b) → (∀ p, c ≠ .release p) → (∀ p, c ≠ .closeShow p) →
    (∀ p, c ≠ .standby p) → (∀ p, c ≠ .setBeat p) →
    t.engine = s.engine ∧ t.run = s.run ∧ t.beat.lastAccepted = s.beat.lastAccepted ∧
      t.beat.settling = s.beat.settling) ∧
  (∀ s t : State, s.engine.state = .held → s.pending = [] → step s = .next t →
    t.engine = s.engine ∧ t.run = s.run ∧ t.beat = s.beat)) ∧
  ((∀ (c : Instr) (s t : State) (p : Port) (x : RefusalCapture), (s.port p).capture = some x → exec c s = .next t →
    (∀ st b, c ≠ .powerOn st b) → (∀ st b, c ≠ .reset st b) → c ≠ .lineBreak p → c ≠ .clearCapture p →
    (t.port p).capture = some x ∨ (t.port p).capture = some { x with more := true }) ∧
  (∀ (c : Instr) (s t : State) (x : LinkCapture), s.link.capture = some x → exec c s = .next t →
    (∀ st b, c ≠ .powerOn st b) → (∀ st b, c ≠ .reset st b) → (∀ p, c ≠ .clearCapture p) →
    t.link.capture = some x ∨ t.link.capture = some { x with more := true }))

/-- What raising a cause does to a port: the repeat set, the pending set and the NOTICE. In a pending set in ascending code
order, as every step keeps it, the detail of an earlier raise is not kept. -/
def Obligations.RaisingACauseActsOnThePortsSets : Prop :=
  ∀ (u : PortUnit) (r : Raise),
    (u.raise r).SameButFrames u ∧ (u.raise r).sending = u.sending ∧ (u.raise r).sync = u.sync ∧
    r ∈ (u.raise r).pending ∧
    (∀ x, x.cause ≠ r.cause → (x ∈ (u.raise r).pending ↔ x ∈ u.pending)) ∧
    (u.pending.Pairwise (fun a b => a.cause.code < b.cause.code) →
      (∀ x ∈ (u.raise r).pending, x.cause = r.cause → x = r) ∧
      (u.raise r).pending.Pairwise (fun a b => a.cause.code < b.cause.code)) ∧
    ((u.raise r).repeats = if u.isPending r.cause = true then addCause u.repeats r.cause else u.repeats) ∧
    (∀ x, hasCause (u.raise r).repeats x = true ↔
      hasCause u.repeats x = true ∨ x = r.cause ∧ ∃ y ∈ u.pending, y.cause = r.cause) ∧
    (hasCause u.enabled r.cause = false → (u.raise r).outgoing = u.outgoing) ∧
    (hasCause u.enabled r.cause = true → (∀ f ∈ u.outgoing, f.noticeOf r.cause = false) →
      (u.raise r).outgoing = u.outgoing ++ [.notice r]) ∧
    (hasCause u.enabled r.cause = true → ∀ (before after : List OutFrame) (x : Raise), x.cause = r.cause →
      u.outgoing = before ++ .notice x :: after → (∀ f ∈ before ++ after, f.noticeOf r.cause = false) →
      (u.raise r).outgoing = before ++ .notice r :: after)

/-! ## The two encodings -/

/-- The receiver reads back the frames the card's own layout writes: their bytes, received one by one on a hunting port, do
what the complete frame does. What FRAME_RECEIVED does whatever the receiver held is read by inference (log entry 8). -/
def Obligations.ReceiverAssemblesFrames : Prop :=
  ∀ (s : State) (p : Port) (tag kind : Byte) (payload : List Byte),
    Settled s → (s.port p).inBreak = false → (s.port p).receiver = .hunting → payload.length ≤ 240 →
    ∃ t, exec (.frameReceived p tag kind payload (frameCrc tag kind payload)) s = .next t ∧
      s.afterBytes p (frameBytes tag kind payload) = some t

/-- PUT_CUE reads the cue-record layout that READ_CUE writes, takes exactly the well-formed records, and drops no byte. -/
def Obligations.CueRecordLayoutReadsBack : Prop :=
  (∀ c : CueRec, c.WellFormed → cueRecOf c.bytes = some c) ∧
  (∀ (pl : List Byte) (c : CueRec), cueRecOf pl = some c → c.WellFormed ∧ c.bytes = pl)

/-- The check value of the nine ASCII digits, the sizes of the two long reads, and the layouts of a caller frame and of a
command's frame on the display link, with their CRC bytes low byte first. -/
def Obligations.FrameSizesAndCheckValue : Prop :=
  crc16 [0x31, 0x32, 0x33, 0x34, 0x35, 0x36, 0x37, 0x38, 0x39] = 0x29B1 ∧
  (∀ (s : State) (p : Port), (s.engine.bytes ++ s.run.bytes ++ s.arbiter.bytes p ++ s.watch.bytes).length =
    112 + 11 * (s.run.entries.filter RunEntry.isFollow).length
      + 7 * (s.run.entries.filter (fun e => !e.isFollow)).length) ∧
  (∀ (s : State) (h : HeadId), (headBytes s h).length = 41) ∧
  (∀ (tag kind : Byte) (payload : List Byte) (lo hi : Byte),
    (crc16 (tag :: kind :: BitVec.ofNat 8 payload.length :: payload)).toNat = lo.toNat + 256 * hi.toNat →
    frameBytes tag kind payload =
      [0xC3, tag, kind, BitVec.ofNat 8 payload.length] ++ payload ++ [lo, hi]) ∧
  (∀ (c : Command) (seq lo hi : Byte) (code : Byte) (payload : List Byte),
    ((∃ l text fade n, c.body = .put l text fade n ∧ code = 0 ∧ payload =
        [if l = .base then 1 else 2, BitVec.ofNat 8 (fade / 10), BitVec.ofNat 8 (n.major % 256),
          BitVec.ofNat 8 (n.major / 256), BitVec.ofNat 8 n.minor] ++ text) ∨
      (∃ l fade n, c.body = .take l fade (some n) ∧ code = 1 ∧ payload =
        [if l = .base then 1 else 2, BitVec.ofNat 8 (fade / 10), BitVec.ofNat 8 (n.major % 256),
          BitVec.ofNat 8 (n.major / 256), BitVec.ofNat 8 n.minor]) ∨
      (∃ l fade, c.body = .take l fade none ∧ code = 1 ∧ payload =
        [if l = .base then 1 else 2, BitVec.ofNat 8 (fade / 10), 0, 0, 0]) ∨
      (c.body = .probe ∧ code = 2 ∧ payload = [])) →
    (crc16 ([BitVec.ofNat 8 c.head.val, seq, code, BitVec.ofNat 8 payload.length] ++ payload)).toNat =
      lo.toNat + 256 * hi.toNat →
    c.frame seq =
      [0xA5, BitVec.ofNat 8 c.head.val, seq, code, BitVec.ofNat 8 payload.length] ++ payload ++ [lo, hi])

/-! ## Checks before the owner -/

/-- A kind the card does not know is refused UNKNOWN, a payload length the kind does not allow FORM, then a missing flag ROLE; each
locks the port under the lock policy. -/
def Obligations.ClassAndRoleChecksRefuseAndLock : Prop :=
  (∀ (s : State) (p : Port) (r : Request), Settled s → s.turn p = some r → r.drop = false → ReqKind.ofCode r.kind = none →
    RefusesAndLocks (.unknownKindRequest p) s p r .unknown) ∧
  (∀ (s : State) (p : Port) (k : ReqKind) (r : Request), Settled s → s.turn p = some r → r.drop = false → r.kind = k.code →
    (k.lengthOk r.payload.length = false → RefusesAndLocks (k.command p) s p r .form) ∧
    (k.lengthOk r.payload.length = true →
      (∃ f ∈ k.needs r.payload, (s.arbiter.roles.get p).profile.has f = false) →
      RefusesAndLocks (k.command p) s p r .role))

/-- A holder request from a port that does not hold the call right is refused NOT_CALLER before every other test of its owner. -/
def Obligations.HolderRequestsNeedTheCallRight : Prop :=
  ∀ (s : State) (p : Port) (k : ReqKind) (r : Request),
    k = .openShow ∨ k = .closeShow ∨ k = .go ∨ k = .back ∨ k = .standby ∨ k = .beat →
    Settled s → Executes s p k r → s.arbiter.holder ≠ some p → Refuses (k.command p) s p r .notCaller []

/-! ## The Show Engine -/

/-- The tests of OPEN, in their order, after the holder test. -/
def Obligations.OpenTests : Prop :=
  ∀ (s : State) (p : Port) (r : Request), Settled s → Executes s p .openShow r → s.arbiter.holder = some p →
    (s.engine.state ≠ .idle → Refuses (.openShow p) s p r .state []) ∧
    (s.engine.state = .idle → (∃ n, optCueOf r.payload = some n ∧ n.valid = false) →
      Refuses (.openShow p) s p r .range []) ∧
    (s.engine.state = .idle → (∀ n, optCueOf r.payload = some n → n.valid = true) →
      (s.cues = [] ∨ ∃ n, optCueOf r.payload = some n ∧ findCue s.cues n = none) →
      Refuses (.openShow p) s p r .noCue [])

/-- OPEN opens the show on the cue given, or on the first cue of the table. On a table in its order the first cue, the next
cue after a number, the cue before it and the first cue not less than it are what 4.1, R1 and R151 say: the smallest, the
smallest greater, the largest less, the smallest not less. -/
def Obligations.OpenOpensTheShow : Prop :=
  (∀ (s : State) (p : Port) (r : Request) (n : CueNum), Executes s p .openShow r → s.arbiter.holder = some p →
    s.engine.state = .idle →
    (optCueOf r.payload = none ∧ (firstCue s.cues).map CueRec.num = some n ∨
      optCueOf r.payload = some n ∧ n.valid = true ∧ (findCue s.cues n).isSome = true) →
    ∃ t, Completes (.openShow p) s p r (cueBytes n) [.engine, .beat, .ports] (fun _ => [.opened n]) t ∧
      t.engine = { s.engine with state := .ready, current := none, standby := some n } ∧
      t.beat = { s.beat with settling := true }) ∧
  (∀ m n : CueNum, m.lt n = true ↔ m.major < n.major ∨ m.major = n.major ∧ m.minor < n.minor) ∧
  (∀ s : State, StoresAscending s →
    SmallestOf s.cues (fun _ => True) (firstCue s.cues) ∧
    ∀ n, SmallestOf s.cues (fun m => n.lt m = true) (cueAfter s.cues n) ∧
      SmallestOf s.cues (fun m => m.lt n = false) (cueFrom s.cues n) ∧
      LargestOf s.cues (fun m => m.lt n = true) (cueBefore s.cues n))

/-- CLOSE is refused in IDLE; else it closes the show, empties the Run Queue and clears the group-layer table, takes every
enabled head's layers down with the TAKE commands and the OVERRUN this brings, changes no head's state or setting, deasserts
the WATCH line and raises CLOSED, and no SKIPPED. -/
def Obligations.CloseTakesTheShowDown : Prop :=
  ∀ (s : State) (p : Port) (r : Request), Executes s p .closeShow r → s.arbiter.holder = some p →
    (Settled s → s.engine.state = .idle → Refuses (.closeShow p) s p r .state []) ∧
    (s.engine.state ≠ .idle → ∃ t, exec (.closeShow p) s = .next t ∧ Answers t p r .done [] ∧
      OnlyChanges [.engine, .run, .heads, .texts, .link, .watch, .ports] s t ∧ PortsKeepState s t ∧
      t.engine = { s.engine with state := .idle, current := none, standby := none } ∧
      t.run.entries = [] ∧ (∀ g l, t.run.table g l = { owner := none, floor := 0 }) ∧
      t.watch = { s.watch with line := false } ∧ RaisedJust s t .closed [.closed p] ∧
      OnlyRaises [.closed, .overrun, .outOfStep] s t ∧ MovesMade s (closeMoves s) t ∧
      ∀ h l, (t.head h).state = (s.head h).state ∧ (t.head h).lang = (s.head h).lang ∧
        (t.head h).group = (s.head h).group ∧ (t.head h).gap = (s.head h).gap ∧
        (t.head h).slot l =
          if (s.head h).enabled = true then (((s.head h).slot l).clear none).slot else (s.head h).slot l)

/-- The tests of GO, in their order, after the holder test. -/
def Obligations.GoTests : Prop :=
  ∀ (s : State) (p : Port) (r : Request), Settled s → Executes s p .go r → s.arbiter.holder = some p →
    (s.engine.state = .idle → Refuses (.go p) s p r .state []) ∧
    (s.engine.state = .held → Refuses (.go p) s p r .held []) ∧
    (s.engine.state = .ready ∨ s.engine.state = .running →
      (∃ n, optCueOf r.payload = some n ∧ n.valid = false) → Refuses (.go p) s p r .range []) ∧
    (s.engine.state = .ready ∨ s.engine.state = .running →
      (∀ n, optCueOf r.payload = some n → n.valid = true) → s.engine.standby = none →
      Refuses (.go p) s p r .atEnd []) ∧
    (s.engine.state = .ready ∨ s.engine.state = .running →
      ∀ n m, optCueOf r.payload = some n → n.valid = true → s.engine.standby = some m → n ≠ m →
      Refuses (.go p) s p r .stale [])

/-- GO fires the standby cue with the port as origin, and answers with the fired cue and the new standby cue. WATCH is raised
where the watches' condition is true and END_REACHED where no standby cue is left, and neither elsewhere. -/
def Obligations.GoFiresTheStandbyCue : Prop :=
  ∀ (s : State) (p : Port) (r : Request) (n : CueNum), Executes s p .go r → s.arbiter.holder = some p →
    s.engine.state = .ready ∨ s.engine.state = .running → s.engine.standby = some n →
    (optCueOf r.payload = none ∨ optCueOf r.payload = some n ∧ n.valid = true) →
    ∃ t, exec (.go p) s = .next t ∧
      Answers t p r .done (cueBytes n ++ optCueBytes ((cueAfter s.cues n).map CueRec.num)) ∧
      FiringDone s t n (.port p) .go

/-- A firing by GO offers its change to each group-layer of its cue: applied where the floor is 0, with the commands it asks
for and the OVERRUN it raises, else deferred: in place of a waiting entry, which keeps its place in the queue, with SKIPPED
raised that names the group, the layer and the superseded cue, or as the newest entry, without SKIPPED, where none waits; the
others are left alone. -/
def Obligations.GoAppliesOrDefersItsChanges : Prop :=
  ∀ (s : State) (p : Port) (r : Request) (n : CueNum) (c : CueRec), RunQueueLaw s → Executes s p .go r →
    s.arbiter.holder = some p → s.engine.state = .ready ∨ s.engine.state = .running → s.engine.standby = some n →
    (optCueOf r.payload = none ∨ optCueOf r.payload = some n ∧ n.valid = true) → findCue s.cues n = some c →
    ∃ t, exec (.go p) s = .next t ∧ OffersDone s t c (.port p)

/-- The tests of BACK, in their order, after the holder test. -/
def Obligations.BackTests : Prop :=
  ∀ (s : State) (p : Port) (r : Request), Settled s → Executes s p .back r → s.arbiter.holder = some p →
    (s.engine.state = .idle ∨ s.engine.state = .ready → Refuses (.back p) s p r .state []) ∧
    (s.engine.state = .held → Refuses (.back p) s p r .held []) ∧
    (s.engine.state = .running → s.engine.current.bind (cueBefore s.cues) = none → Refuses (.back p) s p r .noCue [])

/-- BACK recalls the cue before current: a firing of kind BACK that makes no FOLLOW entry and applies its changes at once,
whatever floor remains, discarding what waits there without SKIPPED, with the commands they ask for and the OVERRUN they
raise; entries that wait elsewhere keep their places. Where the old current cue is in the table a standby cue is left, so that
END_REACHED is not raised. -/
def Obligations.BackRecallsTheCueBefore : Prop :=
  ∀ (s : State) (p : Port) (r : Request) (m n : CueNum) (c : CueRec), Executes s p .back r →
    s.arbiter.holder = some p → s.engine.state = .running → s.engine.current = some m →
    (cueBefore s.cues m).map CueRec.num = some n → findCue s.cues n = some c →
    ∃ t, exec (.back p) s = .next t ∧
      Answers t p r .done (cueBytes n ++ optCueBytes ((cueAfter s.cues n).map CueRec.num)) ∧
      FiringDone s t n (.port p) .back ∧ RaisedJust s t .skipped [] ∧
      ((findCue s.cues m).isSome = true → (cueAfter s.cues n).isSome = true ∧ RaisedJust s t .endReached []) ∧
      t.run.entries = s.run.entries.filter (fun e =>
        !e.isFollow && !c.body.groupLayers.any (fun gl => e.waitsOn gl.1 gl.2)) ∧
      AppliedTo (fun g l => (g, l) ∈ c.body.groupLayers) c s t ∧ MovesMade s (changeMoves s c c.body.groupLayers) t ∧
      ∀ g l,
        ((g, l) ∈ c.body.groupLayers →
          t.run.table g l = { owner := some n, floor := c.body.floor } ∧
          t.run.entries.filter (RunEntry.waitsOn g l) = []) ∧
        ((g, l) ∉ c.body.groupLayers →
          t.run.table g l = s.run.table g l ∧
          t.run.entries.filter (RunEntry.waitsOn g l) = s.run.entries.filter (RunEntry.waitsOn g l))

/-- STANDBY: its tests, and the move of the standby cue with any FOLLOW entry removed. -/
def Obligations.StandbyMovesThePosition : Prop :=
  ∀ (s : State) (p : Port) (r : Request), Settled s → Executes s p .standby r → s.arbiter.holder = some p →
    ∃ n, optCueOf r.payload = some n ∧
      (s.engine.state = .idle → Refuses (.standby p) s p r .state []) ∧
      (s.engine.state ≠ .idle → n.valid = false → Refuses (.standby p) s p r .range []) ∧
      (s.engine.state ≠ .idle → n.valid = true → findCue s.cues n = none → Refuses (.standby p) s p r .noCue []) ∧
      (s.engine.state ≠ .idle → n.valid = true → (findCue s.cues n).isSome = true →
        ∃ t, Completes (.standby p) s p r (cueBytes n) [.engine, .run, .ports] (fun _ => []) t ∧
          t.engine = { s.engine with standby := some n } ∧
          t.run = { s.run with entries := s.run.entries.filter (fun e => !e.isFollow) })

/-- HOLD freezes the show from READY or RUNNING, changes nothing in HELD and is refused in IDLE; RELEASE returns a HELD show
to its held-from state with the settling beat armed, and is refused in every other state. A count frozen just short of its
end does not end at the RELEASE: no expiry and no floor end is due until a millisecond has passed (R59; the list of due
events is the model's own choice, log entry 2). -/
def Obligations.HoldAndReleaseFreezeAndResume : Prop :=
  (∀ (s : State) (p : Port) (r : Request), Settled s → Executes s p .hold r →
    (s.engine.state = .idle → Refuses (.hold p) s p r .state []) ∧
    (s.engine.state = .held → OnlyAnswers (.hold p) s p r []) ∧
    (∀ fr : HeldFrom, s.engine.state = fr.state →
      ∃ t, Completes (.hold p) s p r [] [.engine, .ports] (fun _ => [.held fr]) t ∧
        t.engine = { s.engine with state := .held, heldFrom := fr })) ∧
  (∀ (s : State) (p : Port) (r : Request), Settled s → Executes s p .release r →
    (s.engine.state ≠ .held → Refuses (.release p) s p r .state []) ∧
    (s.engine.state = .held →
      ∃ t, Completes (.release p) s p r [] [.engine, .beat, .due, .ports] (fun _ => [.released s.engine.heldFrom]) t ∧
        t.engine = { s.engine with state := s.engine.heldFrom.state } ∧ t.beat = { s.beat with settling := true } ∧
        ∀ e, e ∈ t.due ↔ e ∈ s.due ∧ e ≠ .followExpiry ∧ ∀ g l, e ≠ .floorEnd g l))

/-- The expiry of the FOLLOW entry fires its cue with origin AUTO and offers its changes as any firing does. A floor end
brings the floor to 0, and applies a waiting change with the commands it asks for and the OVERRUN it raises, and raises no
cause of its own. Both are stated in RUNNING alone; the same event commanded in another show state is the model's choice
(log entry 7). -/
def Obligations.FollowExpiryAndFloorEnd : Prop :=
  (∀ (s : State) (e : RunEntry), s.engine.state = .running → s.run.entries.find? RunEntry.isFollow = some e →
    ∃ t, exec .followExpiry s = .next t ∧ FiringDone s t e.cue .auto .follow ∧
      (RunQueueLaw s → ∀ c, findCue s.cues e.cue = some c → OffersDone s t c .auto)) ∧
  (∀ (s : State) (g : GroupId) (l : Layer), s.engine.state = .running →
    ∃ t, exec (.floorEnd g l) s = .next t ∧ OnlyChanges [.run, .heads, .texts, .link, .ports] s t ∧ PortsKeepState s t ∧
      (∀ g' l', (g', l') ≠ (g, l) → t.run.table g' l' = s.run.table g' l') ∧
      (Settled s → s.run.entries.find? (RunEntry.waitsOn g l) = none →
        OnlyChanges [.run] s t ∧ t.run.entries = s.run.entries ∧
        t.run.table g l = { s.run.table g l with floor := 0 }) ∧
      (∀ e c, s.run.entries.find? (RunEntry.waitsOn g l) = some e → findCue s.cues e.cue = some c →
        t.run.entries = s.run.entries.filter (fun x => !x.waitsOn g l) ∧
        t.run.table g l = { owner := some e.cue, floor := c.body.floor } ∧
        AppliedTo (fun g' l' => g' = g ∧ l' = l) c s t ∧ MovesMade s (changeMoves s c [(g, l)]) t ∧
        OnlyRaises [.overrun, .outOfStep] s t))

/-! ## The Beat Unit -/

/-- An edge on BEAT moves the level; one of a selected kind is a beat while the source is LINE, and goes through the gate,
the guard and the settling flag; a counted beat lowers a BEATS countdown, and nothing else of the Run Queue, and at its
end fires the cue, whose changes are offered as in any firing. That an edge command naming the level the input already has
does nothing is the model's choice (log entry 7). -/
def Obligations.BeatEdgesAreBeatsWhenSelected : Prop :=
  ∀ (s : State) (high : Bool), Settled s →
    (s.beat.level = high → exec (.beatEdge high) s = .next s) ∧
    (s.beat.level ≠ high →
      (s.beat.source ≠ .line ∨ s.beat.edge.selects high = false ∨ s.engine.state ≠ .running →
        exec (.beatEdge high) s = .next (s.withBeat { s.beat with level := high })) ∧
      (s.beat.source = .line → s.beat.edge.selects high = true → s.engine.state = .running →
        ∃ t, exec (.beatEdge high) s = .next t ∧
          (∀ a, s.beat.lastAccepted = some a → s.cardTime - a < s.beat.guard →
            OnlyChanges [.beat, .ports] s t ∧ PortsKeepState s t ∧ t.beat = { s.beat with level := high } ∧
            ∀ q, (t.port q).pending = raisedInto (s.port q).pending [.beatReject .line (s.cardTime - a)]) ∧
          ((∀ a, s.beat.lastAccepted = some a → s.beat.guard ≤ s.cardTime - a) → s.beat.settling = true →
            OnlyChanges [.beat] s t ∧
            t.beat = { s.beat with level := high, lastAccepted := some s.cardTime, settling := false }) ∧
          ((∀ a, s.beat.lastAccepted = some a → s.beat.guard ≤ s.cardTime - a) → s.beat.settling = false →
            t.beat = { s.beat with level := high, lastAccepted := some s.cardTime } ∧
            (s.run.beatsLeft = none → OnlyChanges [.beat] s t) ∧
            (∀ n, s.run.beatsLeft = some n → 1 < n →
              OnlyChanges [.beat, .run] s t ∧ t.run.beatsLeft = some (n - 1) ∧ BeatCounted s t) ∧
            (∀ n e, s.run.beatsLeft = some n → n ≤ 1 → s.run.entries.find? RunEntry.isFollow = some e →
              FiringDone (s.withBeat t.beat) t e.cue .auto .follow ∧
                (RunQueueLaw s → ∀ c, findCue s.cues e.cue = some c → OffersDone s t c .auto)))))

/-- BEAT is refused unless the source is REQUEST; else it is a beat with the card time of its execution, and its answer carries the
outcome. -/
def Obligations.BeatRequestsAreBeats : Prop :=
  ∀ (s : State) (p : Port) (r : Request), Executes s p .beat r → s.arbiter.holder = some p →
    (Settled s → s.beat.source ≠ .request → Refuses (.beat p) s p r .state []) ∧
    (Settled s → s.beat.source = .request → s.engine.state ≠ .running → OnlyAnswers (.beat p) s p r [0, 0, 0]) ∧
    (s.beat.source = .request → s.engine.state = .running →
      (∀ a, s.beat.lastAccepted = some a → s.cardTime - a < s.beat.guard →
        ∃ t, Completes (.beat p) s p r (1 :: le2 (s.cardTime - a)) [.ports]
          (fun _ => [.beatReject .request (s.cardTime - a)]) t) ∧
      ((∀ a, s.beat.lastAccepted = some a → s.beat.guard ≤ s.cardTime - a) → s.beat.settling = true →
        ∃ t, Completes (.beat p) s p r [2, 0, 0] [.beat, .ports] (fun _ => []) t ∧
          t.beat = { s.beat with lastAccepted := some s.cardTime, settling := false }) ∧
      ((∀ a, s.beat.lastAccepted = some a → s.beat.guard ≤ s.cardTime - a) → s.beat.settling = false →
        (s.run.beatsLeft = none →
          ∃ t, Completes (.beat p) s p r [3, 0xFF, 0xFF] [.beat, .ports] (fun _ => []) t ∧
            t.beat = { s.beat with lastAccepted := some s.cardTime }) ∧
        (∀ n, s.run.beatsLeft = some n → 1 < n →
          ∃ t, Completes (.beat p) s p r (3 :: le2 (n - 1)) [.beat, .run, .ports] (fun _ => []) t ∧
            t.beat = { s.beat with lastAccepted := some s.cardTime } ∧ t.run.beatsLeft = some (n - 1) ∧ BeatCounted s t) ∧
        (∀ n e, s.run.beatsLeft = some n → n ≤ 1 → s.run.entries.find? RunEntry.isFollow = some e →
          ∃ t, exec (.beat p) s = .next t ∧ Answers t p r .done [3, 0, 0] ∧
            t.beat = { s.beat with lastAccepted := some s.cardTime } ∧
            FiringDone (s.withBeat t.beat) t e.cue .auto .follow ∧
            (RunQueueLaw s → ∀ c, findCue s.cues e.cue = some c → OffersDone s t c .auto))))

/-- SET_BEAT: the range test, the settings, the settling flag, and a BEATS countdown back at its full count. -/
def Obligations.SetBeatSetsAndRestarts : Prop :=
  ∀ (s : State) (p : Port) (r : Request) (src edge g0 g1 : Byte), Settled s → Executes s p .setBeat r →
    r.payload = [src, edge, g0, g1] →
    (beatSourceOf src = none ∨ edgeOf edge = none ∨ nat2 g0 g1 < 50 ∨ 2000 < nat2 g0 g1 →
      Refuses (.setBeat p) s p r .range []) ∧
    (∀ b e, beatSourceOf src = some b → edgeOf edge = some e → 50 ≤ nat2 g0 g1 → nat2 g0 g1 ≤ 2000 →
      ∃ t, Completes (.setBeat p) s p r [src, edge, g0, g1, yesNo s.run.beatsLeft.isSome] [.beat, .run, .ports]
          (fun _ => []) t ∧
        t.beat = { s.beat with source := b, edge := e, guard := nat2 g0 g1, settling := true } ∧
        t.run.baseTable = s.run.baseTable ∧ t.run.overTable = s.run.overTable ∧
        t.run.entries = s.run.entries.map (fun x => match x with
          | .follow c .beats full _ => .follow c .beats full full
          | y => y))

/-! ## The Call Arbiter -/

/-- CLAIM without force. -/
def Obligations.ClaimWithoutForce : Prop :=
  ∀ (s : State) (p : Port) (r : Request), Settled s → Executes s p .claim r → claimForce r.payload = false →
    (s.arbiter.holder = some p → OnlyAnswers (.claim p) s p r [0, 0, 0xFF]) ∧
    (s.arbiter.holder = none →
      ∃ t, Completes (.claim p) s p r [1, 0, 0xFF] [.arbiter, .ports] (onlyOn p [.callGranted .free none]) t ∧
        t.arbiter.holder = some p ∧ t.arbiter.roles = s.arbiter.roles ∧
        t.arbiter.claims = s.arbiter.claims.filter (fun x => decide (x ≠ p))) ∧
    (∀ q, s.arbiter.holder = some q → q ≠ p → p ∈ s.arbiter.claims →
      OnlyAnswers (.claim p) s p r [2, byteOf (s.arbiter.claims.idxOf p + 1), 0xFF]) ∧
    (∀ q, s.arbiter.holder = some q → q ≠ p → p ∉ s.arbiter.claims →
      ∃ t, Completes (.claim p) s p r [2, byteOf (t.arbiter.claims.idxOf p + 1), 0xFF] [.arbiter, .ports] (fun _ => []) t ∧
        t.arbiter.holder = some q ∧ t.arbiter.roles = s.arbiter.roles ∧
        t.arbiter.claims = (s.arbiter.claims ++ [p]).filter (fun x => decide (s.arbiter.ring x = .high)) ++
          (s.arbiter.claims ++ [p]).filter (fun x => decide (s.arbiter.ring x = .low)))

/-- CLAIM with force. -/
def Obligations.ClaimWithForce : Prop :=
  ∀ (s : State) (p : Port) (r : Request), Settled s → Executes s p .claim r → claimForce r.payload = true →
    (s.arbiter.holder = some p → OnlyAnswers (.claim p) s p r [0, 0, 0xFF]) ∧
    (s.arbiter.holder = none →
      ∃ t, Completes (.claim p) s p r [1, 0, 0xFF] [.arbiter, .ports] (onlyOn p [.callGranted .free none]) t ∧
        t.arbiter.holder = some p ∧ t.arbiter.roles = s.arbiter.roles ∧
        t.arbiter.claims = s.arbiter.claims.filter (fun x => decide (x ≠ p))) ∧
    (∀ q, s.arbiter.holder = some q → q ≠ p →
      ∃ t, Completes (.claim p) s p r [1, 0, portByte q] [.arbiter, .ports]
          (fun x => if x = p then [.callGranted .takeover (some q)]
            else if x = q then [.callLost .takeover (some p)] else []) t ∧
        t.arbiter.holder = some p ∧ t.arbiter.roles = s.arbiter.roles ∧
        t.arbiter.claims = s.arbiter.claims.filter (fun x => decide (x ≠ p)))

/-- YIELD passes the right on, frees it, withdraws a claim, or does nothing. -/
def Obligations.YieldPassesTheRight : Prop :=
  ∀ (s : State) (p : Port) (r : Request), Settled s → Executes s p .yieldRight r →
    (s.arbiter.holder = some p → ∀ q rest, s.arbiter.claims = q :: rest →
      ∃ t, Completes (.yieldRight p) s p r [0, portByte q] [.arbiter, .ports]
          (onlyOn q [.callGranted .passed (some p)]) t ∧
        t.arbiter = { s.arbiter with holder := some q, claims := rest }) ∧
    (s.arbiter.holder = some p → s.arbiter.claims = [] →
      ∃ t, Completes (.yieldRight p) s p r [1, 0xFF] [.arbiter, .ports] (fun _ => []) t ∧
        t.arbiter = { s.arbiter with holder := none }) ∧
    (s.arbiter.holder ≠ some p → p ∈ s.arbiter.claims →
      ∃ t, Completes (.yieldRight p) s p r [2, 0xFF] [.arbiter, .ports] (fun _ => []) t ∧
        t.arbiter = { s.arbiter with claims := s.arbiter.claims.filter (fun x => decide (x ≠ p)) }) ∧
    (s.arbiter.holder ≠ some p → p ∉ s.arbiter.claims → OnlyAnswers (.yieldRight p) s p r [3, 0xFF])

/-- SET_ROLE: its tests, the new role, and what it does to the right and the list. -/
def Obligations.SetRoleGivesTheRole : Prop :=
  ∀ (s : State) (p : Port) (r : Request) (a b c : Byte), Settled s → Executes s p .setRole r → r.payload = [a, b, c] →
    (portOf a = none ∨ profileOf b = none ∨ ringOf c = none → Refuses (.setRole p) s p r .range []) ∧
    (∀ target pr ri, portOf a = some target → profileOf b = some pr → ringOf c = some ri →
      (s.engine.state ≠ .idle → Refuses (.setRole p) s p r .state []) ∧
      (s.engine.state = .idle → ∃ t raised,
        Completes (.setRole p) s p r ([a, b, c, optPortByte t.arbiter.holder, byteOf t.arbiter.claims.length,
          optPortByte t.arbiter.claims[0]?, optPortByte t.arbiter.claims[1]?]) [.arbiter, .ports] raised t ∧
        t.arbiter.roles = s.arbiter.roles.set target { profile := pr, ring := ri } ∧
        (pr ≠ .observer → raised = (fun _ => []) ∧ t.arbiter.holder = s.arbiter.holder ∧
          t.arbiter.claims = s.arbiter.claims.filter (fun x => decide (t.arbiter.ring x = .high)) ++
            s.arbiter.claims.filter (fun x => decide (t.arbiter.ring x = .low))) ∧
        (pr = .observer → s.arbiter.holder ≠ some target → raised = (fun _ => []) ∧
          t.arbiter.holder = s.arbiter.holder ∧
          t.arbiter.claims = s.arbiter.claims.filter (fun x => decide (x ≠ target))) ∧
        (pr = .observer → s.arbiter.holder = some target → s.arbiter.claims.head? ≠ some target →
          t.arbiter.holder = s.arbiter.claims.head? ∧ t.arbiter.claims = s.arbiter.claims.tail ∧
          raised = (fun x => if x = target then [.callLost .role s.arbiter.claims.head?]
            else if s.arbiter.claims.head? = some x then [.callGranted .passed (some target)] else []))))

/-! ## The Cue Store -/

/-- The tests of PUT_CUE, in their order. -/
def Obligations.PutCueTests : Prop :=
  ∀ (s : State) (p : Port) (r : Request), Settled s → Executes s p .putCue r →
    (cueRecOf r.payload = none → Refuses (.putCue p) s p r .range []) ∧
    (∀ c, cueRecOf r.payload = some c →
      (∀ e, c.body.texts.find? (fun e => (findText s.texts e.text).isNone) = some e →
        Refuses (.putCue p) s p r .noText e.bytes) ∧
      ((∀ e ∈ c.body.texts, (findText s.texts e.text).isSome = true) →
        (findCue s.cues c.num = none → 2048 ≤ s.cues.length → Refuses (.putCue p) s p r .full []) ∧
        ((findCue s.cues c.num).isSome = true → CueInUse s c.num → Refuses (.putCue p) s p r .inUse [])))

/-- PUT_CUE stores the record at its place, and moves the reference counts of the texts named by the old and the new record. -/
def Obligations.PutCueStoresTheRecord : Prop :=
  ∀ (s : State) (p : Port) (r : Request) (c : CueRec), StoresAscending s → Executes s p .putCue r →
    cueRecOf r.payload = some c → (∀ e ∈ c.body.texts, (findText s.texts e.text).isSome = true) →
    (findCue s.cues c.num = none → s.cues.length < 2048 →
      ∃ t, Completes (.putCue p) s p r (0 :: le2 (s.cues.length + 1)) [.cues, .texts, .ports] (fun _ => []) t ∧
        findCue t.cues c.num = some c ∧ (∀ n, n ≠ c.num → findCue t.cues n = findCue s.cues n) ∧
        t.cues.length = s.cues.length + 1 ∧ cuesAscending t.cues = true ∧
        t.texts = s.texts.map (fun x => { x with refs := x.refs + c.names.count x.id })) ∧
    (∀ old, findCue s.cues c.num = some old → ¬ CueInUse s c.num →
      ∃ t, Completes (.putCue p) s p r (1 :: le2 s.cues.length) [.cues, .texts, .ports] (fun _ => []) t ∧
        findCue t.cues c.num = some c ∧ (∀ n, n ≠ c.num → findCue t.cues n = findCue s.cues n) ∧
        t.cues.length = s.cues.length ∧ cuesAscending t.cues = true ∧
        t.texts = s.texts.map (fun x =>
          { x with refs := x.refs - old.names.count x.id + c.names.count x.id }))

/-- DROP_CUE and DROP_TEXT: their tests in their order, and the removal of the record; with a cue its names' counts fall. -/
def Obligations.DropsRemoveTheRecord : Prop :=
  (∀ (s : State) (p : Port) (r : Request) (a b c : Byte), Settled s → Executes s p .dropCue r → r.payload = [a, b, c] →
    ((cueOf a b c).valid = false → Refuses (.dropCue p) s p r .range []) ∧
    ((cueOf a b c).valid = true → findCue s.cues (cueOf a b c) = none → Refuses (.dropCue p) s p r .noCue []) ∧
    (∀ x, (cueOf a b c).valid = true → findCue s.cues (cueOf a b c) = some x →
      (CueInUse s (cueOf a b c) → Refuses (.dropCue p) s p r .inUse []) ∧
      (¬ CueInUse s (cueOf a b c) →
        ∃ t, Completes (.dropCue p) s p r (le2 t.cues.length) [.cues, .texts, .ports] (fun _ => []) t ∧
          t.cues = s.cues.filter (fun y => decide (y.num ≠ cueOf a b c)) ∧
          t.texts = s.texts.map (fun y => { y with refs := y.refs - x.names.count y.id })))) ∧
  (∀ (s : State) (p : Port) (r : Request) (a b : Byte), Settled s → Executes s p .dropText r → r.payload = [a, b] →
    (16383 < nat2 a b → Refuses (.dropText p) s p r .range []) ∧
    (nat2 a b ≤ 16383 → findText s.texts (nat2 a b) = none → Refuses (.dropText p) s p r .noText []) ∧
    (∀ x, nat2 a b ≤ 16383 → findText s.texts (nat2 a b) = some x →
      (x.refs ≠ 0 → Refuses (.dropText p) s p r .inUse []) ∧
      (x.refs = 0 →
        ∃ t, Completes (.dropText p) s p r (le2 t.texts.length ++ le3 (byteTotal t.texts)) [.texts, .ports] (fun _ => []) t ∧
          t.texts = s.texts.filter (fun y => decide (y.id ≠ nat2 a b)))))

/-- PUT_TEXT: its tests in their order, and the text stored under its id. -/
def Obligations.PutTextStoresTheText : Prop :=
  ∀ (s : State) (p : Port) (r : Request) (a b : Byte) (bytes : List Byte), Settled s → StoresAscending s →
    Executes s p .putText r → r.payload = a :: b :: bytes →
    (16383 < nat2 a b ∨ bytes = [] ∨ 192 < bytes.length ∨ 3 < lineCount bytes → Refuses (.putText p) s p r .range []) ∧
    (nat2 a b ≤ 16383 → bytes ≠ [] → bytes.length ≤ 192 → lineCount bytes ≤ 3 →
      (findText s.texts (nat2 a b) = none →
        (16384 ≤ s.texts.length ∨ 1048576 < byteTotal s.texts + bytes.length → Refuses (.putText p) s p r .full []) ∧
        (s.texts.length < 16384 → byteTotal s.texts + bytes.length ≤ 1048576 →
          ∃ t, Completes (.putText p) s p r
              (0 :: le2 (s.texts.length + 1) ++ le3 (byteTotal s.texts + bytes.length)) [.texts, .ports] (fun _ => []) t ∧
            findText t.texts (nat2 a b) = some { id := nat2 a b, bytes := bytes, refs := 0 } ∧
            (∀ i, i ≠ nat2 a b → findText t.texts i = findText s.texts i))) ∧
      (∀ old, findText s.texts (nat2 a b) = some old →
        (1048576 < byteTotal s.texts - old.bytes.length + bytes.length → Refuses (.putText p) s p r .full []) ∧
        (byteTotal s.texts - old.bytes.length + bytes.length ≤ 1048576 →
          (TextOnScreen s (nat2 a b) → Refuses (.putText p) s p r .inUse []) ∧
          (¬ TextOnScreen s (nat2 a b) →
            ∃ t, Completes (.putText p) s p r
                (1 :: le2 s.texts.length ++ le3 (byteTotal s.texts - old.bytes.length + bytes.length))
                [.texts, .ports] (fun _ => []) t ∧
              findText t.texts (nat2 a b) = some { old with bytes := bytes } ∧
              (∀ i, i ≠ nat2 a b → findText t.texts i = findText s.texts i)))))

/-- The reads answer with what they read and change nothing. -/
def Obligations.ReadsOnlyAnswer : Prop :=
  ∀ (s : State) (p : Port) (r : Request), Settled s →
    (Executes s p .readPosition r →
      OnlyAnswers (.readPosition p) s p r (s.engine.bytes ++ s.run.bytes ++ s.arbiter.bytes p ++ s.watch.bytes)) ∧
    (Executes s p .readCauses r →
      OnlyAnswers (.readCauses p) s p r (causeSetBytes (s.port p).pendingSet ++ causeSetBytes (s.port p).repeats ++
        causeSetBytes (s.port p).enabled ++ (s.port p).pending.flatMap (fun x => byteOf x.cause.code :: x.detail))) ∧
    (∀ a b c, Executes s p .readCue r → r.payload = [a, b, c] →
      ((cueOf a b c).valid = false → Refuses (.readCue p) s p r .range []) ∧
      ((cueOf a b c).valid = true → findCue s.cues (cueOf a b c) = none → Refuses (.readCue p) s p r .noCue []) ∧
      (∀ x, (cueOf a b c).valid = true → findCue s.cues (cueOf a b c) = some x →
        ∃ used, (used = 1 ↔ CueInUse s (cueOf a b c)) ∧ (used = 0 ∨ used = 1) ∧
          OnlyAnswers (.readCue p) s p r (used :: x.bytes))) ∧
    (∀ a b, Executes s p .readText r → r.payload = [a, b] →
      (16383 < nat2 a b → Refuses (.readText p) s p r .range []) ∧
      (nat2 a b ≤ 16383 → findText s.texts (nat2 a b) = none → Refuses (.readText p) s p r .noText []) ∧
      (∀ x, nat2 a b ≤ 16383 → findText s.texts (nat2 a b) = some x →
        ∃ shown, (shown = 1 ↔ TextOnScreen s (nat2 a b)) ∧ (shown = 0 ∨ shown = 1) ∧
          OnlyAnswers (.readText p) s p r
            ([a, b, byteOf (lineCount x.bytes)] ++ le2 x.refs ++ [shown] ++ x.bytes))) ∧
    (∀ a, Executes s p .readHead r → r.payload = [a] →
      (headOf a = none → Refuses (.readHead p) s p r .range []) ∧
      (∀ h, headOf a = some h → OnlyAnswers (.readHead p) s p r (headBytes s h))) ∧
    (∀ a, Executes s p .readCapture r → r.payload = [a] →
      (a ≠ 0 → a ≠ 1 → Refuses (.readCapture p) s p r .range []) ∧
      (a = 0 → OnlyAnswers (.readCapture p) s p r (portCaptureBytes (s.port p).capture)) ∧
      (a = 1 → OnlyAnswers (.readCapture p) s p r (linkCaptureBytes s.link.capture)))

/-! ## The Screen Image Unit -/

/-- What a put and a clear do to a slot: the slot after it, the commands asked for, and the cue whose OVERRUN is raised. -/
def Obligations.PutsAndClearsMoveSlots : Prop :=
  (∀ (t shown : TextPart) (f : Nat) (next : Option TextPart),
    Slot.put .dark t = { slot := rise t, asks := [.put t], displaced := none } ∧
    (shown.fadeOut ≠ 0 →
      Slot.put (.rising shown f) t =
        { slot := .falling shown (some t) shown.fadeOut, asks := [.take shown.fadeOut (some t.cue)], displaced := none } ∧
      Slot.put (.lit shown) t =
        { slot := .falling shown (some t) shown.fadeOut, asks := [.take shown.fadeOut (some t.cue)], displaced := none }) ∧
    (shown.fadeOut = 0 →
      Slot.put (.rising shown f) t = { slot := rise t, asks := [.take 0 (some t.cue), .put t], displaced := none } ∧
      Slot.put (.lit shown) t = { slot := rise t, asks := [.take 0 (some t.cue), .put t], displaced := none }) ∧
    Slot.put (.falling shown next f) t =
      { slot := .falling shown (some t) f, asks := [], displaced := next.map TextPart.cue } ∧
    (t.fadeIn ≠ 0 → rise t = .rising t t.fadeIn) ∧ (t.fadeIn = 0 → rise t = .lit t)) ∧
  (∀ (shown : TextPart) (f : Nat) (next : Option TextPart) (cue : Option CueNum),
    Slot.clear .dark cue = { slot := .dark, asks := [], displaced := none } ∧
    (shown.fadeOut ≠ 0 →
      Slot.clear (.rising shown f) cue =
        { slot := .falling shown none shown.fadeOut, asks := [.take shown.fadeOut cue], displaced := none } ∧
      Slot.clear (.lit shown) cue =
        { slot := .falling shown none shown.fadeOut, asks := [.take shown.fadeOut cue], displaced := none }) ∧
    (shown.fadeOut = 0 →
      Slot.clear (.rising shown f) cue = { slot := .dark, asks := [.take 0 cue], displaced := none } ∧
      Slot.clear (.lit shown) cue = { slot := .dark, asks := [.take 0 cue], displaced := none }) ∧
    Slot.clear (.falling shown next f) cue =
      { slot := .falling shown none f, asks := [], displaced := next.map TextPart.cue })

/-- The refresh target of a slot. -/
def Obligations.RefreshTargets : Prop :=
  ∀ (shown n : TextPart) (f : Nat),
    Slot.target (.falling shown (some n) f) = some n ∧ Slot.target (.falling shown none f) = none ∧
    Slot.target (.rising shown f) = some shown ∧ Slot.target (.lit shown) = some shown ∧ Slot.target .dark = none

/-- A fade end: a rise is LIT; a fall brings up its next part with a PUT asked for, or ends DARK; LIT and DARK have none. The
PUT joins the queue, or finds it full and leaves its head out of step; no other cause than OUT_OF_STEP is raised. A PUT or
TAKE asked of the Link Controller has no effect for a head that is not ONLINE or is out of step; else it joins the
queue as the newest command or, where the queue is full, is dropped and its head marked out of step. That a fade-end command
for a LIT or DARK slot does nothing is the model's choice (log entry 7). -/
def Obligations.FadeEndsAndAskedCommands : Prop :=
  (∀ (s : State) (h : HeadId) (l : Layer),
    ((∃ shown, (s.head h).slot l = .lit shown) ∨ (s.head h).slot l = .dark → exec (.fadeEnd h l) s = .next s) ∧
    (∀ after ask, (∃ shown f, (s.head h).slot l = .rising shown f ∧ after = .lit shown ∧ ask = []) ∨
        (∃ shown n f, (s.head h).slot l = .falling shown (some n) f ∧ after = rise n ∧ ask = [n]) ∨
        (∃ shown f, (s.head h).slot l = .falling shown none f ∧ after = .dark ∧ ask = []) →
      ∃ t, exec (.fadeEnd h l) s = .next t ∧ OnlyChanges [.heads, .texts, .link, .ports] s t ∧ PortsKeepState s t ∧
        (t.head h).slot l = after ∧
        (∀ h' l', (h', l') ≠ (h, l) → (t.head h').slot l' = (s.head h').slot l') ∧
        (∀ h', (t.head h').state = (s.head h').state ∧ (t.head h').lang = (s.head h').lang ∧
          (t.head h').group = (s.head h').group ∧ (t.head h').gap = (s.head h').gap) ∧
        t.texts = s.texts.map (fun x =>
          { x with refs := x.refs + after.names.count x.id - ((s.head h).slot l).names.count x.id }) ∧
        ((s.head h).state = .online → (s.head h).outOfStep = false → s.link.queue.length < 64 →
          t.commands = s.commands ++ ask.map (fun n => (h, .put l (textBytes s.texts n.text) n.fadeIn n.cue))) ∧
        ((s.head h).state ≠ .online ∨ (s.head h).outOfStep = true → t.link = s.link) ∧
        ((s.head h).state = .online → (s.head h).outOfStep = false → 64 ≤ s.link.queue.length → t.link = s.link ∧
          (t.head h).outOfStep = !ask.isEmpty ∧ (∀ h', h' ≠ h → (t.head h').outOfStep = (s.head h').outOfStep) ∧
          RaisedJust s t .outOfStep (ask.map (fun _ => .outOfStep h))) ∧
        MovesMade s [(h, l, { slot := after, asks := ask.map Ask.put, displaced := none })] t ∧
        OnlyRaises [.outOfStep] s t)) ∧
  (∀ (s : State) (h : HeadId) (l : Layer) (a : Ask),
    ((s.head h).state ≠ .online ∨ (s.head h).outOfStep = true → s.ask h l a = s) ∧
    ((s.head h).state = .online → (s.head h).outOfStep = false →
      (s.link.queue.length < 64 → OnlyChanges [.link] s (s.ask h l a) ∧
        (s.ask h l a).commands = s.commands ++ [(h, a.body l s.texts)]) ∧
      (64 ≤ s.link.queue.length → OnlyChanges [.heads, .ports] s (s.ask h l a) ∧
        (s.ask h l a).head h = { s.head h with outOfStep := true } ∧
        (∀ h', h' ≠ h → (s.ask h l a).head h' = s.head h') ∧
        ∀ q, (s.ask h l a).port q = (s.port q).raise (.outOfStep h))))

/-- SET_HEAD: its tests, and the settings it writes where it leaves the head's state alone. -/
def Obligations.SetHeadWritesSettings : Prop :=
  ∀ (s : State) (p : Port) (r : Request) (a b c d e : Byte), Settled s → Executes s p .setHead r →
    r.payload = [a, b, c, d, e] →
    (headOf a = none ∨ yesNoOf b = none ∨ eighthOf c = none ∨ eighthOf d = none ∨ gapOf e = none →
      Refuses (.setHead p) s p r .range []) ∧
    (∀ h on lang group gap, headOf a = some h → yesNoOf b = some on → eighthOf c = some lang → eighthOf d = some group →
      gapOf e = some gap →
      ((lang ≠ (s.head h).lang ∨ group ≠ (s.head h).group) → s.engine.state ≠ .idle →
        Refuses (.setHead p) s p r .state []) ∧
      ((lang = (s.head h).lang ∧ group = (s.head h).group) ∨ s.engine.state = .idle →
        (s.head h).enabled = on →
        ∃ t, Completes (.setHead p) s p r [(s.head h).state.code] [.heads, .ports] (fun _ => []) t ∧
          t.head h = { s.head h with lang := lang, group := group, gap := gap } ∧
          ∀ h', h' ≠ h → t.head h' = s.head h'))

/-- SET_HEAD that enables an ABSENT head asks for a PROBE; one that disables an enabled head makes it ABSENT and DARK, lets
go of the texts it named and takes its commands from the queue: the other heads' commands stay in their order, an in-flight
command of another head is undisturbed, one of its own is abandoned (its frame running out in SENDING, the link going on at
once in WAITING and HOLDING), waiting SYNCs are told, out-of-step heads are caught up where 16 commands or fewer are left, and
no cause is raised (R94, R105, R117, R118). The serial numbers by which a SYNC names commands are the model's own choice (log
entry 4), and that a SYNC's answer stands after the event's other frames is read by inference (log entry 11). -/
def Obligations.SetHeadEnablesAndDisables : Prop :=
  ∀ (s : State) (p : Port) (r : Request) (a b c d e : Byte) (h : HeadId) (on : Bool) (lang : Lang) (group : GroupId)
    (gap : GapPolicy), Executes s p .setHead r → r.payload = [a, b, c, d, e] → headOf a = some h → yesNoOf b = some on →
    eighthOf c = some lang → eighthOf d = some group → gapOf e = some gap →
    ((lang = (s.head h).lang ∧ group = (s.head h).group) ∨ s.engine.state = .idle) →
    (on = true → (s.head h).state = .absent →
      (s.link.queue.length < 64 →
        ∃ t, Completes (.setHead p) s p r [1] [.heads, .link, .ports] (fun _ => []) t ∧
          t.head h = { s.head h with state := .probing, lang := lang, group := group, gap := gap, outOfStep := false } ∧
          (∀ h', h' ≠ h → t.head h' = s.head h') ∧ t.commands = s.commands ++ [(h, .probe)]) ∧
      (64 ≤ s.link.queue.length →
        ∃ t, Completes (.setHead p) s p r [1] [.heads, .ports] (fun _ => [.outOfStep h]) t ∧
          t.head h = { s.head h with state := .probing, lang := lang, group := group, gap := gap, outOfStep := true } ∧
          ∀ h', h' ≠ h → t.head h' = s.head h')) ∧
    (on = false → (s.head h).state ≠ .absent →
      ∃ t, exec (.setHead p) s = .next t ∧ Answers t p r .done [0] ∧ OnlyChanges [.heads, .texts, .link, .ports] s t ∧
        PortsKeepState s t ∧
        (t.head h).state = .absent ∧ (t.head h).lang = lang ∧ (t.head h).group = group ∧ (t.head h).gap = gap ∧
        (t.head h).outOfStep = false ∧ (t.head h).baseSlot = .dark ∧ (t.head h).overSlot = .dark ∧
        (∀ h', h' ≠ h → { t.head h' with outOfStep := (s.head h').outOfStep } = s.head h') ∧
        t.texts = s.texts.map (fun x => { x with
          refs := x.refs - (s.head h).baseSlot.names.count x.id - (s.head h).overSlot.names.count x.id }) ∧
        (∀ x ∈ t.link.queue, x.head ≠ h) ∧ t.link.capture = s.link.capture ∧
        (∀ q, (t.port q).pending = (s.port q).pending ∧ (t.port q).repeats = (s.port q).repeats) ∧
        ((∀ x ∈ s.link.queue, x.head ≠ h) → t.link = s.link ∧ ∀ h', h' ≠ h → t.head h' = s.head h') ∧
        ((∃ x ∈ s.link.queue, x.head = h) →
          CatchesUp (s.setHead h ⟨.absent, lang, group, gap, false, .dark, .dark⟩)
            ((s.link.queue.filter (fun x => decide (x.head ≠ h))).map (fun x => (x.head, x.body))) t ∧
          SyncsTold s ((s.link.queue.filter (fun x => decide (x.head = h))).map Command.id) false t ∧
          (∀ n, s.link.phase = .sending n true →
            t.link.phase = .sending n true ∧ t.link.attempts = s.link.attempts ∧ t.link.nextSeq = s.link.nextSeq) ∧
          (∀ x rest, s.link.queue = x :: rest → s.link.phase ≠ .none → x.head ≠ h →
            t.link.queue.head? = some x ∧ t.link.phase = s.link.phase ∧ t.link.attempts = s.link.attempts ∧
              t.link.nextSeq = s.link.nextSeq) ∧
          (∀ x rest, s.link.queue = x :: rest → x.head = h →
            (∀ n, s.link.phase = .sending n false →
              t.link.phase = .sending n true ∧ t.link.attempts = 0 ∧ t.link.nextSeq = s.link.nextSeq) ∧
            (∀ n, s.link.phase = .waiting n ∨ s.link.phase = .holding n → LinkGoesOn s t))))

/-- REFRESH_HEAD acts by the head's state; where its refresh or its PROBE finds no room the head is out of step, with OUT_OF_STEP
raised if it was not. -/
def Obligations.RefreshHeadActsByState : Prop :=
  ∀ (s : State) (p : Port) (r : Request) (a : Byte), Settled s → Executes s p .refreshHead r → r.payload = [a] →
    (headOf a = none → Refuses (.refreshHead p) s p r .range []) ∧
    (∀ h, headOf a = some h →
      ((s.head h).state = .absent → Refuses (.refreshHead p) s p r .state []) ∧
      ((s.head h).state = .probing → OnlyAnswers (.refreshHead p) s p r [1]) ∧
      ((s.head h).state = .online → s.link.queue.length ≤ 62 →
        ∃ t, Completes (.refreshHead p) s p r [2] [.heads, .link, .ports] (fun _ => []) t ∧
          t.head h = { s.head h with outOfStep := false } ∧ (∀ h', h' ≠ h → t.head h' = s.head h') ∧
          t.commands = s.commands ++ [(h, refreshBody (s.head h).baseSlot .base s.texts),
            (h, refreshBody (s.head h).overSlot .overlay s.texts)]) ∧
      ((s.head h).state = .online → 62 < s.link.queue.length →
        ∃ t, Completes (.refreshHead p) s p r [2] [.heads, .link, .ports]
            (fun _ => if (s.head h).outOfStep = true then [] else [.outOfStep h]) t ∧
          t.head h = { s.head h with outOfStep := true } ∧ (∀ h', h' ≠ h → t.head h' = s.head h') ∧
          t.commands = s.commands) ∧
      ((s.head h).state = .fault → s.link.queue.length < 64 →
        ∃ t, Completes (.refreshHead p) s p r [1] [.heads, .link, .ports] (fun _ => []) t ∧
          t.head h = { s.head h with state := .probing } ∧ (∀ h', h' ≠ h → t.head h' = s.head h') ∧
          t.commands = s.commands ++ [(h, .probe)]) ∧
      ((s.head h).state = .fault → 64 ≤ s.link.queue.length →
        ∃ t, Completes (.refreshHead p) s p r [1] [.heads, .ports]
            (fun _ => if (s.head h).outOfStep = true then [] else [.outOfStep h]) t ∧
          t.head h = { s.head h with state := .probing, outOfStep := true } ∧ (∀ h', h' ≠ h → t.head h' = s.head h')))

/-! ## The Link Controller -/

/-- SET_LINK: the range test, and both settings replaced. -/
def Obligations.SetLinkSetsTheLimits : Prop :=
  ∀ (s : State) (p : Port) (r : Request) (a b : Byte), Settled s → Executes s p .setLink r → r.payload = [a, b] →
    (15 < a.toNat ∨ 31 < b.toNat → Refuses (.setLink p) s p r .range []) ∧
    (a.toNat ≤ 15 → b.toNat ≤ 31 →
      ∃ t, Completes (.setLink p) s p r ([a, b] ++ le2 s.link.attempts) [.link, .ports] (fun _ => []) t ∧
        t.link = { s.link with retryLimit := a.toNat, holdOff := b.toNat })

/-- The end of a display-link frame opens the ack window; after the tail of an abandoned frame the oldest command starts,
with the next sequence number and attempt 1. A frame from a head counts only in WAITING, only in the acknowledgement's layout
(0xA5, address, sequence number, kind 0x80, length 0, CRC low byte first) and only for the in-flight command's head and
sequence number; then the command leaves acknowledged, a PROBING head whose PROBE it is becomes ONLINE with its
refresh queued where it fits, waiting SYNCs are told, out-of-step heads are caught up where 16 commands or fewer are left,
and the oldest command starts. That a sent-frame command with no frame being sent does nothing is the model's choice (log
entry 7), and so are the serial numbers by which a SYNC names commands (log entry 4); that a SYNC's answer stands after the
event's other frames is read by inference (log entry 11). -/
def Obligations.LinkFramesAndAcknowledgements : Prop :=
  (∀ s : State,
    (∀ n, s.link.phase = .sending n false →
      exec .linkFrameSent s = .next (s.withLink { s.link with phase := .waiting 5 })) ∧
    (∀ n, s.link.phase = .sending n true → s.link.queue = [] →
      exec .linkFrameSent s = .next (s.withLink { s.link with phase := .none })) ∧
    (∀ n c rest, s.link.phase = .sending n true → s.link.queue = c :: rest →
      exec .linkFrameSent s = .next (s.withLink { s.link with
        queue := { c with seq := some s.link.nextSeq } :: rest, nextSeq := s.link.nextSeq + 1, attempts := 1,
        phase := .sending (5 * (7 + c.body.payload.length)) false })) ∧
    ((∀ n tail, s.link.phase ≠ .sending n tail) → exec .linkFrameSent s = .next s)) ∧
  (∀ (s : State) (frame : List Byte),
    ((∀ n, s.link.phase ≠ .waiting n) → exec (.acknowledgement frame) s = .next s) ∧
    (∀ n c rest, s.link.phase = .waiting n → s.link.queue = c :: rest →
      ((∀ k, c.seq = some k → ackOf frame ≠ some (byteOf c.head.val, k)) →
        exec (.acknowledgement frame) s = .next s) ∧
      (∀ k, c.seq = some k → ackOf frame = some (byteOf c.head.val, k) →
        ∃ t, exec (.acknowledgement frame) s = .next t ∧ OnlyChanges [.heads, .link, .ports] s t ∧ PortsKeepState s t ∧
          t.link.capture = s.link.capture ∧ LinkGoesOn s t ∧ SyncsTold s [c.id] true t ∧
          (c.body ≠ .probe ∨ (s.head c.head).state ≠ .probing →
            CatchesUp s (rest.map (fun d => (d.head, d.body))) t ∧
            ∀ q, (t.port q).pending = (s.port q).pending ∧ (t.port q).repeats = (s.port q).repeats) ∧
          (c.body = .probe → (s.head c.head).state = .probing →
            RaisedJust s t .headOnline [.headOnline c.head] ∧ OnlyRaises [.headOnline, .outOfStep] s t ∧
            (rest.length ≤ 62 →
              CatchesUp (s.setHead c.head { s.head c.head with state := .online, outOfStep := false })
                (rest.map (fun d => (d.head, d.body)) ++
                  [(c.head, refreshBody (s.head c.head).baseSlot .base s.texts),
                   (c.head, refreshBody (s.head c.head).overSlot .overlay s.texts)]) t ∧
              RaisedJust s t .outOfStep []) ∧
            (62 < rest.length →
              CatchesUp (s.setHead c.head { s.head c.head with state := .online, outOfStep := true })
                (rest.map (fun d => (d.head, d.body))) t ∧
              RaisedJust s t .outOfStep (if (s.head c.head).outOfStep = true then [] else [.outOfStep c.head])))))) ∧
  (∀ (frame : List Byte) (address number : Byte), ackOf frame = some (address, number) ↔
    ∃ lo hi : Byte, frame = [0xA5, address, number, 0x80, 0, lo, hi] ∧
      (crc16 [address, number, 0x80, 0]).toNat = lo.toNat + 256 * hi.toNat)

/-- A timeout tests the in-flight command against the limit: used up, it fails at once; else the hold-off runs, and the end
of the hold-off tests again and sends the same frame with the attempt count one higher. A failed PUT or TAKE makes its head
FAULT and takes the head's other commands from the queue, a failed PROBE makes its PROBING head FAULT; waiting SYNCs are
told, out-of-step heads are caught up where 16 commands or fewer are left, and the oldest command starts. That a timeout or
hold-off command outside its phase does nothing is the model's choice (log entry 7), and so are the serial numbers by which a
SYNC names commands (log entry 4); that a SYNC's answer stands after the event's other frames, the NOTICE of HEAD_FAULT too,
is read by inference (log entry 11). -/
def Obligations.TimeoutsRetryOrFail : Prop :=
  (∀ (s : State) (c : Command) (rest : List Command), Settled s → s.link.queue = c :: rest →
    (∀ n, s.link.phase = .waiting n → (s.link.retryLimit = 0 ∨ s.link.attempts < s.link.retryLimit + 1) →
      s.link.holdOff ≠ 0 →
      exec .ackTimeout s = .next (s.withLink { s.link with phase := .holding s.link.holdOff })) ∧
    (∀ i n, (i = .ackTimeout ∧ s.link.phase = .waiting n ∧ s.link.holdOff = 0) ∨
        (i = .holdOffEnd ∧ s.link.phase = .holding n) →
      (s.link.retryLimit = 0 ∨ s.link.attempts < s.link.retryLimit + 1) →
      exec i s = .next (s.withLink { s.link with
        attempts := min 65535 (s.link.attempts + 1), phase := .sending (5 * (7 + c.body.payload.length)) false })) ∧
    (∀ i n, (i = .ackTimeout ∧ s.link.phase = .waiting n) ∨ (i = .holdOffEnd ∧ s.link.phase = .holding n) →
      s.link.retryLimit ≠ 0 → s.link.retryLimit + 1 ≤ s.link.attempts →
      ∃ t, exec i s = .next t ∧ OnlyChanges [.heads, .link, .ports] s t ∧ PortsKeepState s t ∧
        RaisedJust s t .headFault [.headFault c.head c.body.kind s.link.attempts] ∧ OnlyRaises [.headFault] s t ∧
        t.link.capture = (match s.link.capture with
          | none => some ⟨c.head, c.body.kind, c.body.layer, s.link.attempts, c.body.cue, false⟩
          | some x => some { x with more := true }) ∧
        LinkGoesOn s t ∧
        (c.body ≠ .probe → (s.head c.head).state = .online →
          CatchesUp (s.setHead c.head { s.head c.head with state := .fault, outOfStep := false })
            ((rest.filter (fun d => decide (d.head ≠ c.head))).map (fun d => (d.head, d.body))) t ∧
          SyncsTold s (c.id :: (rest.filter (fun d => decide (d.head = c.head))).map Command.id) false t) ∧
        (c.body = .probe → (s.head c.head).state = .probing →
          CatchesUp (s.setHead c.head { s.head c.head with state := .fault }) (rest.map (fun d => (d.head, d.body))) t ∧
          SyncsTold s [c.id] false t))) ∧
  (∀ s : State,
    ((∀ n, s.link.phase ≠ .waiting n) → exec .ackTimeout s = .next s) ∧
    ((∀ n, s.link.phase ≠ .holding n) → exec .holdOffEnd s = .next s))

/-! ## Watches, cause sets and captures -/

/-- SET_WATCH: the range tests, the settings it writes with both match flags clear and the line as it was, and its answer. -/
def Obligations.SetWatchSetsAndRearms : Prop :=
  ∀ (s : State) (p : Port) (r : Request) (t0 a0 b0 c0 t1 a1 b1 c1 comb sil : Byte), Settled s →
    Executes s p .setWatch r → r.payload = [t0, a0, b0, c0, t1, a1, b1, c1, comb, sil] →
    (watchTypeOf t0 = none ∨ watchTypeOf t1 = none ∨ combineOf comb = none ∨ yesNoOf sil = none ∨
        (t0 ≠ 0 ∧ (cueOf a0 b0 c0).valid = false) ∨ (t1 ≠ 0 ∧ (cueOf a1 b1 c1).valid = false) →
      Refuses (.setWatch p) s p r .range []) ∧
    (∀ k0 k1 m q, watchTypeOf t0 = some k0 → watchTypeOf t1 = some k1 → combineOf comb = some m → yesNoOf sil = some q →
      (t0 ≠ 0 → (cueOf a0 b0 c0).valid = true) → (t1 ≠ 0 → (cueOf a1 b1 c1).valid = true) →
      ∀ v0 v1, v0 = (if (cueOf a0 b0 c0).valid = true then cueOf a0 b0 c0 else { major := 1, minor := 0 }) →
        v1 = (if (cueOf a1 b1 c1).valid = true then cueOf a1 b1 c1 else { major := 1, minor := 0 }) →
        ∃ t, Completes (.setWatch p) s p r
            ([t0] ++ cueBytes v0 ++ [t1] ++ cueBytes v1 ++ [comb, sil, matchByte s.watch.w0.matched s.watch.w1.matched])
            [.watch, .ports] (fun _ => []) t ∧
          t.watch.w0 = { type := k0, value := v0, matched := false } ∧
          t.watch.w1 = { type := k1, value := v1, matched := false } ∧ t.watch.combine = m ∧ t.watch.silent = q ∧
          t.watch.line = s.watch.line)

/-- SET_NOTICE, CLEAR_CAUSES and CLEAR_CAPTURE: their range tests; the new enable set with waiting notices of the causes taken out
discarded; the named causes taken from the sets; the capture named emptied and its content just before in the answer. -/
def Obligations.CauseSetAndCaptureRequests : Prop :=
  (∀ (s : State) (p : Port) (r : Request) (a b c : Byte), Settled s → Executes s p .setNotice r → r.payload = [a, b, c] →
    (8 ≤ c.toNat → Refuses (.setNotice p) s p r .range []) ∧
    (∀ set, causeSetOf a b c = some set →
      ∃ t, exec (.setNotice p) s = .next t ∧ OnlyChanges [.ports] s t ∧ OtherPortsSame p s t ∧
        (t.port p).enabled = set ∧
        (t.port p).frames = (s.port p).sending.toList ++
          (s.port p).outgoing.filter (fun f => !f.noticeIn ((s.port p).enabled &&& ~~~set)) ++
          [.answer .response r.tag r.kind [0x00, a, b, c]] ∧
        (t.port p).pending = (s.port p).pending ∧ (t.port p).repeats = (s.port p).repeats ∧
        (t.port p).queue = (s.port p).queue ∧ (t.port p).receiver = (s.port p).receiver ∧
        (t.port p).locked = (s.port p).locked ∧ (t.port p).lockPolicy = (s.port p).lockPolicy ∧
        (t.port p).capture = (s.port p).capture)) ∧
  (∀ (s : State) (p : Port) (r : Request) (a b c : Byte), Settled s → Executes s p .clearCauses r → r.payload = [a, b, c] →
    (8 ≤ c.toNat → Refuses (.clearCauses p) s p r .range []) ∧
    (∀ set, causeSetOf a b c = some set →
      ∃ t, exec (.clearCauses p) s = .next t ∧ OnlyChanges [.ports] s t ∧ OtherPortsSame p s t ∧ PortsKeepState s t ∧
        (t.port p).pending = (s.port p).pending.filter (fun x => !hasCause set x.cause) ∧
        (t.port p).repeats = (s.port p).repeats &&& ~~~set ∧
        (t.port p).frames = (s.port p).frames ++
          [.answer .response r.tag r.kind (0x00 :: causeSetBytes (t.port p).pendingSet ++
            causeSetBytes (t.port p).repeats)])) ∧
  (∀ (s : State) (p : Port) (r : Request) (a : Byte), Settled s → Executes s p .clearCapture r → r.payload = [a] →
    (a ≠ 0 → a ≠ 1 → Refuses (.clearCapture p) s p r .range []) ∧
    (a = 0 → ∃ t, exec (.clearCapture p) s = .next t ∧ Answers t p r .done (portCaptureBytes (s.port p).capture) ∧
      OnlyChanges [.ports] s t ∧ OtherPortsSame p s t ∧ (t.port p).capture = none ∧
      (t.port p).pending = (s.port p).pending ∧ (t.port p).repeats = (s.port p).repeats ∧
      (t.port p).queue = (s.port p).queue ∧ (t.port p).locked = (s.port p).locked ∧
      (t.port p).lockPolicy = (s.port p).lockPolicy ∧ (t.port p).enabled = (s.port p).enabled) ∧
    (a = 1 → ∃ t, Completes (.clearCapture p) s p r (linkCaptureBytes s.link.capture) [.link, .ports] (fun _ => []) t ∧
      t.link = { s.link with capture := none }))

/-! ## The Port Units -/

/-- SET_PORT writes the sending port's lock policy. -/
def Obligations.SetPortWritesTheLockPolicy : Prop :=
  ∀ (s : State) (p : Port) (r : Request) (a : Byte), Settled s → Executes s p .setPort r → r.payload = [a] →
    (a ≠ 0 → a ≠ 1 → Refuses (.setPort p) s p r .range []) ∧
    (∀ policy, a = yesNo policy →
      ∃ t, exec (.setPort p) s = .next t ∧ Answers t p r .done [a] ∧ OnlyChanges [.ports] s t ∧ OtherPortsSame p s t ∧
        (t.port p).lockPolicy = policy ∧ (t.port p).locked = false ∧ (t.port p).pending = (s.port p).pending ∧
        (t.port p).repeats = (s.port p).repeats ∧ (t.port p).queue = (s.port p).queue ∧
        (t.port p).capture = (s.port p).capture ∧ (t.port p).enabled = (s.port p).enabled)

/-- SYNC waits for the commands now in the queue, which it names by serial numbers of the model's own choice (log entry 4);
with none it is answered at once. Its answer, when they have left, is stated with the three ways in which commands leave
(LinkFramesAndAcknowledgements, TimeoutsRetryOrFail, SetHeadEnablesAndDisables). -/
def Obligations.SyncWaitsForTheQueuedCommands : Prop :=
  ∀ (s : State) (p : Port) (r : Request), Settled s → Executes s p .sync r →
    (s.link.queue = [] → OnlyAnswers (.sync p) s p r [0, 0]) ∧
    (s.link.queue ≠ [] →
      ∃ t, exec (.sync p) s = .next t ∧ OnlyChanges [.ports] s t ∧ OtherPortsSame p s t ∧
        (s.port p).SameButFrames (t.port p) ∧ (t.port p).frames = (s.port p).frames ∧
        (t.port p).pending = (s.port p).pending ∧
        (t.port p).sync = some { waiting := s.link.queue.map Command.id, total := s.link.queue.length, unacked := 0 })

/-- LIST_CUES: the range test, and the first frame: the record with the smallest number not less than the start, or the final
DONE where there is none. That the second field of a DONE that follows no LISTED frame is 0 is the model's choice (log entry
23). -/
def Obligations.ListCuesBeginsAListing : Prop :=
  ∀ (s : State) (p : Port) (r : Request) (a b c d : Byte), Settled s → Executes s p .listCues r → r.payload = [a, b, c, d] →
    ((cueOf a b c).valid = false ∨ d.toNat = 0 ∨ 64 < d.toNat → Refuses (.listCues p) s p r .range []) ∧
    ((cueOf a b c).valid = true → 1 ≤ d.toNat → d.toNat ≤ 64 →
      (cueFrom s.cues (cueOf a b c) = none → OnlyAnswers (.listCues p) s p r [0, 0]) ∧
      (∀ x, cueFrom s.cues (cueOf a b c) = some x →
        ∃ t, exec (.listCues p) s = .next t ∧ OnlyChanges [.ports] s t ∧ OtherPortsSame p s t ∧
          (t.port p).listing = some { left := d.toNat - 1, last := some x.num, made := 1 } ∧
          (t.port p).frames = (s.port p).frames ++ [.answer .listed r.tag r.kind (0x11 :: x.bytes)] ∧
          (t.port p).queue = (s.port p).queue ∧ (t.port p).pending = (s.port p).pending))

/-- When a frame has been sent the next one begins; after a request's last response the request leaves the queue, after a
LISTED frame the listing makes its next one or its final DONE, and none once it has been cut; a waiting SYNC waits on. That a
sent-frame command with no frame being sent does nothing is the model's choice (log entry 7), and that a response whose
request a port reset removed takes no request from the queue is read by inference (log entry 15). -/
def Obligations.SentFramesMoveThePort : Prop :=
  ∀ (s : State) (p : Port), Settled s →
    ((s.port p).sending = none → exec (.callerFrameSent p) s = .next s) ∧
    (∀ f, (s.port p).sending = some f →
      ∃ t, exec (.callerFrameSent p) s = .next t ∧ OnlyChanges [.ports] s t ∧ OtherPortsSame p s t ∧
        (t.port p).pending = (s.port p).pending ∧ (t.port p).sync = (s.port p).sync ∧
        (∀ tag k pl, f = .answer .response tag k pl →
          (t.port p).queue = (s.port p).queue.tail ∧ (t.port p).frames = (s.port p).outgoing) ∧
        (∀ tag k pl, (f = .answer .immediate tag k pl ∨ f = .answer .orphan tag k pl ∨ (∃ x, f = .notice x) ∨
            (f = .answer .listed tag k pl ∧ (s.port p).listing = none)) →
          (t.port p).queue = (s.port p).queue ∧ (t.port p).frames = (s.port p).outgoing ∧
            (t.port p).listing = (s.port p).listing) ∧
        (∀ tag k pl r rest left n made, f = .answer .listed tag k pl → (s.port p).queue = r :: rest →
          (s.port p).listing = some { left := left, last := some n, made := made } →
          (t.port p).queue = (s.port p).queue ∧
          (∀ x m, cueAfter s.cues n = some x → left = m + 1 →
            (t.port p).listing = some { left := m, last := some x.num, made := made + 1 } ∧
            (t.port p).frames = (s.port p).outgoing ++ [.answer .listed r.tag r.kind (0x11 :: x.bytes)]) ∧
          (cueAfter s.cues n = none ∨ left = 0 → (t.port p).listing = none ∧
            (t.port p).frames = (s.port p).outgoing ++
              [.answer .response r.tag r.kind
                [0x00, byteOf made, yesNo (cueAfter s.cues n).isSome]])))

/-- Bytes at the receiver: noise between frames is discarded, 0xC3 starts a frame, a bad byte, a length above 240 and a gap
discard the frame with LINE_ERROR, and a break takes no byte. That a gap command between frames does nothing is the model's
choice (log entry 7). -/
def Obligations.ReceiverTakesAndDiscardsBytes : Prop :=
  ∀ (s : State) (p : Port) (b : Byte) (good : Bool), Settled s →
    ((s.port p).inBreak = true → exec (.callerByteReceived p b good) s = .next s) ∧
    ((s.port p).inBreak = false →
      ((s.port p).receiver = .hunting → (b ≠ 0xC3 ∨ good = false) → exec (.callerByteReceived p b good) s = .next s) ∧
      ((s.port p).receiver = .hunting → b = 0xC3 → good = true →
        ∃ t left, exec (.callerByteReceived p b good) s = .next t ∧ OnlyChanges [.ports] s t ∧ OtherPortsSame p s t ∧
          t.port p = { s.port p with receiver := .inFrame [] left }) ∧
      (∀ got n, (s.port p).receiver = .inFrame got n → good = false →
        ∃ t, exec (.callerByteReceived p b good) s = .next t ∧ OnlyChanges [.ports] s t ∧ OtherPortsSame p s t ∧
          (t.port p).receiver = .hunting ∧ (t.port p).queue = (s.port p).queue ∧
          (t.port p).pending = putRaise (.lineError .byte got[0]? got[1]?) (s.port p).pending) ∧
      (∀ tag kind n, (s.port p).receiver = .inFrame [tag, kind] n → good = true → 240 < b.toNat →
        ∃ t, exec (.callerByteReceived p b good) s = .next t ∧ OnlyChanges [.ports] s t ∧ OtherPortsSame p s t ∧
          (t.port p).receiver = .hunting ∧ (t.port p).queue = (s.port p).queue ∧
          (t.port p).pending = putRaise (.lineError .length (some tag) (some kind)) (s.port p).pending)) ∧
    ((s.port p).receiver = .hunting → exec (.frameGapTimeout p) s = .next s) ∧
    (∀ got n, (s.port p).receiver = .inFrame got n →
      ∃ t, exec (.frameGapTimeout p) s = .next t ∧ OnlyChanges [.ports] s t ∧ OtherPortsSame p s t ∧
        (t.port p).receiver = .hunting ∧ (t.port p).queue = (s.port p).queue ∧
        (t.port p).pending = putRaise (.lineError .gap got[0]? got[1]?) (s.port p).pending)

/-- A complete frame: a wrong CRC discards it with LINE_ERROR; a good one that finds a listing running ends it with CUT
first; one of kind UNLOCK is then taken as UNLOCK, another joins the request queue, or is answered BUSY where 8 requests
stand there, or is discarded with BUSY raised where no immediate answer has room. That the frame completes whatever the
receiver held, that a listing is cut also where the frame is then discarded, and that the immediate answer being sent counts
among the eight, is read by inference (log entries 8, 12 and 13). -/
def Obligations.FramesJoinTheRequestQueue : Prop :=
  (∀ (s : State) (p : Port) (tag kind : Byte) (payload : List Byte) (crc : BitVec 16), Settled s →
    (s.port p).inBreak = false → payload.length ≤ 240 →
    ∃ t, exec (.frameReceived p tag kind payload crc) s = .next t ∧ OnlyChanges [.ports] s t ∧ OtherPortsSame p s t ∧
      (t.port p).receiver = .hunting ∧
      (crc ≠ frameCrc tag kind payload →
        (t.port p).queue = (s.port p).queue ∧ (t.port p).listing = (s.port p).listing ∧
        (t.port p).pending = putRaise (.lineError .crc (some tag) (some kind)) (s.port p).pending) ∧
      (crc = frameCrc tag kind payload → kind ≠ 0x14 →
        ((s.port p).queue.length < 8 →
          (t.port p).queue = (s.port p).queue ++ [{ tag := tag, kind := kind, payload := payload, drop := false }] ∧
          (t.port p).pending = (s.port p).pending ∧
          ((s.port p).sync = none → (t.port p).frames = (s.port p).cutListing.frames)) ∧
        (8 ≤ (s.port p).queue.length →
          (t.port p).queue = (s.port p).queue ∧ (t.port p).pending = putRaise (.busy tag kind) (s.port p).pending ∧
          (t.port p).frames.filter OutFrame.isImmediate =
            (s.port p).frames.filter OutFrame.isImmediate ++
              (if (s.port p).immediateFull = true then [] else [.answer .immediate tag kind [0x0E]]))) ∧
      (crc = frameCrc tag kind payload → ∀ x r rest, (s.port p).listing = some x → (s.port p).queue = r :: rest →
        (t.port p).listing = none ∧ .answer .response r.tag r.kind [0x10, byteOf x.made] ∈ (t.port p).frames)) ∧
  (∀ (s : State) (p : Port) (tag : Byte) (payload : List Byte), payload.length ≤ 240 →
    exec (.frameReceived p tag 0x14 payload (frameCrc tag 0x14 payload)) s = exec (.unlock p tag payload) s) ∧
  (∀ u : PortUnit,
    (u.listing = none → u.cutListing = u) ∧
    (∀ x r rest, u.listing = some x → u.queue = r :: rest →
      u.cutListing = { u with
        listing := none, outgoing := u.outgoing ++ [.answer .response r.tag r.kind [0x10, byteOf x.made]] }))

/-- A line break resets its port once however long it lasts, takes the call right from it, and leaves the card otherwise as
it was; a frame begun on the line is discarded with LINE_ERROR before, whose NOTICE begins to be sent where the line is free;
the line's return to marking ends the break. That a return to marking with no break does nothing is the model's choice (log
entry 7); as which case the frame is discarded is a free value (log entry 24). -/
def Obligations.LineBreaksResetThePort : Prop :=
  ∀ (s : State) (p : Port), Settled s →
    ((s.port p).inBreak = true → exec (.lineBreak p) s = .next s ∧
      ∃ t, exec (.lineReturnsToMarking p) s = .next t ∧ OnlyChanges [.ports] s t ∧ OtherPortsSame p s t ∧
        t.port p = { s.port p with inBreak := false, receiver := .hunting }) ∧
    ((s.port p).inBreak = false → exec (.lineReturnsToMarking p) s = .next s ∧
      ∃ t, exec (.lineBreak p) s = .next t ∧ OnlyChanges [.ports, .arbiter, .choices] s t ∧
        (t.port p).receiver = .hunting ∧ (t.port p).inBreak = true ∧ (t.port p).queue = [] ∧
        (t.port p).locked = false ∧ (t.port p).lockPolicy = (s.port p).lockPolicy ∧ (t.port p).capture = none ∧
        (t.port p).listing = none ∧ (t.port p).sync = none ∧ (t.port p).enabled = (s.port p).enabled ∧
        (t.port p).repeats = 0 ∧ t.arbiter.roles = s.arbiter.roles ∧
        ((s.port p).receiver = .hunting → t.choices = s.choices) ∧
        (∀ f, (s.port p).sending = some f → (t.port p).sending = some f.orphaned) ∧
        ((s.port p).sending = none → (s.port p).receiver = .hunting ∨ hasCause (s.port p).enabled .lineError = false →
          s.arbiter.holder ≠ some p → (t.port p).sending = none) ∧
        ((s.port p).sending = none → hasCause (s.port p).enabled .lineError = true →
          ∀ got n, (s.port p).receiver = .inFrame got n →
            (t.port p).sending = some (.notice (.lineError .byte got[0]? got[1]?)) ∨
            (t.port p).sending = some (.notice (.lineError .gap got[0]? got[1]?))) ∧
        (s.arbiter.holder ≠ some p → (t.port p).pending = [] ∧ (t.port p).outgoing = [] ∧
          t.arbiter.holder = s.arbiter.holder ∧
          t.arbiter.claims = s.arbiter.claims.filter (fun x => decide (x ≠ p)) ∧ OtherPortsSame p s t) ∧
        (s.arbiter.holder = some p → s.arbiter.claims.head? ≠ some p →
          (t.port p).pending = [.callLost .portReset s.arbiter.claims.head?] ∧
          t.arbiter.holder = s.arbiter.claims.head? ∧ t.arbiter.claims = s.arbiter.claims.tail ∧
          (∀ q, s.arbiter.claims.head? = some q →
            (t.port q).pending = putRaise (.callGranted .passed (some p)) (s.port q).pending) ∧
          ∀ q, q ≠ p → s.arbiter.claims.head? ≠ some q → t.port q = s.port q))

/-- A good UNLOCK frame, after a running listing is cut: with no room for an immediate answer it is discarded and BUSY
raised; a wrong length is refused FORM without a lock; a LOCKED port becomes NORMAL with its held requests released or marked
for dropping; a NORMAL port is left as it is; the immediate answer tells which; the receiver hunts again. A marked request is
answered DROPPED when its turn comes, and nothing else happens. That an already answered request is not among those released
or marked, that the immediate answer being sent counts among the eight, that a listing is cut also where the frame is then
discarded, and that the frame is taken whatever the receiver held, which hunts afterwards, is read by inference (log entries
14, 13, 12 and 9). -/
def Obligations.UnlockReleasesAndDropped : Prop :=
  (∀ (s : State) (p : Port) (tag : Byte) (payload : List Byte) (u : PortUnit), Settled s → (s.port p).inBreak = false →
    u = (s.port p).cutListing →
    ∃ t, exec (.unlock p tag payload) s = .next t ∧ OnlyChanges [.ports] s t ∧ OtherPortsSame p s t ∧
      (t.port p).receiver = .hunting ∧ (t.port p).listing = u.listing ∧
      ((s.port p).immediateFull = true → (t.port p).locked = (s.port p).locked ∧ (t.port p).queue = (s.port p).queue ∧
        (t.port p).capture = (s.port p).capture ∧ (t.port p).pending = putRaise (.busy tag 0x14) (s.port p).pending ∧
        (t.port p).frames.filter OutFrame.isImmediate = (s.port p).frames.filter OutFrame.isImmediate) ∧
      ((s.port p).immediateFull = false →
        (payload.length ≠ 1 → (t.port p).locked = (s.port p).locked ∧ (t.port p).queue = (s.port p).queue ∧
          .refusal tag 0x14 .form ∈ (t.port p).pending ∧
          (t.port p).capture = (match (s.port p).capture with
            | none => some { tag := tag, kind := 0x14, status := .form, more := false }
            | some c => some { c with more := true }) ∧
          (t.port p).frames.getLast? = some (.answer .immediate tag 0x14 [0x02])) ∧
        (∀ discard, payload = [discard] → (t.port p).locked = false ∧ (t.port p).pending = (s.port p).pending ∧
          (t.port p).capture = (s.port p).capture ∧
          ((s.port p).locked = false → (t.port p).queue = (s.port p).queue ∧
            (t.port p).frames = u.frames ++ [.answer .immediate tag 0x14 [0x00, 0, 0]]) ∧
          ((s.port p).locked = true →
            (t.port p).frames = u.frames ++ [.answer .immediate tag 0x14 [0x00, 1, byteOf u.heldCount]] ∧
            (discard = 0 → (t.port p).queue = (s.port p).queue) ∧
            (discard ≠ 0 → u.frames.any OutFrame.answersOldest = false →
              (t.port p).queue = (s.port p).queue.map (fun x => { x with drop := true })) ∧
            (discard ≠ 0 → u.frames.any OutFrame.answersOldest = true →
              (t.port p).queue = (s.port p).queue.take 1 ++
                ((s.port p).queue.drop 1).map (fun x => { x with drop := true })))))) ∧
  (∀ (s : State) (p : Port) (r : Request), Settled s → s.turn p = some r → r.drop = true →
    ∃ t, exec (.dropped p) s = .next t ∧ OnlyChanges [.ports] s t ∧ OtherPortsSame p s t ∧
      (s.port p).SameButFrames (t.port p) ∧ (t.port p).pending = (s.port p).pending ∧
      (t.port p).frames = (s.port p).frames ++ [.answer .response r.tag r.kind [0x0F]])
end

