-- ==== Sys2Proof/Laws/State.lean ====
section
/-! SUPPORT. One lemma for each field of the state under each update, so that no proof unfolds a record update; and the homes of
ports, heads, slots and group-layer records. -/

set_option Elab.async false

namespace Sys2Proof.Machine

variable (s : State)

@[simp] theorem State.withTime_cardTime (x : Nat) : (s.withTime x).cardTime = x := rfl
@[simp] theorem State.withTime_straps (x : Nat) : (s.withTime x).straps = s.straps := rfl
@[simp] theorem State.withTime_cues (x : Nat) : (s.withTime x).cues = s.cues := rfl
@[simp] theorem State.withTime_texts (x : Nat) : (s.withTime x).texts = s.texts := rfl
@[simp] theorem State.withTime_engine (x : Nat) : (s.withTime x).engine = s.engine := rfl
@[simp] theorem State.withTime_run (x : Nat) : (s.withTime x).run = s.run := rfl
@[simp] theorem State.withTime_beat (x : Nat) : (s.withTime x).beat = s.beat := rfl
@[simp] theorem State.withTime_heads (x : Nat) : (s.withTime x).heads = s.heads := rfl
@[simp] theorem State.withTime_link (x : Nat) : (s.withTime x).link = s.link := rfl
@[simp] theorem State.withTime_arbiter (x : Nat) : (s.withTime x).arbiter = s.arbiter := rfl
@[simp] theorem State.withTime_watch (x : Nat) : (s.withTime x).watch = s.watch := rfl
@[simp] theorem State.withTime_ports (x : Nat) : (s.withTime x).ports = s.ports := rfl
@[simp] theorem State.withTime_pending (x : Nat) : (s.withTime x).pending = s.pending := rfl
@[simp] theorem State.withTime_due (x : Nat) : (s.withTime x).due = s.due := rfl
@[simp] theorem State.withTime_choices (x : Nat) : (s.withTime x).choices = s.choices := rfl

@[simp] theorem State.withStraps_cardTime (x : Straps) : (s.withStraps x).cardTime = s.cardTime := rfl
@[simp] theorem State.withStraps_straps (x : Straps) : (s.withStraps x).straps = x := rfl
@[simp] theorem State.withStraps_cues (x : Straps) : (s.withStraps x).cues = s.cues := rfl
@[simp] theorem State.withStraps_texts (x : Straps) : (s.withStraps x).texts = s.texts := rfl
@[simp] theorem State.withStraps_engine (x : Straps) : (s.withStraps x).engine = s.engine := rfl
@[simp] theorem State.withStraps_run (x : Straps) : (s.withStraps x).run = s.run := rfl
@[simp] theorem State.withStraps_beat (x : Straps) : (s.withStraps x).beat = s.beat := rfl
@[simp] theorem State.withStraps_heads (x : Straps) : (s.withStraps x).heads = s.heads := rfl
@[simp] theorem State.withStraps_link (x : Straps) : (s.withStraps x).link = s.link := rfl
@[simp] theorem State.withStraps_arbiter (x : Straps) : (s.withStraps x).arbiter = s.arbiter := rfl
@[simp] theorem State.withStraps_watch (x : Straps) : (s.withStraps x).watch = s.watch := rfl
@[simp] theorem State.withStraps_ports (x : Straps) : (s.withStraps x).ports = s.ports := rfl
@[simp] theorem State.withStraps_pending (x : Straps) : (s.withStraps x).pending = s.pending := rfl
@[simp] theorem State.withStraps_due (x : Straps) : (s.withStraps x).due = s.due := rfl
@[simp] theorem State.withStraps_choices (x : Straps) : (s.withStraps x).choices = s.choices := rfl

@[simp] theorem State.withCues_cardTime (x : List CueRec) : (s.withCues x).cardTime = s.cardTime := rfl
@[simp] theorem State.withCues_straps (x : List CueRec) : (s.withCues x).straps = s.straps := rfl
@[simp] theorem State.withCues_cues (x : List CueRec) : (s.withCues x).cues = x := rfl
@[simp] theorem State.withCues_texts (x : List CueRec) : (s.withCues x).texts = s.texts := rfl
@[simp] theorem State.withCues_engine (x : List CueRec) : (s.withCues x).engine = s.engine := rfl
@[simp] theorem State.withCues_run (x : List CueRec) : (s.withCues x).run = s.run := rfl
@[simp] theorem State.withCues_beat (x : List CueRec) : (s.withCues x).beat = s.beat := rfl
@[simp] theorem State.withCues_heads (x : List CueRec) : (s.withCues x).heads = s.heads := rfl
@[simp] theorem State.withCues_link (x : List CueRec) : (s.withCues x).link = s.link := rfl
@[simp] theorem State.withCues_arbiter (x : List CueRec) : (s.withCues x).arbiter = s.arbiter := rfl
@[simp] theorem State.withCues_watch (x : List CueRec) : (s.withCues x).watch = s.watch := rfl
@[simp] theorem State.withCues_ports (x : List CueRec) : (s.withCues x).ports = s.ports := rfl
@[simp] theorem State.withCues_pending (x : List CueRec) : (s.withCues x).pending = s.pending := rfl
@[simp] theorem State.withCues_due (x : List CueRec) : (s.withCues x).due = s.due := rfl
@[simp] theorem State.withCues_choices (x : List CueRec) : (s.withCues x).choices = s.choices := rfl

@[simp] theorem State.withTexts_cardTime (x : List TextRec) : (s.withTexts x).cardTime = s.cardTime := rfl
@[simp] theorem State.withTexts_straps (x : List TextRec) : (s.withTexts x).straps = s.straps := rfl
@[simp] theorem State.withTexts_cues (x : List TextRec) : (s.withTexts x).cues = s.cues := rfl
@[simp] theorem State.withTexts_texts (x : List TextRec) : (s.withTexts x).texts = x := rfl
@[simp] theorem State.withTexts_engine (x : List TextRec) : (s.withTexts x).engine = s.engine := rfl
@[simp] theorem State.withTexts_run (x : List TextRec) : (s.withTexts x).run = s.run := rfl
@[simp] theorem State.withTexts_beat (x : List TextRec) : (s.withTexts x).beat = s.beat := rfl
@[simp] theorem State.withTexts_heads (x : List TextRec) : (s.withTexts x).heads = s.heads := rfl
@[simp] theorem State.withTexts_link (x : List TextRec) : (s.withTexts x).link = s.link := rfl
@[simp] theorem State.withTexts_arbiter (x : List TextRec) : (s.withTexts x).arbiter = s.arbiter := rfl
@[simp] theorem State.withTexts_watch (x : List TextRec) : (s.withTexts x).watch = s.watch := rfl
@[simp] theorem State.withTexts_ports (x : List TextRec) : (s.withTexts x).ports = s.ports := rfl
@[simp] theorem State.withTexts_pending (x : List TextRec) : (s.withTexts x).pending = s.pending := rfl
@[simp] theorem State.withTexts_due (x : List TextRec) : (s.withTexts x).due = s.due := rfl
@[simp] theorem State.withTexts_choices (x : List TextRec) : (s.withTexts x).choices = s.choices := rfl

@[simp] theorem State.withEngine_cardTime (x : ShowEngine) : (s.withEngine x).cardTime = s.cardTime := rfl
@[simp] theorem State.withEngine_straps (x : ShowEngine) : (s.withEngine x).straps = s.straps := rfl
@[simp] theorem State.withEngine_cues (x : ShowEngine) : (s.withEngine x).cues = s.cues := rfl
@[simp] theorem State.withEngine_texts (x : ShowEngine) : (s.withEngine x).texts = s.texts := rfl
@[simp] theorem State.withEngine_engine (x : ShowEngine) : (s.withEngine x).engine = x := rfl
@[simp] theorem State.withEngine_run (x : ShowEngine) : (s.withEngine x).run = s.run := rfl
@[simp] theorem State.withEngine_beat (x : ShowEngine) : (s.withEngine x).beat = s.beat := rfl
@[simp] theorem State.withEngine_heads (x : ShowEngine) : (s.withEngine x).heads = s.heads := rfl
@[simp] theorem State.withEngine_link (x : ShowEngine) : (s.withEngine x).link = s.link := rfl
@[simp] theorem State.withEngine_arbiter (x : ShowEngine) : (s.withEngine x).arbiter = s.arbiter := rfl
@[simp] theorem State.withEngine_watch (x : ShowEngine) : (s.withEngine x).watch = s.watch := rfl
@[simp] theorem State.withEngine_ports (x : ShowEngine) : (s.withEngine x).ports = s.ports := rfl
@[simp] theorem State.withEngine_pending (x : ShowEngine) : (s.withEngine x).pending = s.pending := rfl
@[simp] theorem State.withEngine_due (x : ShowEngine) : (s.withEngine x).due = s.due := rfl
@[simp] theorem State.withEngine_choices (x : ShowEngine) : (s.withEngine x).choices = s.choices := rfl

@[simp] theorem State.withRun_cardTime (x : RunQueue) : (s.withRun x).cardTime = s.cardTime := rfl
@[simp] theorem State.withRun_straps (x : RunQueue) : (s.withRun x).straps = s.straps := rfl
@[simp] theorem State.withRun_cues (x : RunQueue) : (s.withRun x).cues = s.cues := rfl
@[simp] theorem State.withRun_texts (x : RunQueue) : (s.withRun x).texts = s.texts := rfl
@[simp] theorem State.withRun_engine (x : RunQueue) : (s.withRun x).engine = s.engine := rfl
@[simp] theorem State.withRun_run (x : RunQueue) : (s.withRun x).run = x := rfl
@[simp] theorem State.withRun_beat (x : RunQueue) : (s.withRun x).beat = s.beat := rfl
@[simp] theorem State.withRun_heads (x : RunQueue) : (s.withRun x).heads = s.heads := rfl
@[simp] theorem State.withRun_link (x : RunQueue) : (s.withRun x).link = s.link := rfl
@[simp] theorem State.withRun_arbiter (x : RunQueue) : (s.withRun x).arbiter = s.arbiter := rfl
@[simp] theorem State.withRun_watch (x : RunQueue) : (s.withRun x).watch = s.watch := rfl
@[simp] theorem State.withRun_ports (x : RunQueue) : (s.withRun x).ports = s.ports := rfl
@[simp] theorem State.withRun_pending (x : RunQueue) : (s.withRun x).pending = s.pending := rfl
@[simp] theorem State.withRun_due (x : RunQueue) : (s.withRun x).due = s.due := rfl
@[simp] theorem State.withRun_choices (x : RunQueue) : (s.withRun x).choices = s.choices := rfl

@[simp] theorem State.withBeat_cardTime (x : BeatUnit) : (s.withBeat x).cardTime = s.cardTime := rfl
@[simp] theorem State.withBeat_straps (x : BeatUnit) : (s.withBeat x).straps = s.straps := rfl
@[simp] theorem State.withBeat_cues (x : BeatUnit) : (s.withBeat x).cues = s.cues := rfl
@[simp] theorem State.withBeat_texts (x : BeatUnit) : (s.withBeat x).texts = s.texts := rfl
@[simp] theorem State.withBeat_engine (x : BeatUnit) : (s.withBeat x).engine = s.engine := rfl
@[simp] theorem State.withBeat_run (x : BeatUnit) : (s.withBeat x).run = s.run := rfl
@[simp] theorem State.withBeat_beat (x : BeatUnit) : (s.withBeat x).beat = x := rfl
@[simp] theorem State.withBeat_heads (x : BeatUnit) : (s.withBeat x).heads = s.heads := rfl
@[simp] theorem State.withBeat_link (x : BeatUnit) : (s.withBeat x).link = s.link := rfl
@[simp] theorem State.withBeat_arbiter (x : BeatUnit) : (s.withBeat x).arbiter = s.arbiter := rfl
@[simp] theorem State.withBeat_watch (x : BeatUnit) : (s.withBeat x).watch = s.watch := rfl
@[simp] theorem State.withBeat_ports (x : BeatUnit) : (s.withBeat x).ports = s.ports := rfl
@[simp] theorem State.withBeat_pending (x : BeatUnit) : (s.withBeat x).pending = s.pending := rfl
@[simp] theorem State.withBeat_due (x : BeatUnit) : (s.withBeat x).due = s.due := rfl
@[simp] theorem State.withBeat_choices (x : BeatUnit) : (s.withBeat x).choices = s.choices := rfl

@[simp] theorem State.withHeads_cardTime (x : Vector Head 16) : (s.withHeads x).cardTime = s.cardTime := rfl
@[simp] theorem State.withHeads_straps (x : Vector Head 16) : (s.withHeads x).straps = s.straps := rfl
@[simp] theorem State.withHeads_cues (x : Vector Head 16) : (s.withHeads x).cues = s.cues := rfl
@[simp] theorem State.withHeads_texts (x : Vector Head 16) : (s.withHeads x).texts = s.texts := rfl
@[simp] theorem State.withHeads_engine (x : Vector Head 16) : (s.withHeads x).engine = s.engine := rfl
@[simp] theorem State.withHeads_run (x : Vector Head 16) : (s.withHeads x).run = s.run := rfl
@[simp] theorem State.withHeads_beat (x : Vector Head 16) : (s.withHeads x).beat = s.beat := rfl
@[simp] theorem State.withHeads_heads (x : Vector Head 16) : (s.withHeads x).heads = x := rfl
@[simp] theorem State.withHeads_link (x : Vector Head 16) : (s.withHeads x).link = s.link := rfl
@[simp] theorem State.withHeads_arbiter (x : Vector Head 16) : (s.withHeads x).arbiter = s.arbiter := rfl
@[simp] theorem State.withHeads_watch (x : Vector Head 16) : (s.withHeads x).watch = s.watch := rfl
@[simp] theorem State.withHeads_ports (x : Vector Head 16) : (s.withHeads x).ports = s.ports := rfl
@[simp] theorem State.withHeads_pending (x : Vector Head 16) : (s.withHeads x).pending = s.pending := rfl
@[simp] theorem State.withHeads_due (x : Vector Head 16) : (s.withHeads x).due = s.due := rfl
@[simp] theorem State.withHeads_choices (x : Vector Head 16) : (s.withHeads x).choices = s.choices := rfl

@[simp] theorem State.withLink_cardTime (x : LinkController) : (s.withLink x).cardTime = s.cardTime := rfl
@[simp] theorem State.withLink_straps (x : LinkController) : (s.withLink x).straps = s.straps := rfl
@[simp] theorem State.withLink_cues (x : LinkController) : (s.withLink x).cues = s.cues := rfl
@[simp] theorem State.withLink_texts (x : LinkController) : (s.withLink x).texts = s.texts := rfl
@[simp] theorem State.withLink_engine (x : LinkController) : (s.withLink x).engine = s.engine := rfl
@[simp] theorem State.withLink_run (x : LinkController) : (s.withLink x).run = s.run := rfl
@[simp] theorem State.withLink_beat (x : LinkController) : (s.withLink x).beat = s.beat := rfl
@[simp] theorem State.withLink_heads (x : LinkController) : (s.withLink x).heads = s.heads := rfl
@[simp] theorem State.withLink_link (x : LinkController) : (s.withLink x).link = x := rfl
@[simp] theorem State.withLink_arbiter (x : LinkController) : (s.withLink x).arbiter = s.arbiter := rfl
@[simp] theorem State.withLink_watch (x : LinkController) : (s.withLink x).watch = s.watch := rfl
@[simp] theorem State.withLink_ports (x : LinkController) : (s.withLink x).ports = s.ports := rfl
@[simp] theorem State.withLink_pending (x : LinkController) : (s.withLink x).pending = s.pending := rfl
@[simp] theorem State.withLink_due (x : LinkController) : (s.withLink x).due = s.due := rfl
@[simp] theorem State.withLink_choices (x : LinkController) : (s.withLink x).choices = s.choices := rfl

@[simp] theorem State.withArbiter_cardTime (x : CallArbiter) : (s.withArbiter x).cardTime = s.cardTime := rfl
@[simp] theorem State.withArbiter_straps (x : CallArbiter) : (s.withArbiter x).straps = s.straps := rfl
@[simp] theorem State.withArbiter_cues (x : CallArbiter) : (s.withArbiter x).cues = s.cues := rfl
@[simp] theorem State.withArbiter_texts (x : CallArbiter) : (s.withArbiter x).texts = s.texts := rfl
@[simp] theorem State.withArbiter_engine (x : CallArbiter) : (s.withArbiter x).engine = s.engine := rfl
@[simp] theorem State.withArbiter_run (x : CallArbiter) : (s.withArbiter x).run = s.run := rfl
@[simp] theorem State.withArbiter_beat (x : CallArbiter) : (s.withArbiter x).beat = s.beat := rfl
@[simp] theorem State.withArbiter_heads (x : CallArbiter) : (s.withArbiter x).heads = s.heads := rfl
@[simp] theorem State.withArbiter_link (x : CallArbiter) : (s.withArbiter x).link = s.link := rfl
@[simp] theorem State.withArbiter_arbiter (x : CallArbiter) : (s.withArbiter x).arbiter = x := rfl
@[simp] theorem State.withArbiter_watch (x : CallArbiter) : (s.withArbiter x).watch = s.watch := rfl
@[simp] theorem State.withArbiter_ports (x : CallArbiter) : (s.withArbiter x).ports = s.ports := rfl
@[simp] theorem State.withArbiter_pending (x : CallArbiter) : (s.withArbiter x).pending = s.pending := rfl
@[simp] theorem State.withArbiter_due (x : CallArbiter) : (s.withArbiter x).due = s.due := rfl
@[simp] theorem State.withArbiter_choices (x : CallArbiter) : (s.withArbiter x).choices = s.choices := rfl

@[simp] theorem State.withWatch_cardTime (x : WatchUnit) : (s.withWatch x).cardTime = s.cardTime := rfl
@[simp] theorem State.withWatch_straps (x : WatchUnit) : (s.withWatch x).straps = s.straps := rfl
@[simp] theorem State.withWatch_cues (x : WatchUnit) : (s.withWatch x).cues = s.cues := rfl
@[simp] theorem State.withWatch_texts (x : WatchUnit) : (s.withWatch x).texts = s.texts := rfl
@[simp] theorem State.withWatch_engine (x : WatchUnit) : (s.withWatch x).engine = s.engine := rfl
@[simp] theorem State.withWatch_run (x : WatchUnit) : (s.withWatch x).run = s.run := rfl
@[simp] theorem State.withWatch_beat (x : WatchUnit) : (s.withWatch x).beat = s.beat := rfl
@[simp] theorem State.withWatch_heads (x : WatchUnit) : (s.withWatch x).heads = s.heads := rfl
@[simp] theorem State.withWatch_link (x : WatchUnit) : (s.withWatch x).link = s.link := rfl
@[simp] theorem State.withWatch_arbiter (x : WatchUnit) : (s.withWatch x).arbiter = s.arbiter := rfl
@[simp] theorem State.withWatch_watch (x : WatchUnit) : (s.withWatch x).watch = x := rfl
@[simp] theorem State.withWatch_ports (x : WatchUnit) : (s.withWatch x).ports = s.ports := rfl
@[simp] theorem State.withWatch_pending (x : WatchUnit) : (s.withWatch x).pending = s.pending := rfl
@[simp] theorem State.withWatch_due (x : WatchUnit) : (s.withWatch x).due = s.due := rfl
@[simp] theorem State.withWatch_choices (x : WatchUnit) : (s.withWatch x).choices = s.choices := rfl

@[simp] theorem State.withPorts_cardTime (x : PerPort PortUnit) : (s.withPorts x).cardTime = s.cardTime := rfl
@[simp] theorem State.withPorts_straps (x : PerPort PortUnit) : (s.withPorts x).straps = s.straps := rfl
@[simp] theorem State.withPorts_cues (x : PerPort PortUnit) : (s.withPorts x).cues = s.cues := rfl
@[simp] theorem State.withPorts_texts (x : PerPort PortUnit) : (s.withPorts x).texts = s.texts := rfl
@[simp] theorem State.withPorts_engine (x : PerPort PortUnit) : (s.withPorts x).engine = s.engine := rfl
@[simp] theorem State.withPorts_run (x : PerPort PortUnit) : (s.withPorts x).run = s.run := rfl
@[simp] theorem State.withPorts_beat (x : PerPort PortUnit) : (s.withPorts x).beat = s.beat := rfl
@[simp] theorem State.withPorts_heads (x : PerPort PortUnit) : (s.withPorts x).heads = s.heads := rfl
@[simp] theorem State.withPorts_link (x : PerPort PortUnit) : (s.withPorts x).link = s.link := rfl
@[simp] theorem State.withPorts_arbiter (x : PerPort PortUnit) : (s.withPorts x).arbiter = s.arbiter := rfl
@[simp] theorem State.withPorts_watch (x : PerPort PortUnit) : (s.withPorts x).watch = s.watch := rfl
@[simp] theorem State.withPorts_ports (x : PerPort PortUnit) : (s.withPorts x).ports = x := rfl
@[simp] theorem State.withPorts_pending (x : PerPort PortUnit) : (s.withPorts x).pending = s.pending := rfl
@[simp] theorem State.withPorts_due (x : PerPort PortUnit) : (s.withPorts x).due = s.due := rfl
@[simp] theorem State.withPorts_choices (x : PerPort PortUnit) : (s.withPorts x).choices = s.choices := rfl

@[simp] theorem State.withPending_cardTime (x : List Instr) : (s.withPending x).cardTime = s.cardTime := rfl
@[simp] theorem State.withPending_straps (x : List Instr) : (s.withPending x).straps = s.straps := rfl
@[simp] theorem State.withPending_cues (x : List Instr) : (s.withPending x).cues = s.cues := rfl
@[simp] theorem State.withPending_texts (x : List Instr) : (s.withPending x).texts = s.texts := rfl
@[simp] theorem State.withPending_engine (x : List Instr) : (s.withPending x).engine = s.engine := rfl
@[simp] theorem State.withPending_run (x : List Instr) : (s.withPending x).run = s.run := rfl
@[simp] theorem State.withPending_beat (x : List Instr) : (s.withPending x).beat = s.beat := rfl
@[simp] theorem State.withPending_heads (x : List Instr) : (s.withPending x).heads = s.heads := rfl
@[simp] theorem State.withPending_link (x : List Instr) : (s.withPending x).link = s.link := rfl
@[simp] theorem State.withPending_arbiter (x : List Instr) : (s.withPending x).arbiter = s.arbiter := rfl
@[simp] theorem State.withPending_watch (x : List Instr) : (s.withPending x).watch = s.watch := rfl
@[simp] theorem State.withPending_ports (x : List Instr) : (s.withPending x).ports = s.ports := rfl
@[simp] theorem State.withPending_pending (x : List Instr) : (s.withPending x).pending = x := rfl
@[simp] theorem State.withPending_due (x : List Instr) : (s.withPending x).due = s.due := rfl
@[simp] theorem State.withPending_choices (x : List Instr) : (s.withPending x).choices = s.choices := rfl

@[simp] theorem State.withDue_cardTime (x : List Instr) : (s.withDue x).cardTime = s.cardTime := rfl
@[simp] theorem State.withDue_straps (x : List Instr) : (s.withDue x).straps = s.straps := rfl
@[simp] theorem State.withDue_cues (x : List Instr) : (s.withDue x).cues = s.cues := rfl
@[simp] theorem State.withDue_texts (x : List Instr) : (s.withDue x).texts = s.texts := rfl
@[simp] theorem State.withDue_engine (x : List Instr) : (s.withDue x).engine = s.engine := rfl
@[simp] theorem State.withDue_run (x : List Instr) : (s.withDue x).run = s.run := rfl
@[simp] theorem State.withDue_beat (x : List Instr) : (s.withDue x).beat = s.beat := rfl
@[simp] theorem State.withDue_heads (x : List Instr) : (s.withDue x).heads = s.heads := rfl
@[simp] theorem State.withDue_link (x : List Instr) : (s.withDue x).link = s.link := rfl
@[simp] theorem State.withDue_arbiter (x : List Instr) : (s.withDue x).arbiter = s.arbiter := rfl
@[simp] theorem State.withDue_watch (x : List Instr) : (s.withDue x).watch = s.watch := rfl
@[simp] theorem State.withDue_ports (x : List Instr) : (s.withDue x).ports = s.ports := rfl
@[simp] theorem State.withDue_pending (x : List Instr) : (s.withDue x).pending = s.pending := rfl
@[simp] theorem State.withDue_due (x : List Instr) : (s.withDue x).due = x := rfl
@[simp] theorem State.withDue_choices (x : List Instr) : (s.withDue x).choices = s.choices := rfl

@[simp] theorem State.withChoices_cardTime (x : Nat) : (s.withChoices x).cardTime = s.cardTime := rfl
@[simp] theorem State.withChoices_straps (x : Nat) : (s.withChoices x).straps = s.straps := rfl
@[simp] theorem State.withChoices_cues (x : Nat) : (s.withChoices x).cues = s.cues := rfl
@[simp] theorem State.withChoices_texts (x : Nat) : (s.withChoices x).texts = s.texts := rfl
@[simp] theorem State.withChoices_engine (x : Nat) : (s.withChoices x).engine = s.engine := rfl
@[simp] theorem State.withChoices_run (x : Nat) : (s.withChoices x).run = s.run := rfl
@[simp] theorem State.withChoices_beat (x : Nat) : (s.withChoices x).beat = s.beat := rfl
@[simp] theorem State.withChoices_heads (x : Nat) : (s.withChoices x).heads = s.heads := rfl
@[simp] theorem State.withChoices_link (x : Nat) : (s.withChoices x).link = s.link := rfl
@[simp] theorem State.withChoices_arbiter (x : Nat) : (s.withChoices x).arbiter = s.arbiter := rfl
@[simp] theorem State.withChoices_watch (x : Nat) : (s.withChoices x).watch = s.watch := rfl
@[simp] theorem State.withChoices_ports (x : Nat) : (s.withChoices x).ports = s.ports := rfl
@[simp] theorem State.withChoices_pending (x : Nat) : (s.withChoices x).pending = s.pending := rfl
@[simp] theorem State.withChoices_due (x : Nat) : (s.withChoices x).due = s.due := rfl
@[simp] theorem State.withChoices_choices (x : Nat) : (s.withChoices x).choices = x := rfl

/-! ## Homes: ports, heads, slots, group-layer records -/

@[simp] theorem State.onPort_cardTime (p : Port) (f : PortUnit → PortUnit) : (s.onPort p f).cardTime = s.cardTime := rfl
@[simp] theorem State.onPort_straps (p : Port) (f : PortUnit → PortUnit) : (s.onPort p f).straps = s.straps := rfl
@[simp] theorem State.onPort_cues (p : Port) (f : PortUnit → PortUnit) : (s.onPort p f).cues = s.cues := rfl
@[simp] theorem State.onPort_texts (p : Port) (f : PortUnit → PortUnit) : (s.onPort p f).texts = s.texts := rfl
@[simp] theorem State.onPort_engine (p : Port) (f : PortUnit → PortUnit) : (s.onPort p f).engine = s.engine := rfl
@[simp] theorem State.onPort_run (p : Port) (f : PortUnit → PortUnit) : (s.onPort p f).run = s.run := rfl
@[simp] theorem State.onPort_beat (p : Port) (f : PortUnit → PortUnit) : (s.onPort p f).beat = s.beat := rfl
@[simp] theorem State.onPort_heads (p : Port) (f : PortUnit → PortUnit) : (s.onPort p f).heads = s.heads := rfl
@[simp] theorem State.onPort_link (p : Port) (f : PortUnit → PortUnit) : (s.onPort p f).link = s.link := rfl
@[simp] theorem State.onPort_arbiter (p : Port) (f : PortUnit → PortUnit) : (s.onPort p f).arbiter = s.arbiter := rfl
@[simp] theorem State.onPort_watch (p : Port) (f : PortUnit → PortUnit) : (s.onPort p f).watch = s.watch := rfl
@[simp] theorem State.onPort_pending (p : Port) (f : PortUnit → PortUnit) : (s.onPort p f).pending = s.pending := rfl
@[simp] theorem State.onPort_due (p : Port) (f : PortUnit → PortUnit) : (s.onPort p f).due = s.due := rfl
@[simp] theorem State.onPort_choices (p : Port) (f : PortUnit → PortUnit) : (s.onPort p f).choices = s.choices := rfl

@[simp] theorem State.onPorts_cardTime (f : PortUnit → PortUnit) : (s.onPorts f).cardTime = s.cardTime := rfl
@[simp] theorem State.onPorts_straps (f : PortUnit → PortUnit) : (s.onPorts f).straps = s.straps := rfl
@[simp] theorem State.onPorts_cues (f : PortUnit → PortUnit) : (s.onPorts f).cues = s.cues := rfl
@[simp] theorem State.onPorts_texts (f : PortUnit → PortUnit) : (s.onPorts f).texts = s.texts := rfl
@[simp] theorem State.onPorts_engine (f : PortUnit → PortUnit) : (s.onPorts f).engine = s.engine := rfl
@[simp] theorem State.onPorts_run (f : PortUnit → PortUnit) : (s.onPorts f).run = s.run := rfl
@[simp] theorem State.onPorts_beat (f : PortUnit → PortUnit) : (s.onPorts f).beat = s.beat := rfl
@[simp] theorem State.onPorts_heads (f : PortUnit → PortUnit) : (s.onPorts f).heads = s.heads := rfl
@[simp] theorem State.onPorts_link (f : PortUnit → PortUnit) : (s.onPorts f).link = s.link := rfl
@[simp] theorem State.onPorts_arbiter (f : PortUnit → PortUnit) : (s.onPorts f).arbiter = s.arbiter := rfl
@[simp] theorem State.onPorts_watch (f : PortUnit → PortUnit) : (s.onPorts f).watch = s.watch := rfl
@[simp] theorem State.onPorts_pending (f : PortUnit → PortUnit) : (s.onPorts f).pending = s.pending := rfl
@[simp] theorem State.onPorts_due (f : PortUnit → PortUnit) : (s.onPorts f).due = s.due := rfl
@[simp] theorem State.onPorts_choices (f : PortUnit → PortUnit) : (s.onPorts f).choices = s.choices := rfl

@[simp] theorem State.setHead_cardTime (h : HeadId) (x : Head) : (s.setHead h x).cardTime = s.cardTime := rfl
@[simp] theorem State.setHead_straps (h : HeadId) (x : Head) : (s.setHead h x).straps = s.straps := rfl
@[simp] theorem State.setHead_cues (h : HeadId) (x : Head) : (s.setHead h x).cues = s.cues := rfl
@[simp] theorem State.setHead_texts (h : HeadId) (x : Head) : (s.setHead h x).texts = s.texts := rfl
@[simp] theorem State.setHead_engine (h : HeadId) (x : Head) : (s.setHead h x).engine = s.engine := rfl
@[simp] theorem State.setHead_run (h : HeadId) (x : Head) : (s.setHead h x).run = s.run := rfl
@[simp] theorem State.setHead_beat (h : HeadId) (x : Head) : (s.setHead h x).beat = s.beat := rfl
@[simp] theorem State.setHead_link (h : HeadId) (x : Head) : (s.setHead h x).link = s.link := rfl
@[simp] theorem State.setHead_arbiter (h : HeadId) (x : Head) : (s.setHead h x).arbiter = s.arbiter := rfl
@[simp] theorem State.setHead_watch (h : HeadId) (x : Head) : (s.setHead h x).watch = s.watch := rfl
@[simp] theorem State.setHead_ports (h : HeadId) (x : Head) : (s.setHead h x).ports = s.ports := rfl
@[simp] theorem State.setHead_pending (h : HeadId) (x : Head) : (s.setHead h x).pending = s.pending := rfl
@[simp] theorem State.setHead_due (h : HeadId) (x : Head) : (s.setHead h x).due = s.due := rfl
@[simp] theorem State.setHead_choices (h : HeadId) (x : Head) : (s.setHead h x).choices = s.choices := rfl

/-- Reading a vector after one place of it was written. -/
theorem vector_get_set {α : Type} {n : Nat} (v : Vector α n) (i j : Fin n) (x : α) :
    (v.set i.val x i.isLt).get j = if i = j then x else v.get j := by
  rw [Vector.get_eq_getElem, Vector.get_eq_getElem, Vector.getElem_set]
  by_cases h : i = j
  · subst h; simp
  · have : i.val ≠ j.val := fun e => h (Fin.ext e)
    simp [h, this]

theorem vector_get_replicate {α : Type} (n : Nat) (x : α) (i : Fin n) : (Vector.replicate n x).get i = x := by
  simp [Vector.get]

@[simp] theorem PerPort.get_set_self {α : Type} (v : PerPort α) (p : Port) (x : α) : (v.set p x).get p = x := by
  cases p <;> rfl

theorem PerPort.get_set_ne {α : Type} (v : PerPort α) {p q : Port} (x : α) (h : q ≠ p) : (v.set p x).get q = v.get q := by
  cases p <;> cases q <;> first | rfl | exact absurd rfl h

@[simp] theorem State.port_onPort_self (p : Port) (f : PortUnit → PortUnit) : (s.onPort p f).port p = f (s.port p) :=
  PerPort.get_set_self _ _ _

theorem State.port_onPort_ne {p q : Port} (f : PortUnit → PortUnit) (h : q ≠ p) : (s.onPort p f).port q = s.port q :=
  PerPort.get_set_ne _ _ h

@[simp] theorem State.port_onPorts (f : PortUnit → PortUnit) (q : Port) : (s.onPorts f).port q = f (s.port q) := by
  cases q <;> rfl

@[simp] theorem State.port_setHead (h : HeadId) (x : Head) (q : Port) : (s.setHead h x).port q = s.port q := rfl

@[simp] theorem State.head_setHead_self (h : HeadId) (x : Head) : (s.setHead h x).head h = x := by
  simp [State.setHead, State.head, vector_get_set]

theorem State.head_setHead_ne {h k : HeadId} (x : Head) (hk : k ≠ h) : (s.setHead h x).head k = s.head k := by
  simp [State.setHead, State.head, vector_get_set, Ne.symm hk]

@[simp] theorem State.head_onPort (p : Port) (f : PortUnit → PortUnit) (h : HeadId) : (s.onPort p f).head h = s.head h := rfl

@[simp] theorem State.head_onPorts (f : PortUnit → PortUnit) (h : HeadId) : (s.onPorts f).head h = s.head h := rfl

@[simp] theorem Head.slot_setSlot_self (x : Head) (l : Layer) (y : Slot) : (x.setSlot l y).slot l = y := by
  cases l <;> rfl

theorem Head.slot_setSlot_ne (x : Head) {l m : Layer} (y : Slot) (h : m ≠ l) : (x.setSlot l y).slot m = x.slot m := by
  cases l <;> cases m <;> first | rfl | exact absurd rfl h

@[simp] theorem Head.setSlot_state (x : Head) (l : Layer) (y : Slot) : (x.setSlot l y).state = x.state := by
  cases l <;> rfl

@[simp] theorem Head.setSlot_lang (x : Head) (l : Layer) (y : Slot) : (x.setSlot l y).lang = x.lang := by
  cases l <;> rfl

@[simp] theorem Head.setSlot_group (x : Head) (l : Layer) (y : Slot) : (x.setSlot l y).group = x.group := by
  cases l <;> rfl

@[simp] theorem Head.setSlot_gap (x : Head) (l : Layer) (y : Slot) : (x.setSlot l y).gap = x.gap := by
  cases l <;> rfl

@[simp] theorem Head.setSlot_outOfStep (x : Head) (l : Layer) (y : Slot) : (x.setSlot l y).outOfStep = x.outOfStep := by
  cases l <;> rfl

@[simp] theorem Head.setSlot_enabled (x : Head) (l : Layer) (y : Slot) : (x.setSlot l y).enabled = x.enabled := by
  cases l <;> rfl

@[simp] theorem RunQueue.setTable_entries (r : RunQueue) (g : GroupId) (l : Layer) (x : GroupLayer) :
    (r.setTable g l x).entries = r.entries := by
  cases l <;> rfl

@[simp] theorem RunQueue.table_setTable_self (r : RunQueue) (g : GroupId) (l : Layer) (x : GroupLayer) :
    (r.setTable g l x).table g l = x := by
  cases l <;> simp [RunQueue.setTable, RunQueue.table, vector_get_set]

theorem RunQueue.table_setTable_ne (r : RunQueue) {g k : GroupId} {l m : Layer} (x : GroupLayer)
    (h : (k, m) ≠ (g, l)) : (r.setTable g l x).table k m = r.table k m := by
  cases l <;> cases m <;> simp_all [RunQueue.setTable, RunQueue.table, vector_get_set, eq_comm]

end Sys2Proof.Machine
end

