-- ==== Sys2Proof/Laws/Frame.lean ====
section
/-! SUPPORT. For each shared operation one lemma that says what it may change: `Keeps bs s t` says that t agrees with s in every
block but those in bs and that every port keeps all but its cause sets, its frames and a waiting SYNC (and none begins to wait). -/

set_option Elab.async false

namespace Sys2Proof.Machine

/-! ## OnlyChanges -/

theorem OnlyChanges.refl (bs : List Block) (s : State) : OnlyChanges bs s s := by
  intro b _; cases b <;> rfl

theorem Block.same_trans {b : Block} {s t u : State} (h : b.same s t) (k : b.same t u) : b.same s u := by
  cases b <;> exact Eq.trans k h

theorem OnlyChanges.trans {bs : List Block} {s t u : State} (h : OnlyChanges bs s t) (k : OnlyChanges bs t u) :
    OnlyChanges bs s u :=
  fun b hb => Block.same_trans (h b hb) (k b hb)

theorem OnlyChanges.mono {bs cs : List Block} {s t : State} (h : OnlyChanges bs s t) (hs : ∀ b ∈ bs, b ∈ cs) :
    OnlyChanges cs s t :=
  fun b hb => h b (fun m => hb (hs b m))

section
variable {bs : List Block} {s t : State} (h : OnlyChanges bs s t)
include h
theorem OnlyChanges.cardTime (hb : .time ∉ bs := by decide) : t.cardTime = s.cardTime := h .time hb
theorem OnlyChanges.straps (hb : .straps ∉ bs := by decide) : t.straps = s.straps := h .straps hb
theorem OnlyChanges.cues (hb : .cues ∉ bs := by decide) : t.cues = s.cues := h .cues hb
theorem OnlyChanges.texts (hb : .texts ∉ bs := by decide) : t.texts = s.texts := h .texts hb
theorem OnlyChanges.engine (hb : .engine ∉ bs := by decide) : t.engine = s.engine := h .engine hb
theorem OnlyChanges.run (hb : .run ∉ bs := by decide) : t.run = s.run := h .run hb
theorem OnlyChanges.beat (hb : .beat ∉ bs := by decide) : t.beat = s.beat := h .beat hb
theorem OnlyChanges.heads (hb : .heads ∉ bs := by decide) : t.heads = s.heads := h .heads hb
theorem OnlyChanges.link (hb : .link ∉ bs := by decide) : t.link = s.link := h .link hb
theorem OnlyChanges.arbiter (hb : .arbiter ∉ bs := by decide) : t.arbiter = s.arbiter := h .arbiter hb
theorem OnlyChanges.watch (hb : .watch ∉ bs := by decide) : t.watch = s.watch := h .watch hb
theorem OnlyChanges.ports (hb : .ports ∉ bs := by decide) : t.ports = s.ports := h .ports hb
theorem OnlyChanges.pending (hb : .pending ∉ bs := by decide) : t.pending = s.pending := h .pending hb
theorem OnlyChanges.due (hb : .due ∉ bs := by decide) : t.due = s.due := h .due hb
theorem OnlyChanges.choices (hb : .choices ∉ bs := by decide) : t.choices = s.choices := h .choices hb
theorem OnlyChanges.head (h' : HeadId) (hb : .heads ∉ bs := by decide) : t.head h' = s.head h' := by
  simp only [State.head, h.heads hb]
theorem OnlyChanges.port (p : Port) (hb : .ports ∉ bs := by decide) : t.port p = s.port p := by
  simp only [State.port, h.ports hb]
end

/-! ## Keeps -/

theorem PortUnit.SameButFrames.refl (u : PortUnit) : u.SameButFrames u := ⟨rfl, rfl, rfl, rfl, rfl, rfl, rfl, rfl⟩

theorem PortUnit.SameButFrames.trans {u v w : PortUnit} (h : u.SameButFrames v) (k : v.SameButFrames w) :
    u.SameButFrames w := by
  obtain ⟨a1, a2, a3, a4, a5, a6, a7, a8⟩ := h
  obtain ⟨b1, b2, b3, b4, b5, b6, b7, b8⟩ := k
  exact ⟨b1.trans a1, b2.trans a2, b3.trans a3, b4.trans a4, b5.trans a5, b6.trans a6, b7.trans a7, b8.trans a8⟩

/-- A port keeps its state, and where no SYNC waited none waits. -/
def PortUnit.Same (u v : PortUnit) : Prop := u.SameButFrames v ∧ (u.sync = none → v.sync = none)

theorem PortUnit.Same.refl (u : PortUnit) : u.Same u := ⟨PortUnit.SameButFrames.refl u, id⟩

theorem PortUnit.Same.trans {u v w : PortUnit} (h : u.Same v) (k : v.Same w) : u.Same w :=
  ⟨h.1.trans k.1, fun e => k.2 (h.2 e)⟩

/-- The frame and the ports together. -/
def Keeps (bs : List Block) (s t : State) : Prop := OnlyChanges bs s t ∧ ∀ q : Port, (s.port q).Same (t.port q)

theorem Keeps.ports {bs : List Block} {s t : State} (h : Keeps bs s t) : PortsKeepState s t := fun q => (h.2 q).1

theorem Keeps.sync {bs : List Block} {s t : State} (h : Keeps bs s t) {q : Port} (e : (s.port q).sync = none) :
    (t.port q).sync = none := (h.2 q).2 e

theorem Keeps.refl (bs : List Block) (s : State) : Keeps bs s s :=
  ⟨OnlyChanges.refl bs s, fun _ => PortUnit.Same.refl _⟩

theorem Keeps.trans {bs : List Block} {s t u : State} (h : Keeps bs s t) (k : Keeps bs t u) : Keeps bs s u :=
  ⟨h.1.trans k.1, fun q => (h.2 q).trans (k.2 q)⟩

theorem Keeps.mono {bs cs : List Block} {s t : State} (h : Keeps bs s t) (hs : ∀ b ∈ bs, b ∈ cs := by decide) :
    Keeps cs s t :=
  ⟨h.1.mono hs, h.2⟩

theorem Keeps.ite {bs : List Block} {s t u : State} {c : Prop} [Decidable c] (h : Keeps bs s t) (k : Keeps bs s u) :
    Keeps bs s (if c then t else u) := by split <;> assumption

theorem Keeps.foldl {α : Type} {bs : List Block} {f : State → α → State} (hf : ∀ t a, Keeps bs t (f t a)) (l : List α) :
    ∀ s, Keeps bs s (l.foldl f s) := by
  induction l with
  | nil => intro s; exact Keeps.refl bs s
  | cons a l ih => intro s; exact (hf s a).trans (ih (f s a))

/-- An update that does not touch the ports keeps them. -/
theorem Keeps.ofPorts {bs : List Block} {s t : State} (h : OnlyChanges bs s t) (hp : .ports ∉ bs := by decide) :
    Keeps bs s t :=
  ⟨h, fun q => by rw [h.port q hp]; exact PortUnit.Same.refl _⟩

theorem onPort_only (s : State) (p : Port) (f : PortUnit → PortUnit) : OnlyChanges [.ports] s (s.onPort p f) := by
  intro b hb; cases b <;> first | exact absurd (by decide) hb | rfl

theorem onPorts_only (s : State) (f : PortUnit → PortUnit) : OnlyChanges [.ports] s (s.onPorts f) := by
  intro b hb; cases b <;> first | exact absurd (by decide) hb | rfl

theorem onPort_keeps (s : State) (p : Port) (f : PortUnit → PortUnit) (hf : ∀ u : PortUnit, u.Same (f u)) :
    Keeps [.ports] s (s.onPort p f) := by
  refine ⟨onPort_only s p f, fun q => ?_⟩
  by_cases h : q = p
  · subst h; simpa using hf _
  · rw [State.port_onPort_ne s f h]; exact PortUnit.Same.refl _

theorem onPorts_keeps (s : State) (f : PortUnit → PortUnit) (hf : ∀ u : PortUnit, u.Same (f u)) :
    Keeps [.ports] s (s.onPorts f) :=
  ⟨onPorts_only s f, fun q => by simpa using hf _⟩

theorem withEngine_keeps (s : State) (x : ShowEngine) : Keeps [.engine] s (s.withEngine x) :=
  .ofPorts (by intro b hb; cases b <;> first | exact absurd (by decide) hb | rfl)
theorem withRun_keeps (s : State) (x : RunQueue) : Keeps [.run] s (s.withRun x) :=
  .ofPorts (by intro b hb; cases b <;> first | exact absurd (by decide) hb | rfl)
theorem withBeat_keeps (s : State) (x : BeatUnit) : Keeps [.beat] s (s.withBeat x) :=
  .ofPorts (by intro b hb; cases b <;> first | exact absurd (by decide) hb | rfl)
theorem withCues_keeps (s : State) (x : List CueRec) : Keeps [.cues] s (s.withCues x) :=
  .ofPorts (by intro b hb; cases b <;> first | exact absurd (by decide) hb | rfl)
theorem withTexts_keeps (s : State) (x : List TextRec) : Keeps [.texts] s (s.withTexts x) :=
  .ofPorts (by intro b hb; cases b <;> first | exact absurd (by decide) hb | rfl)
theorem withLink_keeps (s : State) (x : LinkController) : Keeps [.link] s (s.withLink x) :=
  .ofPorts (by intro b hb; cases b <;> first | exact absurd (by decide) hb | rfl)
theorem withArbiter_keeps (s : State) (x : CallArbiter) : Keeps [.arbiter] s (s.withArbiter x) :=
  .ofPorts (by intro b hb; cases b <;> first | exact absurd (by decide) hb | rfl)
theorem withWatch_keeps (s : State) (x : WatchUnit) : Keeps [.watch] s (s.withWatch x) :=
  .ofPorts (by intro b hb; cases b <;> first | exact absurd (by decide) hb | rfl)
theorem withDue_keeps (s : State) (x : List Instr) : Keeps [.due] s (s.withDue x) :=
  .ofPorts (by intro b hb; cases b <;> first | exact absurd (by decide) hb | rfl)
theorem withChoices_keeps (s : State) (x : Nat) : Keeps [.choices] s (s.withChoices x) :=
  .ofPorts (by intro b hb; cases b <;> first | exact absurd (by decide) hb | rfl)
theorem setHead_only (s : State) (h : HeadId) (x : Head) : OnlyChanges [.heads] s (s.setHead h x) := by
  intro b hb; cases b <;> first | exact absurd (by decide) hb | simp [Block.same]

theorem setHead_keeps (s : State) (h : HeadId) (x : Head) : Keeps [.heads] s (s.setHead h x) :=
  .ofPorts (setHead_only s h x)

/-! ## Causes and frames -/

theorem PortUnit.raise_same (u : PortUnit) (r : Raise) : u.Same (u.raise r) := ⟨⟨rfl, rfl, rfl, rfl, rfl, rfl, rfl, rfl⟩, id⟩
theorem PortUnit.make_same (u : PortUnit) (f : OutFrame) : u.Same (u.make f) := ⟨⟨rfl, rfl, rfl, rfl, rfl, rfl, rfl, rfl⟩, id⟩

theorem PortUnit.startSending_same (u : PortUnit) : u.Same u.startSending := by
  unfold PortUnit.startSending; split <;> exact ⟨⟨rfl, rfl, rfl, rfl, rfl, rfl, rfl, rfl⟩, id⟩

theorem PortUnit.answerSync_same (u : PortUnit) : u.Same u.answerSync := by
  unfold PortUnit.answerSync
  split
  · split
    · exact ⟨⟨rfl, rfl, rfl, rfl, rfl, rfl, rfl, rfl⟩, fun _ => rfl⟩
    · exact PortUnit.Same.refl _
  · exact PortUnit.Same.refl _

theorem raiseOn_keeps (s : State) (p : Port) (r : Raise) : Keeps [.ports] s (s.raiseOn p r) :=
  onPort_keeps s p _ (fun u => u.raise_same r)
theorem raiseAll_keeps (s : State) (r : Raise) : Keeps [.ports] s (s.raiseAll r) :=
  onPorts_keeps s _ (fun u => u.raise_same r)
theorem respond_keeps (s : State) (p : Port) (r : Request) (st : Status) (pl : List Byte) :
    Keeps [.ports] s (s.respond p r st pl) :=
  onPort_keeps s p _ (fun u => u.make_same _)
theorem answerNow_keeps (s : State) (p : Port) (t k : Byte) (st : Status) (pl : List Byte) :
    Keeps [.ports] s (s.answerNow p t k st pl) :=
  onPort_keeps s p _ (fun u => u.make_same _)
theorem settle_keeps (s : State) : Keeps [.ports] s s.settle :=
  onPorts_keeps s _ (fun u => u.answerSync_same.trans u.answerSync.startSending_same)

theorem compareWatches_keeps (s : State) (n : CueNum) : Keeps [.watch, .ports] s (s.compareWatches n) := by
  unfold State.compareWatches
  have h : Keeps [.watch, .ports] s (s.withWatch (s.watch.afterFiring n)) := (withWatch_keeps _ _).mono
  exact .ite (h.trans (raiseAll_keeps _ _).mono) h

/-! ## The command queue -/

theorem enqueue_keeps (s : State) (h : HeadId) (b : CmdBody) : Keeps [.link] s (s.enqueue h b) := withLink_keeps _ _

theorem startLink_keeps (s : State) : Keeps [.link] s s.startLink := by
  unfold State.startLink; split
  · exact withLink_keeps _ _
  · exact .refl _ _

theorem markOutOfStep_keeps (s : State) (h : HeadId) : Keeps [.heads, .ports] s (s.markOutOfStep h) := by
  unfold State.markOutOfStep
  exact .ite (.refl _ _) ((setHead_keeps _ _ _).mono.trans (raiseAll_keeps _ _).mono)

theorem clearOutOfStep_keeps (s : State) (h : HeadId) : Keeps [.heads] s (s.clearOutOfStep h) := setHead_keeps _ _ _

theorem ask_keeps (s : State) (h : HeadId) (l : Layer) (a : Ask) : Keeps [.heads, .link, .ports] s (s.ask h l a) := by
  unfold State.ask
  exact .ite (.refl _ _) (.ite (.refl _ _) (.ite ((enqueue_keeps _ _ _).mono.trans (startLink_keeps _).mono)
    (markOutOfStep_keeps _ _).mono))

theorem askProbe_keeps (s : State) (h : HeadId) : Keeps [.heads, .link, .ports] s (s.askProbe h) := by
  unfold State.askProbe
  exact .ite ((enqueue_keeps _ _ _).mono.trans (startLink_keeps _).mono) (markOutOfStep_keeps _ _).mono

theorem queueRefresh_keeps (s : State) (h : HeadId) : Keeps [.heads, .link, .ports] s (s.queueRefresh h) := by
  unfold State.queueRefresh
  exact .ite (.refl _ _) (.ite (((clearOutOfStep_keeps _ _).mono.trans (enqueue_keeps _ _ _).mono).trans
    (enqueue_keeps _ _ _).mono) (markOutOfStep_keeps _ _).mono)

theorem catchUpHead_keeps (s : State) (h : HeadId) : Keeps [.heads, .link, .ports] s (s.catchUpHead h) := by
  unfold State.catchUpHead
  refine .ite ?_ (.refl _ _)
  split
  · exact queueRefresh_keeps _ _
  · exact (clearOutOfStep_keeps _ _).mono.trans (enqueue_keeps _ _ _).mono
  · exact .refl _ _
  · exact .refl _ _

theorem catchUp_keeps (s : State) : Keeps [.heads, .link, .ports] s s.catchUp := by
  unfold State.catchUp
  exact .ite (.foldl catchUpHead_keeps _ _) (.refl _ _)

theorem commandsLeft_keeps (s : State) (ids : List Nat) (acked : Bool) : Keeps [.ports] s (s.commandsLeft ids acked) :=
  onPorts_keeps s _ (fun _ => ⟨⟨rfl, rfl, rfl, rfl, rfl, rfl, rfl, rfl⟩, fun e => by simp [e]⟩)

theorem takeOut_keeps (s : State) (rest : List Command) (ph : LinkPhase) (ids : List Nat) (acked : Bool) :
    Keeps [.link, .ports] s (s.takeOut rest ph ids acked) :=
  (withLink_keeps _ _).mono.trans (commandsLeft_keeps _ _ _).mono

theorem afterLeaving_keeps (s : State) : Keeps [.heads, .link, .ports] s s.afterLeaving :=
  (catchUp_keeps s).trans (startLink_keeps _).mono

theorem probeAnswered_keeps (s : State) (h : HeadId) : Keeps [.heads, .link, .ports] s (s.probeAnswered h) := by
  unfold State.probeAnswered
  exact .ite (((setHead_keeps _ _ _).mono.trans (raiseAll_keeps _ _).mono).trans (queueRefresh_keeps _ _)) (.refl _ _)

theorem acknowledged_keeps (s : State) (c : Command) (rest : List Command) :
    Keeps [.heads, .link, .ports] s (s.acknowledged c rest) := by
  have h : Keeps [.heads, .link, .ports] s (s.takeOut rest .none [c.id] true) := (takeOut_keeps _ _ _ _ _).mono
  exact (Keeps.ite (h.trans (probeAnswered_keeps _ _)) h).trans (afterLeaving_keeps _)

theorem headFailed_keeps (s : State) (h : HeadId) (k : CmdKind) : Keeps [.heads] s (s.headFailed h k) := by
  unfold State.headFailed
  split
  · exact setHead_keeps _ _ _
  · exact setHead_keeps _ _ _
  · exact setHead_keeps _ _ _
  · exact .refl _ _

theorem failCommand_keeps (s : State) (c : Command) (rest : List Command) :
    Keeps [.heads, .link, .ports] s (s.failCommand c rest) := by
  unfold State.failCommand
  exact ((((headFailed_keeps _ _ _).mono.trans (takeOut_keeps _ _ _ _ _).mono).trans (withLink_keeps _ _).mono).trans
    (raiseAll_keeps _ _).mono).trans (afterLeaving_keeps _)

theorem holdOffOver_keeps (s : State) : Keeps [.heads, .link, .ports] s s.holdOffOver := by
  unfold State.holdOffOver; split
  · exact .refl _ _
  · exact .ite (failCommand_keeps _ _ _) (withLink_keeps _ _).mono

theorem windowClosed_keeps (s : State) : Keeps [.heads, .link, .ports] s s.windowClosed := by
  unfold State.windowClosed; split
  · exact .refl _ _
  · exact .ite (failCommand_keeps _ _ _) (.ite (holdOffOver_keeps _) (withLink_keeps _ _).mono)

theorem dropHeadCommands_keeps (s : State) (h : HeadId) : Keeps [.heads, .link, .ports] s (s.dropHeadCommands h) := by
  unfold State.dropHeadCommands
  exact .ite (.refl _ _) (.ite ((takeOut_keeps _ _ _ _ _).mono.trans (afterLeaving_keeps _))
    (((withLink_keeps _ _).mono.trans (commandsLeft_keeps _ _ _).mono).trans (afterLeaving_keeps _)))

/-! ## Slots and changes -/

theorem writeSlot_keeps (s : State) (h : HeadId) (l : Layer) (x : Slot) :
    Keeps [.heads, .texts] s (s.writeSlot h l x) :=
  (setHead_keeps _ _ _).mono.trans (withTexts_keeps _ _).mono

theorem moveSlot_keeps (s : State) (h : HeadId) (l : Layer) (m : SlotMove) :
    Keeps [.heads, .texts, .link, .ports] s (s.moveSlot h l m) := by
  have k : Keeps [.heads, .texts, .link, .ports] s (m.asks.foldl (fun t a => t.ask h l a) (s.writeSlot h l m.slot)) :=
    (writeSlot_keeps _ _ _ _).mono.trans (.foldl (fun t a => (ask_keeps t h l a).mono) _ _)
  unfold State.moveSlot; dsimp only; split
  · exact k.trans (raiseAll_keeps _ _).mono
  · exact k

theorem change_keeps (s : State) (h : HeadId) (l : Layer) (c : Change) :
    Keeps [.heads, .texts, .link, .ports] s (s.change h l c) := by
  cases c <;> exact moveSlot_keeps _ _ _ _

theorem changeHead_keeps (s : State) (c : CueRec) (g : GroupId) (l : Layer) (h : HeadId) :
    Keeps [.heads, .texts, .link, .ports] s (s.changeHead c g l h) := by
  unfold State.changeHead
  refine .ite ?_ (.refl _ _)
  split
  · exact change_keeps _ _ _ _
  · exact .refl _ _

theorem darken_keeps (s : State) (h : HeadId) : Keeps [.heads, .texts] s (s.darken h) :=
  ((writeSlot_keeps _ _ _ _).trans (writeSlot_keeps _ _ _ _)).trans (setHead_keeps _ _ _).mono

theorem clearHead_keeps (s : State) (h : HeadId) : Keeps [.heads, .texts, .link, .ports] s (s.clearHead h) := by
  unfold State.clearHead
  exact .ite ((change_keeps _ _ _ _).trans (change_keeps _ _ _ _)) (.refl _ _)

/-! ## The Run Queue and firings -/

theorem applyChange_keeps (s : State) (g : GroupId) (l : Layer) (n : CueNum) :
    Keeps [.run, .heads, .texts, .link, .ports] s (s.applyChange g l n) := by
  unfold State.applyChange; split
  · exact (withRun_keeps _ _).mono.trans (.foldl (fun t h => (changeHead_keeps t _ g l h).mono) _ _)
  · exact .refl _ _

theorem offer_keeps (s : State) (n : CueNum) (o : Origin) (g : GroupId) (l : Layer) :
    Keeps [.run, .heads, .texts, .link, .ports] s (s.offer n o g l) := by
  unfold State.offer
  refine .ite (applyChange_keeps _ _ _ _) ?_
  split
  · exact (withRun_keeps _ _).mono.trans (raiseAll_keeps _ _).mono
  · exact (withRun_keeps _ _).mono

theorem recall_keeps (s : State) (n : CueNum) (g : GroupId) (l : Layer) :
    Keeps [.run, .heads, .texts, .link, .ports] s (s.recall n g l) :=
  (withRun_keeps _ _).mono.trans (applyChange_keeps _ _ _ _)

theorem movePosition_keeps (s : State) (n : CueNum) : Keeps [.engine] s (s.movePosition n) := withEngine_keeps _ _
theorem setFollow_keeps (s : State) (k : FiringKind) : Keeps [.run] s (s.setFollow k) := withRun_keeps _ _

theorem offerChanges_keeps (s : State) (n : CueNum) (o : Origin) (k : FiringKind) :
    Keeps [.run, .heads, .texts, .link, .ports] s (s.offerChanges n o k) := by
  unfold State.offerChanges; split
  · exact .foldl (fun t gl => .ite (recall_keeps _ _ _ _) (offer_keeps _ _ _ _ _)) _ _
  · exact .refl _ _

theorem completeFiring_keeps (s : State) (n : CueNum) (o : Origin) (k : FiringKind) :
    Keeps [.watch, .ports] s (s.completeFiring n o k) := by
  have h : Keeps [.watch, .ports] s ((s.compareWatches n).raiseAll (.fired n o k)) :=
    (compareWatches_keeps _ _).trans (raiseAll_keeps _ _).mono
  exact .ite (h.trans (raiseAll_keeps _ _).mono) h

theorem fire_keeps (s : State) (n : CueNum) (o : Origin) (k : FiringKind) :
    Keeps [.engine, .run, .heads, .texts, .link, .watch, .ports] s (s.fire n o k) :=
  (((movePosition_keeps _ _).mono.trans (setFollow_keeps _ _).mono).trans (offerChanges_keeps _ _ _ _).mono).trans
    (completeFiring_keeps _ _ _ _).mono

theorem expire_keeps (s : State) : Keeps [.engine, .run, .heads, .texts, .link, .watch, .ports] s s.expire := by
  unfold State.expire; split
  · exact (withRun_keeps _ _).mono.trans (fire_keeps _ _ _ _)
  · exact .refl _ _

theorem countBeat_keeps (s : State) : Keeps [.engine, .run, .heads, .texts, .link, .watch, .ports] s s.countBeat := by
  unfold State.countBeat; split
  · exact .refl _ _
  · exact .ite (expire_keeps _) (withRun_keeps _ _).mono

theorem takeBeat_keeps (s : State) (src : BeatSource) :
    Keeps [.beat, .engine, .run, .heads, .texts, .link, .watch, .ports] s (s.takeBeat src) := by
  unfold State.takeBeat; split
  · exact .refl _ _
  · exact (raiseAll_keeps _ _).mono
  · exact (withBeat_keeps _ _).mono
  · exact (withBeat_keeps _ _).mono.trans (countBeat_keeps _).mono

theorem floorEnd_keeps (s : State) (g : GroupId) (l : Layer) :
    Keeps [.run, .heads, .texts, .link, .ports] s (s.floorEnd g l) := by
  have h : Keeps [.run, .heads, .texts, .link, .ports] s
      (s.withRun (s.run.setTable g l { s.run.table g l with floor := 0 })) := (withRun_keeps _ _).mono
  unfold State.floorEnd; dsimp only; split
  · exact (h.trans (withRun_keeps _ _).mono).trans (applyChange_keeps _ _ _ _)
  · exact h

/-! ## The call right -/

theorem passRight_keeps (s : State) (p : Port) (way : Option CallWay) :
    Keeps [.arbiter, .ports] s (s.passRight p way) := by
  have h : Keeps [.arbiter, .ports] s
      (s.withArbiter { s.arbiter with holder := s.arbiter.claims.head?, claims := s.arbiter.claims.tail }) :=
    (withArbiter_keeps _ _).mono
  unfold State.passRight; dsimp only
  split <;> split <;>
    first
    | exact (h.trans (raiseOn_keeps _ _ _).mono).trans (raiseOn_keeps _ _ _).mono
    | exact h.trans (raiseOn_keeps _ _ _).mono
    | exact h

theorem leaveArbiter_keeps (s : State) (p : Port) (way : CallWay) : Keeps [.arbiter, .ports] s (s.leaveArbiter p way) := by
  unfold State.leaveArbiter
  exact .ite (passRight_keeps _ _ _) (withArbiter_keeps _ _).mono

theorem grantFree_keeps (s : State) (p : Port) : Keeps [.arbiter, .ports] s (s.grantFree p) :=
  (withArbiter_keeps _ _).mono.trans (raiseOn_keeps _ _ _).mono

theorem takeOver_keeps (s : State) (p q : Port) : Keeps [.arbiter, .ports] s (s.takeOver p q) :=
  ((withArbiter_keeps _ _).mono.trans (raiseOn_keeps _ _ _).mono).trans (raiseOn_keeps _ _ _).mono

theorem joinList_keeps (s : State) (p : Port) : Keeps [.arbiter] s (s.joinList p) := by
  unfold State.joinList
  exact .ite (.refl _ _) (withArbiter_keeps _ _)

theorem setRoleOf_keeps (s : State) (p : Port) (r : Role) : Keeps [.arbiter, .ports] s (s.setRoleOf p r) := by
  have h : Keeps [.arbiter, .ports] s (s.withArbiter { s.arbiter with roles := s.arbiter.roles.set p r }) :=
    (withArbiter_keeps _ _).mono
  unfold State.setRoleOf
  exact .ite (h.trans (withArbiter_keeps _ _).mono) (h.trans (leaveArbiter_keeps _ _ _))

/-! ## Owners of requests -/

theorem openAt_keeps (s : State) (n : CueNum) : Keeps [.engine, .beat, .ports] s (s.openAt n) :=
  ((withEngine_keeps _ _).mono.trans (withBeat_keeps _ _).mono).trans (raiseAll_keeps _ _).mono

theorem closePosition_keeps (s : State) : Keeps [.engine, .run] s s.closePosition :=
  (withEngine_keeps _ _).mono.trans (withRun_keeps _ _).mono

theorem closeDown_keeps (s : State) (p : Port) :
    Keeps [.engine, .run, .heads, .texts, .link, .watch, .ports] s (s.closeDown p) := by
  unfold State.closeDown
  exact (((closePosition_keeps s).mono.trans (.foldl (fun t h => (clearHead_keeps t h).mono) _ _)).trans
    (withWatch_keeps _ _).mono).trans (raiseAll_keeps _ _).mono

theorem standBy_keeps (s : State) (n : CueNum) : Keeps [.engine, .run] s (s.standBy n) :=
  (withEngine_keeps _ _).mono.trans (withRun_keeps _ _).mono

theorem holdFrom_keeps (s : State) (fr : HeldFrom) : Keeps [.engine, .ports] s (s.holdFrom fr) :=
  (withEngine_keeps _ _).mono.trans (raiseAll_keeps _ _).mono

theorem releaseShow_keeps (s : State) : Keeps [.engine, .beat, .due, .ports] s s.releaseShow :=
  (((withEngine_keeps _ _).mono.trans (withBeat_keeps _ _).mono).trans (withDue_keeps _ _).mono).trans (raiseAll_keeps _ _).mono

theorem setBeatUnit_keeps (s : State) (b : BeatSource) (e : EdgeSel) (g : Nat) :
    Keeps [.beat, .run] s (s.setBeatUnit b e g) :=
  (withBeat_keeps _ _).mono.trans (withRun_keeps _ _).mono

theorem addCueRec_keeps (s : State) (c : CueRec) : Keeps [.cues, .texts] s (s.addCueRec c) :=
  (withCues_keeps _ _).mono.trans (withTexts_keeps _ _).mono
theorem replaceCueRec_keeps (s : State) (old c : CueRec) : Keeps [.cues, .texts] s (s.replaceCueRec old c) :=
  (withCues_keeps _ _).mono.trans (withTexts_keeps _ _).mono
theorem removeCueRec_keeps (s : State) (c : CueRec) : Keeps [.cues, .texts] s (s.removeCueRec c) :=
  (withCues_keeps _ _).mono.trans (withTexts_keeps _ _).mono

theorem enableHead_keeps (s : State) (h : HeadId) : Keeps [.heads, .link, .ports] s (s.enableHead h) :=
  (setHead_keeps _ _ _).mono.trans (askProbe_keeps _ _)
theorem disableHead_keeps (s : State) (h : HeadId) : Keeps [.heads, .texts, .link, .ports] s (s.disableHead h) :=
  (darken_keeps _ _).mono.trans (dropHeadCommands_keeps _ _).mono
theorem actOnEnable_keeps (s : State) (h : HeadId) (e : Bool) :
    Keeps [.heads, .texts, .link, .ports] s (s.actOnEnable h e) := by
  unfold State.actOnEnable
  exact .ite (enableHead_keeps _ _).mono (.ite (disableHead_keeps _ _) (.refl _ _))
theorem refreshHead_keeps (s : State) (h : HeadId) : Keeps [.heads, .link, .ports] s (s.refreshHead h) := by
  unfold State.refreshHead; split
  · exact .refl _ _
  · exact .refl _ _
  · exact (queueRefresh_keeps _ _).trans (startLink_keeps _).mono
  · exact (setHead_keeps _ _ _).mono.trans (askProbe_keeps _ _)

end Sys2Proof.Machine
end

