-- ==== Sys2Proof/Laws/Service.lean ====
section
/-! SUPPORT. What the Port Unit's operations do: the end of an event, the frames of a port, the execution of a request and its answer,
the raising of causes. -/

set_option Elab.async false

namespace Sys2Proof.Machine

/-! ## The end of an event -/

@[simp] theorem State.port_settle (s : State) (q : Port) : s.settle.port q = (s.port q).answerSync.startSending :=
  State.port_onPorts s _ q

theorem settled_iff {s : State} : Settled s ↔ ∀ q, (s.port q).answerSync.startSending = s.port q := by
  constructor
  · intro h q
    have := congrArg (fun t => t.port q) h
    simpa using this
  · intro h
    have e : (s.settle).ports = s.ports := by
      have ha := h .A; have hb := h .B; have hc := h .C
      show PerPort.mk _ _ _ = _
      simp only [State.port, PerPort.get] at ha hb hc
      simp only [ha, hb, hc]
    show s.settle = s
    have : s.settle = s.withPorts s.settle.ports := rfl
    rw [this, e]; rfl

/-- What is settled on one port: no frame waits for a free line, and no SYNC that waits for nothing is unanswered. -/
theorem quiet_iff {u : PortUnit} : u.answerSync.startSending = u ↔
    (u.sending = none → u.outgoing = []) ∧ (∀ w r rs, u.sync = some w → u.queue = r :: rs → w.waiting ≠ []) := by
  have start : ∀ v : PortUnit, v.startSending = v ↔ (v.sending = none → v.outgoing = []) := by
    intro v
    unfold PortUnit.startSending
    split
    · rename_i h1 h2
      constructor
      · intro e
        have := congrArg PortUnit.sending e
        rw [h1] at this
        simp at this
      · intro e; simp [e h1] at h2
    · rename_i hno
      refine iff_of_true rfl (fun e => ?_)
      cases ho : v.outgoing with
      | nil => rfl
      | cons f fs => exact absurd ho (hno f fs e)
  constructor
  · intro h
    have hs : u.answerSync = u := by
      unfold PortUnit.answerSync at h ⊢
      split at h
      · rename_i w r rs h1 h2
        split at h
        · have := congrArg PortUnit.sync h
          unfold PortUnit.startSending at this
          split at this <;> simp_all [PortUnit.make]
        · rename_i hw; simp [hw]
      · rfl
    rw [hs] at h
    refine ⟨(start u).1 h, fun w r rs h1 h2 hw => ?_⟩
    have := congrArg PortUnit.sync hs
    simp [PortUnit.answerSync, h1, h2, hw, PortUnit.make] at this
  · rintro ⟨h1, h2⟩
    have hs : u.answerSync = u := by
      unfold PortUnit.answerSync
      split
      · rename_i w r rs e1 e2; simp [h2 w r rs e1 e2]
      · rfl
    rw [hs]; exact (start u).2 h1

/-- After the end of an event the port is settled. -/
theorem quiet_settle (u : PortUnit) :
    (u.answerSync.startSending).answerSync.startSending = u.answerSync.startSending := by
  rw [quiet_iff]
  constructor
  · unfold PortUnit.startSending
    split
    · intro e; simp at e
    · rename_i hno
      intro e
      cases ho : u.answerSync.outgoing with
      | nil => rfl
      | cons f fs => exact absurd ho (hno f fs e)
  · intro w r rs h1 h2 hw
    have e1 : u.answerSync.sync = some w := by
      rw [← h1]; unfold PortUnit.startSending; split <;> rfl
    have e2 : u.answerSync.queue = r :: rs := by
      rw [← h2]; unfold PortUnit.startSending; split <;> rfl
    unfold PortUnit.answerSync at e1 e2
    split at e1
    · rename_i w' r' rs' g1 g2
      split at e1
      · simp [PortUnit.make] at e1
      · rename_i hne; rw [g1] at e1; cases e1; exact hne hw
    · rename_i hno
      split at e2
      · rename_i w' r' rs' g1 g2; exact hno w' r' rs' g1 g2
      · exact hno w r rs e1 e2

theorem settle_settled (s : State) : Settled s.settle := by
  rw [settled_iff]; intro q; rw [State.port_settle]; exact quiet_settle _

theorem settle_only (s : State) : OnlyChanges [.ports] s s.settle := (settle_keeps s).1

/-! ## Frames -/

@[simp] theorem PortUnit.frames_make (u : PortUnit) (f : OutFrame) : (u.make f).frames = u.frames ++ [f] := by
  simp [PortUnit.frames, PortUnit.make]

@[simp] theorem PortUnit.frames_startSending (u : PortUnit) : u.startSending.frames = u.frames := by
  unfold PortUnit.startSending; split
  · rename_i h1 h2; simp [PortUnit.frames, h1, h2]
  · rfl

@[simp] theorem PortUnit.pending_startSending (u : PortUnit) : u.startSending.pending = u.pending := by
  unfold PortUnit.startSending; split <;> rfl

@[simp] theorem PortUnit.repeats_startSending (u : PortUnit) : u.startSending.repeats = u.repeats := by
  unfold PortUnit.startSending; split <;> rfl

@[simp] theorem PortUnit.sync_startSending (u : PortUnit) : u.startSending.sync = u.sync := by
  unfold PortUnit.startSending; split <;> rfl

@[simp] theorem PortUnit.pending_answerSync (u : PortUnit) : u.answerSync.pending = u.pending := by
  unfold PortUnit.answerSync; split
  · split <;> rfl
  · rfl

@[simp] theorem PortUnit.repeats_answerSync (u : PortUnit) : u.answerSync.repeats = u.repeats := by
  unfold PortUnit.answerSync; split
  · split <;> rfl
  · rfl

/-- With no SYNC waiting the end of an event answers none. -/
theorem PortUnit.answerSync_none {u : PortUnit} (h : u.sync = none) : u.answerSync = u := by
  unfold PortUnit.answerSync; split
  · rename_i h1 h2; rw [h] at h1; cases h1
  · rfl

theorem pending_settle (s : State) (q : Port) : (s.settle.port q).pending = (s.port q).pending := by simp

/-! ## Causes -/

/-- The raised cause is pending with its detail (R162). -/
theorem mem_putRaise (r : Raise) (l : List Raise) : r ∈ putRaise r l := by
  induction l with
  | nil => simp [putRaise]
  | cons x xs ih => unfold putRaise; split <;> [simp; skip]; split <;> simp [ih]

/-- A pending cause stays as it is when another is raised (R162). -/
theorem mem_putRaise_of_ne {r x : Raise} {l : List Raise} (h : x ∈ l) (hc : x.cause ≠ r.cause) : x ∈ putRaise r l := by
  induction l with
  | nil => cases h
  | cons y ys ih =>
    unfold putRaise
    rcases List.mem_cons.1 h with e | e
    · subst e; simp only [if_neg hc]; split <;> simp
    · split <;> [simp [e]; skip]; split <;> simp [e, ih e]

@[simp] theorem PortUnit.pending_raise (u : PortUnit) (r : Raise) : (u.raise r).pending = putRaise r u.pending := rfl

theorem raisedOnAll_raiseAll (s : State) (r : Raise) : RaisedOnAll (s.raiseAll r) r := by
  intro q; simp [State.raiseAll, mem_putRaise]

theorem RaisedOnAll.raiseAll {s : State} {x : Raise} (h : RaisedOnAll s x) (r : Raise) (hc : x.cause ≠ r.cause) :
    RaisedOnAll (s.raiseAll r) x := by
  intro q; simpa [State.raiseAll] using mem_putRaise_of_ne (h q) hc

theorem RaisedOnAll.settle {s : State} {x : Raise} (h : RaisedOnAll s x) : RaisedOnAll s.settle x := by
  intro q; rw [pending_settle]; exact h q

theorem RaisedOnAll.respond {s : State} {x : Raise} (h : RaisedOnAll s x) (p : Port) (r : Request) (st : Status)
    (pl : List Byte) : RaisedOnAll (s.respond p r st pl) x := by
  intro q
  by_cases e : q = p
  · subst e; simpa [State.respond, PortUnit.make] using h q
  · simpa [State.respond, State.port_onPort_ne s _ e] using h q

theorem mem_raiseOn_self (s : State) (p : Port) (r : Raise) : r ∈ ((s.raiseOn p r).port p).pending := by
  simp [State.raiseOn, mem_putRaise]

theorem mem_raiseOn_of_mem {s : State} {q : Port} {x : Raise} (h : x ∈ (s.port q).pending) (p : Port) (r : Raise)
    (hc : x.cause ≠ r.cause) : x ∈ ((s.raiseOn p r).port q).pending := by
  by_cases e : q = p
  · subst e; simpa [State.raiseOn] using mem_putRaise_of_ne h hc
  · simpa [State.raiseOn, State.port_onPort_ne s _ e] using h

theorem port_raiseOn_ne {s : State} {p q : Port} (r : Raise) (h : q ≠ p) : (s.raiseOn p r).port q = s.port q :=
  State.port_onPort_ne s _ h

theorem port_respond_ne {s : State} {p q : Port} (r : Request) (st : Status) (pl : List Byte) (h : q ≠ p) :
    (s.respond p r st pl).port q = s.port q := State.port_onPort_ne s _ h

/-! ## Turns and executions -/

/-- What a turn says of its port (R143). -/
theorem turn_some {s : State} {p : Port} {r : Request} (h : s.turn p = some r) :
    (s.port p).locked = false ∧ (s.port p).responding = false ∧ (s.port p).sync = none ∧ (s.port p).listing = none ∧
      ∃ rs, (s.port p).queue = r :: rs := by
  unfold State.turn at h
  dsimp only at h
  split at h
  · cases h
  · rename_i hn
    push Not at hn
    obtain ⟨h1, h2, h3, h4⟩ := hn
    refine ⟨by simpa using h1, by simpa using h2, by simpa using h3, by simpa using h4, ?_⟩
    cases hq : (s.port p).queue with
    | nil => rw [hq] at h; cases h
    | cons x xs => rw [hq] at h; cases h; exact ⟨xs, rfl⟩

@[simp] theorem ReqKind.ofCode_code (k : ReqKind) : ReqKind.ofCode k.code = some k := by
  cases k <;> decide

theorem checkRequest_none {s : State} {k : ReqKind} {p : Port} {r : Request} (h : Executes s p k r) :
    s.checkRequest k p r = none := by
  have hf : (k.needs r.payload).all (s.hasFlag p) = true := by
    rw [List.all_eq_true]; exact h.flags
  simp [State.checkRequest, h.length, hf]

/-- An execution that passes the checks is its owner's, then the answer, then the end of the event. -/
theorem serve_of_executes {s : State} {k : ReqKind} {p : Port} {r : Request} (h : Executes s p k r)
    (owner : Port → List Byte → State → Verdict) :
    s.serve k p owner = (match owner p r.payload s with
      | .done t pl => t.respond p r .done pl
      | .refuse st extra => s.refuse p r st extra
      | .wait t => t).settle := by
  cases hv : owner p r.payload s <;>
    simp only [State.serve, h.turn, h.unmarked, h.kind, ReqKind.ofCode_code, State.execute, checkRequest_none h, and_self,
      if_true, hv]

/-- An execution its owner answers DONE. -/
theorem serve_done {s t : State} {k : ReqKind} {p : Port} {r : Request} {pl : List Byte}
    {owner : Port → List Byte → State → Verdict} (h : Executes s p k r) (ho : owner p r.payload s = .done t pl) :
    s.serve k p owner = (t.respond p r .done pl).settle := by rw [serve_of_executes h owner, ho]

/-- The shape of an execution: what `exec` answers for a request row. -/
theorem serve_cases (s : State) (k : ReqKind) (p : Port) (owner : Port → List Byte → State → Verdict) :
    s.serve k p owner = s ∨ ∃ r, s.turn p = some r ∧ r.drop = false ∧ ReqKind.ofCode r.kind = some k ∧
      s.serve k p owner = (s.execute k p owner r).settle := by
  unfold State.serve
  split
  · rename_i r hr
    split
    · rename_i hc; exact .inr ⟨r, hr, hc.1, hc.2, rfl⟩
    · exact .inl rfl
  · exact .inl rfl

/-- A response made where no SYNC waits is the port's newest frame after the event. -/
theorem answers_respond {t : State} {p : Port} (h : (t.port p).sync = none) (r : Request) (st : Status) (pl : List Byte) :
    Answers (t.respond p r st pl).settle p r st pl := by
  have e : ((t.respond p r st pl).port p).sync = none := by simpa [State.respond, PortUnit.make] using h
  simp only [Answers, State.port_settle, PortUnit.answerSync_none e, PortUnit.frames_startSending]
  simp [State.respond, responseFrame]

/-- Other ports of a settled state are settled still after a response on one. -/
theorem quiet_of_settled {s : State} (h : Settled s) (q : Port) : (s.port q).answerSync.startSending = s.port q :=
  settled_iff.1 h q

theorem PortUnit.startSending_keeps_locked (u : PortUnit) :
    u.startSending.locked = u.locked ∧ u.startSending.queue = u.queue ∧ u.startSending.capture = u.capture ∧
      u.startSending.lockPolicy = u.lockPolicy := by
  unfold PortUnit.startSending; split <;> exact ⟨rfl, rfl, rfl, rfl⟩

/-- A request refused by its owner with a status that does not lock (R145). -/
theorem refuses_of_owner {i : Instr} {s : State} {k : ReqKind} {p : Port} {r : Request} {st : Status} {extra : List Byte}
    {owner : Port → List Byte → State → Verdict} (hs : Settled s) (h : Executes s p k r)
    (hi : exec i s = .next (s.serve k p owner)) (ho : owner p r.payload s = .refuse st extra) (hl : st.locks = false) :
    Refuses i s p r st extra := by
  obtain ⟨t1, t2, t3, t4, rs, t5⟩ := turn_some h.turn
  have hserve : s.serve k p owner = ((s.noteRefusal p r.tag r.kind st).respond p r st extra).settle := by
    rw [serve_of_executes h owner, ho]
    simp [State.refuse, hl]
  have hk : (s.noteRefusal p r.tag r.kind st).port p =
      ({ s.port p with capture := Sys2Proof.Machine.noteRefusal (s.port p).capture r.tag r.kind st }).raise
        (.refusal r.tag r.kind st) := by
    simp [State.noteRefusal, State.raiseOn]
  have hsync : ((s.noteRefusal p r.tag r.kind st).port p).sync = none := by rw [hk]; exact t3
  refine ⟨_, hi, ?_, ?_, ?_, ?_, ?_, ?_, ?_⟩
  · rw [hserve]; exact answers_respond hsync r st extra
  all_goals rw [hserve]
  · have e : (((s.noteRefusal p r.tag r.kind st).respond p r st extra).port p).sync = none := by
      simpa [State.respond, PortUnit.make] using hsync
    rw [State.port_settle, PortUnit.answerSync_none e, (PortUnit.startSending_keeps_locked _).2.2.1]
    simp only [State.respond, State.port_onPort_self, hk]
    show Sys2Proof.Machine.noteRefusal _ _ _ _ = _
    unfold Sys2Proof.Machine.noteRefusal
    split <;> simp_all
  · rw [pending_settle]
    simp only [State.respond, State.port_onPort_self, hk]
    exact mem_putRaise _ _
  · have e : (((s.noteRefusal p r.tag r.kind st).respond p r st extra).port p).sync = none := by
      simpa [State.respond, PortUnit.make] using hsync
    rw [State.port_settle, PortUnit.answerSync_none e, (PortUnit.startSending_keeps_locked _).2.1]
    simp only [State.respond, State.port_onPort_self, hk]
    rfl
  · have e : (((s.noteRefusal p r.tag r.kind st).respond p r st extra).port p).sync = none := by
      simpa [State.respond, PortUnit.make] using hsync
    rw [State.port_settle, PortUnit.answerSync_none e, (PortUnit.startSending_keeps_locked _).1]
    simp only [State.respond, State.port_onPort_self, hk]
    exact t1
  · exact (((onPort_only _ _ _).trans (onPort_only _ _ _)).trans (onPort_only _ _ _)).trans (settle_only _)
  · intro q hq
    rw [State.port_settle, port_respond_ne _ _ _ hq]
    have : (s.noteRefusal p r.tag r.kind st).port q = s.port q := by
      simp only [State.noteRefusal, port_raiseOn_ne _ hq, State.port_onPort_ne _ _ hq]
    rw [this]; exact quiet_of_settled hs q

/-- A request that its owner answers DONE with the state as it is. -/
theorem onlyAnswers_of_owner {i : Instr} {s : State} {k : ReqKind} {p : Port} {r : Request} {pl : List Byte}
    {owner : Port → List Byte → State → Verdict} (hs : Settled s) (h : Executes s p k r)
    (hi : exec i s = .next (s.serve k p owner)) (ho : owner p r.payload s = .done s pl) : OnlyAnswers i s p r pl := by
  obtain ⟨t1, t2, t3, t4, rs, t5⟩ := turn_some h.turn
  have hserve : s.serve k p owner = (s.respond p r .done pl).settle := by rw [serve_of_executes h owner, ho]
  have e : ((s.respond p r .done pl).port p).sync = none := by simpa [State.respond, PortUnit.make] using t3
  have hp : (s.respond p r .done pl).port p = (s.port p).make (responseFrame .response r .done pl) := by
    simp [State.respond]
  refine ⟨_, hi, ?_, ?_, ?_, ?_, ?_, ?_, ?_⟩
  all_goals rw [hserve]
  · exact (onPort_only _ _ _).trans (settle_only _)
  · intro q hq
    rw [State.port_settle, port_respond_ne _ _ _ hq]; exact quiet_of_settled hs q
  · rw [State.port_settle, PortUnit.answerSync_none e, PortUnit.frames_startSending, hp, PortUnit.frames_make]
    rfl
  · rw [State.port_settle, PortUnit.answerSync_none e, hp]
    exact ((PortUnit.make_same _ _).trans (PortUnit.startSending_same _)).1
  · rw [State.port_settle, PortUnit.answerSync_none e, hp, PortUnit.sync_startSending]; rfl
  · rw [State.port_settle, PortUnit.answerSync_none e, hp, PortUnit.pending_startSending]; rfl
  · rw [State.port_settle, PortUnit.answerSync_none e, hp, PortUnit.repeats_startSending]; rfl

/-- A request that its owner answers DONE: the answer, the frame, and the causes pending as the owner left them. -/
theorem done_of_owner {i : Instr} {s t : State} {k : ReqKind} {p : Port} {r : Request} {pl : List Byte} {bs : List Block}
    {owner : Port → List Byte → State → Verdict} (h : Executes s p k r) (hi : exec i s = .next (s.serve k p owner))
    (ho : owner p r.payload s = .done t pl) (hk : Keeps bs s t) (hb : .ports ∈ bs) :
    ∃ u, exec i s = .next u ∧ Answers u p r .done pl ∧ OnlyChanges [.ports] t u ∧ OnlyChanges bs s u ∧
      PortsKeepState s u ∧ (∀ q, (u.port q).pending = (t.port q).pending) ∧
      (∀ q, q ≠ p → u.port q = (t.port q).answerSync.startSending) := by
  obtain ⟨t1, t2, t3, t4, rs, t5⟩ := turn_some h.turn
  have hserve : s.serve k p owner = (t.respond p r .done pl).settle := by rw [serve_of_executes h owner, ho]
  have kk : Keeps [.ports] t (t.respond p r .done pl).settle := (respond_keeps _ _ _ _ _).trans (settle_keeps _)
  have kk' : Keeps bs t (t.respond p r .done pl).settle := kk.mono (by simpa using hb)
  refine ⟨_, hi, ?_, ?_, ?_, ?_, ?_, ?_⟩
  all_goals rw [hserve]
  · exact answers_respond (hk.sync t3) r .done pl
  · exact kk.1
  · exact (hk.trans kk').1
  · exact (hk.trans kk').ports
  · intro q
    rw [pending_settle]
    by_cases e : q = p
    · subst e; simp [State.respond, PortUnit.make]
    · rw [port_respond_ne _ _ _ e]
  · intro q hq
    rw [State.port_settle, port_respond_ne _ _ _ hq]

/-- A request whose owner's effect keeps the ports completes with that effect. -/
theorem completes_of_owner {i : Instr} {s t : State} {k : ReqKind} {p : Port} {r : Request} {pl : List Byte}
    {bs : List Block} {raised : Port → List Raise} {owner : Port → List Byte → State → Verdict} (h : Executes s p k r)
    (hi : exec i s = .next (s.serve k p owner)) (ho : owner p r.payload s = .done t pl) (hk : Keeps bs s t)
    (hb : .ports ∈ bs) (hc : ∀ q, (t.port q).pending = raisedInto (s.port q).pending (raised q)) :
    ∃ u, Completes i s p r pl bs raised u ∧ OnlyChanges [.ports] t u := by
  obtain ⟨u, h1, h2, h3, h4, h5, h6, _⟩ := done_of_owner h hi ho hk hb
  exact ⟨u, ⟨h1, h2, h4, h5, fun q => (h6 q).trans (hc q)⟩, h3⟩

theorem pending_raiseAll (s : State) (r : Raise) (q : Port) :
    ((s.raiseAll r).port q).pending = putRaise r (s.port q).pending := by simp [State.raiseAll]

theorem pending_raiseOn_self (s : State) (p : Port) (r : Raise) :
    ((s.raiseOn p r).port p).pending = putRaise r (s.port p).pending := by simp [State.raiseOn]

end Sys2Proof.Machine
end

