-- ==== Sys2Proof/Laws/Screen.lean ====
section
/-! SUPPORT. What a change does to the screen image: the heads but for their out-of-step flags, head by head and group-layer by
group-layer. -/

set_option Elab.async false

namespace Sys2Proof.Machine

/-- A head without its out-of-step flag: all that the screen image's own rules read and write. -/
def Head.core (x : Head) : Head := { x with outOfStep := false }

@[simp] theorem Head.core_state (x : Head) : x.core.state = x.state := rfl
@[simp] theorem Head.core_lang (x : Head) : x.core.lang = x.lang := rfl
@[simp] theorem Head.core_group (x : Head) : x.core.group = x.group := rfl
@[simp] theorem Head.core_gap (x : Head) : x.core.gap = x.gap := rfl
@[simp] theorem Head.core_enabled (x : Head) : x.core.enabled = x.enabled := rfl
@[simp] theorem Head.core_slot (x : Head) (l : Layer) : x.core.slot l = x.slot l := by cases l <;> rfl
@[simp] theorem Head.core_core (x : Head) : x.core.core = x.core := rfl
@[simp] theorem Head.core_setSlot (x : Head) (l : Layer) (y : Slot) : (x.setSlot l y).core = x.core.setSlot l y := by
  cases l <;> rfl
@[simp] theorem Head.core_outOfStep (x : Head) (b : Bool) : { x with outOfStep := b }.core = x.core := rfl

theorem Head.setSlot_setSlot (x : Head) (l : Layer) (y z : Slot) : (x.setSlot l y).setSlot l z = x.setSlot l z := by
  cases l <;> rfl

theorem Head.core_eq {x y : Head} (h : x.core = y.core) :
    x.state = y.state ∧ x.lang = y.lang ∧ x.group = y.group ∧ x.gap = y.gap ∧ x.enabled = y.enabled ∧
      ∀ l, x.slot l = y.slot l :=
  ⟨by simpa using congrArg Head.state h, by simpa using congrArg Head.lang h, by simpa using congrArg Head.group h,
    by simpa using congrArg Head.gap h, by simpa using congrArg Head.enabled h,
    fun l => by rw [← Head.core_slot x, h, Head.core_slot]⟩

/-- The states differ in no head but for out-of-step flags. -/
def SameImage (s t : State) : Prop := ∀ h, (t.head h).core = (s.head h).core

theorem SameImage.refl (s : State) : SameImage s s := fun _ => rfl
theorem SameImage.trans {s t u : State} (h : SameImage s t) (k : SameImage t u) : SameImage s u :=
  fun x => (k x).trans (h x)
theorem SameImage.ofOnly {bs : List Block} {s t : State} (h : OnlyChanges bs s t) (hb : .heads ∉ bs := by decide) :
    SameImage s t := fun x => by rw [h.head x hb]

theorem clearOutOfStep_image (s : State) (h : HeadId) : SameImage s (s.clearOutOfStep h) := by
  intro k
  by_cases e : k = h
  · subst e; simp [State.clearOutOfStep]
  · rw [State.clearOutOfStep, State.head_setHead_ne _ _ e]

theorem markOutOfStep_image (s : State) (h : HeadId) : SameImage s (s.markOutOfStep h) := by
  intro k
  unfold State.markOutOfStep
  split
  · rfl
  · rw [State.raiseAll, State.head_onPorts]
    by_cases e : k = h
    · subst e; simp
    · rw [State.head_setHead_ne _ _ e]

theorem enqueue_only (s : State) (h : HeadId) (b : CmdBody) : OnlyChanges [.link] s (s.enqueue h b) := (enqueue_keeps s h b).1
theorem startLink_only (s : State) : OnlyChanges [.link] s s.startLink := (startLink_keeps s).1

theorem ask_image (s : State) (h : HeadId) (l : Layer) (a : Ask) : SameImage s (s.ask h l a) := by
  unfold State.ask
  split
  · exact .refl _
  split
  · exact .refl _
  split
  · exact .ofOnly ((enqueue_only _ _ _).trans (startLink_only _))
  · exact markOutOfStep_image _ _

theorem asks_image (s : State) (h : HeadId) (l : Layer) (as : List Ask) :
    SameImage s (as.foldl (fun t a => t.ask h l a) s) := by
  induction as generalizing s with
  | nil => exact .refl _
  | cons a as ih => exact (ask_image s h l a).trans (ih _)

theorem writeSlot_head (s : State) (h : HeadId) (l : Layer) (x : Slot) (k : HeadId) :
    (s.writeSlot h l x).head k = if k = h then (s.head h).setSlot l x else s.head k := by
  show (s.setHead h _).head k = _
  split
  · rename_i e; subst e; simp
  · rename_i e; exact State.head_setHead_ne _ _ e

theorem moveSlot_core (s : State) (h : HeadId) (l : Layer) (m : SlotMove) (k : HeadId) :
    ((s.moveSlot h l m).head k).core = if k = h then (s.head h).core.setSlot l m.slot else (s.head k).core := by
  have e : ((s.moveSlot h l m).head k).core = ((s.writeSlot h l m.slot).head k).core := by
    unfold State.moveSlot; dsimp only; split
    · rw [State.raiseAll, State.head_onPorts]; exact asks_image _ _ _ _ _
    · exact asks_image _ _ _ _ _
  rw [e, writeSlot_head]
  split <;> simp

/-- The slot after a change. -/
def Change.after (c : Change) (x : Slot) : SlotMove :=
  match c with
  | .put t => x.put t
  | .clear cue => x.clear cue

theorem change_eq (s : State) (h : HeadId) (l : Layer) (c : Change) :
    s.change h l c = s.moveSlot h l (c.after ((s.head h).slot l)) := by cases c <;> rfl

theorem slotAfter_eq (c : CueRec) (x : Head) (l : Layer) :
    slotAfter c x l = match c.changeFor x with | some ch => (ch.after (x.slot l)).slot | none => x.slot l := by
  unfold slotAfter moveFor
  cases c.changeFor x with
  | none => rfl
  | some ch => cases ch <;> rfl

@[simp] theorem changeFor_core (c : CueRec) (x : Head) : c.changeFor x.core = c.changeFor x := rfl

theorem slotAfter_core (c : CueRec) (x : Head) (l : Layer) : slotAfter c x.core l = slotAfter c x l := by
  rw [slotAfter_eq, slotAfter_eq, changeFor_core, Head.core_slot]

/-- What a cue's change does to one head: all of it but the out-of-step flag. -/
def Head.changed (x : Head) (c : CueRec) (g : GroupId) (l : Layer) : Head :=
  if x.enabled = true ∧ x.group = g then x.setSlot l (slotAfter c x l) else x

theorem Head.changed_core (x : Head) (c : CueRec) (g : GroupId) (l : Layer) :
    x.core.changed c g l = (x.changed c g l).core := by
  unfold Head.changed
  simp only [Head.core_enabled, Head.core_group, slotAfter_core]
  split
  · rw [Head.core_setSlot]
  · rfl

theorem Head.setSlot_self (x : Head) (l : Layer) : x.setSlot l (x.slot l) = x := by cases l <;> rfl

theorem changeHead_core (s : State) (c : CueRec) (g : GroupId) (l : Layer) (h k : HeadId) :
    ((s.changeHead c g l h).head k).core = if k = h then (s.head h).core.changed c g l else (s.head k).core := by
  unfold State.changeHead Head.changed
  simp only [Head.core_enabled, Head.core_group, slotAfter_core]
  split
  · rw [slotAfter_eq]
    cases hch : c.changeFor (s.head h) with
    | some ch => dsimp only; rw [change_eq, moveSlot_core]
    | none =>
      dsimp only
      rw [← Head.core_slot, Head.setSlot_self]
      split
      · rename_i e; rw [e]
      · rfl
  · split
    · rename_i e; rw [e]
    · rfl

theorem changeHeads_core (c : CueRec) (g : GroupId) (l : Layer) (k : HeadId) (hs : List HeadId) (hn : hs.Nodup) (s : State) :
    ((hs.foldl (fun t h => t.changeHead c g l h) s).head k).core =
      if k ∈ hs then (s.head k).core.changed c g l else (s.head k).core := by
  induction hs generalizing s with
  | nil => simp
  | cons h hs ih =>
    rw [List.foldl_cons, ih (List.nodup_cons.1 hn).2, changeHead_core]
    have hh := (List.nodup_cons.1 hn).1
    by_cases e : k = h
    · subst e; simp [hh]
    · simp [e]

theorem allHeads_nodup : allHeads.Nodup := by decide
theorem mem_allHeads (h : HeadId) : h ∈ allHeads := by revert h; decide

theorem clearHead_core (s : State) (h k : HeadId) :
    ((s.clearHead h).head k).core =
      if k = h ∧ (s.head h).enabled = true then
        ((s.head h).core.setSlot .base (((s.head h).slot .base).clear none).slot).setSlot .overlay
          (((s.head h).slot .overlay).clear none).slot
      else (s.head k).core := by
  unfold State.clearHead
  split
  · rename_i he
    rw [change_eq, moveSlot_core]
    have key : ∀ j, ((s.change h .base (.clear none)).head j).core =
        if j = h then (s.head h).core.setSlot .base (((s.head h).slot .base).clear none).slot else (s.head j).core := by
      intro j; rw [change_eq, moveSlot_core]; rfl
    by_cases e : k = h
    · subst e
      rw [if_pos rfl, key, if_pos rfl, if_pos ⟨rfl, he⟩]
      have sl : ((s.change k .base (.clear none)).head k).slot .overlay = (s.head k).slot .overlay := by
        rw [← Head.core_slot, key, if_pos rfl, Head.slot_setSlot_ne _ _ (by decide), Head.core_slot]
      rw [sl]; rfl
    · rw [if_neg e, key, if_neg e, if_neg (fun x => e x.1)]
  · rename_i he
    rw [if_neg (fun x => he x.2)]

theorem clearHeads_core (k : HeadId) (hs : List HeadId) (hn : hs.Nodup) (s : State) :
    ((hs.foldl State.clearHead s).head k).core =
      if k ∈ hs ∧ (s.head k).enabled = true then
        ((s.head k).core.setSlot .base (((s.head k).slot .base).clear none).slot).setSlot .overlay
          (((s.head k).slot .overlay).clear none).slot
      else (s.head k).core := by
  induction hs generalizing s with
  | nil => simp
  | cons h hs ih =>
    rw [List.foldl_cons, ih (List.nodup_cons.1 hn).2]
    have hh := (List.nodup_cons.1 hn).1
    have c := clearHead_core s h k
    by_cases e : k = h
    · subst e
      simp only [hh, false_and, if_false, c, true_and, List.mem_cons, true_or]
    · simp only [e, false_and, if_false] at c
      have ce := Head.core_eq c
      simp only [List.mem_cons, e, false_or, ce.2.2.2.2.1, ce.2.2.2.2.2, c]

end Sys2Proof.Machine
end

