-- ==== Sys2Proof/Laws/Causes.lean ====
section
/-! SUPPORT. What is pending and repeated of one cause, and which raises bring it from one state to another: the lemmas behind
`RaisedJust` and `OnlyRaises`, and which causes each shared operation can raise. -/

set_option Elab.async false

namespace Sys2Proof.Machine

/-! ## What a port holds of one cause -/

/-- The raises of one cause in a pending set. -/
def ofCause (x : Cause) (l : List Raise) : List Raise := l.filter (fun r => decide (r.cause = x))

/-- A raise of the cause stands before any of a higher code. -/
def leads (x : Cause) : List Raise → Bool
  | [] => false
  | y :: ys => if y.cause = x then true else if x.code < y.cause.code then false else leads x ys

/-- What a port holds of one cause: its pending raises, whether the next raise finds one, and its repeat bit. -/
structure CauseView where
  pending : List Raise
  found : Bool
  repeated : Bool

/-- What the port holds of the cause. -/
def PortUnit.view (u : PortUnit) (x : Cause) : CauseView :=
  { pending := ofCause x u.pending, found := leads x u.pending, repeated := hasCause u.repeats x }

/-- One more raise of the cause (R162). -/
def CauseView.raise (v : CauseView) (r : Raise) : CauseView :=
  { pending := r :: (if v.found = true then v.pending.tail else v.pending)
    found := true
    repeated := v.repeated || !v.pending.isEmpty }

theorem mem_ofCause {x : Cause} {r : Raise} {l : List Raise} (h : r.cause = x) : r ∈ ofCause x l ↔ r ∈ l := by
  simp [ofCause, h]

theorem putRaise_other {r : Raise} {x : Cause} (h : r.cause ≠ x) (l : List Raise) :
    ofCause x (putRaise r l) = ofCause x l ∧ leads x (putRaise r l) = leads x l := by
  induction l with
  | nil => simp [putRaise, ofCause, leads, h]
  | cons y ys ih =>
    unfold putRaise
    split
    · rename_i e
      simp [ofCause, leads, h, e]
    · split
      · rename_i hne hlt
        refine ⟨by simp [ofCause, h], ?_⟩
        rw [leads, if_neg h]
        split
        · rename_i hx
          have hy : y.cause ≠ x := fun k => by rw [k] at hlt; omega
          rw [leads, if_neg hy, if_pos (by omega)]
        · rfl
      · refine ⟨?_, ?_⟩
        · have := ih.1
          unfold ofCause at this ⊢
          simp only [List.filter_cons, this]
        · rw [leads, ih.2]; rfl

theorem putRaise_own (r : Raise) (l : List Raise) :
    ofCause r.cause (putRaise r l) =
      r :: (if leads r.cause l = true then (ofCause r.cause l).tail else ofCause r.cause l) ∧
    leads r.cause (putRaise r l) = true := by
  induction l with
  | nil => simp [putRaise, ofCause, leads]
  | cons y ys ih =>
    unfold putRaise
    split
    · rename_i e
      simp [ofCause, leads, e]
    · rename_i e
      split
      · rename_i hlt
        simp [ofCause, leads, e, hlt]
      · rename_i hlt
        obtain ⟨a, b⟩ := ih
        unfold ofCause at a ⊢
        simp [leads, e, hlt, b, a]

theorem Cause.code_inj {x y : Cause} (h : x.code = y.code) : x = y := by
  revert h; cases x <;> cases y <;> decide

/-- The repeat set is a set: adding a cause adds it alone. -/
theorem hasCause_addCause (c : CauseSet) (x y : Cause) : hasCause (addCause c y) x = (hasCause c x || decide (x = y)) := by
  unfold hasCause addCause
  rw [BitVec.getLsbD_or]
  congr 1
  cases x <;> cases y <;> decide

theorem isPending_eq (u : PortUnit) (x : Cause) : u.isPending x = !(ofCause x u.pending).isEmpty := by
  unfold PortUnit.isPending ofCause
  generalize u.pending = l
  induction l with
  | nil => rfl
  | cons y ys ih =>
    rw [List.any_cons, List.filter_cons, ih]
    by_cases e : y.cause = x <;> simp [e]

theorem repeats_raise (u : PortUnit) (r : Raise) (x : Cause) :
    hasCause (u.raise r).repeats x = (hasCause u.repeats x || (decide (x = r.cause) && u.isPending r.cause)) := by
  unfold PortUnit.raise
  dsimp only
  split
  · rename_i h; rw [hasCause_addCause, h, Bool.and_true]
  · rename_i h; rw [Bool.eq_false_iff.2 h, Bool.and_false, Bool.or_false]

theorem view_raise_other (u : PortUnit) {r : Raise} {x : Cause} (h : r.cause ≠ x) : (u.raise r).view x = u.view x := by
  obtain ⟨a, b⟩ := putRaise_other h u.pending
  unfold PortUnit.view
  rw [repeats_raise, PortUnit.pending_raise, a, b, decide_eq_false (Ne.symm h), Bool.false_and, Bool.or_false]

theorem view_raise_own (u : PortUnit) (r : Raise) : (u.raise r).view r.cause = (u.view r.cause).raise r := by
  obtain ⟨a, b⟩ := putRaise_own r u.pending
  unfold PortUnit.view CauseView.raise
  rw [repeats_raise, PortUnit.pending_raise, a, b, isPending_eq]
  simp

/-- The frames and a waiting SYNC have nothing to do with the cause sets. -/
theorem view_congr {u v : PortUnit} (hp : v.pending = u.pending) (hr : v.repeats = u.repeats) (x : Cause) :
    v.view x = u.view x := by unfold PortUnit.view; rw [hp, hr]

/-! ## The raises of one cause between two states -/

/-- From s to t just these raises of the cause have come on every port. -/
def Raises (x : Cause) (rs : List Raise) (s t : State) : Prop :=
  ∀ q, (t.port q).view x = rs.foldl CauseView.raise ((s.port q).view x)

theorem Raises.refl (x : Cause) (s : State) : Raises x [] s s := fun _ => rfl

theorem Raises.trans {x : Cause} {rs rs' : List Raise} {s t u : State} (a : Raises x rs s t) (b : Raises x rs' t u) :
    Raises x (rs ++ rs') s u := fun q => by rw [b q, a q, List.foldl_append]

theorem Raises.quietly {x : Cause} {rs : List Raise} {s t u : State} (a : Raises x rs s t) (b : Raises x [] t u) :
    Raises x rs s u := fun q => (b q).trans (a q)

theorem Raises.ofQuiet {x : Cause} {rs : List Raise} {s t u : State} (a : Raises x [] s t) (b : Raises x rs t u) :
    Raises x rs s u := fun q => by rw [b q, a q]; rfl

theorem Raises.ofPorts {s t : State} (hp : ∀ q, (t.port q).pending = (s.port q).pending)
    (hr : ∀ q, (t.port q).repeats = (s.port q).repeats) (x : Cause) : Raises x [] s t :=
  fun q => view_congr (hp q) (hr q) x

theorem Raises.ofPort {s t : State} (h : ∀ q, t.port q = s.port q) (x : Cause) : Raises x [] s t :=
  .ofPorts (fun q => by rw [h]) (fun q => by rw [h]) x

theorem Raises.ofOnly {bs : List Block} {s t : State} (h : OnlyChanges bs s t) (x : Cause) (hb : .ports ∉ bs := by decide) :
    Raises x [] s t := .ofPort (fun q => h.port q hb) x

theorem port_raiseAll (s : State) (r : Raise) (q : Port) : (s.raiseAll r).port q = (s.port q).raise r := by
  simp only [State.raiseAll]; rw [State.port_onPorts]

theorem Raises.raiseAll (s : State) (r : Raise) : Raises r.cause [r] s (s.raiseAll r) := fun q => by
  rw [port_raiseAll, view_raise_own]; rfl

theorem Raises.raiseOther (s : State) {r : Raise} {x : Cause} (h : r.cause ≠ x) : Raises x [] s (s.raiseAll r) := fun q => by
  rw [port_raiseAll, view_raise_other _ h]; rfl

theorem Raises.settle (s : State) (x : Cause) : Raises x [] s s.settle :=
  .ofPorts (fun q => pending_settle s q) (fun q => by simp) x

theorem Raises.respond (s : State) (p : Port) (r : Request) (st : Status) (pl : List Byte) (x : Cause) :
    Raises x [] s (s.respond p r st pl) := by
  have e : ∀ q, ((s.respond p r st pl).port q).pending = (s.port q).pending ∧
      ((s.respond p r st pl).port q).repeats = (s.port q).repeats := by
    intro q
    by_cases e : q = p
    · subst e; simp [State.respond, PortUnit.make]
    · rw [port_respond_ne _ _ _ e]; exact ⟨rfl, rfl⟩
  exact .ofPorts (fun q => (e q).1) (fun q => (e q).2) x

theorem Raises.foldl {α : Type} {x : Cause} {f : State → α → State} (hf : ∀ s a, Raises x [] s (f s a)) (as : List α)
    (s : State) : Raises x [] s (as.foldl f s) := by
  induction as generalizing s with
  | nil => exact .refl x s
  | cons a as ih => exact (hf s a).quietly (ih _)

theorem foldl_repeated (r : Raise) (rs : List Raise) (v : CauseView) :
    ((r :: rs).foldl CauseView.raise v).repeated = (v.repeated || !v.pending.isEmpty || decide (2 ≤ (r :: rs).length)) := by
  induction rs generalizing r v with
  | nil => simp [CauseView.raise]
  | cons r' rs ih =>
    rw [List.foldl_cons, ih]
    simp [CauseView.raise]

theorem foldl_pending {r : Raise} {rs : List Raise} (h : rs.getLast? = some r) (v : CauseView) :
    r ∈ (rs.foldl CauseView.raise v).pending := by
  obtain ⟨ys, rfl⟩ := List.getLast?_eq_some_iff.1 h
  rw [List.foldl_append]
  exact List.mem_cons_self ..

/-- What the raises of a cause leave on the ports, as the statements say it. -/
theorem Raises.just {x : Cause} {rs : List Raise} {s t : State} (h : Raises x rs s t) (hc : ∀ r ∈ rs, r.cause = x) :
    RaisedJust s t x rs := by
  have pend : ∀ q, ofCause x (t.port q).pending = (rs.foldl CauseView.raise ((s.port q).view x)).pending := fun q => by
    rw [← h q]; rfl
  have rep : ∀ q, hasCause (t.port q).repeats x = (rs.foldl CauseView.raise ((s.port q).view x)).repeated := fun q => by
    rw [← h q]; rfl
  refine ⟨fun e q => ⟨fun r hr => ?_, ?_⟩, fun r hl q => ?_, fun e q => ?_⟩
  · subst e; rw [← mem_ofCause hr, pend q]; exact mem_ofCause hr
  · subst e; exact rep q
  · rw [← mem_ofCause (hc r (List.mem_of_getLast? hl)), pend q]; exact foldl_pending hl _
  · cases rs with
    | nil => exact absurd rfl e
    | cons r rs => rw [rep q, foldl_repeated, isPending_eq]; rfl

theorem Raises.unraised {x : Cause} {s t : State} (h : Raises x [] s t) : RaisedJust s t x [] := h.just (fun _ hr => by cases hr)

/-- The state before may be one that the ports cannot tell from it, and the same of the state after. -/
theorem RaisedJust.congr {x : Cause} {rs : List Raise} {s s' t t' : State} (h : RaisedJust s t x rs)
    (hs : ∀ q, (s'.port q).pending = (s.port q).pending ∧ (s'.port q).repeats = (s.port q).repeats)
    (ht : ∀ q, (t'.port q).pending = (t.port q).pending ∧ (t'.port q).repeats = (t.port q).repeats) :
    RaisedJust s' t' x rs := by
  refine ⟨fun e q => ?_, fun r hl q => ?_, fun e q => ?_⟩
  · rw [(hs q).1, (hs q).2, (ht q).1, (ht q).2]; exact h.unraised e q
  · rw [(ht q).1]; exact h.last r hl q
  · rw [(ht q).2, (hs q).2, h.again e q]; unfold PortUnit.isPending; rw [(hs q).1]

theorem pending_respond (s : State) (p : Port) (r : Request) (st : Status) (pl : List Byte) (q : Port) :
    ((s.respond p r st pl).port q).pending = (s.port q).pending ∧
      ((s.respond p r st pl).port q).repeats = (s.port q).repeats := by
  by_cases e : q = p
  · subst e; simp [State.respond, PortUnit.make]
  · rw [port_respond_ne _ _ _ e]; exact ⟨rfl, rfl⟩

theorem RaisedJust.settle {x : Cause} {rs : List Raise} {s t : State} (h : RaisedJust s t x rs) : RaisedJust s t.settle x rs :=
  h.congr (fun _ => ⟨rfl, rfl⟩) (fun q => by simp)

theorem RaisedJust.respond {x : Cause} {rs : List Raise} {s t : State} (h : RaisedJust s t x rs) (p : Port) (r : Request)
    (st : Status) (pl : List Byte) : RaisedJust s (t.respond p r st pl) x rs :=
  h.congr (fun _ => ⟨rfl, rfl⟩) (pending_respond t p r st pl)

/-! ## Which causes an operation can raise -/

theorem markOutOfStep_raises {x : Cause} (hx : x ≠ .outOfStep) (s : State) (h : HeadId) : Raises x [] s (s.markOutOfStep h) := by
  unfold State.markOutOfStep
  split
  · exact .refl x s
  · exact (Raises.ofOnly (setHead_only s h _) x).quietly (.raiseOther _ (Ne.symm hx))

theorem ask_raises {x : Cause} (hx : x ≠ .outOfStep) (s : State) (h : HeadId) (l : Layer) (a : Ask) :
    Raises x [] s (s.ask h l a) := by
  unfold State.ask
  split
  · exact .refl x s
  split
  · exact .refl x s
  split
  · exact .ofOnly ((enqueue_only _ _ _).trans (startLink_only _)) x
  · exact markOutOfStep_raises hx s h

theorem moveSlot_raises {x : Cause} (hx : x ≠ .outOfStep) (s : State) (h : HeadId) (l : Layer) (m : SlotMove) :
    Raises x (if x = .overrun then (m.displaced.map (fun c => .overrun h l c)).toList else []) s (s.moveSlot h l m) := by
  have a : Raises x [] s (m.asks.foldl (fun t a => t.ask h l a) (s.writeSlot h l m.slot)) :=
    (Raises.ofOnly (writeSlot_keeps s h l m.slot).1 x).quietly (.foldl (fun t a => ask_raises hx t h l a) _ _)
  unfold State.moveSlot
  dsimp only
  cases m.displaced with
  | none => split <;> exact a
  | some c =>
    dsimp only
    split
    · rename_i e; subst e; exact a.ofQuiet (.raiseAll _ _)
    · rename_i e; exact a.quietly (.raiseOther _ (Ne.symm e))

/-- A change raises OVERRUN and OUT_OF_STEP alone (R88, R104). -/
theorem changeHead_raises {x : Cause} (hx : x ≠ .outOfStep) (ho : x ≠ .overrun) (s : State) (c : CueRec) (g : GroupId)
    (l : Layer) (h : HeadId) : Raises x [] s (s.changeHead c g l h) := by
  unfold State.changeHead
  split
  · split
    · rename_i ch _
      rw [change_eq]
      have := moveSlot_raises hx s h l (ch.after ((s.head h).slot l))
      rwa [if_neg ho] at this
    · exact .refl x s
  · exact .refl x s

theorem applyChange_raises {x : Cause} (hx : x ≠ .outOfStep) (ho : x ≠ .overrun) (s : State) (g : GroupId) (l : Layer)
    (n : CueNum) : Raises x [] s (s.applyChange g l n) := by
  unfold State.applyChange
  split
  · exact (Raises.ofOnly (withRun_keeps s _).1 x).quietly (.foldl (fun t h => changeHead_raises hx ho t _ g l h) _ _)
  · exact .refl x s

/-- An offer raises SKIPPED beside those, where it replaces a waiting entry (R54). -/
theorem offer_raises {x : Cause} (hx : x ≠ .outOfStep) (ho : x ≠ .overrun) (s : State) (n : CueNum) (o : Origin) (g : GroupId)
    (l : Layer) : Raises x (if x = .skipped ∧ (s.run.table g l).floor ≠ 0 then
      ((s.run.entries.find? (RunEntry.waitsOn g l)).map (fun e => .skipped g l e.cue)).toList else []) s
      (s.offer n o g l) := by
  by_cases h0 : (s.run.table g l).floor = 0
  · rw [if_neg (fun k => k.2 h0)]
    simpa only [State.offer, h0, if_true] using applyChange_raises hx ho s g l n
  · simp only [State.offer, h0, if_false]
    cases he : s.run.entries.find? (RunEntry.waitsOn g l) with
    | some e =>
      have q : Raises x [] s (s.withRun { s.run with entries := replaceDeferred g l n o s.run.entries }) :=
        .ofOnly (withRun_keeps s _).1 x
      by_cases hs : x = .skipped
      · subst hs; simpa [h0] using q.ofQuiet (.raiseAll _ (.skipped g l e.cue))
      · simpa [hs] using q.quietly (.raiseOther _ (r := .skipped g l e.cue) (Ne.symm hs))
    | none =>
      have q : Raises x [] s (s.withRun { s.run with entries := s.run.entries ++ [.deferred g l n o] }) :=
        .ofOnly (withRun_keeps s _).1 x
      simpa using q

theorem recall_raises {x : Cause} (hx : x ≠ .outOfStep) (ho : x ≠ .overrun) (s : State) (n : CueNum) (g : GroupId) (l : Layer) :
    Raises x [] s (s.recall n g l) :=
  (Raises.ofOnly (withRun_keeps s (s.run.dropDeferred g l)).1 x).quietly (applyChange_raises hx ho _ g l n)

/-- The changes of a firing raise OVERRUN, SKIPPED and OUT_OF_STEP alone, and a BACK's no SKIPPED (R36, R54, R57). -/
theorem offerChanges_raises {x : Cause} (hx : x ≠ .outOfStep) (ho : x ≠ .overrun) (s : State) (n : CueNum) (o : Origin)
    (k : FiringKind) (hk : x ≠ .skipped ∨ k = .back) : Raises x [] s (s.offerChanges n o k) := by
  unfold State.offerChanges
  split
  · refine .foldl (fun t gl => ?_) _ _
    split
    · exact recall_raises hx ho t n gl.1 gl.2
    · rename_i e
      have := offer_raises hx ho t n o gl.1 gl.2
      rwa [if_neg (fun z => hk.resolve_right e z.1)] at this
  · exact .refl x s

/-- The end of a firing raises WATCH where the condition is true, FIRED, and END_REACHED where no standby cue is left (R32, R157). -/
theorem completeFiring_raises (x : Cause) (s : State) (n : CueNum) (o : Origin) (k : FiringKind) :
    Raises x (if x = .watch then
        (if s.watch.condition n = true then [.watch n (s.watch.w0.compares n) (s.watch.w1.compares n)] else [])
      else if x = .fired then [.fired n o k]
      else if x = .endReached then (if s.engine.standby = none then [.endReached n] else [])
      else []) s (s.completeFiring n o k) := by
  have he : ((s.compareWatches n).raiseAll (.fired n o k)).engine = s.engine :=
    (show Keeps [.watch, .ports] s ((s.compareWatches n).raiseAll (.fired n o k)) from
      (compareWatches_keeps s n).trans (raiseAll_keeps _ _).mono).1.engine
  have w : Raises x (if x = .watch then
      (if s.watch.condition n = true then [.watch n (s.watch.w0.compares n) (s.watch.w1.compares n)] else []) else []) s
      (s.compareWatches n) := by
    have q : Raises x [] s (s.withWatch (s.watch.afterFiring n)) := .ofOnly (withWatch_keeps _ _).1 x
    unfold State.compareWatches
    dsimp only
    by_cases e : x = .watch
    · subst e
      rw [if_pos rfl]
      split
      · exact q.ofQuiet (.raiseAll _ _)
      · exact q
    · rw [if_neg e]
      split
      · exact q.quietly (.raiseOther _ (Ne.symm e))
      · exact q
  have f : Raises x (if x = .fired then [.fired n o k] else []) (s.compareWatches n)
      ((s.compareWatches n).raiseAll (.fired n o k)) := by
    split
    · rename_i e; subst e; exact .raiseAll _ _
    · rename_i e; exact .raiseOther _ (Ne.symm e)
  have z : Raises x (if x = .endReached ∧ s.engine.standby = none then [.endReached n] else [])
      ((s.compareWatches n).raiseAll (.fired n o k)) (s.completeFiring n o k) := by
    unfold State.completeFiring
    dsimp only
    rw [he]
    by_cases e : s.engine.standby = none
    · rw [if_pos e]
      split
      · rename_i e1; obtain ⟨rfl, -⟩ := e1; exact .raiseAll _ _
      · rename_i e1; exact .raiseOther _ (fun y => e1 ⟨y.symm, e⟩)
    · rw [if_neg e, if_neg (fun y => e y.2)]; exact .refl x _
  have all := (w.trans f).trans z
  by_cases e1 : x = .watch
  · subst e1; simpa using all
  by_cases e2 : x = .fired
  · subst e2; simpa using all
  by_cases e3 : x = .endReached
  · subst e3; simpa using all
  simpa [e1, e2, e3] using all

/-! ## The cause sets as sets -/

/-- A pending set in its order: each cause at most once, codes rising (R162, R171). -/
def CausesRise (l : List Raise) : Prop := l.Pairwise (fun a b => a.cause.code < b.cause.code)

theorem mem_putRaise_cases {r x : Raise} {l : List Raise} (h : x ∈ putRaise r l) : x = r ∨ x ∈ l := by
  induction l with
  | nil => simpa [putRaise] using h
  | cons y ys ih =>
    unfold putRaise at h
    split at h
    · rcases List.mem_cons.1 h with e | e
      · exact .inl e
      · exact .inr (List.mem_cons_of_mem _ e)
    split at h
    · rcases List.mem_cons.1 h with e | e
      · exact .inl e
      · exact .inr e
    · rcases List.mem_cons.1 h with e | e
      · exact .inr (e ▸ List.mem_cons_self ..)
      · exact (ih e).imp id (List.mem_cons_of_mem _)

/-- A raise keeps the order of the pending set (R162). -/
theorem putRaise_rise {l : List Raise} (h : CausesRise l) (r : Raise) : CausesRise (putRaise r l) := by
  induction l with
  | nil => exact List.pairwise_singleton _ _
  | cons y ys ih =>
    obtain ⟨h1, h2⟩ := List.pairwise_cons.1 h
    unfold putRaise
    split
    · rename_i e
      exact List.pairwise_cons.2 ⟨fun z hz => by rw [← e]; exact h1 z hz, h2⟩
    · rename_i e
      split
      · rename_i hlt
        refine List.pairwise_cons.2 ⟨fun z hz => ?_, h⟩
        rcases List.mem_cons.1 hz with k | k
        · rw [k]; exact hlt
        · exact Nat.lt_trans hlt (h1 z k)
      · rename_i hlt
        refine List.pairwise_cons.2 ⟨fun z hz => ?_, ih h2⟩
        rcases mem_putRaise_cases hz with k | k
        · rw [k]
          exact Nat.lt_of_le_of_ne (Nat.not_lt.1 hlt) (fun w => e (Cause.code_inj w))
        · exact h1 z k

/-- In a pending set in its order a raise is the only one of its cause (R162). -/
theorem CausesRise.unique {l : List Raise} (h : CausesRise l) {a b : Raise} (ha : a ∈ l) (hb : b ∈ l)
    (hc : a.cause = b.cause) : a = b := by
  induction l with
  | nil => cases ha
  | cons y ys ih =>
    obtain ⟨h1, h2⟩ := List.pairwise_cons.1 h
    rcases List.mem_cons.1 ha with e | e <;> rcases List.mem_cons.1 hb with f | f
    · exact e.trans f.symm
    · have := h1 b f; rw [← e, hc] at this; exact absurd this (Nat.lt_irrefl _)
    · have := h1 a e; rw [← f, hc] at this; exact absurd this (Nat.lt_irrefl _)
    · exact ih h2 e f

end Sys2Proof.Machine
end

