-- ==== Sys2Proof/Laws/Firing.lean ====
section
/-! SUPPORT. What the firing procedure does: changes applied, deferred and recalled, one group-layer at a time and over all the
group-layers of a cue; and what a whole firing leaves. -/

set_option Elab.async false

namespace Sys2Proof.Machine

/-! ## One change -/

theorem applyChange_absent {s : State} {n : CueNum} (h : findCue s.cues n = none) (g : GroupId) (l : Layer) :
    s.applyChange g l n = s := by simp [State.applyChange, h]

theorem applyChange_run {s : State} {n : CueNum} {c : CueRec} (h : findCue s.cues n = some c) (g : GroupId) (l : Layer) :
    (s.applyChange g l n).run = s.run.setTable g l { owner := some n, floor := c.body.floor } := by
  simp only [State.applyChange, h]
  exact (Keeps.foldl (fun t h => changeHead_keeps t c g l h) allHeads _).1.run

theorem applyChange_core {s : State} {n : CueNum} {c : CueRec} (h : findCue s.cues n = some c) (g : GroupId) (l : Layer)
    (k : HeadId) : ((s.applyChange g l n).head k).core = (s.head k).core.changed c g l := by
  simp only [State.applyChange, h]
  rw [changeHeads_core _ _ _ _ _ allHeads_nodup, if_pos (mem_allHeads k)]
  rfl

theorem table_setTable (r : RunQueue) (g g' : GroupId) (l l' : Layer) (x : GroupLayer) :
    (r.setTable g l x).table g' l' = if g' = g ∧ l' = l then x else r.table g' l' := by
  by_cases e : (g', l') = (g, l)
  · cases e; simp
  · rw [RunQueue.table_setTable_ne _ _ e, if_neg (fun h => e (by rw [h.1, h.2]))]

theorem any_eq_find {α : Type} (p : α → Bool) (l : List α) : l.any p = (l.find? p).isSome := by
  induction l with
  | nil => rfl
  | cons x xs ih => simp only [List.any_cons, List.find?_cons]; cases p x <;> simp [ih]

@[simp] theorem waitsOn_deferred (g g' : GroupId) (l l' : Layer) (n : CueNum) (o : Origin) :
    RunEntry.waitsOn g l (.deferred g' l' n o) = decide (g' = g ∧ l' = l) := rfl

theorem waitsOn_unique {g g' : GroupId} {l l' : Layer} {e : RunEntry} (h : e.waitsOn g l = true)
    (h' : e.waitsOn g' l' = true) : g' = g ∧ l' = l := by
  cases e with
  | follow => simp [RunEntry.waitsOn] at h
  | deferred a b c d =>
    simp only [waitsOn_deferred, decide_eq_true_eq] at h h'
    exact ⟨h'.1.symm.trans h.1, h'.2.symm.trans h.2⟩

theorem isFollow_of_waitsOn {g : GroupId} {l : Layer} {e : RunEntry} (h : e.waitsOn g l = true) : e.isFollow = false := by
  cases e <;> simp_all [RunEntry.waitsOn, RunEntry.isFollow]

/-! ### Deferring in place -/

theorem replaceDeferred_filter_self (g : GroupId) (l : Layer) (n : CueNum) (o : Origin) (es : List RunEntry) :
    (replaceDeferred g l n o es).filter (RunEntry.waitsOn g l) =
      (es.filter (RunEntry.waitsOn g l)).map (fun _ => .deferred g l n o) := by
  induction es with
  | nil => rfl
  | cons e es ih =>
    have ih' : (es.map (fun e => if RunEntry.waitsOn g l e then RunEntry.deferred g l n o else e)).filter
      (RunEntry.waitsOn g l) = (es.filter (RunEntry.waitsOn g l)).map (fun _ => .deferred g l n o) := ih
    simp only [replaceDeferred, List.map_cons, List.filter_cons]
    cases h : RunEntry.waitsOn g l e <;> simp [h, ih']

theorem replaceDeferred_filter_ne {g g' : GroupId} {l l' : Layer} (hne : ¬(g' = g ∧ l' = l)) (n : CueNum) (o : Origin)
    (es : List RunEntry) :
    (replaceDeferred g l n o es).filter (RunEntry.waitsOn g' l') = es.filter (RunEntry.waitsOn g' l') := by
  induction es with
  | nil => rfl
  | cons e es ih =>
    have ih' : (es.map (fun e => if RunEntry.waitsOn g l e then RunEntry.deferred g l n o else e)).filter
      (RunEntry.waitsOn g' l') = es.filter (RunEntry.waitsOn g' l') := ih
    simp only [replaceDeferred, List.map_cons, List.filter_cons]
    cases h : RunEntry.waitsOn g l e
    · simp [ih']
    · have h2 : RunEntry.waitsOn g' l' e = false := by
        cases h3 : RunEntry.waitsOn g' l' e
        · rfl
        · exact absurd (waitsOn_unique h h3) hne
      have h4 : ¬(g = g' ∧ l = l') := fun x => hne ⟨x.1.symm, x.2.symm⟩
      simp [ih', h2, h4]

theorem replaceDeferred_follow (g : GroupId) (l : Layer) (n : CueNum) (o : Origin) (es : List RunEntry) :
    (replaceDeferred g l n o es).filter RunEntry.isFollow = es.filter RunEntry.isFollow := by
  induction es with
  | nil => rfl
  | cons e es ih =>
    have ih' : (es.map (fun e => if RunEntry.waitsOn g l e then RunEntry.deferred g l n o else e)).filter
      RunEntry.isFollow = es.filter RunEntry.isFollow := ih
    simp only [replaceDeferred, List.map_cons, List.filter_cons]
    cases h : RunEntry.waitsOn g l e
    · simp [ih']
    · have h2 := isFollow_of_waitsOn h
      have h3 : (RunEntry.deferred g l n o).isFollow = false := rfl
      simp [ih', h2, h3]

/-! ### Offering -/

/-- What an offer leaves in the entries that wait on its own group-layer. -/
def offeredWaiting (g : GroupId) (l : Layer) (n : CueNum) (o : Origin) (es : List RunEntry) : List RunEntry :=
  if es.any (RunEntry.waitsOn g l) = true then (es.filter (RunEntry.waitsOn g l)).map (fun _ => .deferred g l n o)
  else [.deferred g l n o]

theorem offer_table {s : State} {n : CueNum} {c : CueRec} (h : findCue s.cues n = some c) (o : Origin) (g g' : GroupId)
    (l l' : Layer) : (s.offer n o g l).run.table g' l' =
      if (g' = g ∧ l' = l) ∧ (s.run.table g l).floor = 0 then { owner := some n, floor := c.body.floor }
      else s.run.table g' l' := by
  unfold State.offer
  split
  · rename_i hf
    rw [applyChange_run h, table_setTable]; simp [hf]
  · rename_i hf
    simp only [hf, and_false, if_false]
    split <;> rfl

theorem offer_waiting {s : State} {n : CueNum} {c : CueRec} (h : findCue s.cues n = some c) (o : Origin) (g g' : GroupId)
    (l l' : Layer) : (s.offer n o g l).run.entries.filter (RunEntry.waitsOn g' l') =
      if (g' = g ∧ l' = l) ∧ (s.run.table g l).floor ≠ 0 then offeredWaiting g l n o s.run.entries
      else s.run.entries.filter (RunEntry.waitsOn g' l') := by
  unfold State.offer
  split
  · rename_i hf
    rw [applyChange_run h]; simp [hf]
  · rename_i hf
    split
    · rename_i e he
      have ha : s.run.entries.any (RunEntry.waitsOn g l) = true := by rw [any_eq_find]; exact he ▸ rfl
      show (replaceDeferred g l n o s.run.entries).filter _ = _
      by_cases hg : g' = g ∧ l' = l
      · obtain ⟨rfl, rfl⟩ := hg
        simp [hf, offeredWaiting, ha, replaceDeferred_filter_self]
      · simp [hg, replaceDeferred_filter_ne hg]
    · rename_i he
      have ha : s.run.entries.any (RunEntry.waitsOn g l) = false := by rw [any_eq_find, he]; rfl
      show (s.run.entries ++ [RunEntry.deferred g l n o]).filter _ = _
      rw [List.filter_append]
      by_cases hg : g' = g ∧ l' = l
      · obtain ⟨rfl, rfl⟩ := hg
        have h0 : s.run.entries.filter (RunEntry.waitsOn g' l') = [] := by
          rw [List.filter_eq_nil_iff]; simpa using ha
        simp [hf, offeredWaiting, ha, h0]
      · have h4 : ¬(g = g' ∧ l = l') := fun x => hg ⟨x.1.symm, x.2.symm⟩
        simp [hg, h4]

theorem offer_follow {s : State} {n : CueNum} {c : CueRec} (h : findCue s.cues n = some c) (o : Origin) (g : GroupId)
    (l : Layer) : (s.offer n o g l).run.entries.filter RunEntry.isFollow = s.run.entries.filter RunEntry.isFollow := by
  unfold State.offer
  split
  · rw [applyChange_run h]; simp
  · split
    · exact replaceDeferred_follow _ _ _ _ _
    · show (s.run.entries ++ [RunEntry.deferred g l n o]).filter _ = _
      rw [List.filter_append]; simp [RunEntry.isFollow]

theorem offer_core {s : State} {n : CueNum} {c : CueRec} (h : findCue s.cues n = some c) (o : Origin) (g : GroupId)
    (l : Layer) (k : HeadId) : ((s.offer n o g l).head k).core =
      if (s.run.table g l).floor = 0 then (s.head k).core.changed c g l else (s.head k).core := by
  unfold State.offer
  split
  · rw [applyChange_core h]
  · split <;> rfl

/-! ### Recalling -/

theorem filter_and_comm (p q : RunEntry → Bool) (es : List RunEntry) :
    (es.filter p).filter q = (es.filter q).filter p := by
  rw [List.filter_filter, List.filter_filter]; congr 1; funext x; rw [Bool.and_comm]

theorem dropDeferred_waiting (r : RunQueue) (g g' : GroupId) (l l' : Layer) :
    (r.dropDeferred g l).entries.filter (RunEntry.waitsOn g' l') =
      if g' = g ∧ l' = l then [] else r.entries.filter (RunEntry.waitsOn g' l') := by
  show (r.entries.filter (fun e => !e.waitsOn g l)).filter _ = _
  rw [List.filter_filter]
  split
  · rename_i e; obtain ⟨rfl, rfl⟩ := e
    rw [List.filter_eq_nil_iff]; intro a _; simp
  · rename_i hne
    apply List.filter_congr
    intro e _
    cases h : e.waitsOn g' l'
    · rfl
    · cases h2 : e.waitsOn g l
      · rfl
      · exact absurd (waitsOn_unique h2 h) hne

theorem dropDeferred_follow (r : RunQueue) (g : GroupId) (l : Layer) :
    (r.dropDeferred g l).entries.filter RunEntry.isFollow = r.entries.filter RunEntry.isFollow := by
  show (r.entries.filter (fun e => !e.waitsOn g l)).filter _ = _
  rw [List.filter_filter]
  apply List.filter_congr
  intro e _
  cases h2 : e.waitsOn g l
  · simp
  · simp [isFollow_of_waitsOn h2]

@[simp] theorem dropDeferred_table (r : RunQueue) (g g' : GroupId) (l l' : Layer) :
    (r.dropDeferred g l).table g' l' = r.table g' l' := by cases l' <;> rfl

theorem recall_run {s : State} {n : CueNum} {c : CueRec} (h : findCue s.cues n = some c) (g : GroupId) (l : Layer) :
    (s.recall n g l).run = (s.run.dropDeferred g l).setTable g l { owner := some n, floor := c.body.floor } :=
  applyChange_run (s := s.withRun (s.run.dropDeferred g l)) h g l

theorem recall_core {s : State} {n : CueNum} {c : CueRec} (h : findCue s.cues n = some c) (g : GroupId) (l : Layer)
    (k : HeadId) : ((s.recall n g l).head k).core = (s.head k).core.changed c g l :=
  applyChange_core (s := s.withRun (s.run.dropDeferred g l)) h g l k

/-! ## All the changes of a firing -/

theorem groupLayers_nodup (b : CueBody) : b.groupLayers.Nodup := by
  have key : ∀ g : BitVec 8, (allGroups.filter (fun x => g.getLsbD x.val)).Nodup := by
    intro g; exact List.Nodup.filter _ (by decide)
  cases b with
  | title l g => exact (key g).map (fun _ _ h => (Prod.mk.inj h).1)
  | clear only g =>
    cases only with
    | some l => exact (key g).map (fun _ _ h => (Prod.mk.inj h).1)
    | none =>
      have gen : ∀ gs : List GroupId, gs.Nodup →
          (gs.flatMap (fun x => [(x, Layer.base), (x, Layer.overlay)])).Nodup := by
        intro gs hgs
        induction gs with
        | nil => simp
        | cons x xs ih =>
          have hx := (List.nodup_cons.1 hgs).1
          have no : ∀ m, (x, m) ∉ xs.flatMap (fun x => [(x, Layer.base), (x, Layer.overlay)]) := by
            intro m hm
            obtain ⟨a, ha, h⟩ := List.mem_flatMap.1 hm
            have : x = a := by
              simp only [List.mem_cons, Prod.mk.injEq, List.not_mem_nil, or_false] at h
              rcases h with h | h <;> exact h.1
            exact hx (this ▸ ha)
          simp only [List.flatMap_cons, List.cons_append, List.nil_append, List.nodup_cons, List.mem_cons,
            Prod.mk.injEq, reduceCtorEq, and_false, false_or]
          exact ⟨no _, no _, ih (List.nodup_cons.1 hgs).2⟩
      exact gen _ (key g)
  | mark => simp [CueBody.groupLayers]

/-- One head after the changes of some group-layers of a cue. -/
theorem changed_spec (x : Head) (c : CueRec) (g : GroupId) (l l' : Layer) :
    (x.changed c g l).state = x.state ∧ (x.changed c g l).lang = x.lang ∧ (x.changed c g l).group = x.group ∧
      (x.changed c g l).gap = x.gap ∧ (x.changed c g l).enabled = x.enabled ∧
      (x.changed c g l).slot l' =
        if x.enabled = true ∧ x.group = g ∧ l' = l then slotAfter c x l else x.slot l' := by
  unfold Head.changed
  split
  · rename_i h
    refine ⟨by simp, by simp, by simp, by simp, by simp, ?_⟩
    by_cases e : l' = l
    · subst e; simp [h]
    · rw [Head.slot_setSlot_ne _ _ e]; simp [e]
  · rename_i h
    refine ⟨rfl, rfl, rfl, rfl, rfl, ?_⟩
    rw [if_neg (fun k => h ⟨k.1, k.2.1⟩)]

theorem slotAfter_congr {c : CueRec} {x y : Head} {l : Layer} (h1 : x.lang = y.lang) (h2 : x.gap = y.gap)
    (h3 : x.slot l = y.slot l) : slotAfter c x l = slotAfter c y l := by
  rw [slotAfter_eq, slotAfter_eq, h3]
  have : c.changeFor x = c.changeFor y := by unfold CueRec.changeFor; rw [h1, h2]
  rw [this]

/-- What the fold of changes over group-layers does to one head. -/
theorem changes_core (c : CueRec) (f : State → GroupId × Layer → State) (ok : GroupId → Layer → Prop)
    [DecidableRel ok] (L : List (GroupId × Layer)) (hn : L.Nodup) (Good : List (GroupId × Layer) → State → Prop)
    (hg : ∀ gl L s, (gl :: L).Nodup → Good (gl :: L) s → Good L (f s gl))
    (hc : ∀ gl L s k, (gl :: L).Nodup → Good (gl :: L) s →
      ((f s gl).head k).core = if ok gl.1 gl.2 then (s.head k).core.changed c gl.1 gl.2 else (s.head k).core)
    (s : State) (hs : Good L s) (k : HeadId) (l' : Layer) :
    ((L.foldl f s).head k).state = (s.head k).state ∧ ((L.foldl f s).head k).lang = (s.head k).lang ∧
      ((L.foldl f s).head k).group = (s.head k).group ∧ ((L.foldl f s).head k).gap = (s.head k).gap ∧
      ((L.foldl f s).head k).enabled = (s.head k).enabled ∧
      ((L.foldl f s).head k).slot l' =
        if (s.head k).enabled = true ∧ ((s.head k).group, l') ∈ L ∧ ok (s.head k).group l' then slotAfter c (s.head k) l'
        else (s.head k).slot l' := by
  induction L generalizing s with
  | nil => simp
  | cons gl L ih =>
    have hgl := (List.nodup_cons.1 hn).1
    rw [List.foldl_cons]
    obtain ⟨i1, i2, i3, i4, i5, i6⟩ := ih (List.nodup_cons.1 hn).2 (f s gl) (hg gl L s hn hs)
    have e := hc gl L s k hn hs
    have q : ((f s gl).head k).state = (s.head k).state ∧ ((f s gl).head k).lang = (s.head k).lang ∧
        ((f s gl).head k).group = (s.head k).group ∧ ((f s gl).head k).gap = (s.head k).gap ∧
        ((f s gl).head k).enabled = (s.head k).enabled ∧
        ∀ m, ((f s gl).head k).slot m =
          if (s.head k).enabled = true ∧ ((s.head k).group, m) = gl ∧ ok (s.head k).group m then slotAfter c (s.head k) m
          else (s.head k).slot m := by
      split at e
      · rename_i hok
        have e2 := Head.core_eq (x := (f s gl).head k) (y := (s.head k).changed c gl.1 gl.2)
          (by rw [e, Head.changed_core])
        have c1 := changed_spec (s.head k) c gl.1 gl.2
        refine ⟨e2.1.trans (c1 .base).1, e2.2.1.trans (c1 .base).2.1, e2.2.2.1.trans (c1 .base).2.2.1,
          e2.2.2.2.1.trans (c1 .base).2.2.2.1, e2.2.2.2.2.1.trans (c1 .base).2.2.2.2.1, fun m => ?_⟩
        rw [e2.2.2.2.2.2 m, (c1 m).2.2.2.2.2]
        by_cases h1 : ((s.head k).group, m) = gl
        · subst h1; simp [hok]
        · have h2 : ¬((s.head k).group = gl.1 ∧ m = gl.2) := fun h => h1 (by rw [h.1, h.2])
          rw [if_neg (fun h => h2 h.2), if_neg (fun h => h1 h.2.1)]
      · rename_i hok
        have e2 := Head.core_eq e
        refine ⟨e2.1, e2.2.1, e2.2.2.1, e2.2.2.2.1, e2.2.2.2.2.1, fun m => ?_⟩
        rw [e2.2.2.2.2.2 m, if_neg]
        rintro ⟨-, h1, h2⟩
        exact hok (by rw [← h1]; exact h2)
    obtain ⟨q1, q2, q3, q4, q5, q6⟩ := q
    refine ⟨i1.trans q1, i2.trans q2, i3.trans q3, i4.trans q4, i5.trans q5, ?_⟩
    rw [i6, q3, q5]
    by_cases h1 : ((s.head k).group, l') = gl
    · have h2 : ((s.head k).group, l') ∉ L := h1 ▸ hgl
      rw [if_neg (fun h => h2 h.2.1), q6 l']
      simp [h1]
    · have qs : ((f s gl).head k).slot l' = (s.head k).slot l' := by rw [q6 l', if_neg (fun h => h1 h.2.1)]
      rw [slotAfter_congr q2 q4 qs, qs]
      simp [List.mem_cons, h1]

theorem offer_cues (s : State) (n : CueNum) (o : Origin) (g : GroupId) (l : Layer) : (s.offer n o g l).cues = s.cues :=
  (offer_keeps s n o g l).1.cues
theorem recall_cues (s : State) (n : CueNum) (g : GroupId) (l : Layer) : (s.recall n g l).cues = s.cues :=
  (recall_keeps s n g l).1.cues

/-- All the offers of a firing: the group-layer table and the entries (R53, R54). -/
theorem offers_run {n : CueNum} {c : CueRec} (o : Origin) (L : List (GroupId × Layer)) (hn : L.Nodup) (s : State)
    (h : findCue s.cues n = some c) (g : GroupId) (l : Layer) :
    (L.foldl (fun t gl => t.offer n o gl.1 gl.2) s).run.table g l =
      (if (g, l) ∈ L ∧ (s.run.table g l).floor = 0 then { owner := some n, floor := c.body.floor } else s.run.table g l) ∧
    (L.foldl (fun t gl => t.offer n o gl.1 gl.2) s).run.entries.filter (RunEntry.waitsOn g l) =
      (if (g, l) ∈ L ∧ (s.run.table g l).floor ≠ 0 then
        (if s.run.entries.filter (RunEntry.waitsOn g l) = [] then [.deferred g l n o]
         else (s.run.entries.filter (RunEntry.waitsOn g l)).map (fun _ => .deferred g l n o))
       else s.run.entries.filter (RunEntry.waitsOn g l)) ∧
    (L.foldl (fun t gl => t.offer n o gl.1 gl.2) s).run.entries.filter RunEntry.isFollow =
      s.run.entries.filter RunEntry.isFollow := by
  induction L generalizing s with
  | nil => simp
  | cons gl L ih =>
    have hgl := (List.nodup_cons.1 hn).1
    rw [List.foldl_cons]
    obtain ⟨i1, i2, i3⟩ := ih (List.nodup_cons.1 hn).2 (s.offer n o gl.1 gl.2) (by rw [offer_cues]; exact h)
    have ow : offeredWaiting gl.1 gl.2 n o s.run.entries =
        (if s.run.entries.filter (RunEntry.waitsOn gl.1 gl.2) = [] then [.deferred gl.1 gl.2 n o]
         else (s.run.entries.filter (RunEntry.waitsOn gl.1 gl.2)).map (fun _ => .deferred gl.1 gl.2 n o)) := by
      unfold offeredWaiting
      by_cases e : s.run.entries.filter (RunEntry.waitsOn gl.1 gl.2) = []
      · have : s.run.entries.any (RunEntry.waitsOn gl.1 gl.2) = false := by
          rw [List.filter_eq_nil_iff] at e; simpa using e
        simp [this, e]
      · have : s.run.entries.any (RunEntry.waitsOn gl.1 gl.2) = true := by
          rw [List.filter_eq_nil_iff] at e; simpa using e
        simp [this, e]
    refine ⟨?_, ?_, i3.trans (offer_follow h _ _ _)⟩
    · rw [i1, offer_table h]
      by_cases e : g = gl.1 ∧ l = gl.2
      · obtain ⟨rfl, rfl⟩ := e
        have : (gl.1, gl.2) ∉ L := hgl
        simp only [this, false_and, if_false, true_and, List.mem_cons, true_or]
      · have e' : (g, l) ≠ gl := fun x => e (by rw [← x]; exact ⟨rfl, rfl⟩)
        simp [e, e']
    · rw [i2, offer_waiting h, offer_table h]
      by_cases e : g = gl.1 ∧ l = gl.2
      · obtain ⟨rfl, rfl⟩ := e
        have : (gl.1, gl.2) ∉ L := hgl
        simp only [this, false_and, if_false, true_and, List.mem_cons, true_or, ow]
      · have e' : (g, l) ≠ gl := fun x => e (by rw [← x]; exact ⟨rfl, rfl⟩)
        simp [e, e']

/-! ### The order of the entries, and SKIPPED -/

theorem superseded_waits (gls : List (GroupId × Layer)) (n : CueNum) (o : Origin) (g : GroupId) (l : Layer) (e : RunEntry) :
    (e.superseded gls n o).waitsOn g l = e.waitsOn g l := by
  cases e with
  | follow => rfl
  | deferred g' l' n' o' => simp only [RunEntry.superseded]; split <;> rfl

theorem superseded_cons (gl : GroupId × Layer) (gls : List (GroupId × Layer)) (n : CueNum) (o : Origin) (e : RunEntry) :
    (e.superseded [gl] n o).superseded gls n o = e.superseded (gl :: gls) n o := by
  cases e with
  | follow => rfl
  | deferred g l n' o' =>
    by_cases h1 : (g, l) = gl <;> by_cases h2 : (g, l) ∈ gls <;> simp [RunEntry.superseded, h1, h2]

theorem superseded_skip {gl : GroupId × Layer} {e : RunEntry} (h : e.waitsOn gl.1 gl.2 = false)
    (gls : List (GroupId × Layer)) (n : CueNum) (o : Origin) : e.superseded (gl :: gls) n o = e.superseded gls n o := by
  cases e with
  | follow => rfl
  | deferred g l n' o' =>
    have : (g, l) ≠ gl := fun x => by subst x; simp [RunEntry.waitsOn] at h
    simp [RunEntry.superseded, this]

/-- One offer's entries, in their order (R54). -/
theorem offer_entries {s : State} {n : CueNum} {c : CueRec} (h : findCue s.cues n = some c) (o : Origin) (g : GroupId)
    (l : Layer) : (s.offer n o g l).run.entries =
      if (s.run.table g l).floor = 0 then s.run.entries
      else if s.run.entries.any (RunEntry.waitsOn g l) = true then s.run.entries.map (RunEntry.superseded [(g, l)] n o)
      else s.run.entries ++ [.deferred g l n o] := by
  unfold State.offer
  split
  · rw [applyChange_run h]; simp
  · rw [any_eq_find]
    split
    · rename_i e he
      rw [he]
      refine List.map_congr_left fun e _ => ?_
      cases e with
      | follow => rfl
      | deferred g' l' n' o' =>
        by_cases x : g' = g ∧ l' = l
        · obtain ⟨rfl, rfl⟩ := x; simp [RunEntry.waitsOn, RunEntry.superseded]
        · have y : (g', l') ≠ (g, l) := fun z => x ⟨congrArg Prod.fst z, congrArg Prod.snd z⟩
          simp [RunEntry.waitsOn, RunEntry.superseded, x, y]
    · rename_i he
      rw [he]; rfl

theorem find_waiting {es es' : List RunEntry} {g : GroupId} {l : Layer}
    (h : es'.filter (RunEntry.waitsOn g l) = es.filter (RunEntry.waitsOn g l)) :
    es'.find? (RunEntry.waitsOn g l) = es.find? (RunEntry.waitsOn g l) := by
  rw [← List.head?_filter, h, List.head?_filter]

/-- All the offers of a firing: the entries in their order (R54), and the SKIPPED they raise. `df` tells the group-layers whose floor
is above 0. -/
theorem offers_entries {n : CueNum} {c : CueRec} (o : Origin) (df : GroupId × Layer → Bool) (L : List (GroupId × Layer))
    (hn : L.Nodup) (s : State) (h : findCue s.cues n = some c)
    (hd : ∀ gl ∈ L, df gl = decide ((s.run.table gl.1 gl.2).floor ≠ 0)) :
    (L.foldl (fun t gl => t.offer n o gl.1 gl.2) s).run.entries =
      s.run.entries.map (RunEntry.superseded (L.filter df) n o) ++
        ((L.filter df).filter (fun gl => !s.run.entries.any (RunEntry.waitsOn gl.1 gl.2))).map
          (fun gl => .deferred gl.1 gl.2 n o) ∧
    Raises .skipped ((L.filter df).filterMap (fun gl =>
      (s.run.entries.find? (RunEntry.waitsOn gl.1 gl.2)).map (fun e => .skipped gl.1 gl.2 e.cue))) s
      (L.foldl (fun t gl => t.offer n o gl.1 gl.2) s) := by
  induction L generalizing s with
  | nil =>
    have id_ : ∀ e : RunEntry, e.superseded [] n o = e := fun e => by cases e <;> simp [RunEntry.superseded]
    exact ⟨by simp [funext id_], .refl _ s⟩
  | cons gl L ih =>
    obtain ⟨hgl, hn'⟩ := List.nodup_cons.1 hn
    have ne : ∀ gl' ∈ L, ¬(gl'.1 = gl.1 ∧ gl'.2 = gl.2) := fun gl' hm x => hgl (by rw [← Prod.ext x.1 x.2]; exact hm)
    have same : ∀ gl' ∈ L, (s.offer n o gl.1 gl.2).run.table gl'.1 gl'.2 = s.run.table gl'.1 gl'.2 := fun gl' hm => by
      rw [offer_table h, if_neg (fun x => ne gl' hm x.1)]
    have waits : ∀ gl' ∈ L, (s.offer n o gl.1 gl.2).run.entries.filter (RunEntry.waitsOn gl'.1 gl'.2) =
        s.run.entries.filter (RunEntry.waitsOn gl'.1 gl'.2) := fun gl' hm => by
      rw [offer_waiting h, if_neg (fun x => ne gl' hm x.1)]
    obtain ⟨i1, i2⟩ := ih hn' (s.offer n o gl.1 gl.2) (by rw [offer_cues]; exact h)
      (fun gl' hm => by rw [same gl' hm]; exact hd gl' (List.mem_cons_of_mem _ hm))
    have anys : (L.filter df).filter (fun gl' => !(s.offer n o gl.1 gl.2).run.entries.any (RunEntry.waitsOn gl'.1 gl'.2)) =
        (L.filter df).filter (fun gl' => !s.run.entries.any (RunEntry.waitsOn gl'.1 gl'.2)) := by
      refine List.filter_congr fun gl' hm => ?_
      rw [any_eq_find, any_eq_find, find_waiting (waits gl' (List.mem_filter.1 hm).1)]
    have finds : (L.filter df).filterMap (fun gl' => ((s.offer n o gl.1 gl.2).run.entries.find?
          (RunEntry.waitsOn gl'.1 gl'.2)).map (fun e => (.skipped gl'.1 gl'.2 e.cue : Raise))) =
        (L.filter df).filterMap (fun gl' => (s.run.entries.find? (RunEntry.waitsOn gl'.1 gl'.2)).map
          (fun e => .skipped gl'.1 gl'.2 e.cue)) :=
      List.filterMap_congr fun gl' hm => by rw [find_waiting (waits gl' (List.mem_filter.1 hm).1)]
    rw [anys, offer_entries h] at i1
    rw [finds] at i2
    have step := offer_raises (x := .skipped) (by simp) (by simp) s n o gl.1 gl.2
    rw [List.foldl_cons, i1]
    have dg := hd gl (List.mem_cons_self ..)
    by_cases h0 : (s.run.table gl.1 gl.2).floor = 0
    · have d0 : ¬ df gl = true := by rw [dg]; simp [h0]
      rw [if_neg (fun x => x.2 h0)] at step
      rw [List.filter_cons_of_neg d0, if_pos h0]
      exact ⟨rfl, step.ofQuiet i2⟩
    · have d1 : df gl = true := by rw [dg]; simp [h0]
      rw [if_pos ⟨rfl, h0⟩] at step
      rw [List.filter_cons_of_pos d1, if_neg h0, List.filterMap_cons]
      cases hf : s.run.entries.find? (RunEntry.waitsOn gl.1 gl.2) with
      | some e =>
        have ha : s.run.entries.any (RunEntry.waitsOn gl.1 gl.2) = true := by rw [any_eq_find, hf]; rfl
        rw [hf] at step
        refine ⟨?_, step.trans i2⟩
        rw [if_pos ha, List.filter_cons_of_neg (by simp [ha]), List.map_map]
        congr 1
        exact List.map_congr_left fun e _ => superseded_cons gl _ n o e
      | none =>
        have ha : s.run.entries.any (RunEntry.waitsOn gl.1 gl.2) = false := by rw [any_eq_find, hf]; rfl
        rw [hf] at step
        refine ⟨?_, step.ofQuiet i2⟩
        rw [if_neg (by simp [ha]), List.filter_cons_of_pos (by simp [ha]), List.map_append, List.map_cons, List.map_nil,
          List.map_cons, List.append_assoc, List.singleton_append]
        congr 1
        · refine List.map_congr_left fun e he => (superseded_skip ?_ _ n o).symm
          exact Bool.eq_false_iff.2 fun k => by
            have : s.run.entries.any (RunEntry.waitsOn gl.1 gl.2) = true := List.any_eq_true.2 ⟨e, he, k⟩
            rw [ha] at this; cases this
        · congr 1
          simp only [RunEntry.superseded]
          split <;> rfl

/-- All the recalls of a BACK: the group-layer table and the entries (R36, R57). -/
theorem recalls_run {n : CueNum} {c : CueRec} (L : List (GroupId × Layer)) (s : State)
    (h : findCue s.cues n = some c) (g : GroupId) (l : Layer) :
    (L.foldl (fun t gl => t.recall n gl.1 gl.2) s).run.table g l =
      (if (g, l) ∈ L then { owner := some n, floor := c.body.floor } else s.run.table g l) ∧
    (L.foldl (fun t gl => t.recall n gl.1 gl.2) s).run.entries.filter (RunEntry.waitsOn g l) =
      (if (g, l) ∈ L then [] else s.run.entries.filter (RunEntry.waitsOn g l)) ∧
    (L.foldl (fun t gl => t.recall n gl.1 gl.2) s).run.entries.filter RunEntry.isFollow =
      s.run.entries.filter RunEntry.isFollow := by
  induction L generalizing s with
  | nil => simp
  | cons gl L ih =>
    rw [List.foldl_cons]
    obtain ⟨i1, i2, i3⟩ := ih (s.recall n gl.1 gl.2) (by rw [recall_cues]; exact h)
    rw [i1, i2, i3, recall_run h]
    refine ⟨?_, ?_, by rw [RunQueue.setTable_entries, dropDeferred_follow]⟩
    · rw [table_setTable, dropDeferred_table]
      by_cases m : (g, l) ∈ L
      · simp [m]
      · by_cases e : g = gl.1 ∧ l = gl.2
        · obtain ⟨rfl, rfl⟩ := e; simp
        · have e' : (g, l) ≠ gl := fun x => e (by rw [← x]; exact ⟨rfl, rfl⟩)
          simp [m, e, e']
    · rw [RunQueue.setTable_entries, dropDeferred_waiting]
      by_cases m : (g, l) ∈ L
      · simp [m]
      · by_cases e : g = gl.1 ∧ l = gl.2
        · obtain ⟨rfl, rfl⟩ := e; simp
        · have e' : (g, l) ≠ gl := fun x => e (by rw [← x]; exact ⟨rfl, rfl⟩)
          simp [m, e, e']

/-- All the recalls of a BACK: the entries in their order (R57). -/
theorem recalls_entries {n : CueNum} {c : CueRec} (L : List (GroupId × Layer)) (s : State) (h : findCue s.cues n = some c) :
    (L.foldl (fun t gl => t.recall n gl.1 gl.2) s).run.entries =
      s.run.entries.filter (fun e => !L.any (fun gl => e.waitsOn gl.1 gl.2)) := by
  induction L generalizing s with
  | nil => simp
  | cons gl L ih =>
    rw [List.foldl_cons, ih _ (by rw [recall_cues]; exact h), recall_run h]
    simp only [RunQueue.setTable_entries, RunQueue.dropDeferred, List.filter_filter, List.any_cons]
    exact List.filter_congr fun e _ => by cases e.waitsOn gl.1 gl.2 <;> simp

/-- All the offers of a firing reach the screen image where the floor is 0 (R53, R82). -/
theorem offers_applied {n : CueNum} {c : CueRec} (o : Origin) (L : List (GroupId × Layer)) (hn : L.Nodup) (s : State)
    (h : findCue s.cues n = some c) :
    AppliedTo (fun g l => (g, l) ∈ L ∧ (s.run.table g l).floor = 0) c s (L.foldl (fun t gl => t.offer n o gl.1 gl.2) s) := by
  intro k l'
  obtain ⟨a1, a2, a3, a4, a5, a6⟩ := changes_core c (fun t gl => t.offer n o gl.1 gl.2)
    (fun g l => (s.run.table g l).floor = 0) L hn
    (fun L t => findCue t.cues n = some c ∧ ∀ gl ∈ L, t.run.table gl.1 gl.2 = s.run.table gl.1 gl.2)
    (fun gl L t hnd hg => ⟨by rw [offer_cues]; exact hg.1, fun gl' hm => by
      rw [offer_table hg.1, if_neg]
      · exact hg.2 gl' (List.mem_cons_of_mem _ hm)
      · intro hx
        exact (List.nodup_cons.1 hnd).1 (by rw [← Prod.mk.eta (p := gl), ← hx.1.1, ← hx.1.2]; exact hm)⟩)
    (fun gl L t k _ hg => by rw [offer_core hg.1, hg.2 gl (List.mem_cons_self ..)])
    s ⟨h, fun _ _ => rfl⟩ k l'
  refine ⟨a1, a2, a3, a4, fun he hx => ?_, fun hx => ?_⟩
  · rw [a6, if_pos ⟨he, hx.1, hx.2⟩]
  · rw [a6, if_neg]
    rintro ⟨he, h1, h2⟩
    rcases hx with hx | hx
    · rw [he] at hx; cases hx
    · exact hx ⟨h1, h2⟩

/-- All the recalls of a BACK reach the screen image (R36). -/
theorem recalls_applied {n : CueNum} {c : CueRec} (L : List (GroupId × Layer)) (hn : L.Nodup) (s : State)
    (h : findCue s.cues n = some c) :
    AppliedTo (fun g l => (g, l) ∈ L) c s (L.foldl (fun t gl => t.recall n gl.1 gl.2) s) := by
  intro k l'
  obtain ⟨a1, a2, a3, a4, a5, a6⟩ := changes_core c (fun t gl => t.recall n gl.1 gl.2)
    (fun _ _ => True) L hn (fun _ t => findCue t.cues n = some c)
    (fun gl L t hnd hg => by rw [recall_cues]; exact hg)
    (fun gl L t k _ hg => by rw [recall_core hg]; simp)
    s h k l'
  refine ⟨a1, a2, a3, a4, fun he hx => ?_, fun hx => ?_⟩
  · rw [a6, if_pos ⟨he, hx, trivial⟩]
  · rw [a6, if_neg]
    rintro ⟨he, h1, -⟩
    rcases hx with hx | hx
    · rw [he] at hx; cases hx
    · exact hx h1

/-! ## The whole firing -/

theorem offerChanges_follow (s : State) (n : CueNum) (o : Origin) (k : FiringKind) :
    (s.offerChanges n o k).run.entries.filter RunEntry.isFollow = s.run.entries.filter RunEntry.isFollow := by
  unfold State.offerChanges
  split
  · rename_i c h
    by_cases e : k = .back
    · simp only [e, if_true]; exact (recalls_run _ s h 0 .base).2.2
    · simp only [e, if_false]; exact (offers_run o _ (groupLayers_nodup _) s h 0 .base).2.2
  · rfl

theorem completeFiring_watch (s : State) (n : CueNum) (o : Origin) (k : FiringKind) :
    (s.completeFiring n o k).watch = s.watch.afterFiring n := by
  have hw : (s.compareWatches n).watch = s.watch.afterFiring n := by
    unfold State.compareWatches; dsimp only; split <;> rfl
  unfold State.completeFiring
  dsimp only
  split <;> exact hw

/-- Which causes a firing raises, of those that its changes do not (R32, R157). -/
theorem fire_raises {x : Cause} (hx : x ≠ .outOfStep) (ho : x ≠ .overrun) (s : State) (n : CueNum) (o : Origin) (k : FiringKind)
    (hk : x ≠ .skipped ∨ k = .back) : Raises x (if x = .watch then
        (if s.watch.condition n = true then [.watch n (s.watch.w0.compares n) (s.watch.w1.compares n)] else [])
      else if x = .fired then [.fired n o k]
      else if x = .endReached then (if cueAfter s.cues n = none then [.endReached n] else [])
      else []) s (s.fire n o k) := by
  have k1 : Keeps [.engine, .run] s ((s.movePosition n).setFollow k) :=
    (movePosition_keeps s n).mono.trans (setFollow_keeps _ _).mono
  have k2 : Keeps [.run, .heads, .texts, .link, .ports] ((s.movePosition n).setFollow k)
      (((s.movePosition n).setFollow k).offerChanges n o k) := offerChanges_keeps _ _ _ _
  have st : (((s.movePosition n).setFollow k).offerChanges n o k).engine.standby = (cueAfter s.cues n).map CueRec.num := by
    rw [k2.1.engine]; rfl
  have wat : (((s.movePosition n).setFollow k).offerChanges n o k).watch = s.watch := by
    rw [k2.1.watch, k1.1.watch]
  have e := completeFiring_raises x (((s.movePosition n).setFollow k).offerChanges n o k) n o k
  simp only [wat, st, Option.map_eq_none_iff] at e
  exact ((Raises.ofOnly k1.1 x).quietly (offerChanges_raises hx ho _ n o k hk)).ofQuiet e

/-- The firing procedure from READY or RUNNING (R29 to R32, R36). -/
theorem fire_done {s : State} (n : CueNum) (o : Origin) (k : FiringKind)
    (hs : s.engine.state = .ready ∨ s.engine.state = .running) : FiringDone s (s.fire n o k) n o k := by
  have k1 : Keeps [.engine, .run] s ((s.movePosition n).setFollow k) :=
    (movePosition_keeps s n).mono.trans (setFollow_keeps _ _).mono
  have k2 : Keeps [.run, .heads, .texts, .link, .ports] ((s.movePosition n).setFollow k)
      (((s.movePosition n).setFollow k).offerChanges n o k) := offerChanges_keeps _ _ _ _
  have k3 := completeFiring_keeps (((s.movePosition n).setFollow k).offerChanges n o k) n o k
  have eng : (((s.movePosition n).setFollow k).offerChanges n o k).engine = (s.movePosition n).engine := by
    rw [k2.1.engine]; rfl
  have c4 := completeFiring_watch (((s.movePosition n).setFollow k).offerChanges n o k) n o k
  rw [k2.1.watch, k1.1.watch] at c4
  refine ⟨?_, ?_, c4, ?_, ?_, ?_, fun x hx => ?_, (fire_keeps s n o k).1, (fire_keeps s n o k).ports⟩
  · show (((((s.movePosition n).setFollow k).offerChanges n o k)).completeFiring n o k).engine = _
    rw [k3.1.engine, eng]
    rcases hs with e | e <;> simp [State.movePosition, e]
  · show (((((s.movePosition n).setFollow k).offerChanges n o k)).completeFiring n o k).run.entries.filter _ = _
    rw [k3.1.run, offerChanges_follow]
    show (s.run.dropFollow.entries ++ _).filter _ = _
    have h0 : s.run.dropFollow.entries.filter RunEntry.isFollow = [] := by
      show (s.run.entries.filter (fun e => !e.isFollow)).filter _ = _
      rw [List.filter_filter, List.filter_eq_nil_iff]
      intro a _; simp
    have hf : ∀ c e, followFor c = some e → e.isFollow = true := by
      intro c e h
      unfold followFor at h
      split at h <;> cases h <;> rfl
    have hb : ∀ x : Option RunEntry, (∀ e, x = some e → e.isFollow = true) → x.toList.filter RunEntry.isFollow = x.toList := by
      intro x hx
      cases x with
      | none => rfl
      | some e => simp [hx e rfl]
    rw [List.filter_append, h0, List.nil_append]
    cases k with
    | back => simp
    | go =>
      show List.filter _ (Option.toList _) = _
      simp only [State.movePosition, State.withEngine_engine, reduceCtorEq, if_false]
      cases hq : cueAfter s.cues n with
      | none => rfl
      | some x =>
        simp only [Option.map_some, Option.bind_some]
        apply hb
        intro e he
        cases hx : findCue s.cues x.num with
        | none => simp [hx] at he
        | some y => simp [hx] at he; exact hf y e he
    | follow =>
      show List.filter _ (Option.toList _) = _
      simp only [State.movePosition, State.withEngine_engine, reduceCtorEq, if_false]
      cases hq : cueAfter s.cues n with
      | none => rfl
      | some x =>
        simp only [Option.map_some, Option.bind_some]
        apply hb
        intro e he
        cases hx : findCue s.cues x.num with
        | none => simp [hx] at he
        | some y => simp [hx] at he; exact hf y e he
  · refine Raises.just (x := .watch) (fire_raises (by simp) (by simp) s n o k (.inl (by simp))) (fun r hr => ?_)
    split at hr
    · rw [List.mem_singleton.1 hr]; rfl
    · cases hr
  · exact Raises.just (x := .fired) (fire_raises (by simp) (by simp) s n o k (.inl (by simp)))
      (fun r hr => by rw [List.mem_singleton.1 hr]; rfl)
  · refine Raises.just (x := .endReached) (fire_raises (by simp) (by simp) s n o k (.inl (by simp))) (fun r hr => ?_)
    split at hr
    · rw [List.mem_singleton.1 hr]; rfl
    · cases hr
  · simp only [List.mem_cons, List.not_mem_nil, or_false, not_or] at hx
    obtain ⟨h1, h2, h3, h4, h5, h6⟩ := hx
    have := fire_raises h6 h4 s n o k (.inl h5)
    rw [if_neg h1, if_neg h2, if_neg h3] at this
    exact this.unraised

/-- A BACK raises no SKIPPED (R36, R57). -/
theorem back_unskipped (s : State) (n : CueNum) (o : Origin) : Raises .skipped [] s (s.fire n o .back) :=
  fire_raises (x := .skipped) (by simp) (by simp) s n o .back (.inr rfl)

/-- Later events of the same command that keep the engine, the Run Queue's FOLLOW entry and the watches leave a firing done. -/
theorem FiringDone.settle {s t : State} {n : CueNum} {o : Origin} {k : FiringKind} (h : FiringDone s t n o k) :
    FiringDone s t.settle n o k := by
  have ks := settle_keeps t
  exact ⟨h.position, h.follow, h.watches, h.watchRaised.settle, h.firedRaised.settle, h.endRaised.settle,
    fun x hx => (h.otherCauses x hx).settle, h.frame.trans (ks.1.mono (by decide)),
    fun q => (h.ports q).trans ((ks.2 q).1)⟩

theorem FiringDone.respond {s t : State} {n : CueNum} {o : Origin} {k : FiringKind} (h : FiringDone s t n o k) (p : Port)
    (r : Request) (st : Status) (pl : List Byte) : FiringDone s (t.respond p r st pl) n o k := by
  have ks := respond_keeps t p r st pl
  exact ⟨h.position, h.follow, h.watches, h.watchRaised.respond _ _ _ _, h.firedRaised.respond _ _ _ _,
    h.endRaised.respond _ _ _ _, fun x hx => (h.otherCauses x hx).respond _ _ _ _, h.frame.trans (ks.1.mono (by decide)),
    fun q => (h.ports q).trans ((ks.2 q).1)⟩

end Sys2Proof.Machine
end

