-- ==== Sys2Proof/Laws/Link.lean ====
section
/-! SUPPORT. The display link: what a command asked for, a start, a catch-up and a leaving do to the queue, the heads and the
pending causes. -/

set_option Elab.async false

namespace Sys2Proof.Machine

theorem commands_of_link {s t : State} (h : t.link = s.link) : t.commands = s.commands := by simp only [State.commands, h]

theorem commands_startLink (s : State) : s.startLink.commands = s.commands := by
  unfold State.startLink; split
  · rename_i h1 h2; simp [State.commands, h2]
  · rfl

theorem commands_enqueue (s : State) (h : HeadId) (b : CmdBody) : (s.enqueue h b).commands = s.commands ++ [(h, b)] := by
  simp [State.enqueue, State.commands]

theorem capture_startLink (s : State) : s.startLink.link.capture = s.link.capture := by
  unfold State.startLink; split <;> rfl

theorem usedUp_false {k : LinkController} (h : k.retryLimit = 0 ∨ k.attempts < k.retryLimit + 1) : k.usedUp = false := by
  unfold LinkController.usedUp; rw [decide_eq_false_iff_not]; omega

theorem usedUp_true {k : LinkController} (h : k.retryLimit ≠ 0) (h2 : k.retryLimit + 1 ≤ k.attempts) : k.usedUp = true := by
  unfold LinkController.usedUp; rw [decide_eq_true_iff]; exact ⟨h, h2⟩

/-- What commands that join by a catch-up leave alone: they join at the end, each for a head that was out of step and is ONLINE or
PROBING; a head changes only by becoming in step; captures and pending causes but OUT_OF_STEP stay. -/
structure CaughtUp (s t : State) : Prop where
  joined : ∃ more, t.commands = s.commands ++ more ∧
    ∀ m ∈ more, (s.head m.1).outOfStep = true ∧ ((s.head m.1).state = .online ∨ (s.head m.1).state = .probing)
  capture : t.link.capture = s.link.capture
  heads : ∀ h, t.head h = s.head h ∨
    ((s.head h).outOfStep = true ∧ t.head h = { s.head h with outOfStep := false })
  pending : ∀ (q : Port) (x : Raise), x ∈ (s.port q).pending → x.cause ≠ .outOfStep → x ∈ (t.port q).pending

theorem CaughtUp.refl (s : State) : CaughtUp s s :=
  ⟨⟨[], by simp, by simp⟩, rfl, fun _ => .inl rfl, fun _ _ h _ => h⟩

theorem CaughtUp.trans {s t u : State} (a : CaughtUp s t) (b : CaughtUp t u) : CaughtUp s u := by
  obtain ⟨m1, j1, k1⟩ := a.joined
  obtain ⟨m2, j2, k2⟩ := b.joined
  refine ⟨⟨m1 ++ m2, by rw [j2, j1, List.append_assoc], fun m hm => ?_⟩, b.capture.trans a.capture, fun h => ?_,
    fun q x hx hc => b.pending q x (a.pending q x hx hc) hc⟩
  · rcases List.mem_append.1 hm with hm | hm
    · exact k1 m hm
    · obtain ⟨x, y⟩ := k2 m hm
      rcases a.heads m.1 with e | ⟨_, e⟩
      · rw [e] at x y; exact ⟨x, y⟩
      · rw [e] at x; cases x
  · rcases a.heads h with e | ⟨e1, e⟩
    · rw [← e]; exact b.heads h
    · rcases b.heads h with f | ⟨f1, _⟩
      · exact .inr ⟨e1, by rw [f, e]⟩
      · rw [e] at f1; cases f1

theorem CaughtUp.startLink {s t : State} (a : CaughtUp s t) : CaughtUp s t.startLink := by
  refine ⟨by rw [commands_startLink]; exact a.joined, by rw [capture_startLink]; exact a.capture, fun h => ?_,
    fun q x hx hc => ?_⟩
  · rw [(startLink_only _).head]; exact a.heads h
  · rw [(startLink_only _).port]; exact a.pending q x hx hc

theorem catchUpHead_caughtUp (s : State) (h : HeadId) : CaughtUp s (s.catchUpHead h) := by
  have step : ∀ h', (s.head h).outOfStep = true → ((s.clearOutOfStep h).head h' = s.head h' ∨
      ((s.head h').outOfStep = true ∧ (s.clearOutOfStep h).head h' = { s.head h' with outOfStep := false })) := by
    intro h' ho
    by_cases e : h' = h
    · subst e; right; exact ⟨ho, by simp [State.clearOutOfStep]⟩
    · left; simp [State.clearOutOfStep, State.head_setHead_ne _ _ e]
  unfold State.catchUpHead
  split
  · rename_i ho
    split
    · rename_i hst
      unfold State.queueRefresh
      rw [if_neg (by simp [hst])]
      split
      · refine ⟨⟨_, by rw [commands_enqueue, commands_enqueue, List.append_assoc]; rfl, ?_⟩, rfl, fun h' => step h' ho,
          fun q x hx _ => hx⟩
        intro m hm
        have : m.1 = h := by simp at hm; rcases hm with e | e <;> rw [e]
        rw [this]; exact ⟨ho, .inl hst⟩
      · unfold State.markOutOfStep; rw [if_pos ho]; exact .refl s
    · rename_i hst
      refine ⟨⟨_, by rw [commands_enqueue]; rfl, ?_⟩, rfl, fun h' => step h' ho, fun q x hx _ => hx⟩
      intro m hm
      have : m.1 = h := by simp at hm; rw [hm]
      rw [this]; exact ⟨ho, .inr hst⟩
    · exact .refl s
    · exact .refl s
  · exact .refl s

theorem catchUpHeads_caughtUp (hs : List HeadId) (s : State) : CaughtUp s (hs.foldl State.catchUpHead s) := by
  induction hs generalizing s with
  | nil => exact .refl s
  | cons h hs ih => exact (catchUpHead_caughtUp s h).trans (ih _)

theorem catchUp_caughtUp (s : State) : CaughtUp s s.catchUp := by
  unfold State.catchUp; split
  · exact catchUpHeads_caughtUp _ _
  · exact .refl s

/-- What follows a leaving (R105, R106). -/
theorem afterLeaving_caughtUp (s : State) : CaughtUp s s.afterLeaving := (catchUp_caughtUp s).startLink

/-- With every head in step there is nothing to catch up. -/
theorem afterLeaving_inStep (s : State) (h : ∀ h, (s.head h).outOfStep = false) : s.afterLeaving = s.startLink := by
  have e : s.catchUp = s := by
    unfold State.catchUp; split
    · generalize allHeads = l
      induction l with
      | nil => rfl
      | cons a l ih =>
        have : s.catchUpHead a = s := by unfold State.catchUpHead; rw [h a]; rfl
        rw [List.foldl_cons, this, ih]
    · rfl
  unfold State.afterLeaving; rw [e]

/-- The bytes of a text do not depend on the reference counts. -/
theorem textBytes_counts (names gone : List Nat) (texts : List TextRec) (i : Nat) :
    textBytes (removeNames gone (addNames names texts)) i = textBytes texts i := by
  unfold textBytes findText
  have e : ((removeNames gone (addNames names texts)).find? (fun t => decide (t.id = i))).map TextRec.bytes =
      (texts.find? (fun t => decide (t.id = i))).map TextRec.bytes := by
    simp only [removeNames, addNames, List.map_map, List.find?_map, Option.map_map]; rfl
  revert e
  cases (removeNames gone (addNames names texts)).find? (fun t => decide (t.id = i)) <;>
    cases texts.find? (fun t => decide (t.id = i)) <;> simp

/-! ## The catch-up, whole -/

/-- What the catch-up adds for one head (R105). -/
def State.catchUpOf (s : State) (h : HeadId) : List (HeadId × CmdBody) :=
  if (s.head h).outOfStep = true ∧ (s.head h).state = .online then
    [(h, refreshBody (s.head h).baseSlot .base s.texts), (h, refreshBody (s.head h).overSlot .overlay s.texts)]
  else if (s.head h).outOfStep = true ∧ (s.head h).state = .probing then [(h, .probe)]
  else []

theorem State.catchUpCommands_eq (s : State) : s.catchUpCommands = allHeads.flatMap s.catchUpOf := rfl

/-- A head after its catch-up. -/
def Head.caughtUp (x : Head) : Head :=
  if x.state = .online ∨ x.state = .probing then { x with outOfStep := false } else x

/-- The link but for its queue and the next serial number. -/
def SameLine (s t : State) : Prop :=
  t.link.phase = s.link.phase ∧ t.link.attempts = s.link.attempts ∧ t.link.nextSeq = s.link.nextSeq

/-- Every port's waiting SYNC is as it was. -/
def SameSyncs (s t : State) : Prop := ∀ q, (t.port q).sync = (s.port q).sync

theorem SameSyncs.trans {s t u : State} (a : SameSyncs s t) (b : SameSyncs t u) : SameSyncs s u :=
  fun q => (b q).trans (a q)

theorem sameSyncs_raiseAll (s : State) (r : Raise) : SameSyncs s (s.raiseAll r) := by
  intro q; rw [State.raiseAll, State.port_onPorts]; rfl

theorem sameSyncs_markOutOfStep (s : State) (h : HeadId) : SameSyncs s (s.markOutOfStep h) := by
  unfold State.markOutOfStep
  split
  · exact fun _ => rfl
  · exact fun q => (sameSyncs_raiseAll _ _ q).trans (by rw [(setHead_only _ _ _).port])

theorem sameSyncs_queueRefresh (s : State) (h : HeadId) : SameSyncs s (s.queueRefresh h) := by
  unfold State.queueRefresh
  split
  · exact fun _ => rfl
  · split
    · exact fun _ => rfl
    · exact sameSyncs_markOutOfStep _ _

theorem sameSyncs_catchUpHead (s : State) (h : HeadId) : SameSyncs s (s.catchUpHead h) := by
  unfold State.catchUpHead
  split
  · split
    · exact sameSyncs_queueRefresh _ _
    all_goals exact fun _ => rfl
  · exact fun _ => rfl

theorem sameSyncs_catchUp (s : State) : SameSyncs s s.catchUp := by
  unfold State.catchUp
  split
  · rename_i hl; clear hl
    generalize allHeads = hs
    induction hs generalizing s with
    | nil => exact fun _ => rfl
    | cons h hs ih => exact (sameSyncs_catchUpHead s h).trans (ih _)
  · exact fun _ => rfl

theorem sameSyncs_afterLeaving (s : State) : SameSyncs s s.afterLeaving := by
  refine (sameSyncs_catchUp s).trans fun q => ?_
  show (s.catchUp.startLink.port q).sync = _
  rw [(startLink_only _).port]

theorem catchUpHead_line (s : State) (h : HeadId) : SameLine s (s.catchUpHead h) := by
  unfold State.catchUpHead State.queueRefresh State.markOutOfStep
  repeat' split
  all_goals exact ⟨rfl, rfl, rfl⟩

theorem catchUp_line (s : State) : SameLine s s.catchUp := by
  unfold State.catchUp
  split
  · rename_i hl; clear hl
    generalize allHeads = hs
    induction hs generalizing s with
    | nil => exact ⟨rfl, rfl, rfl⟩
    | cons h hs ih =>
      obtain ⟨a, b, c⟩ := catchUpHead_line s h
      obtain ⟨x, y, z⟩ := ih (s.catchUpHead h)
      exact ⟨x.trans a, y.trans b, z.trans c⟩
  · exact ⟨rfl, rfl, rfl⟩

theorem catchUpHead_eq (s : State) (h : HeadId) (room : s.link.queue.length ≤ 62) :
    (s.catchUpHead h).commands = s.commands ++ s.catchUpOf h ∧
    (∀ k, (s.catchUpHead h).head k = if k = h then (s.head k).caughtUp else s.head k) ∧
    (s.catchUpHead h).texts = s.texts := by
  have other : ∀ k (x : Head), (s.setHead h x).head k = if k = h then x else s.head k := by
    intro k x
    by_cases e : k = h
    · subst e; simp
    · rw [if_neg e, State.head_setHead_ne _ _ e]
  have noop : (s.head h).caughtUp = s.head h → ∀ k, s.head k = if k = h then (s.head k).caughtUp else s.head k := by
    intro n k
    by_cases e : k = h
    · subst e; rw [if_pos rfl, n]
    · rw [if_neg e]
  unfold State.catchUpHead State.catchUpOf
  cases ho : (s.head h).outOfStep with
  | false =>
    rw [if_neg (by decide), if_neg (by simp), if_neg (by simp), List.append_nil]
    refine ⟨rfl, noop ?_, rfl⟩
    unfold Head.caughtUp
    split
    · rw [← ho]
    · rfl
  | true =>
    rw [if_pos rfl]
    split
    · rename_i hs
      unfold State.queueRefresh
      rw [if_neg (by simp [hs]),
        if_pos (show s.link.queue.length + 2 ≤ Config.maxCommands by unfold Config.maxCommands; omega), if_pos ⟨rfl, hs⟩]
      refine ⟨?_, fun k => ?_, rfl⟩
      · rw [commands_enqueue, commands_enqueue, List.append_assoc]; rfl
      · show (s.setHead h { s.head h with outOfStep := false }).head k = _
        rw [other]
        by_cases e : k = h
        · subst e; rw [if_pos rfl, if_pos rfl, Head.caughtUp, if_pos (.inl hs)]
        · rw [if_neg e, if_neg e]
    · rename_i hs
      rw [if_neg (by simp [hs]), if_pos ⟨rfl, hs⟩]
      refine ⟨by rw [commands_enqueue]; rfl, fun k => ?_, rfl⟩
      show (s.setHead h { s.head h with outOfStep := false }).head k = _
      rw [other]
      by_cases e : k = h
      · subst e; rw [if_pos rfl, if_pos rfl, Head.caughtUp, if_pos (.inr hs)]
      · rw [if_neg e, if_neg e]
    · rename_i hs
      rw [if_neg (by simp [hs]), if_neg (by simp [hs]), List.append_nil]
      exact ⟨rfl, noop (by rw [Head.caughtUp, if_neg (by simp [hs])]), rfl⟩
    · rename_i hs
      rw [if_neg (by simp [hs]), if_neg (by simp [hs]), List.append_nil]
      exact ⟨rfl, noop (by rw [Head.caughtUp, if_neg (by simp [hs])]), rfl⟩

theorem State.catchUpOf_length (s : State) (h : HeadId) : (s.catchUpOf h).length ≤ 2 := by
  unfold State.catchUpOf
  split
  · exact Nat.le_refl 2
  · split <;> simp

theorem commands_length (s : State) : s.commands.length = s.link.queue.length := List.length_map _

theorem catchUpHeads_eq (hs : List HeadId) (hn : hs.Nodup) (s : State) (room : s.link.queue.length + 2 * hs.length ≤ 64) :
    (hs.foldl State.catchUpHead s).commands = s.commands ++ hs.flatMap s.catchUpOf ∧
    ∀ k, (hs.foldl State.catchUpHead s).head k = if k ∈ hs then (s.head k).caughtUp else s.head k := by
  induction hs generalizing s with
  | nil => exact ⟨by simp, fun k => by simp⟩
  | cons h hs ih =>
    obtain ⟨hh, hn⟩ := List.nodup_cons.1 hn
    rw [List.length_cons] at room
    obtain ⟨c, d, x⟩ := catchUpHead_eq s h (by omega)
    have len : (s.catchUpHead h).link.queue.length ≤ s.link.queue.length + 2 := by
      rw [← commands_length, c, List.length_append, commands_length]
      have := s.catchUpOf_length h
      omega
    obtain ⟨ic, id⟩ := ih hn (s.catchUpHead h) (by omega)
    rw [List.foldl_cons, List.flatMap_cons, ic, c, List.append_assoc]
    have same : hs.flatMap (s.catchUpHead h).catchUpOf = hs.flatMap s.catchUpOf := by
      apply List.flatMap_congr
      intro k hk
      have e : k ≠ h := fun e => hh (e ▸ hk)
      unfold State.catchUpOf
      rw [d k, if_neg e, x]
    refine ⟨by rw [same], fun k => ?_⟩
    rw [id k, d k]
    by_cases e : k = h
    · subst e; simp [hh]
    · simp [e]

/-- What follows a leaving, whole: the catch-up behind the commands that stay, then the oldest command starts (R105, R106). -/
theorem afterLeaving_catchesUp (s : State) : CatchesUp s s.commands s.afterLeaving := by
  have low : s.link.queue.length ≤ 16 → s.catchUp.commands = s.commands ++ s.catchUpCommands ∧
      ∀ h, s.catchUp.head h = (s.head h).caughtUp := by
    intro hl
    unfold State.catchUp
    rw [if_pos (show s.link.queue.length ≤ Config.catchUpLevel from hl)]
    have room : s.link.queue.length + 2 * allHeads.length ≤ 64 := by
      have : allHeads.length = 16 := rfl
      omega
    obtain ⟨a, b⟩ := catchUpHeads_eq allHeads allHeads_nodup s room
    exact ⟨a, fun h => by rw [b h, if_pos (mem_allHeads h)]⟩
  have high : ¬ s.link.queue.length ≤ 16 → s.catchUp = s := by
    intro hl
    unfold State.catchUp
    rw [if_neg (show ¬ s.link.queue.length ≤ Config.catchUpLevel from hl)]
  unfold State.afterLeaving
  constructor
  · rw [commands_startLink, commands_length]
    split
    · rename_i hl; exact (low hl).1
    · rename_i hl; rw [high hl, List.append_nil]
  · intro h
    rw [(startLink_only _).head, commands_length]
    by_cases hl : s.link.queue.length ≤ 16
    · rw [(low hl).2 h]
      unfold Head.caughtUp
      by_cases e : (s.head h).state = .online ∨ (s.head h).state = .probing
      · rw [if_pos e, if_pos ⟨hl, e⟩]
      · rw [if_neg e, if_neg (fun x => e x.2)]
    · rw [high hl, if_neg (fun x => hl x.1)]

theorem catchUpHead_ports (s : State) (h : HeadId) (room : s.link.queue.length ≤ 62) :
    (s.catchUpHead h).ports = s.ports := by
  unfold State.catchUpHead
  split
  · split
    · rename_i hs
      unfold State.queueRefresh
      rw [if_neg (by simp [hs]), if_pos (show s.link.queue.length + 2 ≤ Config.maxCommands by unfold Config.maxCommands; omega)]
      rfl
    all_goals rfl
  · rfl

theorem catchUpHeads_ports (hs : List HeadId) (s : State) (room : s.link.queue.length + 2 * hs.length ≤ 64) :
    (hs.foldl State.catchUpHead s).ports = s.ports := by
  induction hs generalizing s with
  | nil => rfl
  | cons h hs ih =>
    rw [List.length_cons] at room
    have c := (catchUpHead_eq s h (by omega)).1
    have len : (s.catchUpHead h).link.queue.length ≤ s.link.queue.length + 2 := by
      rw [← commands_length, c, List.length_append, commands_length]
      have := s.catchUpOf_length h
      omega
    rw [List.foldl_cons, ih _ (by omega), catchUpHead_ports _ _ (by omega)]

/-- What follows a leaving raises nothing: every catch-up finds room (R105). -/
theorem afterLeaving_ports (s : State) : s.afterLeaving.ports = s.ports := by
  unfold State.afterLeaving
  rw [(startLink_only _).ports]
  unfold State.catchUp
  split
  · rename_i hl
    have h1 : allHeads.length = 16 := rfl
    have h2 : s.link.queue.length ≤ 16 := hl
    exact catchUpHeads_ports _ _ (by omega)
  · rfl

/-- A catch-up looks at the heads and the texts alone, and writes the heads and the commands alone. -/
theorem CatchesUp.congr {s s' t t' : State} {stay : List (HeadId × CmdBody)} (a : CatchesUp s stay t)
    (hh : ∀ h, s'.head h = s.head h) (hx : s'.texts = s.texts) (ht : ∀ h, t'.head h = t.head h)
    (hc : t'.commands = t.commands) : CatchesUp s' stay t' := by
  have e : s'.catchUpCommands = s.catchUpCommands := by simp only [State.catchUpCommands, hh, hx]
  exact ⟨by rw [hc, e]; exact a.commands, fun h => by rw [ht, hh]; exact a.heads h⟩

theorem LinkGoesOn.of_link {s t u : State} (h : LinkGoesOn s t) (e : u.link = t.link) : LinkGoesOn s u :=
  ⟨fun x => by rw [e] at *; exact h.idle x, fun c r x => by rw [e] at *; exact h.starts c r x⟩

/-- What follows a leaving that has brought the phase back to NONE: the oldest command starts (R106). -/
theorem afterLeaving_goesOn {s u : State} (hp : u.link.phase = .none) (ha : u.link.attempts = 0)
    (hn : u.link.nextSeq = s.link.nextSeq) : LinkGoesOn s u.afterLeaving := by
  obtain ⟨p, a, n⟩ := catchUp_line u
  rw [hp] at p; rw [ha] at a; rw [hn] at n
  unfold State.afterLeaving State.startLink
  cases hq : u.catchUp.link.queue with
  | nil =>
    refine ⟨fun _ => ?_, fun c rest e => ?_⟩
    · rw [p]; exact ⟨p, a, n⟩
    · rw [p] at e; simp only at e; rw [hq] at e; cases e
  | cons c rest =>
    rw [p]
    refine ⟨fun e => ?_, fun d r e => ?_⟩
    · cases e
    · cases e; exact ⟨by simp [n], by simp [n], rfl, rfl⟩

/-- What follows a leaving while a frame is going out or a command in flight: nothing starts (R106). -/
theorem afterLeaving_busy {s : State} (hp : s.link.phase ≠ .none) : SameLine s s.afterLeaving := by
  obtain ⟨p, a, n⟩ := catchUp_line s
  unfold State.afterLeaving State.startLink
  split
  · rename_i e _; rw [p] at e; exact absurd e hp
  · exact ⟨p, a, n⟩

/-- SYNCs that have been told are answered at the end of the event (R118, R150). -/
theorem settle_syncsTold {s u : State} {gone : List Nat} {acked : Bool}
    (hs : ∀ q, (u.port q).sync = (s.port q).sync.map (fun w => w.leave gone acked))
    (hq : ∀ q, (u.port q).queue = (s.port q).queue) : SyncsTold s gone acked u.settle := by
  have at_ : ∀ q, (u.settle.port q).sync = (u.port q).answerSync.sync ∧
      (u.settle.port q).frames = (u.port q).answerSync.frames := by
    intro q
    rw [State.port_settle]
    unfold PortUnit.startSending
    split
    · rename_i h1 h2; exact ⟨rfl, by simp [PortUnit.frames, h1, h2]⟩
    · exact ⟨rfl, rfl⟩
  refine ⟨fun q h => ?_, fun q w stay left unacked hw e1 e2 e3 => ?_⟩
  · rw [(at_ q).1]
    unfold PortUnit.answerSync
    have := hs q
    rw [h] at this
    rw [show (u.port q).sync = none from this]
    exact this
  · have hu : (u.port q).sync = some { waiting := stay, total := w.total, unacked := unacked } := by
      rw [hs q, hw, e1, e3, e2]; cases acked <;> rfl
    refine ⟨fun hne => ?_, fun he r rest hr => ?_⟩
    · rw [(at_ q).1]
      unfold PortUnit.answerSync
      rw [hu]
      split
      · rename_i h1 h2; cases h1; dsimp only; rw [if_neg hne, hu]
      · exact hu
    · have ha : (u.port q).answerSync = ({ u.port q with sync := none }).make
          (responseFrame .response r .done [byteOf w.total, byteOf unacked]) := by
        have hr' := (hq q).trans hr
        unfold PortUnit.answerSync
        simp only [hu, hr', he, if_true]
      refine ⟨by rw [(at_ q).1, ha]; rfl, ?_⟩
      unfold Answers
      rw [(at_ q).2, ha]
      simp only [PortUnit.frames, PortUnit.make, responseFrame]
      rw [← List.append_assoc, List.getLast?_concat]

/-- Each PROBE and PUT and TAKE leaves as one command: the ports are told (R118). -/
theorem commandsLeft_sync (s : State) (ids : List Nat) (acked : Bool) (q : Port) :
    ((s.commandsLeft ids acked).port q).sync = (s.port q).sync.map (fun w => w.leave ids acked) := by
  rw [State.commandsLeft, State.port_onPorts]

theorem catchUpHead_queue (s : State) (h : HeadId) : s.link.queue <+: (s.catchUpHead h).link.queue := by
  unfold State.catchUpHead State.queueRefresh State.markOutOfStep
  repeat' split
  all_goals first
    | exact List.prefix_refl _
    | exact List.prefix_append _ _
    | exact (List.prefix_append _ _).trans (List.prefix_append _ _)

/-- Commands join by a catch-up behind those that wait. -/
theorem catchUp_queue (s : State) : s.link.queue <+: s.catchUp.link.queue := by
  unfold State.catchUp
  split
  · rename_i hl; clear hl
    generalize allHeads = hs
    induction hs generalizing s with
    | nil => exact List.prefix_refl _
    | cons h hs ih => exact (catchUpHead_queue s h).trans (ih _)
  · exact List.prefix_refl _

/-- Between the leaving of a head's commands (R117) and the catch-up: the other heads' commands are left in their order, every
waiting SYNC is told, and an in-flight command of the head is abandoned, its frame running out as a tail in SENDING. -/
structure CommandsDropped (v : State) (h : HeadId) (z : State) : Prop where
  heads : ∀ k, z.head k = v.head k
  texts : z.texts = v.texts
  queue : z.link.queue = v.link.queue.filter (fun d => decide (d.head ≠ h))
  capture : z.link.capture = v.link.capture
  nextSeq : z.link.nextSeq = v.link.nextSeq
  syncs : ∀ q, (z.port q).sync = (v.port q).sync.map
    (fun w => w.leave ((v.link.queue.filter (fun d => decide (d.head = h))).map Command.id) false)
  queues : ∀ q, (z.port q).queue = (v.port q).queue
  tail : ∀ n, v.link.phase = .sending n true → z.link.phase = .sending n true ∧ z.link.attempts = v.link.attempts
  other : ∀ x rest, v.link.queue = x :: rest → v.link.phase ≠ .none → x.head ≠ h →
    z.link.phase = v.link.phase ∧ z.link.attempts = v.link.attempts
  own : ∀ x rest, v.link.queue = x :: rest → x.head = h →
    (∀ n, v.link.phase = .sending n false → z.link.phase = .sending n true ∧ z.link.attempts = 0) ∧
    (∀ n, v.link.phase = .waiting n ∨ v.link.phase = .holding n → z.link.phase = .none ∧ z.link.attempts = 0)

/-- A disabled head's commands leave, and the link goes on (R117). -/
theorem dropHeadCommands_eq (v : State) (hd : HeadId) (hg : ∃ x ∈ v.link.queue, x.head = hd) :
    ∃ z, v.dropHeadCommands hd = z.afterLeaving ∧ CommandsDropped v hd z := by
  have fe : (v.link.queue.filter (fun d => !decide (d.head = hd))) = v.link.queue.filter (fun d => decide (d.head ≠ hd)) := by
    congr 1; funext d; simp
  have hne : ¬ (v.link.queue.filter (fun d => decide (d.head = hd))).map Command.id = [] := by
    obtain ⟨x, hx, e⟩ := hg
    intro h0; rw [List.map_eq_nil_iff] at h0
    have : x ∈ v.link.queue.filter (fun d => decide (d.head = hd)) := List.mem_filter.2 ⟨hx, by simpa using e⟩
    rw [h0] at this; cases this
  have sy : ∀ (u : State) g, u.ports = v.ports →
      ∀ q, ((u.commandsLeft g false).port q).sync = (v.port q).sync.map (fun w => w.leave g false) := by
    intro u g e q; rw [commandsLeft_sync]; unfold State.port; rw [e]
  have qu : ∀ (u : State) g, u.ports = v.ports → ∀ q, ((u.commandsLeft g false).port q).queue = (v.port q).queue := by
    intro u g e q; rw [State.commandsLeft, State.port_onPorts]; unfold State.port; rw [e]
  have key : ∀ (R : State → Prop) (b : Bool) (X Y : State), (b = true → R X) → (b = false → R Y) → 
      ∃ z, (if b = true then X.afterLeaving else Y.afterLeaving) = z.afterLeaving ∧ R z := by
    intro R b X Y h1 h2; cases b; exact ⟨Y, rfl, h2 rfl⟩; exact ⟨X, rfl, h1 rfl⟩
  unfold State.dropHeadCommands; dsimp only; rw [if_neg hne, fe]
  refine key _ _ _ _ (fun hfl => ?_) (fun hfl => ?_)
  · refine ⟨fun _ => rfl, rfl, rfl, rfl, rfl, sy _ _ rfl, qu _ _ rfl, fun n hp => ?_, fun x rest hq hp hx => ?_,
      fun x rest hq hx => ⟨fun n hp => ?_, fun n hp => ?_⟩⟩
    · rw [hp] at hfl; simp at hfl
    · rw [hq] at hfl
      cases h : v.link.phase with
      | sending n tl => cases tl <;> rw [h] at hfl <;> simp [hx] at hfl
      | none => exact absurd h hp
      | _ => rw [h] at hfl; simp [hx] at hfl
    · show (match v.link.phase with | .sending n _ => LinkPhase.sending n true | _ => .none) = _ ∧ _
      rw [hp]; exact ⟨rfl, rfl⟩
    · show (match v.link.phase with | .sending n _ => LinkPhase.sending n true | _ => .none) = _ ∧ _
      rcases hp with hp | hp <;> rw [hp] <;> exact ⟨rfl, rfl⟩
  · refine ⟨fun _ => rfl, rfl, rfl, rfl, rfl, sy _ _ rfl, qu _ _ rfl, fun n hp => ⟨hp, rfl⟩, fun x rest hq hp hx => ⟨rfl, rfl⟩,
      fun x rest hq hx => ⟨fun n hp => ?_, fun n hp => ?_⟩⟩
    · rw [hp, hq] at hfl; simp [hx] at hfl
    · rcases hp with hp | hp <;> rw [hp, hq] at hfl <;> simp [hx] at hfl

/-- A head with no command in the queue leaves the link alone. -/
theorem dropHeadCommands_none (v : State) (h : HeadId) (hn : ∀ x ∈ v.link.queue, x.head ≠ h) : v.dropHeadCommands h = v := by
  unfold State.dropHeadCommands
  dsimp only
  rw [if_pos]
  rw [List.map_eq_nil_iff, List.filter_eq_nil_iff]
  intro x hx e
  exact hn x hx (by simpa using e)

end Sys2Proof.Machine
end

