-- ==== Sys2Proof/Laws/Asks.lean ====
section
/-! SUPPORT. What the slot moves of an event ask of the display link, and the OVERRUN they raise: the moves of a cue's change, of a
firing's offers, of a BACK's recalls and of a CLOSE. -/

set_option Elab.async false

namespace Sys2Proof.Machine

/-! ## Two states the display link cannot tell apart -/

/-- The states agree in all that asking for a PUT or TAKE reads and writes. -/
structure Alike (s t : State) : Prop where
  link : t.link = s.link
  heads : ∀ h, (t.head h).state = (s.head h).state ∧ (t.head h).outOfStep = (s.head h).outOfStep
  texts : ∀ i, textBytes t.texts i = textBytes s.texts i
  told : Raises .outOfStep [] s t

theorem Alike.refl (s : State) : Alike s s := ⟨rfl, fun _ => ⟨rfl, rfl⟩, fun _ => rfl, .refl _ s⟩

theorem Alike.trans {s t u : State} (a : Alike s t) (b : Alike t u) : Alike s u :=
  ⟨b.link.trans a.link, fun h => ⟨(b.heads h).1.trans (a.heads h).1, (b.heads h).2.trans (a.heads h).2⟩,
    fun i => (b.texts i).trans (a.texts i), a.told.trans b.told⟩

theorem Alike.ask {s t : State} (a : Alike s t) (h : HeadId) (l : Layer) (x : Ask) : Alike (s.ask h l x) (t.ask h l x) := by
  unfold State.ask
  rw [(a.heads h).1, (a.heads h).2, a.link]
  split
  · exact a
  split
  · exact a
  split
  · have body : x.body l t.texts = x.body l s.texts := by
      cases x with
      | put part => simp only [Ask.body, a.texts]
      | take fade cue => rfl
    have link : (t.enqueue h (x.body l t.texts)).startLink.link = (s.enqueue h (x.body l s.texts)).startLink.link := by
      have e : (t.enqueue h (x.body l t.texts)).link = (s.enqueue h (x.body l s.texts)).link := by
        simp only [State.enqueue, State.withLink_link, a.link, body]
      revert e
      generalize t.enqueue h (x.body l t.texts) = v
      generalize s.enqueue h (x.body l s.texts) = u
      intro e
      unfold State.startLink
      rw [e]
      split
      · rfl
      · exact e
    have only : ∀ (u : State) (b : CmdBody), OnlyChanges [.link] u (u.enqueue h b).startLink := fun u b =>
      (enqueue_only _ _ _).trans (startLink_only _)
    refine ⟨link, fun k => ?_, fun i => ?_, fun q => ?_⟩
    · rw [(only _ _).head, (only _ _).head]; exact a.heads k
    · rw [(only _ _).texts, (only _ _).texts]; exact a.texts i
    · rw [(only _ _).port, (only _ _).port]; exact a.told q
  · unfold State.markOutOfStep
    rw [(a.heads h).2]
    split
    · exact a
    · have hd : ∀ (u : State) (y : Head) (k : HeadId), ((u.setHead h y).raiseAll (.outOfStep h)).head k =
          if k = h then y else u.head k := by
        intro u y k
        show (u.setHead h y).head k = _
        split
        · rename_i e; subst e; simp
        · rename_i e; exact State.head_setHead_ne _ _ e
      refine ⟨a.link, fun k => ?_, a.texts, fun q => ?_⟩
      · rw [hd, hd]
        split
        · rename_i e; exact ⟨(a.heads h).1, rfl⟩
        · exact a.heads k
      · rw [port_raiseAll, port_raiseAll]
        show ((t.port q).raise _).view (Raise.outOfStep h).cause = ((s.port q).raise _).view (Raise.outOfStep h).cause
        rw [view_raise_own, view_raise_own]
        exact congrArg (CauseView.raise · (.outOfStep h)) (a.told q)

theorem Alike.asks {s t : State} (a : Alike s t) (h : HeadId) (l : Layer) (xs : List Ask) :
    Alike (xs.foldl (fun u x => u.ask h l x) s) (xs.foldl (fun u x => u.ask h l x) t) := by
  induction xs generalizing s t with
  | nil => exact a
  | cons x xs ih => exact ih (a.ask h l x)

theorem Alike.askMoves {s t : State} (a : Alike s t) (ms : List HeadMove) : Alike (s.askMoves ms) (t.askMoves ms) := by
  unfold State.askMoves
  induction ms generalizing s t with
  | nil => exact a
  | cons m ms ih => exact ih (a.asks _ _ _)

theorem askMoves_append (s : State) (ms ms' : List HeadMove) : s.askMoves (ms ++ ms') = (s.askMoves ms).askMoves ms' := by
  unfold State.askMoves; rw [List.foldl_append]

/-- A change the display link does not see and that raises no OVERRUN. -/
structure Quiet (s t : State) : Prop where
  alike : Alike s t
  overrun : Raises .overrun [] s t

theorem Quiet.refl (s : State) : Quiet s s := ⟨.refl s, .refl _ s⟩

theorem Quiet.trans {s t u : State} (a : Quiet s t) (b : Quiet t u) : Quiet s u :=
  ⟨a.alike.trans b.alike, a.overrun.trans b.overrun⟩

/-- A change of the other blocks. -/
theorem Quiet.ofOnly {bs : List Block} {s t : State} (h : OnlyChanges bs s t)
    (hb : .heads ∉ bs ∧ .texts ∉ bs ∧ .link ∉ bs ∧ .ports ∉ bs := by decide) : Quiet s t := by
  obtain ⟨h1, h2, h3, h4⟩ := hb
  exact ⟨⟨h.link h3, fun k => by rw [h.head k h1]; exact ⟨rfl, rfl⟩, fun i => by rw [h.texts h2], .ofOnly h _ h4⟩,
    .ofOnly h _ h4⟩

theorem Quiet.raiseAll (s : State) (r : Raise) (h1 : r.cause ≠ .outOfStep) (h2 : r.cause ≠ .overrun) :
    Quiet s (s.raiseAll r) :=
  ⟨⟨rfl, fun _ => ⟨rfl, rfl⟩, fun _ => rfl, .raiseOther s h1⟩, .raiseOther s h2⟩

theorem Quiet.ofPorts {s t : State} (h : OnlyChanges [.ports] s t) (hp : ∀ q, (t.port q).pending = (s.port q).pending)
    (hr : ∀ q, (t.port q).repeats = (s.port q).repeats) : Quiet s t :=
  ⟨⟨h.link, fun k => by rw [h.head]; exact ⟨rfl, rfl⟩, fun i => by rw [h.texts], .ofPorts hp hr _⟩, .ofPorts hp hr _⟩

theorem Quiet.settle (s : State) : Quiet s s.settle :=
  .ofPorts (settle_only s) (fun q => pending_settle s q) (fun q => by simp)

theorem Quiet.respond (s : State) (p : Port) (r : Request) (st : Status) (pl : List Byte) : Quiet s (s.respond p r st pl) :=
  .ofPorts (respond_keeps s p r st pl).1 (fun q => (pending_respond s p r st pl q).1)
    (fun q => (pending_respond s p r st pl q).2)

theorem Quiet.writeSlot (s : State) (h : HeadId) (l : Layer) (x : Slot) : Quiet s (s.writeSlot h l x) := by
  refine ⟨⟨rfl, fun k => ?_, fun i => ?_, .ofOnly (writeSlot_keeps s h l x).1 _⟩, .ofOnly (writeSlot_keeps s h l x).1 _⟩
  · rw [writeSlot_head]
    split
    · rename_i e; subst e; cases l <;> exact ⟨rfl, rfl⟩
    · exact ⟨rfl, rfl⟩
  · exact textBytes_counts _ _ _ _

/-! ## The moves made one after another -/

/-- The OVERRUN of these moves, in order (R88). -/
def overruns (ms : List HeadMove) : List Raise := (displacedBy ms).map (fun d => .overrun d.1 d.2.1 d.2.2)

/-- From s these moves have been made and t is reached: the display link is as if their commands had been asked of s, and their
OVERRUN has been raised. -/
structure MovesTo (s : State) (ms : List HeadMove) (t : State) : Prop where
  alike : Alike (s.askMoves ms) t
  overrun : Raises .overrun (overruns ms) s t

theorem Quiet.movesTo {s t : State} (a : Quiet s t) : MovesTo s [] t := ⟨a.alike, a.overrun⟩

theorem overruns_append (ms ms' : List HeadMove) : overruns (ms ++ ms') = overruns ms ++ overruns ms' := by
  unfold overruns displacedBy; rw [List.filterMap_append, List.map_append]

theorem MovesTo.trans {s t u : State} {ms ms' : List HeadMove} (a : MovesTo s ms t) (b : MovesTo t ms' u) :
    MovesTo s (ms ++ ms') u := by
  refine ⟨?_, ?_⟩
  · rw [askMoves_append]; exact (a.alike.askMoves ms').trans b.alike
  · rw [overruns_append]; exact a.overrun.trans b.overrun

theorem MovesTo.made {s t : State} {ms : List HeadMove} (a : MovesTo s ms t) : MovesMade s ms t := by
  refine ⟨a.alike.link, fun h => (a.alike.heads h).2, a.alike.told.unraised, a.overrun.just fun r hr => ?_⟩
  obtain ⟨d, -, rfl⟩ := List.mem_map.1 hr
  rfl

/-- The moves can be told of a state that differs from s by a quiet change alone. -/
theorem MovesTo.ofQuiet {s t u : State} {ms : List HeadMove} (a : Quiet s t) (b : MovesTo t ms u) : MovesTo s ms u :=
  a.movesTo.trans b

theorem MovesTo.quietly {s t u : State} {ms : List HeadMove} (a : MovesTo s ms t) (b : Quiet t u) : MovesTo s ms u := by
  have := a.trans b.movesTo
  rwa [List.append_nil] at this

theorem asks_movesTo (s : State) (h : HeadId) (l : Layer) (m : SlotMove) (hd : m.displaced = none) :
    MovesTo s [(h, l, m)] (m.asks.foldl (fun t a => t.ask h l a) s) := by
  refine ⟨.refl _, ?_⟩
  have dn : overruns [(h, l, m)] = [] := by simp [overruns, displacedBy, hd]
  rw [dn]
  exact .foldl (fun t a => ask_raises (by simp) t h l a) _ _

/-- One slot's move (R82, R87, R88). -/
theorem moveSlot_movesTo (s : State) (h : HeadId) (l : Layer) (m : SlotMove) : MovesTo s [(h, l, m)] (s.moveSlot h l m) := by
  refine ⟨?_, ?_⟩
  · have a : Alike (s.askMoves [(h, l, m)]) (m.asks.foldl (fun t a => t.ask h l a) (s.writeSlot h l m.slot)) :=
      (Quiet.writeSlot s h l m.slot).alike.asks h l m.asks
    unfold State.moveSlot
    dsimp only
    split
    · exact a.trans ⟨rfl, fun _ => ⟨rfl, rfl⟩, fun _ => rfl, .raiseOther _ (by simp [Raise.cause])⟩
    · exact a
  · have := moveSlot_raises (x := .overrun) (by simp) s h l m
    rw [if_pos rfl] at this
    have e : overruns [(h, l, m)] = (m.displaced.map (fun c => Raise.overrun h l c)).toList := by
      cases hd : m.displaced <;> simp [overruns, displacedBy, hd]
    rw [e]; exact this

/-! ## A cue's change -/

theorem moveFor_congr {c : CueRec} {x y : Head} {l : Layer} (h1 : x.lang = y.lang) (h2 : x.gap = y.gap)
    (h3 : x.slot l = y.slot l) : moveFor c x l = moveFor c y l := by
  have : c.changeFor x = c.changeFor y := by unfold CueRec.changeFor; rw [h1, h2]
  unfold moveFor
  rw [this, h3]

/-- One head's moves of a cue's change on one group-layer. -/
def headMoves (c : CueRec) (g : GroupId) (l : Layer) (h : HeadId) (x : Head) : List HeadMove :=
  if x.enabled = true ∧ x.group = g then [(h, l, moveFor c x l)] else []

theorem changeMoves_eq (s : State) (c : CueRec) (gls : List (GroupId × Layer)) :
    changeMoves s c gls = gls.flatMap (fun gl => allHeads.flatMap (fun h => headMoves c gl.1 gl.2 h (s.head h))) := by
  have key : ∀ (gl : GroupId × Layer) (hs : List HeadId),
      (hs.filter (fun h => (s.head h).enabled && decide ((s.head h).group = gl.1))).map
        (fun h => (h, gl.2, moveFor c (s.head h) gl.2)) = hs.flatMap (fun h => headMoves c gl.1 gl.2 h (s.head h)) := by
    intro gl hs
    induction hs with
    | nil => rfl
    | cons h hs ih =>
      rw [List.flatMap_cons, ← ih]
      unfold headMoves
      by_cases e : (s.head h).enabled = true ∧ (s.head h).group = gl.1
      · rw [if_pos e, List.filter_cons_of_pos (by simp [e.1, e.2])]; rfl
      · rw [if_neg e, List.filter_cons_of_neg (by simpa using e)]; rfl
  unfold changeMoves
  exact List.flatMap_congr fun gl _ => key gl _

theorem headMoves_congr {c : CueRec} {g : GroupId} {l : Layer} (h : HeadId) {x y : Head} (h0 : x.enabled = y.enabled)
    (h1 : x.lang = y.lang) (h2 : x.group = y.group) (h3 : x.gap = y.gap)
    (h4 : y.group = g → x.slot l = y.slot l) : headMoves c g l h x = headMoves c g l h y := by
  unfold headMoves
  rw [h0, h2]
  split
  · rename_i e; rw [moveFor_congr h1 h3 (h4 e.2)]
  · rfl

theorem changeHead_movesTo (s : State) (c : CueRec) (g : GroupId) (l : Layer) (h : HeadId) :
    MovesTo s (headMoves c g l h (s.head h)) (s.changeHead c g l h) := by
  unfold State.changeHead headMoves
  split
  · unfold moveFor
    cases c.changeFor (s.head h) with
    | some ch => cases ch <;> exact moveSlot_movesTo _ _ _ _
    | none => exact asks_movesTo s h l { slot := (s.head h).slot l, asks := [], displaced := none } rfl
  · exact (Quiet.refl s).movesTo

theorem changeHeads_movesTo (c : CueRec) (g : GroupId) (l : Layer) (hs : List HeadId) (hn : hs.Nodup) (s : State) :
    MovesTo s (hs.flatMap (fun h => headMoves c g l h (s.head h))) (hs.foldl (fun t h => t.changeHead c g l h) s) := by
  induction hs generalizing s with
  | nil => exact (Quiet.refl s).movesTo
  | cons h hs ih =>
    obtain ⟨hh, hn⟩ := List.nodup_cons.1 hn
    rw [List.flatMap_cons, List.foldl_cons]
    have rest : hs.flatMap (fun k => headMoves c g l k (s.head k)) =
        hs.flatMap (fun k => headMoves c g l k ((s.changeHead c g l h).head k)) := by
      apply List.flatMap_congr
      intro k hk
      have e : k ≠ h := fun e => hh (e ▸ hk)
      have co := changeHead_core s c g l h k
      rw [if_neg e] at co
      obtain ⟨-, e2, e3, e4, e5, e6⟩ := Head.core_eq co
      exact (headMoves_congr k e5 e2 e3 e4 (fun _ => e6 l)).symm
    rw [rest]
    exact (changeHead_movesTo s c g l h).trans (ih hn _)

/-- A change applied to one group-layer (R53, R82). -/
theorem applyChange_movesTo {s : State} {n : CueNum} {c : CueRec} (h : findCue s.cues n = some c) (g : GroupId) (l : Layer) :
    MovesTo s (changeMoves s c [(g, l)]) (s.applyChange g l n) := by
  have e : s.applyChange g l n = allHeads.foldl (fun t h => t.changeHead c g l h)
      (s.withRun (s.run.setTable g l { owner := some n, floor := c.body.floor })) := by
    unfold State.applyChange; rw [h]
  have q : Quiet s (s.withRun (s.run.setTable g l { owner := some n, floor := c.body.floor })) := .ofOnly (withRun_keeps _ _).1
  have b := (changeHeads_movesTo c g l allHeads allHeads_nodup _).ofQuiet q
  rw [e, changeMoves_eq, List.flatMap_singleton]
  exact b

/-- A fold of changes over group-layers makes their moves: `ok` says on which of them the change is applied. -/
theorem folds_movesTo {c : CueRec} (f : State → GroupId × Layer → State) (ok : GroupId × Layer → Bool)
    (Good : List (GroupId × Layer) → State → Prop)
    (hg : ∀ gl L s, (gl :: L).Nodup → Good (gl :: L) s → Good L (f s gl))
    (hc : ∀ gl L s k, (gl :: L).Nodup → Good (gl :: L) s →
      ((f s gl).head k).core = if ok gl = true then (s.head k).core.changed c gl.1 gl.2 else (s.head k).core)
    (hm : ∀ gl L s, (gl :: L).Nodup → Good (gl :: L) s →
      MovesTo s (if ok gl = true then changeMoves s c [gl] else []) (f s gl))
    (L : List (GroupId × Layer)) (hn : L.Nodup) (s : State) (hs : Good L s) :
    MovesTo s (changeMoves s c (L.filter ok)) (L.foldl f s) := by
  induction L generalizing s with
  | nil => exact (Quiet.refl s).movesTo
  | cons gl L ih =>
    have hgl := (List.nodup_cons.1 hn).1
    have b := (hm gl L s hn hs).trans (ih (List.nodup_cons.1 hn).2 (f s gl) (hg gl L s hn hs))
    have rest : changeMoves (f s gl) c (L.filter ok) = changeMoves s c (L.filter ok) := by
      rw [changeMoves_eq, changeMoves_eq]
      apply List.flatMap_congr
      intro gl' hm'
      apply List.flatMap_congr
      intro k _
      have ne : gl' ≠ gl := fun e => hgl (e ▸ (List.mem_filter.1 hm').1)
      have co := hc gl L s k hn hs
      split at co
      · have e2 := Head.core_eq (x := (f s gl).head k) (y := (s.head k).changed c gl.1 gl.2)
          (by rw [co, Head.changed_core])
        have c1 := changed_spec (s.head k) c gl.1 gl.2 gl'.2
        refine headMoves_congr k (e2.2.2.2.2.1.trans c1.2.2.2.2.1) (e2.2.1.trans c1.2.1) (e2.2.2.1.trans c1.2.2.1)
          (e2.2.2.2.1.trans c1.2.2.2.1) (fun eg => ?_)
        rw [e2.2.2.2.2.2, c1.2.2.2.2.2, if_neg]
        rintro ⟨-, x, y⟩
        exact ne (Prod.ext (eg.symm.trans x) y)
      · have e2 := Head.core_eq co
        exact headMoves_congr k e2.2.2.2.2.1 e2.2.1 e2.2.2.1 e2.2.2.2.1 (fun _ => e2.2.2.2.2.2 _)
    rw [rest] at b
    rw [List.foldl_cons]
    by_cases e : ok gl = true
    · rw [List.filter_cons_of_pos e]
      rw [if_pos e] at b
      have : changeMoves s c (gl :: L.filter ok) = changeMoves s c [gl] ++ changeMoves s c (L.filter ok) := by
        rw [changeMoves_eq, changeMoves_eq, changeMoves_eq, List.flatMap_cons, List.flatMap_singleton]
      rw [this]; exact b
    · rw [List.filter_cons_of_neg e]
      rw [if_neg e, List.nil_append] at b
      exact b

/-! ## Firings, recalls and CLOSE -/

theorem offer_movesTo {s : State} {n : CueNum} {c : CueRec} (h : findCue s.cues n = some c) (o : Origin) (g : GroupId)
    (l : Layer) :
    MovesTo s (if (s.run.table g l).floor = 0 then changeMoves s c [(g, l)] else []) (s.offer n o g l) := by
  unfold State.offer
  split
  · exact applyChange_movesTo h g l
  · split
    · exact (Quiet.trans (.ofOnly (withRun_keeps _ _).1) (.raiseAll _ _ (by simp [Raise.cause]) (by simp [Raise.cause]))).movesTo
    · exact (Quiet.ofOnly (withRun_keeps _ _).1).movesTo

/-- All the offers of a firing (R31, R53). -/
theorem offers_movesTo {n : CueNum} {c : CueRec} (o : Origin) (L : List (GroupId × Layer)) (hn : L.Nodup) (s : State)
    (h : findCue s.cues n = some c) :
    MovesTo s (changeMoves s c (L.filter (fun gl => decide ((s.run.table gl.1 gl.2).floor = 0))))
      (L.foldl (fun t gl => t.offer n o gl.1 gl.2) s) := by
  refine folds_movesTo _ _
    (fun L t => findCue t.cues n = some c ∧ ∀ gl ∈ L, t.run.table gl.1 gl.2 = s.run.table gl.1 gl.2)
    (fun gl L t hnd hg => ⟨by rw [offer_cues]; exact hg.1, fun gl' hm => ?_⟩)
    (fun gl L t k _ hg => ?_) (fun gl L t _ hg => ?_) L hn s ⟨h, fun _ _ => rfl⟩
  · rw [offer_table hg.1, if_neg]
    · exact hg.2 gl' (List.mem_cons_of_mem _ hm)
    · intro hx
      exact (List.nodup_cons.1 hnd).1 (by rw [← Prod.mk.eta (p := gl), ← hx.1.1, ← hx.1.2]; exact hm)
  · rw [offer_core hg.1, hg.2 gl (List.mem_cons_self ..)]; simp
  · have := offer_movesTo hg.1 o gl.1 gl.2
    rw [hg.2 gl (List.mem_cons_self ..)] at this
    simpa using this

/-- All the recalls of a BACK (R36). -/
theorem recalls_movesTo {n : CueNum} {c : CueRec} (L : List (GroupId × Layer)) (hn : L.Nodup) (s : State)
    (h : findCue s.cues n = some c) :
    MovesTo s (changeMoves s c L) (L.foldl (fun t gl => t.recall n gl.1 gl.2) s) := by
  have := folds_movesTo (c := c) (fun t gl => t.recall n gl.1 gl.2) (fun _ => true)
    (fun _ t => findCue t.cues n = some c) (fun gl L t _ hg => by rw [recall_cues]; exact hg)
    (fun gl L t k _ hg => by rw [recall_core hg]; simp)
    (fun gl L t _ hg => by
      rw [if_pos rfl]
      have q : Quiet t (t.withRun (t.run.dropDeferred gl.1 gl.2)) := .ofOnly (withRun_keeps _ _).1
      exact (applyChange_movesTo (s := t.withRun (t.run.dropDeferred gl.1 gl.2)) hg gl.1 gl.2).ofQuiet q)
    L hn s h
  rwa [List.filter_true] at this

/-- The end of a firing raises no OVERRUN and no OUT_OF_STEP (R32). -/
theorem completeFiring_quiet (s : State) (n : CueNum) (o : Origin) (k : FiringKind) : Quiet s (s.completeFiring n o k) := by
  have c : Quiet s (s.compareWatches n) := by
    unfold State.compareWatches
    dsimp only
    have w : Quiet s (s.withWatch (s.watch.afterFiring n)) := .ofOnly (withWatch_keeps _ _).1
    split
    · exact w.trans (.raiseAll _ _ (by simp [Raise.cause]) (by simp [Raise.cause]))
    · exact w
  have f := c.trans (.raiseAll _ (.fired n o k) (by simp [Raise.cause]) (by simp [Raise.cause]))
  unfold State.completeFiring
  dsimp only
  split
  · exact f.trans (.raiseAll _ _ (by simp [Raise.cause]) (by simp [Raise.cause]))
  · exact f

/-- The moves of a firing, whole. -/
theorem fire_movesTo {s : State} {n : CueNum} {c : CueRec} (h : findCue s.cues n = some c) (o : Origin) (k : FiringKind) :
    MovesTo s (changeMoves s c (c.body.groupLayers.filter
      (fun gl => decide (k = .back ∨ (s.run.table gl.1 gl.2).floor = 0)))) (s.fire n o k) := by
  have q : Quiet s ((s.movePosition n).setFollow k) :=
    .ofOnly ((movePosition_keeps s n).mono.trans (setFollow_keeps _ _).mono (bs := [.engine, .run])).1
  have ht : ∀ g l, ((s.movePosition n).setFollow k).run.table g l = s.run.table g l := by intro g l; cases l <;> rfl
  have hf : findCue ((s.movePosition n).setFollow k).cues n = some c := h
  have hm : ∀ L, changeMoves ((s.movePosition n).setFollow k) c L = changeMoves s c L := fun _ => rfl
  unfold State.fire
  refine MovesTo.quietly ?_ (completeFiring_quiet _ _ _ _)
  refine MovesTo.ofQuiet q ?_
  unfold State.offerChanges
  rw [hf]
  dsimp only
  by_cases e : k = .back
  · have := recalls_movesTo c.body.groupLayers (groupLayers_nodup _) _ hf
    rw [hm] at this
    simpa [e] using this
  · have := offers_movesTo o c.body.groupLayers (groupLayers_nodup _) _ hf
    rw [hm] at this
    simpa [e, ht] using this

theorem clearHead_movesTo (s : State) (h : HeadId) :
    MovesTo s (if (s.head h).enabled = true then
      [(h, .base, (s.head h).baseSlot.clear none), (h, .overlay, (s.head h).overSlot.clear none)] else [])
      (s.clearHead h) := by
  unfold State.clearHead
  split
  · have a := moveSlot_movesTo s h .base (((s.head h).slot .base).clear none)
    have sl : ((s.change h .base (.clear none)).head h).slot .overlay = (s.head h).overSlot := by
      rw [← Head.core_slot, change_eq, moveSlot_core, if_pos rfl, Head.slot_setSlot_ne _ _ (by decide)]; rfl
    have b := moveSlot_movesTo (s.change h .base (.clear none)) h .overlay
      ((((s.change h .base (.clear none)).head h).slot .overlay).clear none)
    rw [sl] at b
    have e : (s.change h .base (.clear none)).change h .overlay (.clear none) =
        (s.change h .base (.clear none)).moveSlot h .overlay ((s.head h).overSlot.clear none) := by
      rw [change_eq]
      show _ = State.moveSlot _ _ _ _
      rw [sl]; rfl
    rw [e]
    exact a.trans b
  · exact (Quiet.refl s).movesTo

theorem clearHeads_movesTo (hs : List HeadId) (hn : hs.Nodup) (s : State) :
    MovesTo s (hs.flatMap (fun h => if (s.head h).enabled = true then
      [(h, .base, (s.head h).baseSlot.clear none), (h, .overlay, (s.head h).overSlot.clear none)] else []))
      (hs.foldl State.clearHead s) := by
  induction hs generalizing s with
  | nil => exact (Quiet.refl s).movesTo
  | cons h hs ih =>
    obtain ⟨hh, hn⟩ := List.nodup_cons.1 hn
    rw [List.flatMap_cons, List.foldl_cons]
    have rest : ∀ k ∈ hs, ((s.clearHead h).head k).core = (s.head k).core := by
      intro k hk
      have e : k ≠ h := fun e => hh (e ▸ hk)
      rw [clearHead_core, if_neg (fun x => e x.1)]
    have b := (clearHead_movesTo s h).trans (ih hn (s.clearHead h))
    have eq : hs.flatMap (fun k => if ((s.clearHead h).head k).enabled = true then
        [(k, Layer.base, ((s.clearHead h).head k).baseSlot.clear none),
          (k, Layer.overlay, ((s.clearHead h).head k).overSlot.clear none)] else []) =
        hs.flatMap (fun k => if (s.head k).enabled = true then
          [(k, .base, (s.head k).baseSlot.clear none), (k, .overlay, (s.head k).overSlot.clear none)] else []) := by
      apply List.flatMap_congr
      intro k hk
      obtain ⟨-, -, -, -, e5, e6⟩ := Head.core_eq (rest k hk)
      have e7 : ((s.clearHead h).head k).baseSlot = (s.head k).baseSlot := e6 .base
      have e8 : ((s.clearHead h).head k).overSlot = (s.head k).overSlot := e6 .overlay
      rw [e5, e7, e8]
    rw [eq] at b
    exact b

theorem closeMoves_eq (s : State) : closeMoves s = allHeads.flatMap (fun h => if (s.head h).enabled = true then
    [(h, .base, (s.head h).baseSlot.clear none), (h, .overlay, (s.head h).overSlot.clear none)] else []) := by
  unfold closeMoves
  generalize allHeads = hs
  induction hs with
  | nil => rfl
  | cons h hs ih =>
    rw [List.flatMap_cons, ← ih]
    by_cases e : (s.head h).enabled = true
    · simp [e]
    · simp [e]

/-- The moves of a CLOSE (R42). -/
theorem closeDown_movesTo (s : State) (p : Port) : MovesTo s (closeMoves s) (s.closeDown p) := by
  have q : Quiet s s.closePosition := .ofOnly (closePosition_keeps s).1
  have m : closeMoves s = closeMoves s.closePosition := rfl
  unfold State.closeDown
  dsimp only
  refine MovesTo.quietly (MovesTo.quietly (MovesTo.ofQuiet q ?_) (.ofOnly (withWatch_keeps _ _).1))
    (.raiseAll _ _ (by simp [Raise.cause]) (by simp [Raise.cause]))
  rw [m, closeMoves_eq]
  exact clearHeads_movesTo _ allHeads_nodup _

/-- Which causes a CLOSE raises, of those that its moves do not (R41). -/
theorem closeDown_raises (x : Cause) (hx : x ≠ .outOfStep) (ho : x ≠ .overrun) (s : State) (p : Port) :
    Raises x (if x = .closed then [.closed p] else []) s (s.closeDown p) := by
  have move : ∀ (t : State) (h : HeadId) (l : Layer) (m : SlotMove), Raises x [] t (t.moveSlot h l m) := fun t h l m => by
    have := moveSlot_raises hx t h l m
    rwa [if_neg ho] at this
  have clear : ∀ (t : State) (h : HeadId), Raises x [] t (t.clearHead h) := fun t h => by
    unfold State.clearHead
    split
    · simp only [change_eq]; exact (move _ _ _ _).quietly (move _ _ _ _)
    · exact .refl x t
  have q : Raises x [] s s.closePosition := .ofOnly (closePosition_keeps s).1 x
  have heads := q.quietly (.foldl clear allHeads _)
  have dark := heads.quietly (.ofOnly (withWatch_keeps (allHeads.foldl State.clearHead s.closePosition)
    { (allHeads.foldl State.clearHead s.closePosition).watch with line := false }).1 x)
  unfold State.closeDown
  dsimp only
  split
  · rename_i e; subst e; exact dark.ofQuiet (.raiseAll _ _)
  · rename_i e; exact dark.quietly (.raiseOther _ (Ne.symm e))

/-! ## The offers of a firing, whole -/

theorem setFollow_table (s : State) (n : CueNum) (k : FiringKind) (g : GroupId) (l : Layer) :
    ((s.movePosition n).setFollow k).run.table g l = s.run.table g l := by cases l <;> rfl

theorem dropFollow_waiting (r : RunQueue) (g : GroupId) (l : Layer) :
    r.dropFollow.entries.filter (RunEntry.waitsOn g l) = r.entries.filter (RunEntry.waitsOn g l) := by
  show (r.entries.filter (fun e => !e.isFollow)).filter _ = _
  rw [List.filter_filter]
  apply List.filter_congr
  intro e _
  cases hx : e.waitsOn g l
  · rfl
  · simp [isFollow_of_waitsOn hx]

/-- A firing's FOLLOW entry goes in as the newest of the entries, after the old one has gone (R30). -/
theorem setFollow_entries (s : State) (n : CueNum) (k : FiringKind) :
    ∃ made : Option RunEntry, (∀ e, made = some e → e.isFollow = true) ∧
      ((s.movePosition n).setFollow k).run.entries = s.run.entries.filter (fun e => !e.isFollow) ++ made.toList := by
  refine ⟨_, fun e he => ?_, rfl⟩
  split at he
  · cases he
  · obtain ⟨x, -, hx⟩ := Option.bind_eq_some_iff.1 he
    unfold followFor at hx
    split at hx <;> cases hx <;> rfl
  · cases he

theorem setFollow_waiting (s : State) (n : CueNum) (k : FiringKind) (g : GroupId) (l : Layer) :
    ((s.movePosition n).setFollow k).run.entries.filter (RunEntry.waitsOn g l) =
      s.run.entries.filter (RunEntry.waitsOn g l) := by
  obtain ⟨made, hm, he⟩ := setFollow_entries s n k
  have none_ : made.toList.filter (RunEntry.waitsOn g l) = [] := List.filter_eq_nil_iff.2 fun e hx hw => by
    have := hm e (Option.mem_toList.1 hx)
    rw [isFollow_of_waitsOn hw] at this; cases this
  rw [he, List.filter_append, none_, List.append_nil]
  exact dropFollow_waiting s.run g l

theorem any_waiting {es es' : List RunEntry} {g : GroupId} {l : Layer}
    (h : es'.filter (RunEntry.waitsOn g l) = es.filter (RunEntry.waitsOn g l)) :
    es'.any (RunEntry.waitsOn g l) = es.any (RunEntry.waitsOn g l) := by
  rw [any_eq_find, any_eq_find, find_waiting h]

theorem AppliedTo.congr {ok : GroupId → Layer → Prop} {c : CueRec} {s s' t t' : State} (h : AppliedTo ok c s t)
    (h1 : ∀ k, s'.head k = s.head k) (h2 : ∀ k, t'.head k = t.head k) : AppliedTo ok c s' t' := by
  intro k l; rw [h1, h2]; exact h k l

theorem skippedBy_cause (s : State) (c : CueRec) : ∀ r ∈ skippedBy s c, r.cause = .skipped := by
  intro r hr
  obtain ⟨gl, -, he⟩ := List.mem_filterMap.1 hr
  obtain ⟨e, -, rfl⟩ := Option.map_eq_some_iff.1 he
  rfl

/-- What a firing by GO or FOLLOW does with its cue's change (R31, R53, R54). -/
theorem fire_offersDone {s : State} {n : CueNum} {c : CueRec} (hl : RunQueueLaw s) (h : findCue s.cues n = some c)
    (o : Origin) (k : FiringKind) (hk : k ≠ .back) : OffersDone s (s.fire n o k) c o := by
  have hc : c.num = n := by
    have := List.find?_some h
    simpa using this
  subst hc
  obtain ⟨s1, hs1⟩ : ∃ s1, s1 = (s.movePosition c.num).setFollow k := ⟨_, rfl⟩
  obtain ⟨s2, hs2⟩ : ∃ s2, s2 = c.body.groupLayers.foldl (fun t gl => t.offer c.num o gl.1 gl.2) s1 := ⟨_, rfl⟩
  have hf : findCue s1.cues c.num = some c := by rw [hs1]; exact h
  have fe : s.fire c.num o k = s2.completeFiring c.num o k := by
    unfold State.fire
    rw [← hs1]
    unfold State.offerChanges
    rw [hf, hs2]
    simp [hk]
  have k3 := completeFiring_keeps s2 c.num o k
  have ht : ∀ g l, s1.run.table g l = s.run.table g l := by rw [hs1]; exact setFollow_table s c.num k
  have hw : ∀ g l, s1.run.entries.filter (RunEntry.waitsOn g l) = s.run.entries.filter (RunEntry.waitsOn g l) := by
    rw [hs1]; exact setFollow_waiting s c.num k
  have hr : (s.fire c.num o k).run = s2.run := by rw [fe]; exact k3.1.run
  have orun := offers_run o c.body.groupLayers (groupLayers_nodup _) s1 hf
  rw [← hs2] at orun
  obtain ⟨ent, skip⟩ := offers_entries o (fun gl => decide ((s.run.table gl.1 gl.2).floor ≠ 0)) c.body.groupLayers
    (groupLayers_nodup _) s1 hf (fun gl _ => by rw [ht])
  rw [← hs2] at ent skip
  simp only [fun gl : GroupId × Layer => any_waiting (hw gl.1 gl.2), fun gl : GroupId × Layer => find_waiting (hw gl.1 gl.2)]
    at ent skip
  refine ⟨?_, ?_, fun g l hm h0 => ?_, fun g l hm h0 => ?_, fun g l hm => ?_, ?_, ?_⟩
  · have a := offers_applied o c.body.groupLayers (groupLayers_nodup _) s1 hf
    simp only [ht] at a
    rw [← hs2] at a
    exact a.congr (fun _ => by rw [hs1]; rfl) (fun j => by rw [fe]; exact k3.1.head j)
  · have a := (fire_movesTo h o k).made
    simpa [hk] using a
  · obtain ⟨o1, o2, -⟩ := orun g l
    rw [ht] at o1 o2
    rw [hw] at o2
    rw [hr, o1, if_pos ⟨hm, h0⟩, o2, if_neg (fun x => x.2 h0)]
    refine ⟨rfl, List.filter_eq_nil_iff.2 fun e he hx => ?_⟩
    exact hl.deferredWaits g l (List.any_eq_true.2 ⟨e, he, hx⟩) h0
  · obtain ⟨o1, o2, -⟩ := orun g l
    rw [ht] at o1 o2
    rw [hw] at o2
    rw [hr, o1, if_neg (fun x => h0 x.2), o2, if_pos ⟨hm, h0⟩]
    refine ⟨rfl, ?_⟩
    split
    · rfl
    · rename_i hne
      have one := hl.oneDeferred g l
      match hx : s.run.entries.filter (RunEntry.waitsOn g l) with
      | [] => exact absurd hx hne
      | [a] => rfl
      | a :: b :: rest => rw [hx] at one; simp at one
  · obtain ⟨o1, o2, -⟩ := orun g l
    rw [ht] at o1 o2
    rw [hw] at o2
    rw [hr, o1, o2, if_neg (fun x => hm x.1), if_neg (fun x => hm x.1)]
    exact ⟨rfl, rfl⟩
  · obtain ⟨made, hm, he⟩ := setFollow_entries s c.num k
    rw [← hs1] at he
    have hfol := (orun 0 .base).2.2
    have keep : made.toList.filter RunEntry.isFollow = made.toList :=
      List.filter_eq_self.2 fun e hx => hm e (Option.mem_toList.1 hx)
    have gone : (s.run.entries.filter (fun e => !e.isFollow)).filter RunEntry.isFollow = [] :=
      List.filter_eq_nil_iff.2 fun e hx => by simpa using (List.mem_filter.1 hx).2
    rw [he, List.filter_append, keep, gone, List.nil_append] at hfol
    rw [hr, hfol, ← he]
    exact ent
  · rw [fe]
    have q : Raises .skipped [] s s1 := by
      rw [hs1]
      exact .ofOnly ((movePosition_keeps s c.num).mono.trans (setFollow_keeps _ _).mono (bs := [.engine, .run])).1 _
    have z := completeFiring_raises .skipped s2 c.num o k
    rw [if_neg (by simp), if_neg (by simp), if_neg (by simp)] at z
    exact ((q.ofQuiet skip).quietly z).just (skippedBy_cause s c)

/-- Making and sending frames leaves what moves have done. -/
theorem MovesMade.frames {s t u : State} {ms : List HeadMove} (a : MovesMade s ms t) (h : OnlyChanges [.ports] t u)
    (hp : ∀ q, (u.port q).pending = (t.port q).pending) (hr : ∀ q, (u.port q).repeats = (t.port q).repeats) :
    MovesMade s ms u :=
  ⟨h.link.trans a.link, fun k => by rw [h.head]; exact a.flags k,
    a.outOfStepRaised.congr (fun _ => ⟨rfl, rfl⟩) (fun q => ⟨hp q, hr q⟩),
    a.overrun.congr (fun _ => ⟨rfl, rfl⟩) (fun q => ⟨hp q, hr q⟩)⟩

theorem OffersDone.frames {s t u : State} {c : CueRec} {o : Origin} (a : OffersDone s t c o) (h : OnlyChanges [.ports] t u)
    (hp : ∀ q, (u.port q).pending = (t.port q).pending) (hr : ∀ q, (u.port q).repeats = (t.port q).repeats) :
    OffersDone s u c o := by
  have run : u.run = t.run := h.run
  refine ⟨a.image.congr (fun _ => rfl) (fun k => h.head k), a.moves.frames h hp hr, fun g l => ?_, fun g l => ?_,
    fun g l => ?_, ?_, a.skipped.congr (fun _ => ⟨rfl, rfl⟩) (fun q => ⟨hp q, hr q⟩)⟩
  · rw [run]; exact a.applied g l
  · rw [run]; exact a.deferred g l
  · rw [run]; exact a.others g l
  · rw [run]; exact a.order

theorem OffersDone.settle {s t : State} {c : CueRec} {o : Origin} (a : OffersDone s t c o) : OffersDone s t.settle c o :=
  a.frames (settle_only t) (fun q => pending_settle t q) (fun q => by simp)

theorem OffersDone.respond {s t : State} {c : CueRec} {o : Origin} (a : OffersDone s t c o) (p : Port) (r : Request)
    (st : Status) (pl : List Byte) : OffersDone s (t.respond p r st pl) c o :=
  a.frames (respond_keeps t p r st pl).1 (fun q => (pending_respond t p r st pl q).1)
    (fun q => (pending_respond t p r st pl q).2)

/-- What the firing of an expiry has done holds of the state before the entry's removal, and of a beat's state before it (R51). -/
theorem OffersDone.base {s s' t : State} {c : CueRec} {o : Origin} (a : OffersDone s' t c o)
    (h : OnlyChanges [.run, .beat] s s') (ht : ∀ g l, s'.run.table g l = s.run.table g l)
    (hw : ∀ g l, s'.run.entries.filter (RunEntry.waitsOn g l) = s.run.entries.filter (RunEntry.waitsOn g l))
    (he : s'.run.entries.filter (fun e => !e.isFollow) = s.run.entries.filter (fun e => !e.isFollow)) :
    OffersDone s t c o := by
  have q : Quiet s s' := .ofOnly h
  have hm : ∀ L, changeMoves s' c L = changeMoves s c L := fun L => by
    rw [changeMoves_eq, changeMoves_eq]; simp only [h.head]
  have eq : ∀ q, (s.port q).pending = (s'.port q).pending ∧ (s.port q).repeats = (s'.port q).repeats := fun q => by
    rw [h.port q]; exact ⟨rfl, rfl⟩
  have hd : deferredBy s' c = deferredBy s c := by unfold deferredBy; simp only [ht]
  have hk : skippedBy s' c = skippedBy s c := by
    unfold skippedBy
    rw [hd]
    simp only [fun gl : GroupId × Layer => find_waiting (hw gl.1 gl.2)]
  obtain ⟨im, ⟨m1, m2, m3, m4⟩, ap, de, ot, od, sk⟩ := a
  simp only [ht, hm, hd, hk, he, fun gl : GroupId × Layer => any_waiting (hw gl.1 gl.2)] at im m1 m2 m3 m4 ap de od sk
  have al := q.alike.askMoves (changeMoves s c (c.body.groupLayers.filter
    (fun gl => decide ((s.run.table gl.1 gl.2).floor = 0))))
  refine ⟨im.congr (fun k => (h.head k).symm) (fun _ => rfl), ⟨?_, fun k => ?_, ?_, m4.congr eq (fun _ => ⟨rfl, rfl⟩)⟩,
    ap, de, fun g l x => ?_, od, sk.congr eq (fun _ => ⟨rfl, rfl⟩)⟩
  · rw [m1, al.link]
  · rw [m2, (al.heads k).2]
  · refine ⟨fun e k => ?_, (fun r hr => by cases hr), fun e => absurd rfl e⟩
    have x := m3.unraised rfl k
    have y := al.told.unraised.unraised rfl k
    exact ⟨fun r hr => (x.1 r hr).trans (y.1 r hr), x.2.trans y.2⟩
  · rw [← ht g l, ← hw g l]; exact ot g l x

/-- What the expiry of the FOLLOW entry does with its cue's change (R51). -/
theorem expire_offersDone {s : State} {e : RunEntry} {c : CueRec} (hl : RunQueueLaw s)
    (hf : s.run.entries.find? RunEntry.isFollow = some e) (hc : findCue s.cues e.cue = some c) :
    OffersDone s s.expire c .auto := by
  have law : RunQueueLaw (s.withRun s.run.dropFollow) := by
    have sub : ∀ x, x ∈ s.run.dropFollow.entries → x ∈ s.run.entries := fun x hx => (List.mem_filter.1 hx).1
    refine ⟨fun g l hx => ?_, ?_, fun g l => ?_, fun hx => ?_, fun h1 h2 => ?_⟩
    · obtain ⟨x, hx, hx'⟩ := List.any_eq_true.1 hx
      exact hl.deferredWaits g l (List.any_eq_true.2 ⟨x, sub x hx, hx'⟩)
    · show (s.run.dropFollow.entries.filter RunEntry.isFollow).length ≤ 1
      have : s.run.dropFollow.entries.filter RunEntry.isFollow = [] := List.filter_eq_nil_iff.2 fun x hx => by
        have := (List.mem_filter.1 hx).2; simpa using this
      rw [this]; exact Nat.zero_le _
    · show (s.run.dropFollow.entries.filter _).length ≤ 1
      rw [dropFollow_waiting]; exact hl.oneDeferred g l
    · show s.run.entries.filter _ = []
      rw [hl.emptyWhenIdleOrReady hx]; rfl
    · show s.run.entries.filter _ = []
      rw [hl.emptyWhenHeldFromReady h1 h2]; rfl
  have e1 : s.run.followCue = some e.cue := by simp [RunQueue.followCue, hf]
  have e2 : s.expire = (s.withRun s.run.dropFollow).fire e.cue .auto .follow := by simp only [State.expire, e1]
  rw [e2]
  exact (fire_offersDone law hc .auto .follow (by simp)).base ((withRun_keeps _ _).1.mono (by decide)) (fun _ _ => rfl)
    (fun g l => dropFollow_waiting s.run g l) (by
      show (s.run.entries.filter _).filter _ = _
      rw [List.filter_filter]
      exact List.filter_congr fun e _ => Bool.and_self _)

end Sys2Proof.Machine
end

