-- ==== Sys2Proof/Laws/Beat.lean ====
section
/-! SUPPORT. What becomes of a beat, and the expiry of the FOLLOW entry. -/

set_option Elab.async false

namespace Sys2Proof.Machine

theorem beatResult_rejected {s : State} {a : Nat} (he : s.engine.state = .running) (h : s.beat.lastAccepted = some a)
    (hg : s.cardTime - a < s.beat.guard) : s.beatResult = .rejected (s.cardTime - a) := by
  simp [State.beatResult, he, BeatUnit.insideGuard, h, hg]

theorem insideGuard_none {b : BeatUnit} {now : Nat} (hg : ∀ a, b.lastAccepted = some a → b.guard ≤ now - a) :
    b.insideGuard now = none := by
  unfold BeatUnit.insideGuard
  split
  · rename_i t ht; rw [if_neg (by have := hg t ht; omega)]
  · rfl

theorem beatResult_settling {s : State} (he : s.engine.state = .running)
    (hg : ∀ a, s.beat.lastAccepted = some a → s.beat.guard ≤ s.cardTime - a) (hs : s.beat.settling = true) :
    s.beatResult = .settling := by simp [State.beatResult, he, insideGuard_none hg, hs]

theorem beatResult_counted {s : State} (he : s.engine.state = .running)
    (hg : ∀ a, s.beat.lastAccepted = some a → s.beat.guard ≤ s.cardTime - a) (hs : s.beat.settling = false) :
    s.beatResult = .counted (s.run.beatsLeft.map (· - 1)) := by simp [State.beatResult, he, insideGuard_none hg, hs]

/-- Outside RUNNING a beat is ignored (R67). -/
theorem takeBeat_notRunning {s : State} (h : s.engine.state ≠ .running) (src : BeatSource) : s.takeBeat src = s := by
  simp [State.takeBeat, State.beatResult, h]

theorem beatsLeft_setBeats {r : RunQueue} {n : Nat} (h : r.beatsLeft = some n) :
    (r.setBeats (fun _ m => m - 1)).beatsLeft = some (n - 1) := by
  unfold RunQueue.beatsLeft at *
  unfold RunQueue.setBeats
  dsimp only
  generalize r.entries = es at *
  induction es with
  | nil => simp at h
  | cons e es ih =>
    cases e with
    | deferred => simp at h ⊢; exact ih h
    | follow c m full k =>
      cases m with
      | time => simp at h ⊢; exact ih h
      | beats => simp at h ⊢; omega

/-- A firing from a state that differs in its Run Queue alone. -/
theorem FiringDone.afterRun {s s' t : State} {n : CueNum} {o : Origin} {k : FiringKind} (h : FiringDone s' t n o k)
    (h4 : OnlyChanges [.run] s s') : FiringDone s t n o k := by
  have h1 := h4.engine; have h2 := h4.cues; have h3 := h4.watch
  have eq : ∀ q, (s.port q).pending = (s'.port q).pending ∧ (s.port q).repeats = (s'.port q).repeats := fun q => by
    rw [h4.port q]; exact ⟨rfl, rfl⟩
  have same : ∀ q, (t.port q).pending = (t.port q).pending ∧ (t.port q).repeats = (t.port q).repeats := fun _ => ⟨rfl, rfl⟩
  refine ⟨?_, ?_, ?_, ?_, h.firedRaised.congr eq same, ?_, fun x hx => (h.otherCauses x hx).congr eq same,
    (h4.mono (by decide)).trans h.frame, ?_⟩
  · rw [h.position, h1, h2]
  · rw [h.follow, h2]
  · rw [h.watches, h3]
  · rw [← h3]; exact h.watchRaised.congr eq same
  · rw [← h2]; exact h.endRaised.congr eq same
  · intro q; have := h.ports q; rw [h4.port q] at this; exact this

/-- The expiry of the FOLLOW entry fires its cue (R34, R51). -/
theorem expire_done {s : State} {e : RunEntry} (he : s.engine.state = .running)
    (hf : s.run.entries.find? RunEntry.isFollow = some e) : FiringDone s s.expire e.cue .auto .follow := by
  have : s.run.followCue = some e.cue := by simp [RunQueue.followCue, hf]
  simp only [State.expire, this]
  exact (fire_done (s := s.withRun s.run.dropFollow) e.cue .auto .follow (.inr he)).afterRun (withRun_keeps _ _).1

end Sys2Proof.Machine
end

