-- ==== Sys2Proof/Laws/Codec.lean ====
section
/-! SUPPORT. Fields read back as they are written: bytes, 16-bit fields, cue numbers, sets of causes and codes. -/

set_option Elab.async false

namespace Sys2Proof.Machine

theorem byteOf_toNat (a : Byte) : byteOf a.toNat = a := by simp [byteOf]

theorem toNat_byteOf {n : Nat} (h : n < 256) : (byteOf n).toNat = n := by simp [byteOf]; omega

theorem nat2_le2 {n : Nat} (h : n < 65536) : nat2 (byteOf n) (byteOf (n / 256)) = n := by
  simp [nat2, byteOf]; omega

theorem le2_nat2 (a b : Byte) : le2 (nat2 a b) = [a, b] := by
  have ha := a.isLt; have hb := b.isLt
  simp only [le2, nat2, byteOf]
  congr 1
  · apply BitVec.eq_of_toNat_eq; simp; omega
  · congr 1; apply BitVec.eq_of_toNat_eq; simp; omega

theorem cueOf_bytes {n : CueNum} (h : n.valid = true) :
    cueOf (byteOf n.major) (byteOf (n.major / 256)) (byteOf n.minor) = n := by
  have := of_decide_eq_true h
  simp only [cueOf]; rw [nat2_le2 (by omega), toNat_byteOf (by omega)]

theorem cueBytes_cueOf (a b c : Byte) : cueBytes (cueOf a b c) = [a, b, c] := by
  simp [cueBytes, cueOf, le2_nat2, byteOf_toNat]

/-- The two CRC bytes read back as the CRC. -/
theorem crc_readsBack (c : BitVec 16) : BitVec.ofNat 16 (nat2 (byteOf c.toNat) (byteOf (c.toNat / 256))) = c := by
  apply BitVec.eq_of_toNat_eq
  have := c.isLt
  rw [nat2_le2 (by omega)]; simp

theorem causeSetBytes_causeSetOf {a b c : Byte} {set : CauseSet} (h : causeSetOf a b c = some set) :
    causeSetBytes set = [a, b, c] := by
  unfold causeSetOf at h; split at h
  · cases h
    rename_i hc
    have ha := a.isLt; have hb := b.isLt
    simp only [causeSetBytes, le3, byteOf, BitVec.toNat_ofNat]
    congr 1
    · apply BitVec.eq_of_toNat_eq; simp; omega
    · congr 1
      · apply BitVec.eq_of_toNat_eq; simp; omega
      · congr 1; apply BitVec.eq_of_toNat_eq; simp; omega
  · cases h

theorem causeSetOf_none {a b c : Byte} (h : 8 ≤ c.toNat) : causeSetOf a b c = none := by
  unfold causeSetOf; rw [if_neg (by omega)]

theorem eighthOf_val {b : Byte} {l : Fin 8} (h : eighthOf b = some l) : l.val = b.toNat := by
  unfold eighthOf at h; split at h <;> cases h; rfl

theorem eighthOf_byteOf (l : Fin 8) : eighthOf (byteOf l.val) = some l := by revert l; decide

theorem yesNo_yesNoOf {b : Byte} {x : Bool} (h : yesNoOf b = some x) : yesNo x = b := by
  unfold yesNoOf at h; repeat' split at h
  all_goals first | (cases h; simp_all [yesNo]) | cases h

theorem watchTypeOf_off {b : Byte} : watchTypeOf b = some .off ↔ b = 0 := by
  unfold watchTypeOf; repeat' split
  all_goals simp_all

theorem code_watchTypeOf {b : Byte} {k : WatchType} (h : watchTypeOf b = some k) : k.code = b := by
  unfold watchTypeOf at h; repeat' split at h
  all_goals first | (cases h; simp_all [WatchType.code]) | cases h

theorem code_combineOf {b : Byte} {k : Combine} (h : combineOf b = some k) : k.code = b := by
  unfold combineOf at h; repeat' split at h
  all_goals first | (cases h; simp_all [Combine.code]) | cases h

/-- When a watch of SET_WATCH is out of range (R159). -/
theorem watchOf_none {t a b c : Byte} :
    watchOf t a b c = none ↔ watchTypeOf t = none ∨ (t ≠ 0 ∧ (cueOf a b c).valid = false) := by
  unfold watchOf
  split
  · rename_i h; have := watchTypeOf_off.1 h; simp [this]; decide
  · rename_i k h hk
    have ne : t ≠ 0 := fun e => by rw [watchTypeOf_off.2 e] at hk; cases hk; exact h rfl
    simp only [hk]; simp
    exact fun _ => ne
  · rename_i h; simp [h]

/-- The watch that SET_WATCH sets (R159). -/
theorem watchOf_some {t a b c : Byte} {k : WatchType} {v : CueNum} (h : watchTypeOf t = some k)
    (hv : t ≠ 0 → (cueOf a b c).valid = true)
    (e : v = if (cueOf a b c).valid = true then cueOf a b c else { major := 1, minor := 0 }) :
    watchOf t a b c = some { type := k, value := v, matched := false } := by
  unfold watchOf
  split
  · rename_i h'; rw [h'] at h; cases h; rw [e]
  · rename_i h' hk
    have ne : t ≠ 0 := fun e => by rw [watchTypeOf_off.2 e] at hk; cases hk; exact h' rfl
    rw [h] at hk; cases hk
    simp [hv ne, e]
  · rename_i h'; rw [h] at h'; cases h'

end Sys2Proof.Machine
end

