-- ==== Sys2Proof/WellFormed.lean ====
section
/-! DEFINITION. Which commands a line can carry at all. The types already bound heads, groups and layers; what is left is
that a caller frame carries at most 240 payload bytes (R168: its length is one byte from 0 to 240). -/

namespace Sys2Proof

/-- A caller frame's payload fits the length byte's range (R139, R168). -/
def payloadFits (payload : List Byte) : Bool := decide (payload.length ≤ Config.maxPayload)

/-- The command can occur on the card's lines. -/
def Instr.wellFormed : Instr → Bool
  | .frameReceived _ _ _ payload _ => payloadFits payload
  | .unlock _ _ payload => payloadFits payload
  | .powerOn _ _ => true
  | .reset _ _ => true
  | .lineBreak _ => true
  | .frameGapTimeout _ => true
  | .callerFrameSent _ => true
  | .dropped _ => true
  | .unknownKindRequest _ => true
  | .openShow _ => true
  | .closeShow _ => true
  | .go _ => true
  | .back _ => true
  | .standby _ => true
  | .hold _ => true
  | .release _ => true
  | .followExpiry => true
  | .floorEnd _ _ => true
  | .beatEdge _ => true
  | .beat _ => true
  | .claim _ => true
  | .yieldRight _ => true
  | .setRole _ => true
  | .setPort _ => true
  | .putCue _ => true
  | .dropCue _ => true
  | .putText _ => true
  | .dropText _ => true
  | .setHead _ => true
  | .refreshHead _ => true
  | .setLink _ => true
  | .setBeat _ => true
  | .setWatch _ => true
  | .setNotice _ => true
  | .readPosition _ => true
  | .readCue _ => true
  | .readText _ => true
  | .readHead _ => true
  | .readCauses _ => true
  | .clearCauses _ => true
  | .readCapture _ => true
  | .clearCapture _ => true
  | .listCues _ => true
  | .sync _ => true
  | .fadeEnd _ _ => true
  | .linkFrameSent => true
  | .acknowledgement _ => true
  | .ackTimeout => true
  | .holdOffEnd => true
  | .callerByteReceived _ _ _ => true
  | .lineReturnsToMarking _ => true

end Sys2Proof
end

