-- ==== Sys2Proof/Laws/PerInstr.lean ====
section
/-! SUPPORT. One statement about every command as syntax, by its constructor: a command is well formed exactly if the payload it
carries, if it carries one, fits a frame (R139, R168). -/

namespace Sys2Proof.Laws.PayloadFits

/-- The payload that a command carries to the card. -/
def payload : Instr → List Byte
  | .powerOn _ _ => []
  | .reset _ _ => []
  | .lineBreak _ => []
  | .frameReceived _ _ _ payload _ => payload
  | .frameGapTimeout _ => []
  | .unlock _ _ payload => payload
  | .callerFrameSent _ => []
  | .dropped _ => []
  | .unknownKindRequest _ => []
  | .openShow _ => []
  | .closeShow _ => []
  | .go _ => []
  | .back _ => []
  | .standby _ => []
  | .hold _ => []
  | .release _ => []
  | .followExpiry => []
  | .floorEnd _ _ => []
  | .beatEdge _ => []
  | .beat _ => []
  | .claim _ => []
  | .yieldRight _ => []
  | .setRole _ => []
  | .setPort _ => []
  | .putCue _ => []
  | .dropCue _ => []
  | .putText _ => []
  | .dropText _ => []
  | .setHead _ => []
  | .refreshHead _ => []
  | .setLink _ => []
  | .setBeat _ => []
  | .setWatch _ => []
  | .setNotice _ => []
  | .readPosition _ => []
  | .readCue _ => []
  | .readText _ => []
  | .readHead _ => []
  | .readCauses _ => []
  | .clearCauses _ => []
  | .readCapture _ => []
  | .clearCapture _ => []
  | .listCues _ => []
  | .sync _ => []
  | .fadeEnd _ _ => []
  | .linkFrameSent => []
  | .acknowledgement _ => []
  | .ackTimeout => []
  | .holdOffEnd => []
  | .callerByteReceived _ _ _ => []
  | .lineReturnsToMarking _ => []

/-- Well-formedness is the length of that payload and nothing else. -/
def Statement (i : Instr) : Prop := i.wellFormed = true ↔ (payload i).length ≤ 240

theorem powerOn (straps : Straps) (beatHigh : Bool) : Statement (.powerOn straps beatHigh) :=
  iff_of_true rfl (Nat.zero_le _)
theorem reset (straps : Straps) (beatHigh : Bool) : Statement (.reset straps beatHigh) :=
  iff_of_true rfl (Nat.zero_le _)
theorem lineBreak (p : Port) : Statement (.lineBreak p) := iff_of_true rfl (Nat.zero_le _)
theorem frameReceived (p : Port) (tag : Byte) (kind : Byte) (payload : List Byte) (crc : BitVec 16) : Statement (.frameReceived p tag kind payload crc) :=
  decide_eq_true_iff
theorem frameGapTimeout (p : Port) : Statement (.frameGapTimeout p) := iff_of_true rfl (Nat.zero_le _)
theorem unlock (p : Port) (tag : Byte) (payload : List Byte) : Statement (.unlock p tag payload) := decide_eq_true_iff
theorem callerFrameSent (p : Port) : Statement (.callerFrameSent p) := iff_of_true rfl (Nat.zero_le _)
theorem dropped (p : Port) : Statement (.dropped p) := iff_of_true rfl (Nat.zero_le _)
theorem unknownKindRequest (p : Port) : Statement (.unknownKindRequest p) := iff_of_true rfl (Nat.zero_le _)
theorem openShow (p : Port) : Statement (.openShow p) := iff_of_true rfl (Nat.zero_le _)
theorem closeShow (p : Port) : Statement (.closeShow p) := iff_of_true rfl (Nat.zero_le _)
theorem go (p : Port) : Statement (.go p) := iff_of_true rfl (Nat.zero_le _)
theorem back (p : Port) : Statement (.back p) := iff_of_true rfl (Nat.zero_le _)
theorem standby (p : Port) : Statement (.standby p) := iff_of_true rfl (Nat.zero_le _)
theorem hold (p : Port) : Statement (.hold p) := iff_of_true rfl (Nat.zero_le _)
theorem release (p : Port) : Statement (.release p) := iff_of_true rfl (Nat.zero_le _)
theorem followExpiry : Statement (.followExpiry) := iff_of_true rfl (Nat.zero_le _)
theorem floorEnd (g : GroupId) (l : Layer) : Statement (.floorEnd g l) := iff_of_true rfl (Nat.zero_le _)
theorem beatEdge (high : Bool) : Statement (.beatEdge high) := iff_of_true rfl (Nat.zero_le _)
theorem beat (p : Port) : Statement (.beat p) := iff_of_true rfl (Nat.zero_le _)
theorem claim (p : Port) : Statement (.claim p) := iff_of_true rfl (Nat.zero_le _)
theorem yieldRight (p : Port) : Statement (.yieldRight p) := iff_of_true rfl (Nat.zero_le _)
theorem setRole (p : Port) : Statement (.setRole p) := iff_of_true rfl (Nat.zero_le _)
theorem setPort (p : Port) : Statement (.setPort p) := iff_of_true rfl (Nat.zero_le _)
theorem putCue (p : Port) : Statement (.putCue p) := iff_of_true rfl (Nat.zero_le _)
theorem dropCue (p : Port) : Statement (.dropCue p) := iff_of_true rfl (Nat.zero_le _)
theorem putText (p : Port) : Statement (.putText p) := iff_of_true rfl (Nat.zero_le _)
theorem dropText (p : Port) : Statement (.dropText p) := iff_of_true rfl (Nat.zero_le _)
theorem setHead (p : Port) : Statement (.setHead p) := iff_of_true rfl (Nat.zero_le _)
theorem refreshHead (p : Port) : Statement (.refreshHead p) := iff_of_true rfl (Nat.zero_le _)
theorem setLink (p : Port) : Statement (.setLink p) := iff_of_true rfl (Nat.zero_le _)
theorem setBeat (p : Port) : Statement (.setBeat p) := iff_of_true rfl (Nat.zero_le _)
theorem setWatch (p : Port) : Statement (.setWatch p) := iff_of_true rfl (Nat.zero_le _)
theorem setNotice (p : Port) : Statement (.setNotice p) := iff_of_true rfl (Nat.zero_le _)
theorem readPosition (p : Port) : Statement (.readPosition p) := iff_of_true rfl (Nat.zero_le _)
theorem readCue (p : Port) : Statement (.readCue p) := iff_of_true rfl (Nat.zero_le _)
theorem readText (p : Port) : Statement (.readText p) := iff_of_true rfl (Nat.zero_le _)
theorem readHead (p : Port) : Statement (.readHead p) := iff_of_true rfl (Nat.zero_le _)
theorem readCauses (p : Port) : Statement (.readCauses p) := iff_of_true rfl (Nat.zero_le _)
theorem clearCauses (p : Port) : Statement (.clearCauses p) := iff_of_true rfl (Nat.zero_le _)
theorem readCapture (p : Port) : Statement (.readCapture p) := iff_of_true rfl (Nat.zero_le _)
theorem clearCapture (p : Port) : Statement (.clearCapture p) := iff_of_true rfl (Nat.zero_le _)
theorem listCues (p : Port) : Statement (.listCues p) := iff_of_true rfl (Nat.zero_le _)
theorem sync (p : Port) : Statement (.sync p) := iff_of_true rfl (Nat.zero_le _)
theorem fadeEnd (h : HeadId) (l : Layer) : Statement (.fadeEnd h l) := iff_of_true rfl (Nat.zero_le _)
theorem linkFrameSent : Statement (.linkFrameSent) := iff_of_true rfl (Nat.zero_le _)
theorem acknowledgement (frame : List Byte) : Statement (.acknowledgement frame) := iff_of_true rfl (Nat.zero_le _)
theorem ackTimeout : Statement (.ackTimeout) := iff_of_true rfl (Nat.zero_le _)
theorem holdOffEnd : Statement (.holdOffEnd) := iff_of_true rfl (Nat.zero_le _)
theorem callerByteReceived (p : Port) (b : Byte) (stopGood : Bool) : Statement (.callerByteReceived p b stopGood) :=
  iff_of_true rfl (Nat.zero_le _)
theorem lineReturnsToMarking (p : Port) : Statement (.lineReturnsToMarking p) := iff_of_true rfl (Nat.zero_le _)

end Sys2Proof.Laws.PayloadFits
end

