-- ==== Sys2Proof/Laws/Port.lean ====
section
/-! SUPPORT. Events of one port: each is one function of its Port Unit, then the end of the event. -/

set_option Elab.async false

namespace Sys2Proof.Machine

theorem onPort_onPort (s : State) (p : Port) (f g : PortUnit → PortUnit) :
    (s.onPort p f).onPort p g = s.onPort p (fun u => g (f u)) := by
  simp only [State.onPort, State.withPorts]; cases p <;> rfl

theorem onPort_congr {s : State} {p : Port} {f g : PortUnit → PortUnit} (h : f (s.port p) = g (s.port p)) :
    s.onPort p f = s.onPort p g := by
  simp only [State.onPort]; rw [show s.ports.get p = s.port p from rfl, h]

/-- The fields the start of a sending leaves alone. -/
theorem PortUnit.startSending_fields (u : PortUnit) :
    u.startSending.queue = u.queue ∧ u.startSending.receiver = u.receiver ∧ u.startSending.locked = u.locked ∧
      u.startSending.lockPolicy = u.lockPolicy ∧ u.startSending.capture = u.capture ∧
      u.startSending.enabled = u.enabled ∧ u.startSending.listing = u.listing ∧ u.startSending.inBreak = u.inBreak := by
  unfold PortUnit.startSending; split <;> simp

/-- The fields the answer of a SYNC leaves alone. -/
theorem PortUnit.answerSync_fields (u : PortUnit) :
    u.answerSync.queue = u.queue ∧ u.answerSync.receiver = u.receiver ∧ u.answerSync.locked = u.locked ∧
      u.answerSync.lockPolicy = u.lockPolicy ∧ u.answerSync.capture = u.capture ∧
      u.answerSync.enabled = u.enabled ∧ u.answerSync.listing = u.listing ∧ u.answerSync.inBreak = u.inBreak := by
  unfold PortUnit.answerSync; split
  · split <;> simp [PortUnit.make]
  · simp

/-- A frame already made is there still after the answer of a SYNC. -/
theorem PortUnit.mem_frames_answerSync {u : PortUnit} {f : OutFrame} (h : f ∈ u.frames) : f ∈ u.answerSync.frames := by
  unfold PortUnit.answerSync; split
  · split
    · simp only [PortUnit.frames_make]
      simp only [PortUnit.frames] at h ⊢; rw [List.mem_append]; exact .inl h
    · exact h
  · exact h

/-- An answer already made is there still after a cause is raised. -/
theorem PortUnit.mem_frames_raise {u : PortUnit} {f : OutFrame} {r : Raise} (h : f ∈ u.frames) (hn : ∀ x, f ≠ .notice x) :
    f ∈ (u.raise r).frames := by
  simp only [PortUnit.frames, List.mem_append] at h ⊢
  rcases h with h | h
  · exact .inl h
  · right
    simp only [PortUnit.raise]; split
    · unfold putNotice; split
      · rw [List.mem_map]; refine ⟨f, h, ?_⟩
        cases f with
        | notice x => exact absurd rfl (hn x)
        | answer => simp [OutFrame.noticeOf]
      · simp [h]
    · exact h

theorem PortUnit.repeats_raise {u : PortUnit} {r : Raise} (h : u.isPending r.cause = false) :
    (u.raise r).repeats = u.repeats := by simp [PortUnit.raise, h]

/-- An event of one port in a settled state. -/
theorem settle_onPort {s : State} (hs : Settled s) (p : Port) (f : PortUnit → PortUnit) :
    OnlyChanges [.ports] s (s.onPort p f).settle ∧ OtherPortsSame p s (s.onPort p f).settle ∧
      (s.onPort p f).settle.port p = (f (s.port p)).answerSync.startSending := by
  refine ⟨(onPort_only _ _ _).trans (settle_only _), ?_, ?_⟩
  · intro q hq; rw [State.port_settle, State.port_onPort_ne _ _ hq]; exact quiet_of_settled hs q
  · rw [State.port_settle, State.port_onPort_self]

/-- A SYNC that waits in a settled state goes on waiting while its port keeps it and its queue does not begin to fill. -/
theorem PortUnit.answerSync_waits {u v : PortUnit} (hu : u.answerSync.startSending = u) (hs : v.sync = u.sync)
    (hq : v.queue ≠ [] → u.queue ≠ []) : v.answerSync = v := by
  unfold PortUnit.answerSync
  split
  · rename_i w r rs h1 h2
    rw [hs] at h1
    cases hu' : u.queue with
    | nil => exact absurd hu' (hq (by rw [h2]; simp))
    | cons x xs => rw [if_neg ((quiet_iff.1 hu).2 w x xs h1 hu')]
  · rfl

/-- What leaves the ports alone leaves a settled state settled. -/
theorem settle_of_only {bs : List Block} {s t : State} (hs : Settled s) (h : OnlyChanges bs s t)
    (hb : .ports ∉ bs := by decide) : t.settle = t :=
  settled_iff.2 (fun q => by rw [h.port q hb]; exact settled_iff.1 hs q)

/-- A request whose owner changes its own port alone and answers DONE. -/
theorem done_onPort_of_owner {i : Instr} {s : State} {k : ReqKind} {p : Port} {r : Request} {f : PortUnit → PortUnit}
    {pl : List Byte} {owner : Port → List Byte → State → Verdict} (hs : Settled s) (h : Executes s p k r)
    (hi : exec i s = .next (s.serve k p owner)) (ho : owner p r.payload s = .done (s.onPort p f) pl)
    (hf : (f (s.port p)).sync = none) :
    ∃ t, exec i s = .next t ∧ OnlyChanges [.ports] s t ∧ OtherPortsSame p s t ∧
      t.port p = ((f (s.port p)).make (responseFrame .response r .done pl)).startSending := by
  have hserve := serve_done h ho
  refine ⟨_, hi, ?_, ?_, ?_⟩
  all_goals rw [hserve]
  · exact ((onPort_only _ _ _).trans (onPort_only _ _ _)).trans (settle_only _)
  · intro q hq
    rw [State.port_settle, port_respond_ne _ _ _ hq, State.port_onPort_ne _ _ hq]; exact quiet_of_settled hs q
  · rw [State.port_settle]
    simp only [State.respond, State.port_onPort_self]
    rw [PortUnit.answerSync_none (by simpa [PortUnit.make] using hf)]

/-- A request whose owner changes its own port alone and goes on (SYNC, LIST_CUES). -/
theorem wait_onPort_of_owner {i : Instr} {s : State} {k : ReqKind} {p : Port} {r : Request} {f : PortUnit → PortUnit}
    {owner : Port → List Byte → State → Verdict} (hs : Settled s) (h : Executes s p k r)
    (hi : exec i s = .next (s.serve k p owner)) (ho : owner p r.payload s = .wait (s.onPort p f)) :
    ∃ t, exec i s = .next t ∧ OnlyChanges [.ports] s t ∧ OtherPortsSame p s t ∧
      t.port p = (f (s.port p)).answerSync.startSending := by
  have hserve : s.serve k p owner = (s.onPort p f).settle := by rw [serve_of_executes h owner, ho]
  refine ⟨_, hi, ?_⟩
  rw [hserve]; exact settle_onPort hs p f

/-! ## Frames arriving -/

theorem lineError_eq (s : State) (p : Port) (w : LineCase) (t k : Option Byte) :
    s.lineError p w t k =
      s.onPort p (fun u => ({ u with receiver := .hunting } : PortUnit).raise (.lineError w t k)) := by
  simp only [State.lineError, State.raiseOn, onPort_onPort]

/-- What a good frame that is no UNLOCK does to its Port Unit (R141, R142). -/
def PortUnit.joined (tag kind : Byte) (payload : List Byte) (u : PortUnit) : PortUnit :=
  let u := u.cutListing
  if 8 ≤ u.queue.length then
    if u.immediateFull then u.raise (.busy tag kind)
    else (u.make (.answer .immediate tag kind [0x0E])).raise (.busy tag kind)
  else { u with queue := u.queue ++ [{ tag := tag, kind := kind, payload := payload, drop := false }] }

theorem goodFrame_eq (s : State) (p : Port) (tag kind : Byte) (pl : List Byte) (hk : kind ≠ 0x14) :
    s.goodFrame p tag kind pl = s.onPort p (PortUnit.joined tag kind pl) := by
  unfold State.goodFrame
  dsimp only
  rw [if_neg (by simpa [unlockCode] using hk), State.port_onPort_self]
  by_cases h1 : Config.maxRequests ≤ (s.port p).cutListing.queue.length
  · rw [if_pos h1]
    by_cases h2 : (s.port p).cutListing.immediateFull = true
    · rw [if_pos h2]; simp only [State.raiseOn, onPort_onPort]
      apply onPort_congr
      unfold PortUnit.joined; dsimp only; rw [if_pos (show 8 ≤ _ from h1), if_pos h2]
    · rw [if_neg h2]; simp only [State.raiseOn, State.answerNow, onPort_onPort]
      apply onPort_congr
      unfold PortUnit.joined; dsimp only; rw [if_pos (show 8 ≤ _ from h1), if_neg h2]; rfl
  · rw [if_neg h1]; simp only [onPort_onPort]
    apply onPort_congr
    unfold PortUnit.joined; dsimp only; rw [if_neg (show ¬ 8 ≤ _ from h1)]

/-- What a good UNLOCK frame does to its Port Unit after the cut of a listing (R148). -/
def PortUnit.unlocked (tag : Byte) (payload : List Byte) (u : PortUnit) : PortUnit :=
  if u.immediateFull then u.raise (.busy tag 0x14)
  else match payload with
    | [discard] =>
      if u.locked then
        (let v := { u with locked := false }; if discard = 0 then v else v.markHeld).make
          (.answer .immediate tag 0x14 [0, 1, byteOf u.heldCount])
      else u.make (.answer .immediate tag 0x14 [0, 0, 0])
    | _ =>
      (({ u with capture := noteRefusal u.capture tag 0x14 .form } : PortUnit).raise (.refusal tag 0x14 .form)).make
        (.answer .immediate tag 0x14 [2])

theorem takeUnlock_eq (s : State) (p : Port) (tag : Byte) (pl : List Byte) :
    s.takeUnlock p tag pl = s.onPort p (PortUnit.unlocked tag pl) := by
  unfold State.takeUnlock
  by_cases h1 : (s.port p).immediateFull = true
  · rw [if_pos h1]; apply onPort_congr; unfold PortUnit.unlocked; rw [if_pos h1]; rfl
  · rw [if_neg h1]
    split
    · by_cases h2 : (s.port p).locked = true
      · rw [if_pos h2]; dsimp only; simp only [State.answerNow, onPort_onPort]
        apply onPort_congr; unfold PortUnit.unlocked; rw [if_neg h1]; dsimp only; rw [if_pos h2]; rfl
      · rw [if_neg h2]; simp only [State.answerNow]
        apply onPort_congr; unfold PortUnit.unlocked; rw [if_neg h1]; dsimp only; rw [if_neg h2]; rfl
    · rename_i hno
      simp only [State.answerNow, State.noteRefusal, State.raiseOn, onPort_onPort]
      apply onPort_congr; unfold PortUnit.unlocked; rw [if_neg h1]
      split
      · exact absurd rfl (hno _)
      · rfl

theorem goodFrame_unlock (s : State) (p : Port) (tag : Byte) (pl : List Byte) :
    s.goodFrame p tag 0x14 pl = s.onPort p (fun u => PortUnit.unlocked tag pl u.cutListing) := by
  unfold State.goodFrame
  dsimp only
  rw [if_pos (by rfl), takeUnlock_eq, onPort_onPort]

theorem PortUnit.cutListing_none {u : PortUnit} (h : u.listing = none) : u.cutListing = u := by
  unfold PortUnit.cutListing; simp [h]

theorem PortUnit.cutListing_some {u : PortUnit} {x : Listing} {r : Request} {rest : List Request} (h : u.listing = some x)
    (hq : u.queue = r :: rest) :
    u.cutListing =
      ({ u with listing := none } : PortUnit).make (.answer .response r.tag r.kind [0x10, byteOf x.made]) := by
  unfold PortUnit.cutListing; simp [h, hq, responseFrame]; rfl

theorem PortUnit.markHeld_fields (u : PortUnit) :
    u.markHeld.receiver = u.receiver ∧ u.markHeld.listing = u.listing ∧ u.markHeld.pending = u.pending ∧
      u.markHeld.capture = u.capture ∧ u.markHeld.locked = u.locked ∧ u.markHeld.frames = u.frames ∧
      u.markHeld.sync = u.sync := by
  unfold PortUnit.markHeld; dsimp only; split <;> exact ⟨rfl, rfl, rfl, rfl, rfl, rfl, rfl⟩

/-- A raise changes no other cause of the pending set. -/
theorem mem_putRaise_iff {r x : Raise} (h : x.cause ≠ r.cause) (l : List Raise) : x ∈ putRaise r l ↔ x ∈ l := by
  refine ⟨fun hm => ?_, fun hm => mem_putRaise_of_ne hm h⟩
  induction l with
  | nil => simp [putRaise] at hm; subst hm; exact absurd rfl h
  | cons y ys ih =>
    unfold putRaise at hm; split at hm
    · rcases List.mem_cons.1 hm with e | e
      · subst e; exact absurd rfl h
      · exact List.mem_cons.2 (.inr e)
    · split at hm
      · rcases List.mem_cons.1 hm with e | e
        · subst e; exact absurd rfl h
        · exact e
      · rcases List.mem_cons.1 hm with e | e
        · subst e; simp
        · exact List.mem_cons.2 (.inr (ih e))

end Sys2Proof.Machine
end

