-- ==== Sys2Proof/Laws/Step.lean ====
section
/-! SUPPORT. What each command can change at all, and that each completes: `exec_only`. -/

set_option Elab.async false

namespace Sys2Proof.Machine

/-- The blocks a command may change. A request row may lock its port, and so change the Call Arbiter, whatever its own effect. -/
def changes : Instr → List Block
  | .powerOn _ _ => [.time, .straps, .cues, .texts, .engine, .run, .beat, .heads, .link, .arbiter, .watch, .ports, .due]
  | .reset _ _ => [.time, .straps, .cues, .texts, .engine, .run, .beat, .heads, .link, .arbiter, .watch, .ports, .due]
  | .lineBreak _ => [.arbiter, .ports, .choices]
  | .frameReceived _ _ _ _ _ => [.ports]
  | .frameGapTimeout _ => [.ports]
  | .unlock _ _ _ => [.ports]
  | .callerFrameSent _ => [.ports]
  | .dropped _ => [.ports]
  | .unknownKindRequest _ => [.arbiter, .ports]
  | .openShow _ => [.engine, .beat, .arbiter, .ports]
  | .closeShow _ => [.engine, .run, .heads, .texts, .link, .watch, .arbiter, .ports]
  | .go _ => [.engine, .run, .heads, .texts, .link, .watch, .arbiter, .ports]
  | .back _ => [.engine, .run, .heads, .texts, .link, .watch, .arbiter, .ports]
  | .standby _ => [.engine, .run, .arbiter, .ports]
  | .hold _ => [.engine, .arbiter, .ports]
  | .release _ => [.engine, .beat, .due, .arbiter, .ports]
  | .followExpiry => [.engine, .run, .heads, .texts, .link, .watch, .ports]
  | .floorEnd _ _ => [.run, .heads, .texts, .link, .ports]
  | .beatEdge _ => [.beat, .engine, .run, .heads, .texts, .link, .watch, .ports]
  | .beat _ => [.beat, .engine, .run, .heads, .texts, .link, .watch, .arbiter, .ports]
  | .claim _ => [.arbiter, .ports]
  | .yieldRight _ => [.arbiter, .ports]
  | .setRole _ => [.arbiter, .ports]
  | .setPort _ => [.arbiter, .ports]
  | .putCue _ => [.cues, .texts, .arbiter, .ports]
  | .dropCue _ => [.cues, .texts, .arbiter, .ports]
  | .putText _ => [.texts, .arbiter, .ports]
  | .dropText _ => [.texts, .arbiter, .ports]
  | .setHead _ => [.heads, .texts, .link, .arbiter, .ports]
  | .refreshHead _ => [.heads, .link, .arbiter, .ports]
  | .setLink _ => [.link, .arbiter, .ports]
  | .setBeat _ => [.beat, .run, .arbiter, .ports]
  | .setWatch _ => [.watch, .arbiter, .ports]
  | .setNotice _ => [.arbiter, .ports]
  | .readPosition _ => [.arbiter, .ports]
  | .readCue _ => [.arbiter, .ports]
  | .readText _ => [.arbiter, .ports]
  | .readHead _ => [.arbiter, .ports]
  | .readCauses _ => [.arbiter, .ports]
  | .clearCauses _ => [.arbiter, .ports]
  | .readCapture _ => [.arbiter, .ports]
  | .clearCapture _ => [.link, .arbiter, .ports]
  | .listCues _ => [.arbiter, .ports]
  | .sync _ => [.arbiter, .ports]
  | .fadeEnd _ _ => [.heads, .texts, .link, .ports]
  | .linkFrameSent => [.link]
  | .acknowledgement _ => [.heads, .link, .ports]
  | .ackTimeout => [.heads, .link, .ports]
  | .holdOffEnd => [.heads, .link, .ports]
  | .callerByteReceived _ _ _ => [.ports]
  | .lineReturnsToMarking _ => [.ports]

/-! ## Requests -/

/-- What an owner's answer changes; a refusal changes nothing of the owner's. -/
def VerdictOnly (bs : List Block) (s : State) : Verdict → Prop
  | .done t _ => OnlyChanges bs s t
  | .refuse _ _ => True
  | .wait t => OnlyChanges bs s t

theorem lockPort_only (s : State) (p : Port) (t k : Byte) (st : Status) :
    OnlyChanges [.arbiter, .ports] s (s.lockPort p t k st) :=
  ((onPort_only _ _ _).mono (by decide)).trans (((raiseOn_keeps _ _ _).1.mono (by decide)).trans (leaveArbiter_keeps _ _ _).1)

theorem noteRefusal_only (s : State) (p : Port) (t k : Byte) (st : Status) : OnlyChanges [.ports] s (s.noteRefusal p t k st) :=
  (onPort_only _ _ _).trans (raiseOn_keeps _ _ _).1

theorem refuse_only (s : State) (p : Port) (r : Request) (st : Status) (extra : List Byte) :
    OnlyChanges [.arbiter, .ports] s (s.refuse p r st extra) := by
  have n : OnlyChanges [.arbiter, .ports] s (s.noteRefusal p r.tag r.kind st) := (noteRefusal_only _ _ _ _ _).mono (by decide)
  unfold State.refuse
  dsimp only
  split
  · exact (n.trans (lockPort_only _ _ _ _ _)).trans ((onPort_only _ _ _).mono (by decide))
  · exact n.trans ((onPort_only _ _ _).mono (by decide))

/-- An execution changes what its owner may change, and what a lock may. -/
theorem serve_only {bs : List Block} (s : State) (k : ReqKind) (p : Port) {owner : Port → List Byte → State → Verdict}
    (ho : ∀ pl, VerdictOnly bs s (owner p pl s)) (hb : ∀ b ∈ [Block.arbiter, .ports], b ∈ bs := by decide) :
    OnlyChanges bs s (s.serve k p owner) := by
  rcases serve_cases s k p owner with h | ⟨r, _, _, _, h⟩ <;> rw [h]
  · exact .refl _ _
  have hp : ∀ b ∈ [Block.ports], b ∈ bs := fun b m => hb b (by simp at m; simp [m])
  refine OnlyChanges.trans ?_ ((settle_only _).mono hp)
  unfold State.execute
  split
  · exact (refuse_only _ _ _ _ _).mono hb
  · have v := ho r.payload
    split
    · rename_i e; rw [e] at v; exact OnlyChanges.trans v ((onPort_only _ _ _).mono hp)
    · exact (refuse_only _ _ _ _ _).mono hb
    · rename_i e; rw [e] at v; exact v

/-! ## Frames -/

theorem lineError_only (s : State) (p : Port) (w : LineCase) (t k : Option Byte) :
    OnlyChanges [.ports] s (s.lineError p w t k) := (onPort_only _ _ _).trans (raiseOn_keeps _ _ _).1

theorem goodFrame_only (s : State) (p : Port) (t k : Byte) (pl : List Byte) :
    OnlyChanges [.ports] s (s.goodFrame p t k pl) := by
  refine OnlyChanges.trans (onPort_only s p PortUnit.cutListing) ?_
  unfold State.goodFrame
  dsimp only
  generalize s.onPort p PortUnit.cutListing = u
  have unlock : OnlyChanges [.ports] u (u.takeUnlock p t pl) := by
    unfold State.takeUnlock
    split
    · exact onPort_only _ _ _
    · split
      · split
        · exact (onPort_only _ _ _).trans (onPort_only _ _ _)
        · exact onPort_only _ _ _
      · exact (noteRefusal_only _ _ _ _ _).trans (onPort_only _ _ _)
  split
  · exact unlock
  · split
    · split
      · exact onPort_only _ _ _
      · exact (onPort_only _ _ _).trans (onPort_only _ _ _)
    · exact onPort_only _ _ _

theorem frameComplete_only (s : State) (p : Port) (t k : Byte) (pl : List Byte) (c : BitVec 16) :
    OnlyChanges [.ports] s (s.frameComplete p t k pl c) := by
  unfold State.frameComplete
  split
  · exact lineError_only _ _ _ _ _
  · split
    · exact lineError_only _ _ _ _ _
    · exact (onPort_only _ _ _).trans (goodFrame_only _ _ _ _ _)

theorem receiveByte_only (s : State) (p : Port) (b : Byte) (g : Bool) : OnlyChanges [.ports] s (s.receiveByte p b g) := by
  unfold State.receiveByte
  split
  · exact .refl _ _
  · split
    · split
      · exact onPort_only _ _ _
      · exact .refl _ _
    · split
      · unfold State.frameByte
        split
        · split
          · exact lineError_only _ _ _ _ _
          · split
            · dsimp only
              split
              · exact frameComplete_only _ _ _ _ _ _
              · exact .refl _ _
            · exact onPort_only _ _ _
        · exact onPort_only _ _ _
      · exact lineError_only _ _ _ _ _

theorem frameSent_only (s : State) (p : Port) : OnlyChanges [.ports] s (s.frameSent p) := by
  unfold State.frameSent
  split
  · exact .refl _ _
  · dsimp only
    split <;> first | exact onPort_only _ _ _ | exact (onPort_only _ _ _).trans (onPort_only _ _ _)

theorem spacingDiscard_only (s : State) (p : Port) : OnlyChanges [.arbiter, .ports, .choices] s (s.spacingDiscard p) := by
  unfold State.spacingDiscard
  split
  · exact .refl _ _
  · exact ((lineError_only _ _ _ _ _).mono (by decide)).trans
      (((settle_only _).mono (by decide)).trans ((withChoices_keeps _ _).1.mono (by decide)))

theorem portReset_only (s : State) (p : Port) : OnlyChanges [.arbiter, .ports] s (s.portReset p) :=
  ((onPort_only _ _ _).mono (by decide)).trans (leaveArbiter_keeps _ _ _).1

/-! ## Every command -/

theorem fire_only (s : State) (n : CueNum) (o : Origin) (k : FiringKind) :
    OnlyChanges [.engine, .run, .heads, .texts, .link, .watch, .ports] s (s.fire n o k) := (fire_keeps _ _ _ _).1

theorem withSettle_only {bs : List Block} {s t : State} (h : OnlyChanges bs s t) (hb : ∀ b ∈ [Block.ports], b ∈ bs := by decide) :
    OnlyChanges bs s t.settle := h.trans ((settle_only _).mono hb)

/-- Every command completes, and changes no block but those `changes` lists for it. -/
theorem exec_only (c : Instr) (s : State) : ∃ t, exec c s = .next t ∧ OnlyChanges (changes c) s t := by
  cases c <;> simp only [changes]
  case powerOn =>
    refine ⟨_, rfl, ?_⟩; intro b hb; cases b <;> first | exact absurd (by decide) hb | rfl
  case reset =>
    refine ⟨_, rfl, ?_⟩; intro b hb; cases b <;> first | exact absurd (by decide) hb | rfl
  case lineBreak p =>
    refine ⟨_, rfl, ?_⟩
    split
    · exact .refl _ _
    · exact withSettle_only ((spacingDiscard_only _ _).trans ((portReset_only _ _).mono (by decide)))
  case frameReceived =>
    refine ⟨_, rfl, ?_⟩
    split
    · exact .refl _ _
    · exact withSettle_only (frameComplete_only _ _ _ _ _ _)
  case frameGapTimeout =>
    refine ⟨_, rfl, ?_⟩
    split
    · exact withSettle_only (lineError_only _ _ _ _ _)
    · exact .refl _ _
  case unlock =>
    refine ⟨_, rfl, ?_⟩
    split
    · exact .refl _ _
    · exact withSettle_only ((onPort_only _ _ _).trans (goodFrame_only _ _ _ _ _))
  case callerFrameSent => exact ⟨_, rfl, withSettle_only (frameSent_only _ _)⟩
  case dropped =>
    refine ⟨_, rfl, ?_⟩
    split
    · split
      · exact withSettle_only (onPort_only _ _ _)
      · exact .refl _ _
    · exact .refl _ _
  case unknownKindRequest =>
    refine ⟨_, rfl, ?_⟩
    split
    · split
      · exact withSettle_only (refuse_only _ _ _ _ _)
      · exact .refl _ _
    · exact .refl _ _
  case followExpiry =>
    refine ⟨_, rfl, ?_⟩
    split
    · exact withSettle_only (expire_keeps _).1
    · exact .refl _ _
  case floorEnd =>
    refine ⟨_, rfl, ?_⟩
    split
    · exact withSettle_only (floorEnd_keeps _ _ _).1
    · exact .refl _ _
  case beatEdge high =>
    refine ⟨_, rfl, ?_⟩
    have b : OnlyChanges [.beat, .engine, .run, .heads, .texts, .link, .watch, .ports] s
        (s.withBeat { s.beat with level := high }) := (withBeat_keeps _ _).1.mono (by decide)
    split
    · exact .refl _ _
    · dsimp only
      split
      · exact b.trans (withSettle_only (takeBeat_keeps _ _).1)
      · exact b
  case fadeEnd =>
    refine ⟨_, rfl, ?_⟩
    split <;> first | exact .refl _ _ | exact withSettle_only (moveSlot_keeps _ _ _ _).1
  case linkFrameSent =>
    refine ⟨_, rfl, ?_⟩
    split <;> first
      | exact .refl _ _ | exact (withLink_keeps _ _).1 | exact (withLink_keeps _ _).1.trans (startLink_keeps _).1
  case acknowledgement =>
    refine ⟨_, rfl, ?_⟩
    split
    · split
      · exact withSettle_only (acknowledged_keeps _ _ _).1
      · exact .refl _ _
    · exact .refl _ _
  case ackTimeout =>
    refine ⟨_, rfl, ?_⟩
    split <;> first | exact .refl _ _ | exact withSettle_only (windowClosed_keeps _).1
  case holdOffEnd =>
    refine ⟨_, rfl, ?_⟩
    split <;> first | exact .refl _ _ | exact withSettle_only (holdOffOver_keeps _).1
  case callerByteReceived => exact ⟨_, rfl, withSettle_only (receiveByte_only _ _ _ _)⟩
  case lineReturnsToMarking =>
    refine ⟨_, rfl, ?_⟩
    split
    · exact onPort_only _ _ _
    · exact .refl _ _
  case openShow =>
    refine ⟨_, rfl, serve_only _ _ _ fun pl => ?_⟩
    unfold ownOpen
    repeat' split
    all_goals first | trivial | exact (openAt_keeps _ _).1.mono (by decide)
  case closeShow =>
    refine ⟨_, rfl, serve_only _ _ _ fun pl => ?_⟩
    unfold ownClose
    repeat' split
    all_goals first | trivial | exact (closeDown_keeps _ _).1.mono (by decide)
  case go =>
    refine ⟨_, rfl, serve_only _ _ _ fun pl => ?_⟩
    unfold ownGo
    repeat' split
    all_goals first | trivial | exact (fire_only _ _ _ _).mono (by decide)
  case back =>
    refine ⟨_, rfl, serve_only _ _ _ fun pl => ?_⟩
    unfold ownBack
    repeat' split
    all_goals first | trivial | exact (fire_only _ _ _ _).mono (by decide)
  case standby =>
    refine ⟨_, rfl, serve_only _ _ _ fun pl => ?_⟩
    unfold ownStandby
    repeat' split
    all_goals first | trivial | exact (standBy_keeps _ _).1.mono (by decide)
  case hold =>
    refine ⟨_, rfl, serve_only _ _ _ fun pl => ?_⟩
    unfold ownHold
    repeat' split
    all_goals first | trivial | exact OnlyChanges.refl _ _ | exact (holdFrom_keeps _ _).1.mono (by decide)
  case release =>
    refine ⟨_, rfl, serve_only _ _ _ fun pl => ?_⟩
    unfold ownRelease
    repeat' split
    all_goals first | trivial | exact (releaseShow_keeps _).1.mono (by decide)
  case beat =>
    refine ⟨_, rfl, serve_only _ _ _ fun pl => ?_⟩
    unfold ownBeat
    repeat' split
    all_goals first | trivial | exact (takeBeat_keeps _ _).1.mono (by decide)
  case claim =>
    refine ⟨_, rfl, serve_only _ _ _ fun pl => ?_⟩
    unfold ownClaim
    repeat' split
    all_goals first
      | trivial | exact OnlyChanges.refl _ _ | exact (grantFree_keeps _ _).1 | exact (takeOver_keeps _ _ _).1
      | exact (joinList_keeps _ _).1.mono (by decide)
  case yieldRight =>
    refine ⟨_, rfl, serve_only _ _ _ fun pl => ?_⟩
    unfold ownYield
    repeat' split
    all_goals first
      | exact OnlyChanges.refl _ _ | exact (passRight_keeps _ _ _).1 | exact (withArbiter_keeps _ _).1.mono (by decide)
  case setRole =>
    refine ⟨_, rfl, serve_only _ _ _ fun pl => ?_⟩
    unfold ownSetRole
    repeat' split
    all_goals first | trivial | exact (setRoleOf_keeps _ _ _).1
  case setPort =>
    refine ⟨_, rfl, serve_only _ _ _ fun pl => ?_⟩
    unfold ownSetPort
    repeat' split
    all_goals first | trivial | exact (onPort_only _ _ _).mono (by decide)
  case putCue =>
    refine ⟨_, rfl, serve_only _ _ _ fun pl => ?_⟩
    unfold ownPutCue
    repeat' split
    all_goals first
      | trivial | exact (addCueRec_keeps _ _).1.mono (by decide) | exact (replaceCueRec_keeps _ _ _).1.mono (by decide)
  case dropCue =>
    refine ⟨_, rfl, serve_only _ _ _ fun pl => ?_⟩
    unfold ownDropCue
    repeat' split
    all_goals first | trivial | exact (removeCueRec_keeps _ _).1.mono (by decide)
  case putText =>
    refine ⟨_, rfl, serve_only _ _ _ fun pl => ?_⟩
    unfold ownPutText
    dsimp only
    repeat' split
    all_goals first | trivial | exact (withTexts_keeps _ _).1.mono (by decide)
  case dropText =>
    refine ⟨_, rfl, serve_only _ _ _ fun pl => ?_⟩
    unfold ownDropText
    repeat' split
    all_goals first | trivial | exact (withTexts_keeps _ _).1.mono (by decide)
  case setHead =>
    refine ⟨_, rfl, serve_only _ _ _ fun pl => ?_⟩
    unfold ownSetHead
    repeat' split
    all_goals first
      | trivial
      | exact ((setHead_only _ _ _).mono (by decide)).trans ((actOnEnable_keeps _ _ _).1.mono (by decide))
  case refreshHead =>
    refine ⟨_, rfl, serve_only _ _ _ fun pl => ?_⟩
    unfold ownRefreshHead
    repeat' split
    all_goals first | trivial | exact (refreshHead_keeps _ _).1.mono (by decide)
  case setLink =>
    refine ⟨_, rfl, serve_only _ _ _ fun pl => ?_⟩
    unfold ownSetLink
    repeat' split
    all_goals first | trivial | exact (withLink_keeps _ _).1.mono (by decide)
  case setBeat =>
    refine ⟨_, rfl, serve_only _ _ _ fun pl => ?_⟩
    unfold ownSetBeat
    repeat' split
    all_goals first | trivial | exact (setBeatUnit_keeps _ _ _ _).1.mono (by decide)
  case setWatch =>
    refine ⟨_, rfl, serve_only _ _ _ fun pl => ?_⟩
    unfold ownSetWatch
    repeat' split
    all_goals first | trivial | exact (withWatch_keeps _ _).1.mono (by decide)
  case setNotice =>
    refine ⟨_, rfl, serve_only _ _ _ fun pl => ?_⟩
    unfold ownSetNotice
    repeat' split
    all_goals first | trivial | exact (onPort_only _ _ _).mono (by decide)
  case clearCauses =>
    refine ⟨_, rfl, serve_only _ _ _ fun pl => ?_⟩
    unfold ownClearCauses
    repeat' split
    all_goals first | trivial | exact (onPort_only _ _ _).mono (by decide)
  case clearCapture =>
    refine ⟨_, rfl, serve_only _ _ _ fun pl => ?_⟩
    unfold ownClearCapture
    repeat' split
    all_goals first | trivial | exact (onPort_only _ _ _).mono (by decide) | exact (withLink_keeps _ _).1.mono (by decide)
  case listCues =>
    refine ⟨_, rfl, serve_only _ _ _ fun pl => ?_⟩
    unfold ownListCues
    repeat' split
    all_goals first | trivial | exact (onPort_only _ _ _).mono (by decide)
  case sync => exact ⟨_, rfl, serve_only _ _ _ fun pl => (onPort_only _ _ _).mono (by decide)⟩
  case readPosition => exact ⟨_, rfl, serve_only _ _ _ fun pl => OnlyChanges.refl _ _⟩
  case readCauses => exact ⟨_, rfl, serve_only _ _ _ fun pl => OnlyChanges.refl _ _⟩
  case readCue =>
    refine ⟨_, rfl, serve_only _ _ _ fun pl => ?_⟩
    unfold ownReadCue
    repeat' split
    all_goals first | trivial | exact OnlyChanges.refl _ _
  case readText =>
    refine ⟨_, rfl, serve_only _ _ _ fun pl => ?_⟩
    unfold ownReadText
    repeat' split
    all_goals first | trivial | exact OnlyChanges.refl _ _
  case readHead =>
    refine ⟨_, rfl, serve_only _ _ _ fun pl => ?_⟩
    unfold ownReadHead
    repeat' split
    all_goals first | trivial | exact OnlyChanges.refl _ _
  case readCapture =>
    refine ⟨_, rfl, serve_only _ _ _ fun pl => ?_⟩
    unfold ownReadCapture
    repeat' split
    all_goals first | trivial | exact OnlyChanges.refl _ _

end Sys2Proof.Machine
end

