-- ==== Sys2Proof/Laws/Store.lean ====
section
/-! SUPPORT. What the Cue Store's operations do to the cue table, the text store and the reference counts. -/

set_option Elab.async false

namespace Sys2Proof.Machine

/-! ## The cue-number order -/

theorem CueNum.lt_iff (m n : CueNum) : m.lt n = true ↔ m.major < n.major ∨ (m.major = n.major ∧ m.minor < n.minor) := by
  simp [CueNum.lt]

theorem CueNum.ext_iff' {m n : CueNum} : m = n ↔ m.major = n.major ∧ m.minor = n.minor := by
  cases m; cases n; simp

theorem CueNum.lt_irrefl (m : CueNum) : m.lt m = false := by simp [CueNum.lt]

theorem CueNum.lt_trans {a b c : CueNum} (h : a.lt b = true) (k : b.lt c = true) : a.lt c = true := by
  rw [CueNum.lt_iff] at *; omega

theorem CueNum.lt_of_not {a b : CueNum} (h : a.lt b = false) (hne : b ≠ a) : b.lt a = true := by
  have h' : ¬ (a.lt b = true) := by simp [h]
  rw [CueNum.lt_iff] at *
  rw [Ne, CueNum.ext_iff'] at hne
  omega

theorem CueNum.ne_of_lt {a b : CueNum} (h : a.lt b = true) : a ≠ b := by
  intro e; rw [e, CueNum.lt_irrefl] at h; cases h

/-! ## The cue table -/

theorem cuesAscending_iff {cues : List CueRec} :
    cuesAscending cues = true ↔ cues.Pairwise (fun a b => a.num.lt b.num = true) := by simp [cuesAscending]

theorem findCue_num {cues : List CueRec} {n : CueNum} {c : CueRec} (h : findCue cues n = some c) : c.num = n := by
  simpa using List.find?_some h

theorem findCue_mem {cues : List CueRec} {n : CueNum} {c : CueRec} (h : findCue cues n = some c) : c ∈ cues :=
  List.mem_of_find?_eq_some h

theorem findCue_eq_none {cues : List CueRec} {n : CueNum} : findCue cues n = none ↔ ∀ c ∈ cues, c.num ≠ n := by
  simp [findCue]

theorem findCue_isSome {cues : List CueRec} {n : CueNum} : (findCue cues n).isSome = true ↔ ∃ c ∈ cues, c.num = n := by
  simp [findCue]

theorem findCue_putCueRec_ne (c : CueRec) (cues : List CueRec) {n : CueNum} (h : n ≠ c.num) :
    findCue (putCueRec c cues) n = findCue cues n := by
  have hc : ¬ c.num = n := fun e => h e.symm
  induction cues with
  | nil => simp [putCueRec, findCue, hc]
  | cons x xs ih =>
    unfold putCueRec
    split
    · rename_i e
      have : ¬ x.num = n := by rw [e]; exact hc
      simp [findCue, hc, this]
    · split
      · simp [findCue, hc]
      · unfold findCue at *
        simp only [List.find?_cons]
        split
        · rfl
        · exact ih

theorem findCue_putCueRec_self {c : CueRec} {cues : List CueRec} (h : cues.Pairwise (fun a b => a.num.lt b.num = true)) :
    findCue (putCueRec c cues) c.num = some c := by
  induction cues with
  | nil => simp [putCueRec, findCue]
  | cons x xs ih =>
    unfold putCueRec
    split
    · simp [findCue]
    · split
      · simp [findCue]
      · rename_i h1 h2
        unfold findCue at *
        simp only [List.find?_cons, h1, decide_false]
        exact ih (List.pairwise_cons.1 h).2

theorem mem_putCueRec {c x : CueRec} {cues : List CueRec} (h : x ∈ putCueRec c cues) : x = c ∨ x ∈ cues := by
  induction cues with
  | nil => simp [putCueRec] at h; exact .inl h
  | cons y ys ih =>
    unfold putCueRec at h
    split at h
    · rcases List.mem_cons.1 h with e | e
      · exact .inl e
      · exact .inr (List.mem_cons_of_mem _ e)
    · split at h
      · rcases List.mem_cons.1 h with e | e
        · exact .inl e
        · exact .inr e
      · rcases List.mem_cons.1 h with e | e
        · exact .inr (e ▸ List.mem_cons_self ..)
        · rcases ih e with e | e
          · exact .inl e
          · exact .inr (List.mem_cons_of_mem _ e)

theorem putCueRec_ascending {c : CueRec} {cues : List CueRec} (h : cues.Pairwise (fun a b => a.num.lt b.num = true)) :
    (putCueRec c cues).Pairwise (fun a b => a.num.lt b.num = true) := by
  induction cues with
  | nil => simp [putCueRec]
  | cons x xs ih =>
    obtain ⟨h1, h2⟩ := List.pairwise_cons.1 h
    unfold putCueRec
    split
    · rename_i e
      exact List.pairwise_cons.2 ⟨fun y hy => by rw [← e]; exact h1 y hy, h2⟩
    · rename_i hne
      split
      · rename_i hlt
        refine List.pairwise_cons.2 ⟨fun y hy => ?_, h⟩
        rcases List.mem_cons.1 hy with e | e
        · rw [e]; exact hlt
        · exact CueNum.lt_trans hlt (h1 y e)
      · rename_i hlt
        refine List.pairwise_cons.2 ⟨fun y hy => ?_, ih h2⟩
        rcases mem_putCueRec hy with e | e
        · rw [e]; exact CueNum.lt_of_not (by simpa using hlt) hne
        · exact h1 y e

theorem length_putCueRec_new {c : CueRec} {cues : List CueRec} (h : findCue cues c.num = none) :
    (putCueRec c cues).length = cues.length + 1 := by
  rw [findCue_eq_none] at h
  induction cues with
  | nil => rfl
  | cons x xs ih =>
    unfold putCueRec
    rw [if_neg (h x (List.mem_cons_self ..))]
    split
    · rfl
    · simp [ih (fun y hy => h y (List.mem_cons_of_mem _ hy))]

theorem length_putCueRec_old {c old : CueRec} {cues : List CueRec} (hp : cues.Pairwise (fun a b => a.num.lt b.num = true))
    (h : findCue cues c.num = some old) : (putCueRec c cues).length = cues.length := by
  induction cues with
  | nil => simp [findCue] at h
  | cons x xs ih =>
    obtain ⟨h1, h2⟩ := List.pairwise_cons.1 hp
    unfold putCueRec
    split
    · rfl
    · rename_i hne
      have hx : findCue xs c.num = some old := by
        unfold findCue at *; simpa [List.find?_cons, hne] using h
      rw [if_neg]
      · simp [ih h2 hx]
      · intro hlt
        have hl := h1 old (findCue_mem hx)
        rw [findCue_num hx] at hl
        have := CueNum.lt_trans hlt hl
        rw [CueNum.lt_irrefl] at this; cases this

theorem dropCueRec_ascending {cues : List CueRec} (n : CueNum) (h : cues.Pairwise (fun a b => a.num.lt b.num = true)) :
    (dropCueRec n cues).Pairwise (fun a b => a.num.lt b.num = true) := h.filter _

theorem findCue_dropCueRec_ne {cues : List CueRec} {n m : CueNum} (h : m ≠ n) :
    findCue (dropCueRec n cues) m = findCue cues m := by
  unfold findCue dropCueRec
  rw [List.find?_filter]
  congr 1
  funext x
  by_cases e : x.num = m
  · have : ¬ x.num = n := by rw [e]; exact h
    simp [e, h]
  · simp [e]

theorem cueInUse_iff {s : State} {n : CueNum} : s.cueInUse n = true ↔ CueInUse s n := by
  simp [State.cueInUse, CueInUse, or_assoc]

/-! ## The text store -/

theorem textsAscending_iff {texts : List TextRec} :
    textsAscending texts = true ↔ texts.Pairwise (fun a b => a.id < b.id) := by simp [textsAscending]

theorem findText_id {texts : List TextRec} {i : Nat} {t : TextRec} (h : findText texts i = some t) : t.id = i := by
  simpa using List.find?_some h

theorem findText_mem {texts : List TextRec} {i : Nat} {t : TextRec} (h : findText texts i = some t) : t ∈ texts :=
  List.mem_of_find?_eq_some h

theorem findText_eq_none {texts : List TextRec} {i : Nat} : findText texts i = none ↔ ∀ t ∈ texts, t.id ≠ i := by
  simp [findText]

theorem findText_isSome {texts : List TextRec} {i : Nat} : (findText texts i).isSome = true ↔ i ∈ texts.map TextRec.id := by
  simp [findText]

theorem findText_putTextRec_ne (i : Nat) (bytes : List Byte) (texts : List TextRec) {j : Nat} (h : j ≠ i) :
    findText (putTextRec i bytes texts) j = findText texts j := by
  have hi : ¬ i = j := fun e => h e.symm
  induction texts with
  | nil => simp [putTextRec, findText, hi]
  | cons x xs ih =>
    unfold putTextRec
    split
    · rename_i e
      have : ¬ x.id = j := by rw [e]; exact hi
      simp [findText, this]
    · split
      · simp [findText, hi]
      · unfold findText at *
        simp only [List.find?_cons]
        split
        · rfl
        · exact ih

theorem findText_putTextRec_new {i : Nat} {texts : List TextRec} (bytes : List Byte) (h : findText texts i = none) :
    findText (putTextRec i bytes texts) i = some { id := i, bytes := bytes, refs := 0 } := by
  rw [findText_eq_none] at h
  induction texts with
  | nil => simp [putTextRec, findText]
  | cons x xs ih =>
    unfold putTextRec
    rw [if_neg (h x (List.mem_cons_self ..))]
    split
    · simp [findText]
    · have := ih (fun y hy => h y (List.mem_cons_of_mem _ hy))
      unfold findText at *
      simp only [List.find?_cons, h x (List.mem_cons_self ..), decide_false]
      exact this

theorem findText_putTextRec_old {i : Nat} {texts : List TextRec} {old : TextRec} (bytes : List Byte)
    (hp : texts.Pairwise (fun a b => a.id < b.id)) (h : findText texts i = some old) :
    findText (putTextRec i bytes texts) i = some { old with bytes := bytes } := by
  induction texts with
  | nil => simp [findText] at h
  | cons x xs ih =>
    obtain ⟨h1, h2⟩ := List.pairwise_cons.1 hp
    unfold putTextRec
    split
    · rename_i e
      unfold findText at *
      simp [e] at h ⊢
      exact ⟨by rw [← h, e], by rw [h]⟩
    · rename_i hne
      have hx : findText xs i = some old := by
        unfold findText at *; simpa [List.find?_cons, hne] using h
      have hlt := h1 old (findText_mem hx)
      rw [findText_id hx] at hlt
      rw [if_neg (by omega)]
      have := ih h2 hx
      unfold findText at *
      simp only [List.find?_cons, hne, decide_false]
      exact this

theorem mem_putTextRec {i : Nat} {bytes : List Byte} {x : TextRec} {texts : List TextRec}
    (h : x ∈ putTextRec i bytes texts) : x.id = i ∨ x ∈ texts := by
  induction texts with
  | nil => simp [putTextRec] at h; exact .inl (by rw [h])
  | cons y ys ih =>
    unfold putTextRec at h
    split at h
    · rename_i e
      rcases List.mem_cons.1 h with e' | e'
      · exact .inl (by rw [e']; exact e)
      · exact .inr (List.mem_cons_of_mem _ e')
    · split at h
      · rcases List.mem_cons.1 h with e | e
        · exact .inl (by rw [e])
        · exact .inr e
      · rcases List.mem_cons.1 h with e | e
        · exact .inr (e ▸ List.mem_cons_self ..)
        · rcases ih e with e | e
          · exact .inl e
          · exact .inr (List.mem_cons_of_mem _ e)

theorem putTextRec_ascending {i : Nat} {bytes : List Byte} {texts : List TextRec}
    (h : texts.Pairwise (fun a b => a.id < b.id)) : (putTextRec i bytes texts).Pairwise (fun a b => a.id < b.id) := by
  induction texts with
  | nil => simp [putTextRec]
  | cons x xs ih =>
    obtain ⟨h1, h2⟩ := List.pairwise_cons.1 h
    unfold putTextRec
    split
    · exact List.pairwise_cons.2 ⟨fun y hy => h1 y hy, h2⟩
    · rename_i hne
      split
      · rename_i hlt
        refine List.pairwise_cons.2 ⟨fun y hy => ?_, h⟩
        rcases List.mem_cons.1 hy with e | e
        · rw [e]; exact hlt
        · exact lt_trans hlt (h1 y e)
      · rename_i hlt
        refine List.pairwise_cons.2 ⟨fun y hy => ?_, ih h2⟩
        rcases mem_putTextRec hy with e | e
        · rw [e]; omega
        · exact h1 y e

theorem length_putTextRec_new {i : Nat} {texts : List TextRec} (bytes : List Byte) (h : findText texts i = none) :
    (putTextRec i bytes texts).length = texts.length + 1 ∧
      byteTotal (putTextRec i bytes texts) = byteTotal texts + bytes.length := by
  rw [findText_eq_none] at h
  induction texts with
  | nil => simp [putTextRec, byteTotal]
  | cons x xs ih =>
    unfold putTextRec
    rw [if_neg (h x (List.mem_cons_self ..))]
    split
    · simp [byteTotal]; omega
    · have := ih (fun y hy => h y (List.mem_cons_of_mem _ hy))
      simp only [byteTotal, List.length_cons, List.map_cons, List.sum_cons] at *
      omega

theorem length_putTextRec_old {i : Nat} {texts : List TextRec} {old : TextRec} (bytes : List Byte)
    (hp : texts.Pairwise (fun a b => a.id < b.id)) (h : findText texts i = some old) :
    (putTextRec i bytes texts).length = texts.length ∧
      byteTotal (putTextRec i bytes texts) = byteTotal texts - old.bytes.length + bytes.length ∧
      old.bytes.length ≤ byteTotal texts := by
  induction texts with
  | nil => simp [findText] at h
  | cons x xs ih =>
    obtain ⟨h1, h2⟩ := List.pairwise_cons.1 hp
    unfold putTextRec
    split
    · rename_i e
      have hx : x = old := by unfold findText at h; simpa [e] using h
      subst hx
      simp [byteTotal]; omega
    · rename_i hne
      have hx : findText xs i = some old := by
        unfold findText at *; simpa [List.find?_cons, hne] using h
      have hlt := h1 old (findText_mem hx)
      rw [findText_id hx] at hlt
      rw [if_neg (by omega)]
      have := ih h2 hx
      simp only [byteTotal, List.length_cons, List.map_cons, List.sum_cons] at *
      omega

@[simp] theorem addNames_ids (names : List Nat) (texts : List TextRec) :
    (addNames names texts).map TextRec.id = texts.map TextRec.id := by simp [addNames]

@[simp] theorem removeNames_ids (names : List Nat) (texts : List TextRec) :
    (removeNames names texts).map TextRec.id = texts.map TextRec.id := by simp [removeNames]

theorem ascending_of_ids {xs ys : List TextRec} (h : ys.map TextRec.id = xs.map TextRec.id)
    (hp : xs.Pairwise (fun a b => a.id < b.id)) : ys.Pairwise (fun a b => a.id < b.id) := by
  have : (ys.map TextRec.id).Pairwise (· < ·) := by rw [h, List.pairwise_map]; exact hp
  rwa [List.pairwise_map] at this

theorem onScreen_iff {s : State} {i : Nat} : s.onScreen i = true ↔ TextOnScreen s i := by
  simp only [State.onScreen, TextOnScreen, List.any_eq_true, Bool.or_eq_true, List.contains_iff_mem]
  constructor
  · rintro ⟨h, -, hm | hm⟩
    · exact ⟨h, .base, hm⟩
    · exact ⟨h, .overlay, hm⟩
  · rintro ⟨h, l, hm⟩
    refine ⟨h, mem_allHeads h, ?_⟩
    cases l
    · exact .inl hm
    · exact .inr hm

end Sys2Proof.Machine
end

