-- ==== Sys2Proof/Tests/Slice0.lean ====
section
/-! SUPPORT. The package's own tests: which commands a line can carry, a few single steps against the manual's numbers, and for every
statement with hypotheses a concrete state and operands that meet all of them, each of its clauses at a boundary value. -/

set_option Elab.async false

open Sys2Proof Sys2Proof.Machine

namespace Sys2Proof.Tests

/-! ## Which commands a line can carry -/

theorem test_frame_of_240_bytes_fits :
    Instr.wellFormed (.frameReceived .A 0 0x01 (List.replicate 240 0) 0) = true := by decide +kernel
theorem test_frame_of_241_bytes_refused :
    Instr.wellFormed (.frameReceived .A 0 0x01 (List.replicate 241 0) 0) = false := by decide +kernel
theorem test_unlock_of_241_bytes_refused : Instr.wellFormed (.unlock .A 0 (List.replicate 241 0)) = false := by
  decide +kernel

/-! ## States to test on -/

/-- A request of this kind with tag 7. -/
def req (k : ReqKind) (pl : List Byte) : Request := { tag := 7, kind := k.code, payload := pl, drop := false }

/-- The state with one request in a port's queue. -/
def asks (p : Port) (k : ReqKind) (pl : List Byte) (s : State) : State := s.onPort p (fun u => { u with queue := [req k pl] })

/-- The request of the port executes now in a settled state. -/
def executes (s : State) (p : Port) (k : ReqKind) (pl : List Byte) : Bool :=
  decide (s.settle.ports = s.ports) && decide (s.turn p = some (req k pl)) && k.lengthOk pl.length
    && (k.needs pl).all (s.hasFlag p)

/-- With this request queued on s it executes, in a settled state, and the state has the property: the hypotheses of the
statements about requests. -/
def meets (s : State) (p : Port) (k : ReqKind) (pl : List Byte) (h : State → Bool := fun _ => true) : Bool :=
  executes (asks p k pl s) p k pl && h (asks p k pl s)

theorem settled_of_ports {s : State} (h : s.settle.ports = s.ports) : Settled s := by
  show s.withPorts s.settle.ports = s
  rw [h]; rfl

theorem executes_spec {s : State} {p : Port} {k : ReqKind} {pl : List Byte} (h : executes s p k pl = true) :
    Settled s ∧ Executes s p k (req k pl) := by
  simp only [executes, Bool.and_eq_true, decide_eq_true_iff, List.all_eq_true] at h
  obtain ⟨⟨⟨h1, h2⟩, h3⟩, h4⟩ := h
  exact ⟨settled_of_ports h1, h2, rfl, rfl, h3, h4⟩

/-- What a witness below says. -/
theorem meets_spec {s : State} {p : Port} {k : ReqKind} {pl : List Byte} {h : State → Bool} (m : meets s p k pl h = true) :
    Settled (asks p k pl s) ∧ Executes (asks p k pl s) p k (req k pl) ∧ h (asks p k pl s) = true := by
  simp only [meets, Bool.and_eq_true] at m
  exact ⟨(executes_spec m.1).1, (executes_spec m.1).2, m.2⟩

/-- The response a command made on a port, if it is still being sent: its payload. -/
def answerOf (p : Port) : Host.Outcome State Fault Refusal → Option (List Byte)
  | .next t => (t.port p).sending.map OutFrame.payload
  | _ => none

def cue1 : CueNum := ⟨1, 0⟩
def cue2 : CueNum := ⟨2, 0⟩
def cue3 : CueNum := ⟨3, 0⟩
def cue9 : CueNum := ⟨9, 0⟩

/-- Three cues: a title on BASE of G0 with text 5, one that follows 10 ms later on OVER, and a mark after two beats. -/
def table : List CueRec :=
  [{ num := cue1, body := .title .base 1 [{ lang := 0, text := 5 }] 100 200 300, trigger := .manual },
   { num := cue2, body := .title .overlay 1 [{ lang := 0, text := 5 }] 0 0 0, trigger := .afterTime 10 },
   { num := cue3, body := .mark, trigger := .afterBeats 2 }]

/-- That table and its text, with port A holding the call right. -/
def base : State :=
  ((State.reset.withCues table).withTexts [{ id := 5, bytes := [0x41], refs := 2 }]).withArbiter
    { State.reset.arbiter with holder := some .A }

/-- The show in a state, held from RUNNING if it is HELD. -/
def showIn (st : ShowState) (current standby : Option CueNum) : State :=
  base.withEngine { state := st, heldFrom := .running, current := current, standby := standby }

/-- The show running after cue 1. -/
def running : State := showIn .running (some cue1) (some cue2)

/-- With these Run Queue entries. -/
def withEntries (es : List RunEntry) (s : State) : State := s.withRun { s.run with entries := es }

/-- With this floor on BASE of G0. -/
def withFloor (f : Nat) (s : State) : State := s.withRun (s.run.setTable 0 .base { owner := some cue1, floor := f })

/-- With these Beat Unit settings. -/
def withBeats (src : BeatSource) (guard : Nat) (settling : Bool) (last : Option Nat) (s : State) : State :=
  (s.withTime 1000).withBeat { s.beat with source := src, guard := guard, settling := settling, lastAccepted := last }

/-- With this claim list and holder. -/
def withRight (holder : Option Port) (claims : List Port) (s : State) : State :=
  s.withArbiter { s.arbiter with holder := holder, claims := claims }

/-- With head 0 in this state and these slots. -/
def withHead (st : HeadState) (out : Bool) (b o : Slot) (s : State) : State :=
  s.setHead 0 { s.head 0 with state := st, outOfStep := out, baseSlot := b, overSlot := o }

def part5 : TextPart := { text := 5, fadeIn := 10, fadeOut := 20, cue := cue1 }

def probe0 : Command := { id := 0, head := 0, body := .probe, seq := some 3 }
def take0 : Command := { id := 0, head := 0, body := .take .base 0 none, seq := some 3 }

/-- With n copies of a command in the link's queue. -/
def withQueue (n : Nat) (c : Command) (s : State) : State := s.withLink { s.link with queue := List.replicate n c }

/-- With a command in flight. -/
def inFlight (ph : LinkPhase) (attempts limit hold : Nat) (cs : List Command) (s : State) : State :=
  s.withLink { s.link with
    queue := cs, phase := ph, attempts := attempts, retryLimit := limit, holdOff := hold, nextId := 1 }

/-- With port B's SYNC waiting for the command with serial number 0 and one that has left. -/
def syncWaits (waiting : List Nat) (s : State) : State :=
  s.onPort .B (fun u => { u with
    queue := [req .sync []], sync := some { waiting := waiting, total := 2, unacked := 1 } })

/-- With head 3 ONLINE and out of step. -/
def head3Behind (s : State) : State := s.setHead 3 { s.head 3 with state := .online, outOfStep := true }

/-! ## Single steps -/

theorem test_crc_check_value : crc16 [0x31, 0x32, 0x33, 0x34, 0x35, 0x36, 0x37, 0x38, 0x39] = 0x29B1 := by decide +kernel

theorem test_open_answers_first_cue :
    answerOf .A (exec (.openShow .A) (asks .A .openShow [] (showIn .idle none none))) = some [0, 1, 0, 0] := by decide +kernel

theorem test_go_answers_fired_and_standby :
    answerOf .A (exec (.go .A) (asks .A .go [] (showIn .ready none (some cue1)))) = some [0, 1, 0, 0, 2, 0, 0] := by
  decide +kernel

theorem test_go_with_a_stale_cue :
    answerOf .A (exec (.go .A) (asks .A .go [1, 0, 0] (showIn .ready none (some cue2)))) = some [0x07] := by decide +kernel

theorem test_edit_without_edit_flag :
    answerOf .C (exec (.setLink .C) (asks .C .setLink [3, 2] base)) = some [0x03] := by decide +kernel

theorem test_claim_of_a_held_right_waits :
    answerOf .C (exec (.claim .C) (asks .C .claim [] base)) = some [0, 2, 1, 0xFF] := by decide +kernel

theorem test_forced_claim_takes_over :
    answerOf .C (exec (.claim .C) (asks .C .claim [1] base)) = some [0, 1, 0, 0] := by decide +kernel

theorem test_step_takes_the_front_command :
    answerOf .A (step ((asks .A .openShow [] (showIn .idle none none)).withPending [.openShow .A])) =
      some [0, 1, 0, 0] := by decide +kernel

theorem test_an_idle_card_takes_up_a_request :
    (match step (asks .A .openShow [] base) with | .next t => t.pending | _ => []) = [.openShow .A] := by decide +kernel

/-! ## Hypotheses met: the step, the reset, the invariants -/

theorem test_meets_EveryStepIsAnsweredByTheMachine :
    (State.reset.pending = [] ∧ State.reset.ready = []) ∧
    (let s := fun n m f => withHead .online false (.rising part5 f) (.falling part5 none f)
        (withFloor m (withEntries [.follow cue2 .time 10 n] running));
      ((s 2 2 2).pending = [] ∧ (s 2 2 2).ready = [] ∧ (s 2 2 2).engine.state = .running) ∧
      ((s 1 1 1).ready = [] ∧ RunEntry.follow cue2 .time 10 1 ∈ (s 1 1 1).run.entries ∧
        ((s 1 1 1).run.table 0 .base).floor = 1 ∧ ((s 1 1 1).head 0).slot .base = .rising part5 1)) ∧
      (asks .A .openShow [] base).pending = [] ∧ (asks .A .openShow [] base).ready ≠ [] := by decide +kernel

/-- A millisecond that ends a count makes its event due and leaves the count at its last one. -/
theorem test_a_millisecond_ends_a_floor :
    (match step (withFloor 1 running) with
      | .next t => decide (t.due = [.floorEnd 0 .base] ∧ (t.run.table 0 .base).floor = 1) | _ => false) = true := by decide +kernel

theorem test_meets_PowerOnAndResetGiveResetValues :
    Straps.of ⟨0, 1, 2⟩ .A = 0 ∧ Straps.of ⟨0, 1, 2⟩ .B = 1 ∧ Straps.of ⟨0, 1, 2⟩ .C = 2 ∧ Straps.of ⟨0, 1, 3⟩ .C = 3 ∧
      Profile.has .desk .edit = true ∧ Profile.has .backup .takeover = true ∧ Profile.has .stage .admin = true := by decide

/-- A state that obeys every law and has a command to take: the card just reset, its BEAT input rising. -/
def edgeComes : State := State.reset.withPending [.beatEdge true]

theorem test_meets_KeptByStep : (∃ t, step edgeComes = .next t) ∧
    StoresAscending edgeComes ∧ RequestQueueLaw edgeComes ∧ Settled edgeComes ∧ CallRightLaw edgeComes ∧
    RunQueueLaw edgeComes ∧ ShowStateLaw edgeComes ∧ PositionLaw edgeComes ∧ FollowLaw edgeComes ∧
    CommandQueueLaw edgeComes ∧ LinkPhaseLaw edgeComes ∧ ReferenceLaw edgeComes := by
  have hh : ∀ h : HeadId, edgeComes.head h = Head.atReset := fun h => by
    simp [edgeComes, State.reset, State.resetWith, State.head, State.withPending]
  refine ⟨⟨_, rfl⟩, ⟨by decide, by decide⟩, fun p => by cases p <;> decide, settled_of_ports rfl,
    ⟨by decide, by decide, (fun p h => by cases h), (fun _ => rfl), by decide,
      (fun p h => by rcases h with h | h <;> cases h), fun p h => by cases p <;> cases h⟩,
    ⟨(fun g l h => by cases h), by decide, (fun g l => by simp [edgeComes, State.reset, State.resetWith, State.withPending]),
      (fun _ => rfl), fun _ _ => rfl⟩,
    ⟨(fun _ => ⟨rfl, rfl⟩), (fun h => by cases h), (fun h => by cases h), fun h => by cases h⟩,
    ⟨(fun n h => by cases h), (fun n h => by cases h), fun e h => by cases h⟩, (fun c m f n h => by cases h),
    ⟨by decide, (fun c h => by cases h), (fun h _ => by simp [edgeComes, State.reset, State.resetWith, State.withPending]),
      (fun h _ _ => rfl), (fun h _ => by rw [hh]; rfl), by decide, (fun c h => by cases h), fun p w h => by cases p <;> cases h⟩,
    ⟨(fun _ => ⟨rfl, rfl⟩), (fun n h => by cases h), fun h => absurd rfl h⟩,
    ⟨(fun c h => by cases h), (fun c h => by cases h), (fun i h => ?_), fun t h => by cases h⟩⟩
  exfalso
  have e : edgeComes.cueNames ++ edgeComes.slotNames = [] := by decide +kernel
  rw [e] at h; cases h

theorem test_meets_HeldFreezesAndCapturesKeep :
    ((showIn .held (some cue1) (some cue2)).engine.state = .held ∧ (showIn .held (some cue1) (some cue2)).pending = []) ∧
    ((asks .A .openShow [] State.reset).onPort .A (fun u => { u with capture := some ⟨1, 2, .form, false⟩ })).ports.a.capture =
      some ⟨1, 2, .form, false⟩ ∧
    (State.reset.withLink { State.reset.link with capture := some ⟨0, .put, some .base, 4, some cue1, false⟩ }).link.capture =
      some ⟨0, .put, some .base, 4, some cue1, false⟩ := by decide +kernel

theorem test_meets_RaisingACauseActsOnThePortsSets :
    let u : PortUnit := { PortUnit.atReset with
      enabled := 2, pending := [.held .ready, .closed .B], outgoing := [.notice (.held .ready)] }
    u.pending.Pairwise (fun a b => a.cause.code < b.cause.code) ∧
    u.isPending .held = true ∧ u.isPending .fired = false ∧ hasCause u.enabled .held = true ∧
      hasCause u.enabled .fired = false ∧ u.outgoing = [] ++ .notice (.held .ready) :: [] ∧
      hasCause (2 : CauseSet) .held = true ∧ (∀ f ∈ ([] : List OutFrame), f.noticeOf .held = false) := by decide

theorem test_meets_ReceiverAssemblesFrames :
    Settled State.reset ∧ (State.reset.port .A).inBreak = false ∧ (State.reset.port .A).receiver = .hunting ∧
      (List.replicate 240 (0 : Byte)).length ≤ 240 ∧ ([] : List Byte).length ≤ 240 :=
  ⟨settled_of_ports rfl, rfl, rfl, List.length_replicate.le, Nat.zero_le _⟩

theorem test_meets_CueRecordLayoutReadsBack :
    (∀ c ∈ table, cueRecOf c.bytes = some c) ∧
    CueRec.WellFormed { num := ⟨9999, 9⟩, body := .title .overlay 255 [⟨0, 0⟩, ⟨7, 16383⟩] 2550 0 5000, trigger := .afterTime 600000 } ∧
    CueRec.WellFormed { num := ⟨1, 0⟩, body := .clear none 1 0, trigger := .afterBeats 255 } := by
  refine ⟨by decide +kernel, ⟨by decide, ?_, by decide⟩, ⟨by decide, ?_, by decide⟩⟩ <;> dsimp only <;> decide

/-- A cause raised again keeps its place, its newest detail alone, and joins the repeat set. -/
theorem test_an_earlier_raise_is_not_kept :
    let u := ((PortUnit.atReset.raise (.closed .A)).raise (.held .ready)).raise (.closed .B);
    u.pending = [.held .ready, .closed .B] ∧ u.repeats = addCause 0 .closed := by decide

theorem test_meets_FrameSizesAndCheckValue :
    (∃ lo hi : Byte, (crc16 [7, 0x03, 0]).toNat = lo.toNat + 256 * hi.toNat) ∧
    ∀ c ∈ [Command.mk 0 15 (.put .base [0x41] 2550 ⟨9999, 9⟩) none, ⟨0, 0, .take .overlay 0 (some cue1), none⟩, take0, probe0],
      ∃ lo hi : Byte, (crc16 (c.core 3)).toNat = lo.toNat + 256 * hi.toNat := by
  have two : ∀ x : BitVec 16, ∃ lo hi : Byte, x.toNat = lo.toNat + 256 * hi.toNat := fun x =>
    ⟨BitVec.ofNat 8 x.toNat, BitVec.ofNat 8 (x.toNat / 256), by have := x.isLt; simp only [BitVec.toNat_ofNat]; omega⟩
  exact ⟨two _, fun c _ => two _⟩

/-! ## Hypotheses met: the checks before the owner -/

theorem test_meets_ClassAndRoleChecksRefuseAndLock :
    let unknown := State.reset.onPort .A (fun u => { u with queue := [⟨7, 0x7F, [], false⟩] });
    (Settled unknown ∧ unknown.turn .A = some ⟨7, 0x7F, [], false⟩ ∧ ReqKind.ofCode 0x7F = none) ∧
    (ReqKind.lengthOk .go 1 = false ∧ ReqKind.lengthOk .go 3 = true ∧
      (asks .A .go [0] State.reset).turn .A = some (req .go [0])) ∧
    ((asks .A .hold [] State.reset).turn .A = some (req .hold []) ∧ ReqKind.lengthOk .hold 0 = true ∧
      Flag.hold ∈ ReqKind.needs .hold [] ∧ (State.reset.arbiter.roles.get .A).profile.has .hold = false) := by
  refine ⟨⟨settled_of_ports (by decide +kernel), by decide +kernel⟩, by decide +kernel⟩

theorem test_meets_HolderRequestsNeedTheCallRight :
    ∀ x ∈ [(ReqKind.openShow, ([] : List Byte)), (.closeShow, []), (.go, []), (.back, []), (.standby, [1, 0, 0]), (.beat, [])],
      meets base .B x.1 x.2 (fun s => decide (s.arbiter.holder ≠ some .B)) = true := by decide +kernel

/-! ## Hypotheses met: the Show Engine -/

/-- Port A holds the call right. -/
def byA (s : State) : Bool := decide (s.arbiter.holder = some .A)

theorem test_meets_OpenTests :
    meets running .A .openShow [] (fun s => byA s && decide (s.engine.state ≠ .idle)) ∧
    meets (showIn .idle none none) .A .openShow [0, 0, 0] (fun s => byA s && decide (s.engine.state = .idle)) ∧
    optCueOf [0, 0, 0] = some ⟨0, 0⟩ ∧ CueNum.valid ⟨0, 0⟩ = false ∧ CueNum.valid ⟨10000, 0⟩ = false ∧
    CueNum.valid ⟨9999, 9⟩ = true ∧ CueNum.valid ⟨1, 10⟩ = false ∧
    meets ((showIn .idle none none).withCues []) .A .openShow [] (fun s => byA s && decide (s.cues = [])) ∧
    meets (showIn .idle none none) .A .openShow [9, 0, 0] (fun s => byA s && decide (findCue s.cues cue9 = none)) := by
  decide +kernel

theorem test_meets_OpenOpensTheShow :
    meets (showIn .idle none none) .A .openShow []
      (fun s => byA s && decide ((firstCue s.cues).map CueRec.num = some cue1)) ∧
    meets (showIn .idle none none) .A .openShow [2, 0, 0] (fun s => byA s && (findCue s.cues cue2).isSome) ∧
    StoresAscending base ∧
    ((cueAfter table cue3).isNone ∧ (cueBefore table cue1).isNone ∧ (cueFrom table cue9).isNone ∧
      (cueAfter table cue1).map CueRec.num = some cue2 ∧ (cueBefore table cue3).map CueRec.num = some cue2 ∧
      (cueFrom table cue3).map CueRec.num = some cue3) := by
  refine ⟨by decide +kernel, by decide +kernel, ⟨by decide +kernel, by decide +kernel⟩, by decide +kernel⟩

theorem test_meets_CloseTakesTheShowDown :
    meets (showIn .idle none none) .A .closeShow [] byA ∧ meets running .A .closeShow [] byA ∧
    meets (withHead .online false (.falling part5 (some part5) 5) (.falling part5 (some part5) 5) running) .A .closeShow []
      (fun s => byA s && (s.head 0).enabled && decide (2 ≤ (displacedBy (closeMoves s)).length)) ∧
    meets (withHead .online false (.lit part5) .dark running) .A .closeShow []
      (fun s => byA s && (s.head 0).enabled && decide (displacedBy (closeMoves s) = [])) := by decide +kernel

theorem test_meets_GoTests :
    meets (showIn .idle none none) .A .go [] byA ∧ meets (showIn .held none (some cue1)) .A .go [] byA ∧
    meets (showIn .ready none (some cue1)) .A .go [0, 0, 0] byA ∧
    meets (showIn .running (some cue3) none) .A .go [] (fun s => byA s && decide (s.engine.standby = none)) ∧
    meets running .A .go [1, 0, 0] (fun s => byA s && decide (s.engine.standby = some cue2 ∧ cue1 ≠ cue2)) := by
  decide +kernel

theorem test_meets_GoFiresTheStandbyCue :
    meets (showIn .ready none (some cue1)) .A .go [] byA ∧
    meets running .A .go [2, 0, 0] (fun s => byA s && decide (s.engine.standby = some cue2)) ∧
    meets (showIn .running (some cue2) (some cue3)) .A .go []
      (fun s => byA s && decide ((s.watch.condition cue3) = false ∧ cueAfter s.cues cue3 = none)) := by decide +kernel

theorem runQueueLaw_running {es : List RunEntry} {f : Nat}
    (h1 : ∀ g l, es.any (RunEntry.waitsOn g l) = true → ((withFloor f running).run.table g l).floor ≠ 0)
    (h2 : (es.filter RunEntry.isFollow).length ≤ 1) (h3 : ∀ g l, (es.filter (RunEntry.waitsOn g l)).length ≤ 1)
    (k : ReqKind) (pl : List Byte) : RunQueueLaw (asks .A k pl (withEntries es (withFloor f running))) :=
  ⟨h1, h2, h3, (fun h => by rcases h with h | h <;> cases h), fun h => by cases h⟩

/-- Port A sends GO or BACK in the running show, with a change waiting on BASE of G0. -/
def waiting : List RunEntry := [.deferred 0 .base cue3 (.port .A)]

theorem test_meets_GoAppliesOrDefersItsChanges :
    RunQueueLaw (asks .A .go [] (withEntries [] (withFloor 0 running))) ∧
    RunQueueLaw (asks .A .go [] (withEntries waiting (withFloor 1 running))) ∧
    meets ((withEntries [] (withFloor 0 running)).withEngine ⟨.ready, .ready, none, some cue1⟩) .A .go []
      (fun s => byA s && (findCue s.cues cue1).isSome && decide ((s.run.table 0 .base).floor = 0)) ∧
    meets ((withEntries waiting (withFloor 1 running)).withEngine ⟨.running, .ready, some cue3, some cue1⟩) .A .go []
      (fun s => byA s && decide ((s.run.table 0 .base).floor ≠ 0)
        && (findCue s.cues cue1).any (fun c => decide (skippedBy s c = [.skipped 0 .base cue3]))) ∧
    meets (withHead .online false (.falling part5 (some part5) 5) .dark
        ((withFloor 0 running).withEngine ⟨.ready, .ready, none, some cue1⟩)) .A .go []
      (fun s => (findCue s.cues cue1).any (fun c => decide (displacedBy (changeMoves s c [(0, .base)]) = [(0, .base, cue1)]))) ∧
    (∃ c ∈ table, c.num = cue1 ∧ (0, Layer.base) ∈ c.body.groupLayers ∧ (1, Layer.base) ∉ c.body.groupLayers) := by
  refine ⟨runQueueLaw_running (by simp) (by simp) (by simp) _ _, runQueueLaw_running ?_ (by decide) ?_ _ _, by decide +kernel⟩
  · intro g l h
    have e : g = 0 ∧ l = .base := by
      simp [waiting, RunEntry.waitsOn] at h; exact ⟨h.1.symm, h.2.symm⟩
    rw [e.1, e.2]; decide +kernel
  · intro g l; exact List.length_filter_le _ _

theorem test_meets_BackTests :
    meets (showIn .idle none none) .A .back [] byA ∧ meets (showIn .ready none (some cue1)) .A .back [] byA ∧
    meets (showIn .held (some cue1) none) .A .back [] byA ∧
    meets running .A .back [] (fun s => byA s && decide (s.engine.current.bind (cueBefore s.cues) = none)) := by decide +kernel

theorem test_meets_BackRecallsTheCueBefore :
    meets (withEntries waiting (withFloor 1 (showIn .running (some cue2) (some cue3)))) .A .back []
      (fun s => byA s && decide ((cueBefore s.cues cue2).map CueRec.num = some cue1) && (findCue s.cues cue1).isSome
        && (findCue s.cues cue2).isSome) := by
  decide +kernel

theorem test_meets_StandbyMovesThePosition :
    meets (showIn .idle none none) .A .standby [1, 0, 0] byA ∧ meets running .A .standby [1, 0, 10] byA ∧
    meets running .A .standby [9, 0, 0] (fun s => byA s && decide (findCue s.cues cue9 = none)) ∧
    meets (withEntries [.follow cue2 .time 10 10] running) .A .standby [3, 0, 0]
      (fun s => byA s && (findCue s.cues cue3).isSome) := by decide +kernel

theorem test_meets_HoldAndReleaseFreezeAndResume :
    meets (showIn .idle none none) .C .hold [] ∧ meets (showIn .held (some cue1) none) .C .hold [] ∧
    meets (showIn .ready none (some cue1)) .C .hold [] (fun s => decide (s.engine.state = HeldFrom.ready.state)) ∧
    meets running .C .hold [] (fun s => decide (s.engine.state = HeldFrom.running.state)) ∧
    meets running .C .release [] (fun s => decide (s.engine.state ≠ .held)) ∧
    meets (showIn .held (some cue1) none) .C .release [] := by decide +kernel

/-- The laws of the Run Queue hold where one FOLLOW entry stands alone. -/
theorem test_meets_FollowingRunQueueLaw (e : RunEntry) (h : e.isFollow = true) : RunQueueLaw (withEntries [e] running) := by
  have hw : ∀ g l, e.waitsOn g l = false := fun g l => by cases e <;> first | rfl | cases h
  refine ⟨fun g l x => ?_, ?_, fun g l => ?_, (fun h => by rcases h with h | h <;> cases h), fun h => by cases h⟩
  · simp [withEntries, hw] at x
  · exact List.length_filter_le _ _
  · exact List.length_filter_le _ _

/-- RELEASE takes from the due events the ends of the counts that stood still, and no other. -/
theorem test_release_keeps_no_due_count_end :
    (match exec (.release .C) ((asks .C .release [] (showIn .held (some cue1) none)).withDue
        [.followExpiry, .floorEnd 0 .base, .fadeEnd 0 .base]) with
      | .next t => t.due | _ => []) = [.fadeEnd 0 .base] := by decide +kernel

theorem test_meets_FollowExpiryAndFloorEnd :
    let follows := withEntries [.follow cue2 .time 10 1] running;
    let floors := withFloor 1 running;
    let defers := withEntries [.deferred 0 .base cue1 .auto] floors;
    (follows.engine.state = .running ∧ follows.run.entries.find? RunEntry.isFollow = some (.follow cue2 .time 10 1) ∧
      (findCue follows.cues cue2).isSome = true) ∧
    (floors.settle.ports = floors.ports ∧ floors.run.entries.find? (RunEntry.waitsOn 0 .base) = none) ∧
    (defers.engine.state = .running ∧ (findCue defers.cues cue1).isSome = true ∧
      defers.run.entries.find? (RunEntry.waitsOn 0 .base) = some (.deferred 0 .base cue1 .auto)) := by decide +kernel

/-! ## Hypotheses met: the invariants of every step

One show under way that obeys every law: cue 1 fired, its deferred change waiting under a floor, cue 2 counting down, its text
falling off head 0 and the TAKE in flight, port A with the right, C waiting for it and B LOCKED. -/

def lawful : State :=
  let s := inFlight (.waiting 5) 1 3 2 [take0] (withHead .online false (.falling part5 none 20) .dark
    (withFloor 100 (withEntries [.follow cue2 .time 10 4, .deferred 0 .base cue1 (.port .A)] (withRight (some .A) [.C] running))));
  (s.withTexts [{ id := 5, bytes := [0x41], refs := 3 }]).onPort .B (fun u => { u with
    locked := true, queue := [req .go []], pending := [.fired cue1 (.port .A) .go, .refusal 7 0x03 .role]
    repeats := addCause 0 .refusal })

theorem lawful_steps : ∃ t, step lawful = .next t := ⟨lawful.idle, rfl⟩

theorem test_meets_EveryStepKeepsStoresQueuesAndLines :
    StoresAscending lawful ∧ StoreLimits lawful ∧ RequestQueueLaw lawful ∧ CauseSetsLaw lawful ∧ Settled lawful ∧
      ∃ t, step lawful = .next t :=
  ⟨⟨by decide +kernel, by decide +kernel⟩,
    ⟨by decide +kernel, by decide +kernel, by decide +kernel, by decide +kernel⟩, fun p => by cases p <;> decide +kernel,
    ⟨fun p => by cases p <;> decide +kernel, fun p x => by cases p <;> cases x <;> decide +kernel⟩,
    settled_of_ports (by decide +kernel), lawful_steps⟩

theorem test_meets_EveryStepKeepsTheCallRightLaw : CallRightLaw lawful ∧ ∃ t, step lawful = .next t :=
  ⟨{ atMostTwo := by decide +kernel
     noneTwice := by decide +kernel
     notHolder := fun p => by cases p <;> decide +kernel
     emptyWhenFree := by decide +kernel
     highFirst := by decide +kernel
     haveCall := fun p => by cases p <;> decide +kernel
     lockedHoldsNothing := fun p => by cases p <;> decide +kernel }, lawful_steps⟩

theorem lawful_runQueue : RunQueueLaw lawful :=
  { deferredWaits := fun g l => by revert g; cases l <;> decide +kernel
    oneFollow := by decide +kernel
    oneDeferred := fun g l => by revert g; cases l <;> decide +kernel
    emptyWhenIdleOrReady := by decide +kernel
    emptyWhenHeldFromReady := by decide +kernel }

theorem test_meets_EveryStepKeepsTheRunQueueAndShowStateLaws :
    RunQueueLaw lawful ∧ ShowStateLaw lawful ∧ ∃ t, step lawful = .next t :=
  ⟨lawful_runQueue, { idle := by decide +kernel, ready := by decide +kernel, running := by decide +kernel, held := by decide +kernel },
    lawful_steps⟩

theorem test_meets_EveryStepKeepsThePositionAndFollowLaws :
    RunQueueLaw lawful ∧ PositionLaw lawful ∧ FollowLaw lawful ∧ ∃ t, step lawful = .next t := by
  refine ⟨lawful_runQueue, ⟨?_, ?_, by decide +kernel⟩, ?_, lawful_steps⟩
  · intro n h; obtain rfl : cue1 = n := Option.some.inj h; decide +kernel
  · intro n h; obtain rfl : cue2 = n := Option.some.inj h; decide +kernel
  · intro c m full n h
    have h' : RunEntry.follow c m full n ∈ [RunEntry.follow cue2 .time 10 4, .deferred 0 .base cue1 (.port .A)] := h
    simp only [List.mem_cons, List.not_mem_nil, RunEntry.follow.injEq, reduceCtorEq, or_false] at h'
    obtain ⟨rfl, rfl, rfl, rfl⟩ := h'
    exact ⟨rfl, by decide, _, rfl, rfl⟩

theorem test_meets_EveryStepKeepsTheCommandQueueLaw : CommandQueueLaw lawful ∧ ∃ t, step lawful = .next t :=
  ⟨{ atMost := by decide +kernel, addressed := by decide +kernel, oneProbe := by decide +kernel,
     noneOutOfStep := by decide +kernel, inStep := by decide +kernel, idsDistinct := by decide +kernel,
     idsGiven := by decide +kernel, syncsWaitHere := fun p w h => by cases p <;> cases h }, lawful_steps⟩

theorem test_a_sync_waits_for_queued_commands_alone :
    ((syncWaits [0] lawful).port .B).sync.map SyncWait.waiting = some [0] ∧
      0 ∈ (syncWaits [0] lawful).link.queue.map Command.id := by
  decide +kernel

theorem test_meets_EveryStepKeepsTheLinkPhaseLaw : LinkPhaseLaw lawful ∧ ∃ t, step lawful = .next t :=
  ⟨{ empty := fun h => absurd h (by decide +kernel)
     tail := fun n h => LinkPhase.noConfusion (show LinkPhase.waiting 5 = .sending n true from h)
     inFlight := fun _ _ => ⟨⟨take0, rfl, rfl⟩, by decide +kernel, by decide +kernel⟩ }, lawful_steps⟩

theorem table_wellFormed : ∀ c ∈ table, c.WellFormed := by
  simp only [table, List.forall_mem_cons]
  refine ⟨⟨by decide, ?_, trivial⟩, ⟨by decide, ?_, by decide⟩, ⟨by decide, trivial, by decide⟩, fun c h => by cases h⟩ <;>
    dsimp only <;> decide

theorem test_meets_EveryStepKeepsTheReferenceLaw :
    StoresAscending lawful ∧ ReferenceLaw lawful ∧ ∃ t, step lawful = .next t :=
  ⟨⟨by decide +kernel, by decide +kernel⟩,
    { wellFormed := table_wellFormed, languages := by decide +kernel, present := by decide +kernel, exact := by decide +kernel },
    lawful_steps⟩

/-! ## Hypotheses met: the Beat Unit -/

/-- A BEATS countdown with this many beats left. -/
def beatsLeft (n : Nat) (s : State) : State := withEntries [.follow cue3 .beats 2 n] s

theorem test_meets_BeatEdgesAreBeatsWhenSelected :
    let s := withBeats .line 150 false (some 851) running;
    (s.settle.ports = s.ports ∧ s.beat.level ≠ true ∧ s.beat.level = false ∧ s.beat.source = .line ∧
      s.beat.edge.selects true = true ∧ s.beat.edge.selects false = false ∧ s.engine.state = .running) ∧
    (s.cardTime - 851 < s.beat.guard) ∧
    (let t := withBeats .line 150 true (some 850) running;
      t.beat.settling = true ∧ ∀ a ∈ t.beat.lastAccepted, t.beat.guard ≤ t.cardTime - a) ∧
    (let t := withBeats .line 150 false (some 850) running;
      t.beat.settling = false ∧ t.run.beatsLeft = none ∧ (beatsLeft 2 t).run.beatsLeft = some 2 ∧
      (beatsLeft 1 t).run.beatsLeft = some 1 ∧
      (beatsLeft 1 t).run.entries.find? RunEntry.isFollow = some (.follow cue3 .beats 2 1)) ∧
    (base.beat.source ≠ .line ∧ base.engine.state ≠ .running) := by decide +kernel

theorem test_meets_BeatRequestsAreBeats :
    meets running .A .beat [] (fun s => byA s && decide (s.beat.source ≠ .request)) ∧
    meets (withBeats .request 150 false none (showIn .ready none (some cue1))) .A .beat [] byA ∧
    meets (withBeats .request 150 false (some 851) running) .A .beat []
      (fun s => byA s && decide (s.cardTime - 851 < s.beat.guard)) ∧
    meets (withBeats .request 150 true (some 850) running) .A .beat []
      (fun s => byA s && decide (s.beat.guard ≤ s.cardTime - 850)) ∧
    meets (withBeats .request 150 false none running) .A .beat [] (fun s => byA s && decide (s.run.beatsLeft = none)) ∧
    meets (beatsLeft 2 (withBeats .request 150 false none running)) .A .beat []
      (fun s => byA s && decide (s.run.beatsLeft = some 2)) ∧
    meets (beatsLeft 1 (withBeats .request 150 false none running)) .A .beat []
      (fun s => byA s && (s.run.entries.find? RunEntry.isFollow).isSome) := by decide +kernel

theorem test_meets_SetBeatSetsAndRestarts :
    meets base .A .setBeat [3, 0, 50, 0] ∧ meets base .A .setBeat [0, 3, 50, 0] ∧ nat2 49 0 < 50 ∧
    meets base .A .setBeat [0, 0, 49, 0] ∧ 2000 < nat2 0xD1 0x07 ∧ meets base .A .setBeat [0, 0, 0xD1, 0x07] ∧
    beatSourceOf 3 = none ∧ edgeOf 3 = none ∧ beatSourceOf 2 = some .request ∧ edgeOf 2 = some .both ∧
    meets (beatsLeft 1 running) .A .setBeat [2, 2, 50, 0] ∧ nat2 0xD0 0x07 = 2000 ∧
    meets running .A .setBeat [0, 0, 0xD0, 0x07] := by decide +kernel

/-! ## Hypotheses met: the Call Arbiter -/

theorem test_meets_ClaimWithoutForce :
    meets base .A .claim [0] byA ∧ claimForce [0] = false ∧ claimForce [] = false ∧
    meets (withRight none [] base) .A .claim [] (fun s => decide (s.arbiter.holder = none)) ∧
    meets (withRight (some .A) [.C] base) .C .claim [] (fun s => byA s && s.arbiter.claims.contains .C) ∧
    meets (withRight (some .A) [.B] base) .C .claim [] (fun s => byA s && !s.arbiter.claims.contains .C) := by decide +kernel

theorem test_meets_ClaimWithForce :
    meets (withRight (some .B) [] base) .B .claim [1] (fun s => decide (s.arbiter.holder = some .B)) ∧
    claimForce [1] = true ∧ claimForce [255] = true ∧
    meets (withRight none [] base) .B .claim [255] (fun s => decide (s.arbiter.holder = none)) ∧
    meets base .C .claim [1] byA := by decide +kernel

theorem test_meets_YieldPassesTheRight :
    meets (withRight (some .A) [.C, .B] base) .A .yieldRight [] byA ∧ meets base .A .yieldRight [] byA ∧
    meets (withRight (some .A) [.B] base) .B .yieldRight []
      (fun s => decide (s.arbiter.holder ≠ some .B) && s.arbiter.claims.contains .B) ∧
    meets base .B .yieldRight [] (fun s => decide (s.arbiter.holder ≠ some .B) && !s.arbiter.claims.contains .B) := by
  decide +kernel

theorem test_meets_SetRoleGivesTheRole :
    (∀ x ∈ [[3, 0, 0], [0, 4, 0], [0, 0, 2]], meets base .C .setRole x = true) ∧ portOf 3 = none ∧ profileOf 4 = none ∧
    ringOf 2 = none ∧ meets running .C .setRole [0, 1, 0] (fun s => decide (s.engine.state ≠ .idle)) ∧
    portOf 2 = some .C ∧ profileOf 3 = some .stage ∧ ringOf 1 = some .high ∧ meets base .C .setRole [2, 3, 1] ∧
    meets (withRight (some .A) [.B] base) .C .setRole [1, 0, 0] (fun s => decide (s.arbiter.holder ≠ some .B)) ∧
    meets (withRight (some .A) [.B] base) .C .setRole [0, 0, 0]
      (fun s => byA s && decide (s.arbiter.claims.head? ≠ some .A)) := by decide +kernel

/-! ## Hypotheses met: the Cue Store -/

/-- A MARK record of cue 9, and a title of cue 2 that names text 5. -/
def mark9 : List Byte := [9, 0, 0, 3, 0, 0, 0, 0, 0, 0, 0, 0]
def title2 : List Byte := [2, 0, 0, 1, 1, 1, 0, 0, 0, 0, 0, 0, 0, 5, 0]

theorem test_meets_PutCueTests :
    meets base .A .putCue [0, 0, 0, 3, 0, 0, 0, 0, 0, 0, 0, 0] ∧ cueRecOf [0, 0, 0, 3, 0, 0, 0, 0, 0, 0, 0, 0] = none ∧
    meets (base.withTexts []) .A .putCue title2 ∧ (cueRecOf title2).isSome ∧
    (base.texts.any (fun t => decide (t.id = 5))) ∧
    meets (base.withCues (List.replicate 2048 { num := cue1, body := .mark, trigger := .manual })) .A .putCue mark9
      (fun s => decide (2048 ≤ s.cues.length) && (findCue s.cues cue9).isNone) ∧
    meets (showIn .ready none (some cue2)) .A .putCue title2 (fun s => s.cueInUse cue2 && (findCue s.cues cue2).isSome) := by
  decide +kernel

/-- As many marks as the table may hold but one. -/
def marks : List CueRec := (List.range 2047).map (fun i => { num := ⟨i + 10, 0⟩, body := .mark, trigger := .manual })

theorem test_meets_PutCueStoresTheRecord :
    (cuesAscending marks = true ∧ marks.length = 2047 ∧ findCue marks cue9 = none) ∧
    meets base .A .putCue mark9 (fun s => decide (s.cues.length < 2048) && (findCue s.cues cue9).isNone) ∧
    (cueRecOf mark9).isSome ∧ StoresAscending base ∧
    meets base .A .putCue title2 (fun s => (findCue s.cues cue2).isSome && !s.cueInUse cue2) := by
  refine ⟨⟨decide_eq_true ?_, by simp [marks], ?_⟩, by decide +kernel, by decide +kernel, ⟨by decide +kernel, by decide +kernel⟩,
    by decide +kernel⟩
  · unfold marks
    rw [List.pairwise_map]
    refine (List.pairwise_lt_range (n := 2047)).imp fun h => ?_
    simp [CueNum.lt]; omega
  · unfold marks findCue
    rw [List.find?_eq_none]
    intro x hx
    obtain ⟨i, _, rfl⟩ := List.mem_map.1 hx
    simp [cue9]

theorem test_meets_DropsRemoveTheRecord :
    meets base .A .dropCue [0x10, 0x27, 0] ∧ CueNum.valid (cueOf 0x10 0x27 0) = false ∧
    meets base .A .dropCue [9, 0, 0] (fun s => (findCue s.cues (cueOf 9 0 0)).isNone) ∧
    meets running .A .dropCue [1, 0, 0] (fun s => s.cueInUse (cueOf 1 0 0) && (findCue s.cues (cueOf 1 0 0)).isSome) ∧
    meets base .A .dropCue [1, 0, 0] (fun s => !s.cueInUse (cueOf 1 0 0) && (findCue s.cues (cueOf 1 0 0)).isSome) ∧
    meets base .A .dropText [0, 0x40] ∧ nat2 0 0x40 = 16384 ∧ nat2 0xFF 0x3F = 16383 ∧
    meets base .A .dropText [0xFF, 0x3F] (fun s => (findText s.texts 16383).isNone) ∧
    meets base .A .dropText [5, 0] (fun s => (findText s.texts 5).any (fun t => decide (t.refs ≠ 0))) ∧
    meets (base.withTexts [⟨5, [0x41], 0⟩]) .A .dropText [5, 0]
      (fun s => (findText s.texts 5).any (fun t => decide (t.refs = 0))) := by decide +kernel

/-- A full text store: all ids but 0. -/
def fullStore : List TextRec := (List.range 16384).map (fun i => { id := i + 1, bytes := [0x41], refs := 0 })

theorem fullStore_length : fullStore.length = 16384 := by rw [fullStore, List.length_map, List.length_range]

/-- One text that fills the store but for n bytes. -/
def bigText (n : Nat) : List TextRec := [{ id := 5, bytes := List.replicate (1048576 - n) 0x41, refs := 0 }]

theorem byteTotal_bigText (n : Nat) : byteTotal (bigText n) = 1048576 - n := by
  rw [byteTotal, bigText, List.map_cons, List.map_nil, List.sum_cons, List.sum_nil, List.length_replicate, Nat.add_zero]

theorem executes_withTexts (s : State) (p : Port) (k : ReqKind) (pl : List Byte) (x : List TextRec) :
    executes (asks p k pl (s.withTexts x)) p k pl = executes (asks p k pl s) p k pl := rfl

theorem test_meets_PutTextStoresTheText :
    (meets base .A .putText [0, 0x40, 0x41] ∧ meets base .A .putText [5, 0] ∧
      meets base .A .putText (5 :: 0 :: List.replicate 193 0x41) ∧ lineCount [0x0A, 0x0A, 0x0A] = 4 ∧
      lineCount [0x0A, 0x0A] = 3 ∧ meets base .A .putText (5 :: 0 :: List.replicate 192 0x41)) ∧
    (16384 ≤ fullStore.length ∧ textsAscending fullStore = true ∧ findText fullStore 0 = none ∧
      executes (asks .A .putText [0, 0, 0x41] (base.withTexts fullStore)) .A .putText [0, 0, 0x41] = true) ∧
    (byteTotal (bigText 0) + 1 = 1048577 ∧ byteTotal (bigText 1) + 1 = 1048576 ∧ (bigText 0).length < 16384 ∧
      findText (bigText 0) 6 = none ∧ (findText (bigText 0) 5).isSome = true ∧ (∀ n, textsAscending (bigText n) = true) ∧
      ∀ n, executes (asks .A .putText [6, 0, 0x41] (base.withTexts (bigText n))) .A .putText [6, 0, 0x41] = true) ∧
    (meets (withHead .online false (.lit part5) .dark base) .A .putText [5, 0, 0x41]
        (fun s => s.onScreen 5 && (findText s.texts 5).isSome) ∧
      meets base .A .putText [5, 0, 0x41] (fun s => !s.onScreen 5 && (findText s.texts 5).isSome)) := by
  refine ⟨by decide +kernel, ⟨fullStore_length.ge, decide_eq_true ?_, ?_, ?_⟩,
    ⟨by rw [byteTotal_bigText], by rw [byteTotal_bigText], by decide, rfl, rfl, fun _ => rfl, ?_⟩, by decide +kernel⟩
  · unfold fullStore
    rw [List.pairwise_map]
    exact (List.pairwise_lt_range (n := 16384)).imp fun h => Nat.succ_lt_succ h
  · unfold fullStore findText
    rw [List.find?_eq_none]
    intro x hx
    obtain ⟨i, _, rfl⟩ := List.mem_map.1 hx
    simp
  · rw [executes_withTexts]; decide +kernel
  · intro n; rw [executes_withTexts]; decide +kernel

theorem test_meets_ReadsOnlyAnswer :
    meets base .B .readPosition [] ∧ meets base .B .readCauses [] ∧ meets base .B .readCue [0, 0, 0] ∧
    meets base .B .readCue [9, 0, 0] (fun s => (findCue s.cues (cueOf 9 0 0)).isNone) ∧
    meets base .B .readCue [1, 0, 0] (fun s => (findCue s.cues (cueOf 1 0 0)).isSome) ∧
    meets base .B .readText [0, 0x40] ∧ meets base .B .readText [0xFF, 0x3F] (fun s => (findText s.texts 16383).isNone) ∧
    meets base .B .readText [5, 0] (fun s => (findText s.texts 5).isSome) ∧ meets base .B .readHead [16] ∧
    headOf 16 = none ∧ headOf 15 = some 15 ∧ meets base .B .readHead [15] ∧ meets base .B .readCapture [2] ∧
    meets base .B .readCapture [0] ∧ meets base .B .readCapture [1] := by decide +kernel

/-! ## Hypotheses met: the Screen Image Unit -/

theorem test_meets_PutsAndClearsMoveSlots : part5.fadeOut ≠ 0 ∧ part5.fadeIn ≠ 0 ∧ ({ part5 with fadeOut := 0 } : TextPart).fadeOut = 0 ∧
    ({ part5 with fadeIn := 0 } : TextPart).fadeIn = 0 := by decide

theorem test_meets_FadeEndsAndAskedCommands :
    let at0 := fun (x : Slot) => withHead .online false x .dark base;
    (((at0 (.lit part5)).head 0).slot .base = .lit part5 ∧ ((at0 .dark).head 0).slot .base = .dark) ∧
    (((at0 (.rising part5 1)).head 0).slot .base = .rising part5 1 ∧
      ((at0 (.falling part5 (some part5) 1)).head 0).slot .base = .falling part5 (some part5) 1 ∧
      ((at0 (.falling part5 none 1)).head 0).slot .base = .falling part5 none 1) ∧
    (((at0 .dark).head 0).state = .online ∧ ((at0 .dark).head 0).outOfStep = false ∧
      (withQueue 63 take0 (at0 .dark)).link.queue.length < 64 ∧ 64 ≤ (withQueue 64 take0 (at0 .dark)).link.queue.length) ∧
    (let full := withQueue 64 take0 (at0 (.falling part5 (some part5) 1));
      (full.head 0).slot .base = .falling part5 (some part5) 1 ∧ (full.head 0).state = .online ∧
        (full.head 0).outOfStep = false ∧ 64 ≤ full.link.queue.length) ∧
    ((base.head 0).state ≠ .online ∧ ((withHead .online true .dark .dark base).head 0).outOfStep = true) := by decide +kernel

/-- A fall that ends with 64 commands queued drops its PUT: the head is out of step, OUT_OF_STEP raised. -/
theorem test_a_fade_end_finds_the_queue_full :
    (match exec (.fadeEnd 0 .base) (withQueue 64 take0 (withHead .online false (.falling part5 (some part5) 1) .dark base)) with
      | .next t => decide (t.link.queue.length = 64 ∧ (t.head 0).outOfStep = true ∧ (t.port .B).pending = [.outOfStep 0])
      | _ => false) = true := by decide +kernel

theorem test_meets_SetHeadWritesSettings :
    (∀ x ∈ [[16, 0, 0, 0, 0], [0, 2, 0, 0, 0], [0, 0, 8, 0, 0], [0, 0, 0, 8, 0], [0, 0, 0, 0, 2]],
      meets base .A .setHead x = true) ∧
    headOf 16 = none ∧ yesNoOf 2 = none ∧ eighthOf 8 = none ∧ gapOf 2 = none ∧ eighthOf 7 = some 7 ∧
    meets running .A .setHead [0, 0, 7, 0, 0] (fun s => decide ((7 : Lang) ≠ (s.head 0).lang ∧ s.engine.state ≠ .idle)) ∧
    meets running .A .setHead [15, 0, 0, 0, 1] (fun s => decide ((s.head 15).enabled = false ∧ (s.head 15).lang = 0)) ∧
    meets (withHead .online false .dark .dark base) .A .setHead [0, 1, 7, 7, 1]
      (fun s => decide ((s.head 0).enabled = true ∧ s.engine.state = .idle)) := by decide +kernel

theorem test_meets_SetHeadEnablesAndDisables :
    meets (withQueue 63 { take0 with head := 1 } running) .A .setHead [0, 1, 0, 0, 0]
      (fun s => decide ((s.head 0).state = .absent ∧ s.link.queue.length < 64 ∧ (s.head 0).lang = 0)) ∧
    meets (withQueue 64 { take0 with head := 1 } base) .A .setHead [0, 1, 7, 7, 0]
      (fun s => decide ((s.head 0).state = .absent ∧ 64 ≤ s.link.queue.length ∧ s.engine.state = .idle)) ∧
    (let s := syncWaits [0, 9] (head3Behind (withHead .online false (.lit part5) .dark running));
      let off := fun (ph : LinkPhase) (cs : List Command) (h : State → Bool) =>
        meets (inFlight ph 1 3 2 cs s) .A .setHead [0, 0, 0, 0, 0]
          (fun s => decide ((s.head 0).state ≠ .absent ∧ s.link.phase = ph) && h s);
      off (.sending 5 false) [] (fun s => decide (s.link.queue.all (fun x => x.head ≠ 0))) ∧
      off (.sending 5 true) [take0] (fun s => (s.port .B).sync.isSome) ∧
      off (.waiting 5) ({ take0 with head := 1 } :: [take0]) (fun s => s.link.queue.head?.any (fun x => x.head ≠ 0)) ∧
      ∀ ph ∈ [LinkPhase.sending 5 false, .waiting 5, .holding 5],
        off ph (take0 :: List.replicate 16 { take0 with head := 1 })
          (fun s => (s.head 3).outOfStep && decide (s.catchUpCommands.length = 2)) ∧
        off ph (take0 :: List.replicate 17 { take0 with head := 1 }) (fun s => (s.head 3).outOfStep)) := by decide +kernel

theorem test_meets_RefreshHeadActsByState :
    meets base .A .refreshHead [16] ∧ meets base .A .refreshHead [15] (fun s => decide ((s.head 15).state = .absent)) ∧
    meets (withHead .probing false .dark .dark base) .A .refreshHead [0] ∧
    meets (withQueue 62 take0 (withHead .online true .dark .dark base)) .A .refreshHead [0]
      (fun s => decide (s.link.queue.length ≤ 62)) ∧
    meets (withQueue 63 take0 (withHead .online false .dark .dark base)) .A .refreshHead [0]
      (fun s => decide (62 < s.link.queue.length)) ∧
    meets (withQueue 63 { take0 with head := 1 } (withHead .fault false .dark .dark base)) .A .refreshHead [0]
      (fun s => decide ((s.head 0).state = .fault ∧ s.link.queue.length < 64)) ∧
    meets (withQueue 64 { take0 with head := 1 } (withHead .fault false .dark .dark base)) .A .refreshHead [0]
      (fun s => decide ((s.head 0).state = .fault ∧ 64 ≤ s.link.queue.length)) := by decide +kernel

/-! ## Hypotheses met: the Link Controller -/

theorem test_meets_SetLinkSetsTheLimits :
    meets base .A .setLink [16, 0] ∧ meets base .A .setLink [0, 32] ∧ meets base .A .setLink [15, 31] := by decide +kernel

/-- The acknowledgement of head 0's command with sequence number 3. -/
def ack03 : List Byte := 0xA5 :: 0 :: 3 :: 0x80 :: 0 :: crcBytes [0, 3, 0x80, 0]

theorem test_meets_LinkFramesAndAcknowledgements :
    let s := syncWaits [0] (head3Behind (withHead .online false .dark .dark base));
    let probing := withHead .probing false .dark .dark (head3Behind base);
    let behind := withHead .probing true .dark .dark base;
    ((inFlight (.sending 5 false) 1 3 2 [take0] s).link.phase = .sending 5 false ∧
      (inFlight (.sending 5 true) 0 3 2 [] s).link.queue = [] ∧
      (inFlight (.sending 5 true) 0 3 2 [take0] s).link.queue = take0 :: []) ∧
    (base.link.phase = .none ∧ (inFlight (.waiting 5) 1 3 2 [take0] s).link.queue = take0 :: [] ∧ take0.seq = some 3 ∧
      ackOf ack03 = some (byteOf take0.head.val, 3) ∧ ackOf [] = none) ∧
    (take0.body ≠ .probe ∧ (s.head 3).outOfStep = true ∧ s.catchUpCommands.length = 2 ∧
      (s.port .B).sync.map SyncWait.waiting = some [take0.id] ∧
      ((syncWaits [0, 9] s).port .B).sync.map SyncWait.waiting = some [take0.id, 9]) ∧
    (probe0.body = .probe ∧ (probing.head probe0.head).state = .probing ∧ (probing.head probe0.head).outOfStep = false ∧
      (List.replicate 62 take0).length ≤ 62 ∧ 62 < (List.replicate 63 take0).length ∧
      (behind.head probe0.head).outOfStep = true) := by decide +kernel

/-- An acknowledged TAKE leaves, the waiting SYNC of port B is answered with 2 waited for and 1 unacknowledged, and head 3 is caught
up behind the empty queue. -/
theorem test_an_acknowledgement_tells_a_sync_and_catches_up :
    (match exec (.acknowledgement ack03)
        (inFlight (.waiting 5) 1 3 2 [take0] (syncWaits [0] (head3Behind (withHead .online false .dark .dark base)))) with
      | .next t => decide ((t.port .B).sync = none ∧ (t.port .B).sending.map OutFrame.payload = some [0, 2, 1] ∧
          (t.head 3).outOfStep = false ∧ t.commands = [(3, .take .base 0 none), (3, .take .overlay 0 none)])
      | _ => false) = true := by decide +kernel

theorem test_meets_TimeoutsRetryOrFail :
    let s := syncWaits [0] (head3Behind (withHead .online false .dark .dark base));
    let probing := withHead .probing false .dark .dark (head3Behind base);
    (let t := inFlight (.waiting 1) 3 3 2 [take0] s;
      t.settle.ports = t.ports ∧ t.link.attempts < t.link.retryLimit + 1 ∧ t.link.holdOff ≠ 0) ∧
    (let t := inFlight (.waiting 1) 65535 0 0 [take0] s;
      t.link.retryLimit = 0 ∧ t.link.holdOff = 0) ∧
    (let t := inFlight (.holding 1) 3 3 2 [take0] s;
      t.link.phase = .holding 1 ∧ t.link.attempts < t.link.retryLimit + 1) ∧
    (let t := inFlight (.waiting 1) 4 3 2 [take0, { take0 with head := 1 }] s;
      t.settle.ports = t.ports ∧ t.link.retryLimit ≠ 0 ∧ t.link.retryLimit + 1 ≤ t.link.attempts ∧
      (t.head take0.head).state = .online ∧ take0.body ≠ .probe ∧ t.catchUpCommands.length = 2) ∧
    (let t := inFlight (.holding 1) 4 3 2 [probe0] probing;
      t.settle.ports = t.ports ∧ t.link.retryLimit ≠ 0 ∧ t.link.retryLimit + 1 ≤ t.link.attempts ∧ probe0.body = .probe ∧
      (t.head 0).state = .probing ∧ (t.head 0).outOfStep = false ∧ (t.head 3).outOfStep = true) ∧
    (base.link.phase = .none ∧ base.link.queue = []) := by decide +kernel

/-! ## Hypotheses met: watches, cause sets and captures -/

theorem test_meets_SetWatchSetsAndRearms :
    (∀ x ∈ [[4, 1, 0, 0, 0, 0, 0, 0, 0, 0], [0, 0, 0, 0, 4, 1, 0, 0, 0, 0], [0, 0, 0, 0, 0, 0, 0, 0, 2, 0],
        [0, 0, 0, 0, 0, 0, 0, 0, 0, 2], [1, 0, 0, 0, 0, 0, 0, 0, 0, 0], [0, 0, 0, 0, 3, 0, 0, 0, 0, 0],
        [0, 0, 0, 0, 0, 0, 0, 0, 0, 0], [3, 1, 0, 0, 1, 2, 0, 0, 1, 1]], meets base .A .setWatch x = true) ∧
    watchTypeOf 4 = none ∧ combineOf 2 = none ∧ yesNoOf 2 = none ∧ (cueOf 0 0 0).valid = false ∧
    watchTypeOf 0 = some .off ∧ watchTypeOf 3 = some .atOrAbove ∧ combineOf 1 = some .and ∧ (cueOf 1 0 0).valid = true := by
  decide +kernel

theorem test_meets_CauseSetAndCaptureRequests :
    meets base .B .setNotice [0, 0, 8] ∧ (8 : Byte).toNat = 8 ∧ meets base .B .setNotice [0xFF, 0xFF, 7] ∧
    (causeSetOf 0xFF 0xFF 7).isSome ∧ meets base .B .clearCauses [0, 0, 8] ∧ meets base .B .clearCauses [0, 0, 7] ∧
    meets base .B .clearCapture [2] ∧ meets base .B .clearCapture [0] ∧ meets base .B .clearCapture [1] := by decide +kernel

/-! ## Hypotheses met: the Port Units -/

theorem test_meets_SetPortWritesTheLockPolicy :
    meets base .B .setPort [2] ∧ meets base .B .setPort [0] ∧ meets base .B .setPort [1] ∧ (0 : Byte) = yesNo false ∧
    (1 : Byte) = yesNo true := by decide +kernel

theorem test_meets_SyncWaitsForTheQueuedCommands :
    meets base .B .sync [] (fun s => decide (s.link.queue = [])) ∧
    meets (withQueue 1 take0 base) .B .sync [] (fun s => decide (s.link.queue ≠ [])) := by decide +kernel

theorem test_meets_ListCuesBeginsAListing :
    meets base .B .listCues [0, 0, 0, 1] ∧ meets base .B .listCues [1, 0, 0, 0] ∧ meets base .B .listCues [1, 0, 0, 65] ∧
    meets base .B .listCues [3, 0, 1, 1] (fun s => (cueFrom s.cues (cueOf 3 0 1)).isNone) ∧
    meets base .B .listCues [3, 0, 0, 64] (fun s => (cueFrom s.cues (cueOf 3 0 0)).isSome) := by decide +kernel

/-- Port A sends this frame, with one request in its queue and a listing or none. -/
def sends (f : OutFrame) (k : Option Listing) : State :=
  (asks .A .listCues [1, 0, 0, 64] base).onPort .A (fun u => { u with sending := some f, listing := k })

theorem test_meets_SentFramesMoveThePort :
    let listing := fun (left : Nat) (n : CueNum) => sends (.answer .listed 7 0x46 []) (some ⟨left, some n, 1⟩);
    (base.settle.ports = base.ports ∧ (base.port .A).sync = none ∧ (base.port .A).sending = none) ∧
    (∀ f ∈ [OutFrame.answer .response 7 0x46 [], .answer .immediate 7 0x46 [], .answer .orphan 7 0x46 [], .notice (.held .ready)],
      (sends f none).settle.ports = (sends f none).ports ∧ ((sends f none).port .A).sending = some f) ∧
    ((listing 1 cue2).settle.ports = (listing 1 cue2).ports ∧ (cueAfter (listing 1 cue2).cues cue2).isSome = true ∧
      cueAfter (listing 1 cue3).cues cue3 = none ∧ ((listing 0 cue2).port .A).listing = some ⟨0, some cue2, 1⟩) ∧
    (let cut := sends (.answer .listed 7 0x46 []) none;
      cut.settle.ports = cut.ports ∧ (cut.port .A).listing = none) ∧
    (let waits := (withQueue 1 take0 base).onPort .A (fun u => { u with
        sending := some (.notice (.held .ready)), queue := [req .sync []], sync := some ⟨[0], 1, 0⟩ });
      waits.settle.ports = waits.ports ∧ (waits.port .A).sync.isSome) := by decide +kernel

/-- Port A's receiver inside a frame, or in a break. -/
def receives (x : Receiver) (brk : Bool) : State := base.onPort .A (fun u => { u with receiver := x, inBreak := brk })

theorem test_meets_ReceiverTakesAndDiscardsBytes :
    ∀ s ∈ [receives .hunting true, receives .hunting false, receives (.inFrame [] 2) false, receives (.inFrame [1, 2] 2) false],
      s.settle.ports = s.ports ∧ (240 < (241 : Byte).toNat) := by decide +kernel

/-- Port A with 8 requests, a listing running for the oldest, and n immediate answers, one of them being sent. -/
def full8With (n : Nat) : State := base.onPort .A (fun u => { u with
  queue := req .listCues [1, 0, 0, 2] :: List.replicate 7 (req .go []), listing := some ⟨1, some cue1, 1⟩,
  sending := some (.answer .immediate 7 0x03 [0x0E]),
  outgoing := .answer .listed 7 0x46 [] :: List.replicate (n - 1) (.answer .immediate 7 0x03 [0x0E]) })

theorem test_meets_FramesJoinTheRequestQueue :
    let full := fun (n : Nat) => base.onPort .A (fun u => { u with queue := List.replicate n (req .go []) });
    let lists := base.onPort .A (fun u => { u with queue := [req .listCues [1, 0, 0, 2]], listing := some ⟨1, some cue1, 1⟩ });
    ((full 7).settle.ports = (full 7).ports ∧ ((full 7).port .A).queue.length < 8 ∧ ((full 7).port .A).listing = none ∧
      8 ≤ ((full 8).port .A).queue.length ∧ ((full 8).port .A).immediateFull = false ∧ ((full 8).port .A).sync = none ∧
      ((full 8).port .A).inBreak = false ∧ (List.replicate 240 (0 : Byte)).length ≤ 240) ∧
    (frameCrc 7 0x03 [] ≠ 0 ∧ (0x03 : Byte) ≠ 0x14) ∧
    (let room := fun (n : Nat) => full8With n;
      (room 7).settle.ports = (room 7).ports ∧ ((room 7).port .A).immediateFull = false ∧
      (room 8).settle.ports = (room 8).ports ∧ ((room 8).port .A).immediateFull = true) ∧
    (lists.settle.ports = lists.ports ∧ (lists.port .A).listing = some ⟨1, some cue1, 1⟩ ∧ (lists.port .A).inBreak = false) := by
  decide +kernel

theorem test_meets_LineBreaksResetThePort :
    let s := withRight (some .A) [.C, .B] base;
    ((receives .hunting true).port .A).inBreak = true ∧ s.settle.ports = s.ports ∧ (s.port .A).inBreak = false ∧
      s.arbiter.holder = some .A ∧ s.arbiter.claims.head? ≠ some .A ∧ s.arbiter.holder ≠ some .B ∧
    (let inFrame := fun (e : CauseSet) (out : Option OutFrame) =>
        (receives (.inFrame [7] 2) false).onPort .A (fun u => { u with enabled := e, sending := out });
      ∀ x ∈ [inFrame 0 none, inFrame (addCause 0 .lineError) none, inFrame 0 (some (.answer .response 7 0x03 []))],
        x.settle.ports = x.ports ∧ (x.port .A).inBreak = false ∧ (x.port .A).receiver = .inFrame [7] 2) := by decide +kernel

/-- A break while a frame arrives: the frame is discarded with a LINE_ERROR whose NOTICE begins to be sent before the reset. -/
theorem test_a_break_discards_a_frame_with_line_error :
    (match exec (.lineBreak .B)
        (base.onPort .B (fun u => { u with enabled := addCause 0 .lineError, receiver := .inFrame [7] 2 })) with
      | .next t => decide ((t.port .B).receiver = .hunting ∧ (t.port .B).pending = [] ∧ t.choices = 1)
          && (t.port .B).sending.any (fun f => match f with | .notice r => decide (r.cause = .lineError) | _ => false)
      | _ => false) = true := by
  simp only [exec, Sys2Proof.Machine.execLineBreak, State.spacingDiscard]
  generalize Config.breakIsBadByte _ = b
  cases b <;> decide +kernel

theorem test_meets_UnlockReleasesAndDropped :
    let locked := fun (out : List OutFrame) =>
      base.onPort .A (fun u => { u with locked := true, queue := [req .go [], req .back []], sending := out.head? });
    let marked := base.onPort .A (fun u => { u with queue := [{ req .go [] with drop := true }] });
    (∀ s ∈ [base, locked [], locked [.answer .response 7 0x03 []]],
      s.settle.ports = s.ports ∧ (s.port .A).inBreak = false ∧ (s.port .A).listing = none ∧ (s.port .A).sync = none ∧
      (s.port .A).immediateFull = false) ∧
    ((full8With 8).settle.ports = (full8With 8).ports ∧ ((full8With 8).port .A).immediateFull = true ∧
      ((full8With 7).port .A).immediateFull = false ∧ ((full8With 7).port .A).listing ≠ none ∧
      ((full8With 7).port .A).cutListing.listing = none ∧
      ((syncWaits [0] (withQueue 1 take0 base)).port .B).sync.isSome = true) ∧
    ((base.port .A).locked = false ∧ ((locked []).port .A).locked = true ∧
      ((locked []).port .A).frames.any OutFrame.answersOldest = false ∧
      ((locked [.answer .response 7 0x03 []]).port .A).frames.any OutFrame.answersOldest = true) ∧
    (marked.settle.ports = marked.ports ∧ marked.turn .A = some { req .go [] with drop := true }) := by decide +kernel

/-- A good UNLOCK frame leaves the receiver hunting. -/
theorem test_unlock_hunts_again :
    (match exec (.unlock .A 7 [0]) (receives (.inFrame [1, 2] 2) false) with
      | .next t => (t.port .A).receiver | _ => .inFrame [] 0) = .hunting := by decide +kernel

end Sys2Proof.Tests
end

section
/-! The Cue Store's PUT_CUE and PUT_TEXT (1.3 of 01_cue_table_and_text_store.md): what the owner answers in each test's
case, and the statements O37 and O40 assembled from that. -/

namespace Sys2Proof.Machine

/-! ## What PUT_CUE's owner answers, test by test (R9) -/

section
variable {p : Port} {pl : List Byte} {s : State} {c : CueRec}

theorem ownPutCue_malformed (h : cueRecOf pl = none) : ownPutCue p pl s = .refuse .range [] := by
  simp [ownPutCue, h]

theorem ownPutCue_absentText {e : TextEntry} (h : cueRecOf pl = some c)
    (he : c.body.texts.find? (fun e => (findText s.texts e.text).isNone) = some e) :
    ownPutCue p pl s = .refuse .noText e.bytes := by
  simp [ownPutCue, h, he]

/-- The test for an absent text finds none where every named text is present. -/
theorem find?_absentText_none {texts : List TextRec} {es : List TextEntry}
    (h : ∀ e ∈ es, (findText texts e.text).isSome = true) :
    es.find? (fun e => (findText texts e.text).isNone) = none := by
  rw [List.find?_eq_none]
  intro e he
  simp [Option.isNone_eq_false_iff.2 (h e he)]

theorem ownPutCue_tableFull (h : cueRecOf pl = some c)
    (ht : ∀ e ∈ c.body.texts, (findText s.texts e.text).isSome = true) (hn : findCue s.cues c.num = none)
    (hf : 2048 ≤ s.cues.length) : ownPutCue p pl s = .refuse .full [] := by
  simp [ownPutCue, h, find?_absentText_none ht, hn, Config.maxCues, hf]

theorem ownPutCue_inUse {old : CueRec} (h : cueRecOf pl = some c)
    (ht : ∀ e ∈ c.body.texts, (findText s.texts e.text).isSome = true) (ho : findCue s.cues c.num = some old)
    (hu : CueInUse s c.num) : ownPutCue p pl s = .refuse .inUse [] := by
  simp [ownPutCue, h, find?_absentText_none ht, ho, cueInUse_iff.2 hu]

end

/-! ## What PUT_TEXT's owner answers, test by test (R13, R14) -/

theorem textInRange_iff {i : Nat} {bytes : List Byte} :
    textInRange i bytes = true ↔ i ≤ 16383 ∧ bytes ≠ [] ∧ bytes.length ≤ 192 ∧ lineCount bytes ≤ 3 := by
  simp [textInRange, Config.maxTextLen, Nat.succ_le_iff, List.length_pos_iff]

theorem textInRange_eq_false {i : Nat} {bytes : List Byte}
    (h : 16383 < i ∨ bytes = [] ∨ 192 < bytes.length ∨ 3 < lineCount bytes) : textInRange i bytes = false := by
  rw [← Bool.not_eq_true, textInRange_iff]
  rintro ⟨hid, hne, hlen, hlines⟩
  rcases h with h | h | h | h
  · omega
  · exact hne h
  · omega
  · omega

section
variable {p : Port} {s : State} {a b : Byte} {bytes : List Byte}

theorem ownPutText_outOfRange (h : textInRange (nat2 a b) bytes = false) :
    ownPutText p (a :: b :: bytes) s = .refuse .range [] := by
  simp [ownPutText, h]

/-- The tests left for an absent id: the two limits (test 2 of R13). -/
theorem ownPutText_absent (hr : textInRange (nat2 a b) bytes = true) (hn : findText s.texts (nat2 a b) = none) :
    ownPutText p (a :: b :: bytes) s =
      if 16384 ≤ s.texts.length ∨ 1048576 < byteTotal s.texts + bytes.length then .refuse .full []
      else .done (s.withTexts (putTextRec (nat2 a b) bytes s.texts))
        (0 :: storeBytes (putTextRec (nat2 a b) bytes s.texts)) := by
  simp only [ownPutText, hr, hn, Bool.true_eq_false, if_false]
  rfl

/-- The tests left for a present id: the byte total with the new bytes for the old, then the screens (R13). -/
theorem ownPutText_present {old : TextRec} (hr : textInRange (nat2 a b) bytes = true)
    (ho : findText s.texts (nat2 a b) = some old) :
    ownPutText p (a :: b :: bytes) s =
      if 1048576 < byteTotal s.texts - old.bytes.length + bytes.length then .refuse .full []
      else if s.onScreen (nat2 a b) = true then .refuse .inUse []
      else .done (s.withTexts (putTextRec (nat2 a b) bytes s.texts))
        (1 :: storeBytes (putTextRec (nat2 a b) bytes s.texts)) := by
  simp only [ownPutText, hr, ho, Bool.true_eq_false, if_false]
  rfl

end

/-- A PUT_TEXT that its owner answers DONE with new texts completes, changes no other block, and leaves just those texts. -/
theorem putText_completes {s : State} {p : Port} {r : Request} {texts : List TextRec} {pl : List Byte}
    (hx : Executes s p .putText r) (ho : ownPutText p r.payload s = .done (s.withTexts texts) pl) :
    ∃ t, Completes (.putText p) s p r pl [.texts, .ports] (fun _ => []) t ∧ t.texts = texts := by
  obtain ⟨t, hdone, hports⟩ := completes_of_owner (i := .putText p) (raised := fun _ => []) hx rfl ho
    ((withTexts_keeps s texts).mono (cs := [.texts, .ports])) (by decide) (fun _ => rfl)
  exact ⟨t, hdone, hports.texts⟩

/-! ## The statements -/

/-- Settles O37: each test of R9 is one answer of PUT_CUE's owner, and none of the statuses locks. -/
theorem putCueTests : Obligations.PutCueTests := by
  intro s p r hs hx
  refine ⟨fun hm => refuses_of_owner hs hx rfl (ownPutCue_malformed hm) rfl, fun c hc =>
    ⟨fun e he => refuses_of_owner hs hx rfl (ownPutCue_absentText hc he) rfl, fun ht => ⟨fun hn hf => ?_, fun hp hu => ?_⟩⟩⟩
  · exact refuses_of_owner hs hx rfl (ownPutCue_tableFull hc ht hn hf) rfl
  · obtain ⟨old, ho⟩ := Option.isSome_iff_exists.1 hp
    exact refuses_of_owner hs hx rfl (ownPutCue_inUse hc ht ho hu) rfl

/-- PUT_TEXT under an absent id: FULL, or the text added (R13, R14). -/
theorem putText_absent {s : State} {p : Port} {r : Request} {a b : Byte} {bytes : List Byte} (hs : Settled s)
    (hx : Executes s p .putText r) (hpl : r.payload = a :: b :: bytes) (hr : textInRange (nat2 a b) bytes = true)
    (hn : findText s.texts (nat2 a b) = none) :
    (16384 ≤ s.texts.length ∨ 1048576 < byteTotal s.texts + bytes.length → Refuses (.putText p) s p r .full []) ∧
    (s.texts.length < 16384 → byteTotal s.texts + bytes.length ≤ 1048576 →
      ∃ t, Completes (.putText p) s p r
          (0 :: le2 (s.texts.length + 1) ++ le3 (byteTotal s.texts + bytes.length)) [.texts, .ports] (fun _ => []) t ∧
        findText t.texts (nat2 a b) = some { id := nat2 a b, bytes := bytes, refs := 0 } ∧
        (∀ i, i ≠ nat2 a b → findText t.texts i = findText s.texts i)) := by
  constructor
  · intro hfull
    exact refuses_of_owner hs hx rfl (by rw [hpl, ownPutText_absent hr hn, if_pos hfull]) rfl
  · intro hcount hbytes
    obtain ⟨t, hdone, htexts⟩ := putText_completes hx (by rw [hpl, ownPutText_absent hr hn, if_neg (by omega)])
    obtain ⟨hlen, htotal⟩ := length_putTextRec_new bytes hn
    rw [storeBytes, hlen, htotal] at hdone
    refine ⟨t, hdone, ?_, fun i hi => ?_⟩ <;> rw [htexts]
    · exact findText_putTextRec_new bytes hn
    · exact findText_putTextRec_ne _ _ _ hi

/-- PUT_TEXT under a present id: FULL, then IN_USE, or the text replaced with its count as it was (R13, R14). -/
theorem putText_present {s : State} {p : Port} {r : Request} {a b : Byte} {bytes : List Byte} {old : TextRec} (hs : Settled s)
    (hasc : StoresAscending s) (hx : Executes s p .putText r) (hpl : r.payload = a :: b :: bytes)
    (hr : textInRange (nat2 a b) bytes = true) (ho : findText s.texts (nat2 a b) = some old) :
    (1048576 < byteTotal s.texts - old.bytes.length + bytes.length → Refuses (.putText p) s p r .full []) ∧
    (byteTotal s.texts - old.bytes.length + bytes.length ≤ 1048576 →
      (TextOnScreen s (nat2 a b) → Refuses (.putText p) s p r .inUse []) ∧
      (¬ TextOnScreen s (nat2 a b) →
        ∃ t, Completes (.putText p) s p r
            (1 :: le2 s.texts.length ++ le3 (byteTotal s.texts - old.bytes.length + bytes.length))
            [.texts, .ports] (fun _ => []) t ∧
          findText t.texts (nat2 a b) = some { old with bytes := bytes } ∧
          (∀ i, i ≠ nat2 a b → findText t.texts i = findText s.texts i))) := by
  refine ⟨fun hfull => ?_, fun hfits => ⟨fun hshown => ?_, fun hshown => ?_⟩⟩
  · exact refuses_of_owner hs hx rfl (by rw [hpl, ownPutText_present hr ho, if_pos hfull]) rfl
  · exact refuses_of_owner hs hx rfl
      (by rw [hpl, ownPutText_present hr ho, if_neg hfits.not_gt, if_pos (onScreen_iff.2 hshown)]) rfl
  · obtain ⟨t, hdone, htexts⟩ := putText_completes hx
      (by rw [hpl, ownPutText_present hr ho, if_neg hfits.not_gt, if_neg (mt onScreen_iff.1 hshown)])
    have hpair := textsAscending_iff.1 hasc.2
    obtain ⟨hlen, htotal, -⟩ := length_putTextRec_old bytes hpair ho
    rw [storeBytes, hlen, htotal] at hdone
    refine ⟨t, hdone, ?_, fun i hi => ?_⟩ <;> rw [htexts]
    · exact findText_putTextRec_old bytes hpair ho
    · exact findText_putTextRec_ne _ _ _ hi

/-- Settles O40: the range test first, then the tests for an absent and for a present id. -/
theorem putTextStoresTheText : Obligations.PutTextStoresTheText := by
  intro s p r a b bytes hs hasc hx hpl
  refine ⟨fun h => refuses_of_owner hs hx rfl (hpl ▸ ownPutText_outOfRange (textInRange_eq_false h)) rfl,
    fun hid hne hlen hlines => ?_⟩
  have hr : textInRange (nat2 a b) bytes = true := textInRange_iff.2 ⟨hid, hne, hlen, hlines⟩
  exact ⟨putText_absent hs hx hpl hr, fun _ => putText_present hs hasc hx hpl hr⟩

end Sys2Proof.Machine
end

section
/-! The Show Engine's STANDBY (R37 of 02_show_position_and_firing.md): what the owner answers in each test's case, and the
statement O27 assembled from that. -/

namespace Sys2Proof.Machine

theorem isHolder_iff {s : State} {p : Port} : s.isHolder p = true ↔ s.arbiter.holder = some p := decide_eq_true_iff

/-- A STANDBY whose length is allowed carries one cue number (R171). -/
theorem standby_payload {s : State} {p : Port} {r : Request} (hx : Executes s p .standby r) :
    ∃ lo hi mi, r.payload = [lo, hi, mi] :=
  List.length_eq_three.1 (of_decide_eq_true hx.length)

/-! ## What STANDBY's owner answers the holder, test by test (R24, R37) -/

section
variable {p : Port} {s : State} {lo hi mi : Byte}

theorem ownStandby_idle {pl : List Byte} (hh : s.arbiter.holder = some p) (hidle : s.engine.state = .idle) :
    ownStandby p pl s = .refuse .state [] := by
  simp [ownStandby, isHolder_iff.2 hh, hidle]

theorem ownStandby_outOfRange (hh : s.arbiter.holder = some p) (hopen : s.engine.state ≠ .idle)
    (hv : (cueOf lo hi mi).valid = false) : ownStandby p [lo, hi, mi] s = .refuse .range [] := by
  simp [ownStandby, isHolder_iff.2 hh, hopen, hv]

theorem ownStandby_absentCue (hh : s.arbiter.holder = some p) (hopen : s.engine.state ≠ .idle)
    (hv : (cueOf lo hi mi).valid = true) (hn : findCue s.cues (cueOf lo hi mi) = none) :
    ownStandby p [lo, hi, mi] s = .refuse .noCue [] := by
  simp [ownStandby, isHolder_iff.2 hh, hopen, hv, hn]

theorem ownStandby_present {c : CueRec} (hh : s.arbiter.holder = some p) (hopen : s.engine.state ≠ .idle)
    (hv : (cueOf lo hi mi).valid = true) (hc : findCue s.cues (cueOf lo hi mi) = some c) :
    ownStandby p [lo, hi, mi] s = .done (s.standBy (cueOf lo hi mi)) (cueBytes (cueOf lo hi mi)) := by
  simp [ownStandby, isHolder_iff.2 hh, hopen, hv, hc, findCue_num hc]

end

/-! ## What the move of the standby cue does (R37) -/

@[simp] theorem State.standBy_engine (s : State) (n : CueNum) :
    (s.standBy n).engine = { s.engine with standby := some n } := rfl

@[simp] theorem State.standBy_run (s : State) (n : CueNum) :
    (s.standBy n).run = { s.run with entries := s.run.entries.filter (fun e => !e.isFollow) } := rfl

@[simp] theorem State.standBy_port (s : State) (n : CueNum) (q : Port) : (s.standBy n).port q = s.port q := rfl

/-! ## The statement -/

/-- Settles O27: each test is one answer of STANDBY's owner, none of the statuses locks, and the move raises no cause. -/
theorem standbyMovesThePosition : Obligations.StandbyMovesThePosition := by
  intro s p r hs hx hh
  obtain ⟨lo, hi, mi, hpl⟩ := standby_payload hx
  refine ⟨cueOf lo hi mi, by rw [hpl]; rfl, fun hidle => ?idle, fun hopen hv => ?outOfRange, fun hopen hv hn => ?absentCue,
    fun hopen hv hp => ?present⟩
  case idle => exact refuses_of_owner hs hx rfl (ownStandby_idle hh hidle) rfl
  case outOfRange => exact refuses_of_owner hs hx rfl (hpl ▸ ownStandby_outOfRange hh hopen hv) rfl
  case absentCue => exact refuses_of_owner hs hx rfl (hpl ▸ ownStandby_absentCue hh hopen hv hn) rfl
  case present =>
    obtain ⟨c, hc⟩ := Option.isSome_iff_exists.1 hp
    have hmove : Keeps [.engine, .run, .ports] s (s.standBy (cueOf lo hi mi)) := (standBy_keeps _ _).mono
    obtain ⟨t, hdone, hports⟩ := completes_of_owner (i := .standby p) (raised := fun _ => []) hx rfl
      (hpl ▸ ownStandby_present hh hopen hv hc) hmove (by decide) (fun q => by rw [State.standBy_port]; rfl)
    exact ⟨t, hdone, by rw [hports.engine, State.standBy_engine], by rw [hports.run, State.standBy_run]⟩

end Sys2Proof.Machine
end

section
/-! The Beat Unit's SET_BEAT (R73 of 04_beat_input.md): which settings are in range, what the owner answers and writes, and
the statement O32 assembled from that. -/

namespace Sys2Proof.Machine

/-! ## The settings and their codes (R73) -/

theorem code_beatSourceOf {c : Byte} {b : BeatSource} (h : beatSourceOf c = some b) : b.code = c := by
  unfold beatSourceOf at h
  split_ifs at h with h0 h1 h2 <;> cases h
  · exact h0.symm
  · exact h1.symm
  · exact h2.symm

theorem code_edgeOf {c : Byte} {e : EdgeSel} (h : edgeOf c = some e) : e.code = c := by
  unfold edgeOf at h
  split_ifs at h with h0 h1 h2 <;> cases h
  · exact h0.symm
  · exact h1.symm
  · exact h2.symm

section
variable {src edge g0 g1 : Byte} {b : BeatSource} {e : EdgeSel}

theorem beatSettingsOf_inRange (hb : beatSourceOf src = some b) (he : edgeOf edge = some e) (hlo : 50 ≤ nat2 g0 g1)
    (hhi : nat2 g0 g1 ≤ 2000) : beatSettingsOf src edge g0 g1 = some (b, e, nat2 g0 g1) := by
  simp [beatSettingsOf, hb, he, hlo, hhi]

theorem beatSettingsOf_outOfRange
    (h : beatSourceOf src = none ∨ edgeOf edge = none ∨ nat2 g0 g1 < 50 ∨ 2000 < nat2 g0 g1) :
    beatSettingsOf src edge g0 g1 = none := by
  unfold beatSettingsOf
  split
  next hb he =>
    have hguard : ¬ (50 ≤ nat2 g0 g1 ∧ nat2 g0 g1 ≤ 2000) := by
      simp only [hb, he, reduceCtorEq, false_or] at h
      omega
    exact if_neg hguard
  next => rfl

/-! ## What SET_BEAT's owner answers -/

variable {p : Port} {s : State}

theorem ownSetBeat_outOfRange
    (h : beatSourceOf src = none ∨ edgeOf edge = none ∨ nat2 g0 g1 < 50 ∨ 2000 < nat2 g0 g1) :
    ownSetBeat p [src, edge, g0, g1] s = .refuse .range [] := by
  simp [ownSetBeat, beatSettingsOf_outOfRange h]

/-- SET_BEAT answers with the bytes it was given, and with whether a BEATS countdown was running (R73). -/
theorem ownSetBeat_inRange (hb : beatSourceOf src = some b) (he : edgeOf edge = some e) (hlo : 50 ≤ nat2 g0 g1)
    (hhi : nat2 g0 g1 ≤ 2000) :
    ownSetBeat p [src, edge, g0, g1] s =
      .done (s.setBeatUnit b e (nat2 g0 g1)) [src, edge, g0, g1, yesNo s.run.beatsLeft.isSome] := by
  simp [ownSetBeat, beatSettingsOf_inRange hb he hlo hhi, code_beatSourceOf hb, code_edgeOf he, le2_nat2]

end

/-! ## What SET_BEAT writes (R49, R73) -/

section
variable (s : State) (b : BeatSource) (e : EdgeSel) (g : Nat)

@[simp] theorem State.setBeatUnit_beat :
    (s.setBeatUnit b e g).beat = { s.beat with source := b, edge := e, guard := g, settling := true } := rfl

@[simp] theorem State.setBeatUnit_run : (s.setBeatUnit b e g).run = s.run.setBeats (fun full _ => full) := rfl

@[simp] theorem State.setBeatUnit_port (q : Port) : (s.setBeatUnit b e g).port q = s.port q := rfl

end

@[simp] theorem RunQueue.setBeats_baseTable (r : RunQueue) (f : Nat → Nat → Nat) :
    (r.setBeats f).baseTable = r.baseTable := rfl

@[simp] theorem RunQueue.setBeats_overTable (r : RunQueue) (f : Nat → Nat → Nat) :
    (r.setBeats f).overTable = r.overTable := rfl

/-! ## The statement -/

/-- Settles O32: a setting out of range is RANGE, which does not lock; else the owner writes the Beat Unit's settings and the
counts of the Run Queue, and raises no cause. -/
theorem setBeatSetsAndRestarts : Obligations.SetBeatSetsAndRestarts := by
  intro s p r src edge g0 g1 hs hx hpl
  refine ⟨fun hout => ?outOfRange, fun b e hb he hlo hhi => ?inRange⟩
  case outOfRange => exact refuses_of_owner hs hx rfl (hpl ▸ ownSetBeat_outOfRange hout) rfl
  case inRange =>
    have hset : Keeps [.beat, .run, .ports] s (s.setBeatUnit b e (nat2 g0 g1)) := (setBeatUnit_keeps _ _ _ _).mono
    obtain ⟨t, hdone, hports⟩ := completes_of_owner (i := .setBeat p) (raised := fun _ => []) hx rfl
      (hpl ▸ ownSetBeat_inRange hb he hlo hhi) hset (by decide) (fun q => by rw [State.setBeatUnit_port]; rfl)
    have hrun : t.run = s.run.setBeats (fun full _ => full) := by rw [hports.run, State.setBeatUnit_run]
    refine ⟨t, hdone, ?beat, ?baseTable, ?overTable, ?entries⟩
    case beat => rw [hports.beat, State.setBeatUnit_beat]
    case baseTable => rw [hrun, RunQueue.setBeats_baseTable]
    case overTable => rw [hrun, RunQueue.setBeats_overTable]
    case entries => rw [hrun]; rfl

end Sys2Proof.Machine
end

section
/-! The refresh target of a layer slot (R90 of 05_screen_image_and_layer_timing.md): that it is the part the slot shows once
its fade has ended, and the statement O43, the table of R90, read off from that. -/

namespace Sys2Proof.Machine

/-- The shown part of a slot (R80). -/
def Slot.shownPart : Slot → Option TextPart
  | .dark => none
  | .rising p _ => some p
  | .lit p => some p
  | .falling p _ _ => some p

/-- A part that comes up is shown from the start, whether its rise takes time or ends at once (R81). -/
@[simp] theorem shownPart_rise (p : TextPart) : (rise p).shownPart = some p := by
  unfold rise
  split <;> rfl

/-- The sentence of R90: the refresh target is what the slot shows once its present transition has ended. -/
theorem Slot.target_eq_shownPart_fadeEnd (x : Slot) : x.target = x.fadeEnd.slot.shownPart := by
  match x with
  | .dark | .rising _ _ | .lit _ | .falling _ none _ => rfl
  | .falling _ (some n) _ => exact (shownPart_rise n).symm

/-! ## The statement -/

/-- Settles O43: in each state of the slot, what it shows after its fade end; a fall with a next part ends in that part's
rise. -/
theorem refreshTargets : Obligations.RefreshTargets := by
  intro shown n f
  refine ⟨?fallingToNext, ?fallingToDark, ?rising, ?lit, ?dark⟩
  case fallingToNext => exact (Slot.target_eq_shownPart_fadeEnd _).trans (shownPart_rise n)
  case fallingToDark => exact Slot.target_eq_shownPart_fadeEnd _
  case rising => exact Slot.target_eq_shownPart_fadeEnd _
  case lit => exact Slot.target_eq_shownPart_fadeEnd _
  case dark => exact Slot.target_eq_shownPart_fadeEnd _

end Sys2Proof.Machine
end

section
/-! The Link Controller's SET_LINK (R111 of 06_the_display_link.md): what the owner answers on each side of the range test,
and the statement O48 assembled from that. -/

namespace Sys2Proof.Machine

/-! ## What SET_LINK's owner answers (R111) -/

section
variable {p : Port} {s : State} {limit hold : Byte}

theorem ownSetLink_outOfRange (h : 15 < limit.toNat ∨ 31 < hold.toNat) :
    ownSetLink p [limit, hold] s = .refuse .range [] := by
  rw [ownSetLink, if_pos h]

theorem ownSetLink_inRange (hl : limit.toNat ≤ 15) (hh : hold.toNat ≤ 31) :
    ownSetLink p [limit, hold] s =
      .done (s.withLink { s.link with retryLimit := limit.toNat, holdOff := hold.toNat })
        ([limit, hold] ++ le2 s.link.attempts) := by
  rw [ownSetLink, if_neg (not_or.2 ⟨hl.not_gt, hh.not_gt⟩)]

end

/-! ## The statement -/

/-- Settles O48: a value above its bound is RANGE, which does not lock; else the owner writes the two settings and nothing else
of the Link Controller, whatever they were, and raises no cause. -/
theorem setLinkSetsTheLimits : Obligations.SetLinkSetsTheLimits := by
  intro s p r limit hold hs hx hpl
  refine ⟨fun hout => ?outOfRange, fun hl hh => ?inRange⟩
  case outOfRange => exact refuses_of_owner hs hx rfl (hpl ▸ ownSetLink_outOfRange hout) rfl
  case inRange =>
    have hset : Keeps [.link, .ports] s (s.withLink { s.link with retryLimit := limit.toNat, holdOff := hold.toNat }) :=
      (withLink_keeps _ _).mono
    obtain ⟨t, hdone, hports⟩ := completes_of_owner (i := .setLink p) (raised := fun _ => []) hx rfl
      (by rw [hpl, ownSetLink_inRange hl hh]) hset (by decide) (fun _ => rfl)
    exact ⟨t, hdone, by rw [hports.link, State.withLink_link]⟩

end Sys2Proof.Machine
end

section
/-! The Call Arbiter's CLAIM and YIELD (R125 to R128 of 07_the_call_right_and_port_roles.md): what the owner answers by the
sending port's place, what each change of the right writes and raises, and the statements O33, O34 and O35 assembled from
that. -/

namespace Sys2Proof.Machine

/-! ## What CLAIM's owner answers, by the sending port's place (R125, R126) -/

section
variable {p q : Port} {pl : List Byte} {s : State}

theorem ownClaim_holder (hh : s.arbiter.holder = some p) : ownClaim p pl s = .done s [0, 0, 0xFF] := by
  simp [ownClaim, hh]

theorem ownClaim_free (hh : s.arbiter.holder = none) : ownClaim p pl s = .done (s.grantFree p) [1, 0, 0xFF] := by
  simp [ownClaim, hh]

theorem ownClaim_forced (hh : s.arbiter.holder = some q) (hq : q ≠ p) (hf : claimForce pl = true) :
    ownClaim p pl s = .done (s.takeOver p q) [1, 0, portByte q] := by
  simp [ownClaim, hh, hq, hf]

theorem ownClaim_unforced (hh : s.arbiter.holder = some q) (hq : q ≠ p) (hf : claimForce pl = false) :
    ownClaim p pl s = .done (s.joinList p) [2, byteOf ((s.joinList p).arbiter.position p), 0xFF] := by
  simp [ownClaim, hh, hq, hf]

/-! ## What YIELD's owner answers, by the sending port's place (R128) -/

theorem ownYield_passed {rest : List Port} (hh : s.arbiter.holder = some p) (hl : s.arbiter.claims = q :: rest) :
    ownYield p pl s = .done (s.passRight p none) [0, portByte q] := by
  simp [ownYield, hh, hl]

theorem ownYield_freed (hh : s.arbiter.holder = some p) (hl : s.arbiter.claims = []) :
    ownYield p pl s = .done (s.passRight p none) [1, 0xFF] := by
  simp [ownYield, hh, hl]

theorem ownYield_withdrawn (hh : s.arbiter.holder ≠ some p) (hl : p ∈ s.arbiter.claims) :
    ownYield p pl s =
      .done (s.withArbiter { s.arbiter with claims := s.arbiter.claims.filter (fun q => decide (q ≠ p)) }) [2, 0xFF] := by
  simp [ownYield, hh, hl]

theorem ownYield_none (hh : s.arbiter.holder ≠ some p) (hl : p ∉ s.arbiter.claims) :
    ownYield p pl s = .done s [3, 0xFF] := by
  simp [ownYield, hh, hl]

end

/-! ## What each change of the right writes (R124 to R127) -/

section
variable (s : State) (p q : Port)

@[simp] theorem State.port_withArbiter (x : CallArbiter) : (s.withArbiter x).port q = s.port q := rfl

@[simp] theorem State.grantFree_arbiter : (s.grantFree p).arbiter =
    { s.arbiter with holder := some p, claims := s.arbiter.claims.filter (fun x => decide (x ≠ p)) } := rfl

@[simp] theorem State.takeOver_arbiter : (s.takeOver p q).arbiter =
    { s.arbiter with holder := some p, claims := s.arbiter.claims.filter (fun x => decide (x ≠ p)) } := rfl

end

section
variable {s : State} {p q : Port}

theorem joinList_of_mem (h : p ∈ s.arbiter.claims) : s.joinList p = s := by
  simp [State.joinList, h]

theorem joinList_of_not_mem (h : p ∉ s.arbiter.claims) :
    s.joinList p = s.withArbiter { s.arbiter with claims := s.arbiter.inOrder (s.arbiter.claims ++ [p]) } := by
  simp [State.joinList, h]

/-- The right passed on request to the head of the claim list (R127). -/
theorem passRight_cons {rest : List Port} (hl : s.arbiter.claims = q :: rest) :
    s.passRight p none =
      (s.withArbiter { s.arbiter with holder := some q, claims := rest }).raiseOn q (.callGranted .passed (some p)) := by
  simp [State.passRight, hl]

/-- The right passed on request with nobody waiting (R127). -/
theorem passRight_nil (hl : s.arbiter.claims = []) :
    s.passRight p none = s.withArbiter { s.arbiter with holder := none } := by
  simp [State.passRight, hl]

end

/-! ## Which causes each change of the right raises (R129) -/

theorem pending_raiseOn (s : State) (p : Port) (r : Raise) (x : Port) :
    ((s.raiseOn p r).port x).pending = raisedInto (s.port x).pending (onlyOn p [r] x) := by
  by_cases hx : x = p
  · subst hx
    simp [pending_raiseOn_self, onlyOn, raisedInto]
  · simp [port_raiseOn_ne r hx, onlyOn, hx, raisedInto]

theorem pending_grantFree (s : State) (p x : Port) :
    ((s.grantFree p).port x).pending = raisedInto (s.port x).pending (onlyOn p [.callGranted .free none] x) :=
  pending_raiseOn _ p _ x

/-- The former holder and the claimant are two ports, so each gets one cause of the forced claim (R126). -/
theorem pending_takeOver (s : State) {p q : Port} (hq : q ≠ p) (x : Port) :
    ((s.takeOver p q).port x).pending = raisedInto (s.port x).pending
      (if x = p then [.callGranted .takeover (some q)] else if x = q then [.callLost .takeover (some p)] else []) := by
  rw [State.takeOver, pending_raiseOn, pending_raiseOn, State.port_withArbiter]
  by_cases hx : x = p
  · simp [onlyOn, hx, hq.symm, raisedInto]
  · simp [onlyOn, hx, raisedInto]

/-! ## Requests that change the call right -/

/-- A request whose owner changes only the Call Arbiter, raising causes, completes with the arbiter its owner made. -/
theorem completes_at_arbiter {i : Instr} {s t : State} {k : ReqKind} {p : Port} {r : Request} {pl : List Byte}
    {raised : Port → List Raise} {owner : Port → List Byte → State → Verdict} (hx : Executes s p k r)
    (hi : exec i s = .next (s.serve k p owner)) (ho : owner p r.payload s = .done t pl) (hk : Keeps [.arbiter, .ports] s t)
    (hc : ∀ x, (t.port x).pending = raisedInto (s.port x).pending (raised x)) :
    ∃ u, Completes i s p r pl [.arbiter, .ports] raised u ∧ u.arbiter = t.arbiter := by
  obtain ⟨u, hdone, hports⟩ := completes_of_owner hx hi ho hk (by decide) hc
  exact ⟨u, hdone, hports.arbiter⟩

/-- A CLAIM by the holder is ALREADY, forced or not (R125, R126). -/
theorem claim_already {s : State} {p : Port} {r : Request} (hs : Settled s) (hx : Executes s p .claim r)
    (hh : s.arbiter.holder = some p) : OnlyAnswers (.claim p) s p r [0, 0, 0xFF] :=
  onlyAnswers_of_owner hs hx rfl (ownClaim_holder hh)

/-- A CLAIM that finds the right FREE is GRANTED, forced or not (R125, R126). -/
theorem claim_granted {s : State} {p : Port} {r : Request} (hx : Executes s p .claim r) (hh : s.arbiter.holder = none) :
    ∃ t, Completes (.claim p) s p r [1, 0, 0xFF] [.arbiter, .ports] (onlyOn p [.callGranted .free none]) t ∧
      t.arbiter.holder = some p ∧ t.arbiter.roles = s.arbiter.roles ∧
      t.arbiter.claims = s.arbiter.claims.filter (fun x => decide (x ≠ p)) := by
  obtain ⟨t, hdone, harb⟩ := completes_at_arbiter (i := .claim p) hx rfl (ownClaim_free hh) (grantFree_keeps s p)
    (pending_grantFree s p)
  rw [State.grantFree_arbiter] at harb
  exact ⟨t, hdone, by rw [harb], by rw [harb], by rw [harb]⟩

/-! ## The statements -/

/-- Settles O33: the cases of R125; a port that is in the list already joins nothing, so that its CLAIM only answers. -/
theorem claimWithoutForce : Obligations.ClaimWithoutForce := by
  intro s p r hs hx hf
  refine ⟨claim_already hs hx, claim_granted hx, fun q hh hq hin => ?inList, fun q hh hq hout => ?joins⟩
  case inList =>
    have ho := ownClaim_unforced hh hq hf
    rw [joinList_of_mem hin] at ho
    exact onlyAnswers_of_owner hs hx rfl ho
  case joins =>
    have ho := ownClaim_unforced hh hq hf
    have hjoin : Keeps [.arbiter, .ports] s (s.joinList p) := (joinList_keeps s p).mono
    rw [joinList_of_not_mem hout] at ho hjoin
    obtain ⟨t, hdone, harb⟩ := completes_at_arbiter (i := .claim p) (raised := fun _ => []) hx rfl ho hjoin (fun _ => rfl)
    rw [← harb] at hdone
    rw [State.withArbiter_arbiter] at harb
    exact ⟨t, hdone, by rw [harb, hh], by rw [harb], by rw [harb, CallArbiter.inOrder]⟩

/-- Settles O34: the cases of R126; only where another port holds the right does the force matter. -/
theorem claimWithForce : Obligations.ClaimWithForce := by
  intro s p r hs hx hf
  refine ⟨claim_already hs hx, claim_granted hx, fun q hh hq => ?taken⟩
  case taken =>
    obtain ⟨t, hdone, harb⟩ := completes_at_arbiter (i := .claim p) hx rfl (ownClaim_forced hh hq hf) (takeOver_keeps s p q)
      (pending_takeOver s hq)
    rw [State.takeOver_arbiter] at harb
    exact ⟨t, hdone, by rw [harb], by rw [harb], by rw [harb]⟩

/-- Settles O35: the cases of R128; the only cause is CALL_GRANTED on the port that receives the right. -/
theorem yieldPassesTheRight : Obligations.YieldPassesTheRight := by
  intro s p r hs hx
  refine ⟨fun hh q rest hl => ?passed, fun hh hl => ?freed, fun hh hin => ?withdrawn, fun hh hout => ?neither⟩
  case passed =>
    have hpass := passRight_keeps s p none
    have ho := ownYield_passed (pl := r.payload) hh hl
    rw [passRight_cons hl] at hpass ho
    exact completes_at_arbiter (i := .yieldRight p) hx rfl ho hpass (pending_raiseOn _ q _)
  case freed =>
    have hpass := passRight_keeps s p none
    have ho := ownYield_freed (pl := r.payload) hh hl
    rw [passRight_nil hl] at hpass ho
    exact completes_at_arbiter (i := .yieldRight p) hx rfl ho hpass (fun _ => rfl)
  case withdrawn =>
    exact completes_at_arbiter (i := .yieldRight p) hx rfl (ownYield_withdrawn hh hin) (withArbiter_keeps s _).mono
      (fun _ => rfl)
  case neither => exact onlyAnswers_of_owner hs hx rfl (ownYield_none hh hout)

end Sys2Proof.Machine
end

section
/-! The Watch Unit's SET_WATCH (R159 of 09_watches_and_notices.md): which settings are in range, what the owner answers and
writes, and the statement O51 assembled from that. -/

namespace Sys2Proof.Machine

section
variable {t0 a0 b0 c0 t1 a1 b1 c1 comb sil : Byte} {w0 w1 : Watch} {m : Combine} {q : Bool}

/-! ## The settings in and out of range (R159) -/

theorem watchUnitOf_inRange (line : Bool) (h0 : watchOf t0 a0 b0 c0 = some w0) (h1 : watchOf t1 a1 b1 c1 = some w1)
    (hm : combineOf comb = some m) (hq : yesNoOf sil = some q) :
    watchUnitOf line [t0, a0, b0, c0, t1, a1, b1, c1, comb, sil] =
      some { w0 := w0, w1 := w1, combine := m, silent := q, line := line } := by
  simp only [watchUnitOf, h0, h1, hm, hq]

/-- One setting out of range is enough: the four fields are read together. -/
theorem watchUnitOf_outOfRange (line : Bool)
    (h : watchOf t0 a0 b0 c0 = none ∨ watchOf t1 a1 b1 c1 = none ∨ combineOf comb = none ∨ yesNoOf sil = none) :
    watchUnitOf line [t0, a0, b0, c0, t1, a1, b1, c1, comb, sil] = none := by
  simp only [watchUnitOf]
  split
  next h0 h1 hm hq =>
    simp only [h0, h1, hm, hq, reduceCtorEq, or_self] at h
  next => rfl

/-! ## What SET_WATCH's owner answers (R159) -/

variable {p : Port} {s : State}

theorem ownSetWatch_outOfRange
    (h : watchOf t0 a0 b0 c0 = none ∨ watchOf t1 a1 b1 c1 = none ∨ combineOf comb = none ∨ yesNoOf sil = none) :
    ownSetWatch p [t0, a0, b0, c0, t1, a1, b1, c1, comb, sil] s = .refuse .range [] := by
  simp only [ownSetWatch, watchUnitOf_outOfRange _ h]

theorem ownSetWatch_inRange (h0 : watchOf t0 a0 b0 c0 = some w0) (h1 : watchOf t1 a1 b1 c1 = some w1)
    (hm : combineOf comb = some m) (hq : yesNoOf sil = some q) :
    ownSetWatch p [t0, a0, b0, c0, t1, a1, b1, c1, comb, sil] s =
      .done (s.withWatch { w0 := w0, w1 := w1, combine := m, silent := q, line := s.watch.line })
        (w0.bytes ++ w1.bytes ++ [comb, sil, matchByte s.watch.w0.matched s.watch.w1.matched]) := by
  simp [ownSetWatch, watchUnitOf_inRange _ h0 h1 hm hq, WatchUnit.settingBytes, code_combineOf hm, yesNo_yesNoOf hq]

end

/-- A watch is answered with the type byte that set it (R171). -/
theorem Watch.bytes_of_type {t : Byte} {k : WatchType} (h : watchTypeOf t = some k) (v : CueNum) (matched : Bool) :
    Watch.bytes { type := k, value := v, matched := matched } = [t] ++ cueBytes v := by
  simp [Watch.bytes, code_watchTypeOf h]

/-! ## The statement -/

/-- Settles O51: a field out of range is RANGE, which does not lock; else the owner writes the two watches afresh, so with
their match flags clear, keeps the line, and raises no cause. -/
theorem setWatchSetsAndRearms : Obligations.SetWatchSetsAndRearms := by
  intro s p r t0 a0 b0 c0 t1 a1 b1 c1 comb sil hs hx hpl
  refine ⟨fun hout => ?outOfRange, fun k0 k1 m q hk0 hk1 hm hq hr0 hr1 v0 v1 hv0 hv1 => ?inRange⟩
  case outOfRange =>
    have hnone : watchOf t0 a0 b0 c0 = none ∨ watchOf t1 a1 b1 c1 = none ∨ combineOf comb = none ∨ yesNoOf sil = none := by
      rw [watchOf_none, watchOf_none]
      tauto
    exact refuses_of_owner hs hx rfl (hpl ▸ ownSetWatch_outOfRange hnone) rfl
  case inRange =>
    have ho := ownSetWatch_inRange (p := p) (s := s) (watchOf_some hk0 hr0 hv0) (watchOf_some hk1 hr1 hv1) hm hq
    rw [Watch.bytes_of_type hk0, Watch.bytes_of_type hk1, ← List.append_assoc, ← hpl] at ho
    obtain ⟨t, hdone, hports⟩ := completes_of_owner (i := .setWatch p) (bs := [.watch, .ports]) (raised := fun _ => []) hx rfl
      ho (withWatch_keeps _ _).mono (by decide) (fun _ => rfl)
    have hwatch := hports.watch
    rw [State.withWatch_watch] at hwatch
    exact ⟨t, hdone, by rw [hwatch], by rw [hwatch], by rw [hwatch], by rw [hwatch], by rw [hwatch]⟩

end Sys2Proof.Machine
end

section
/-! What every step does, packaged once: the law of a step from the law of a command and of a millisecond; what a request's owner
can answer at all; and what a law needs so that a firing keeps it. -/

namespace Sys2Proof.Machine

/-! ## Laws and the blocks they read -/

/-- The law reads these blocks alone. -/
def ReadsOnly (bs : List Block) (Inv : State → Prop) : Prop :=
  ∀ s t : State, (∀ b ∈ bs, b.same s t) → Inv s → Inv t

/-- Two lists of blocks have none in common. -/
def Block.apart (bs cs : List Block) : Bool := bs.all (fun b => !cs.contains b)

theorem Block.not_mem_of_apart {bs cs : List Block} (h : Block.apart bs cs = true) {b : Block} (hb : b ∈ bs) : b ∉ cs := by
  simpa using List.all_eq_true.1 h b hb

section
variable {bs cs : List Block} {Inv : State → Prop} {s t : State}

/-- A change of other blocks keeps the law. -/
theorem ReadsOnly.of_only (h : ReadsOnly bs Inv) (hc : OnlyChanges cs s t)
    (hd : Block.apart bs cs = true := by decide) (hi : Inv s) : Inv t :=
  h s t (fun b hb => hc b (Block.not_mem_of_apart hd hb)) hi

/-- A command that changes none of the law's blocks keeps it. -/
theorem ReadsOnly.of_exec (h : ReadsOnly bs Inv) {c : Instr} (he : exec c s = .next t)
    (hd : Block.apart bs (changes c) = true) (hi : Inv s) : Inv t := by
  obtain ⟨u, hu, ho⟩ := exec_only c s
  rw [hu] at he
  cases he
  exact h.of_only ho hd hi

end

/-! ## The card with no command waiting -/

theorem pickReady_mem (n : Nat) {xs : List Instr} {d : Instr} (h : d ∈ xs) : pickReady n xs d ∈ xs := by
  have hlt : Config.eventChoice n % xs.length < xs.length := Nat.mod_lt _ (List.length_pos_of_mem h)
  simp [pickReady, hlt]

theorem withPending_only (s : State) (x : List Instr) : OnlyChanges [.pending] s (s.withPending x) := by
  intro b hb; cases b <;> first | exact absurd (by decide) hb | rfl

theorem idle_of_quiet {s : State} (h : s.ready = []) : s.idle = s.tick := by simp [State.idle, h]

/-- Where something is ready, one ready thing is put into the queue and taken off the due events. -/
theorem idle_of_ready {s : State} (h : s.ready ≠ []) :
    ∃ c ∈ s.ready, s.idle.pending = [c] ∧ s.idle.due = s.due.erase c ∧ OnlyChanges [.pending, .due, .choices] s s.idle := by
  have put (c : Instr) : OnlyChanges [.pending, .due, .choices] s ((s.withPending [c]).withDue (s.due.erase c)) :=
    ((withPending_only s [c]).mono (by decide)).trans ((withDue_keeps _ _).1.mono (by decide))
  unfold State.idle
  split
  next he => exact absurd he h
  next e he => exact ⟨e, by simp [he], rfl, rfl, put e⟩
  next e es _ he =>
    exact ⟨_, by rw [he]; exact pickReady_mem _ List.mem_cons_self, rfl, rfl, (put _).trans ((withChoices_keeps _ _).1.mono (by decide))⟩

/-- A law that each command keeps and each millisecond keeps is kept by every step. -/
theorem keptByStep_of {bs : List Block} {Inv : State → Prop} (h : ReadsOnly bs Inv)
    (hexec : ∀ c s t, exec c s = .next t → Inv s → Inv t) (htick : ∀ s, Inv s → Inv s.tick)
    (hd : Block.apart bs [.pending, .due, .choices] = true := by decide) : KeptByStep Inv := by
  intro s t hi hstep
  unfold step at hstep
  split at hstep
  next c rest _ =>
    have hp : Block.apart bs [.pending] = true := List.all_eq_true.2 fun b hb => by
      have := Block.not_mem_of_apart hd hb
      simp_all
    exact hexec c _ t hstep (h.of_only (withPending_only s rest) hp hi)
  next =>
    cases hstep
    by_cases hr : s.ready = []
    · rw [idle_of_quiet hr]; exact htick s hi
    · obtain ⟨-, -, -, -, ho⟩ := idle_of_ready hr
      exact h.of_only ho hd hi

/-! ## What a request's owner can answer -/

/-- The owner of a request kind. -/
def ReqKind.owner : ReqKind → Port → List Byte → State → Verdict
  | .openShow => ownOpen
  | .closeShow => ownClose
  | .go => ownGo
  | .back => ownBack
  | .standby => ownStandby
  | .hold => ownHold
  | .release => ownRelease
  | .beat => ownBeat
  | .claim => ownClaim
  | .yieldRight => ownYield
  | .setRole => ownSetRole
  | .setPort => ownSetPort
  | .putCue => ownPutCue
  | .dropCue => ownDropCue
  | .putText => ownPutText
  | .dropText => ownDropText
  | .setHead => ownSetHead
  | .refreshHead => ownRefreshHead
  | .setLink => ownSetLink
  | .setBeat => ownSetBeat
  | .setWatch => ownSetWatch
  | .setNotice => ownSetNotice
  | .readPosition => ownReadPosition
  | .readCue => ownReadCue
  | .readText => ownReadText
  | .readHead => ownReadHead
  | .readCauses => ownReadCauses
  | .readCapture => ownReadCapture
  | .listCues => ownListCues
  | .sync => ownSync
  | .clearCauses => ownClearCauses
  | .clearCapture => ownClearCapture

/-- A request row is the execution of its kind by its owner. -/
theorem exec_command (k : ReqKind) (p : Port) (s : State) : exec (k.command p) s = .next (s.serve k p k.owner) := by
  cases k <;> rfl

/-- The state an owner of a kind leaves where it does not refuse: one constructor for each thing it can do, with what it has
tested. -/
inductive Effect (p : Port) (s : State) : ReqKind → State → Prop
  | opens {n : CueNum} : s.engine.state = .idle → (findCue s.cues n).isSome = true → Effect p s .openShow (s.openAt n)
  | closes : s.engine.state ≠ .idle → Effect p s .closeShow (s.closeDown p)
  | goes {n : CueNum} : s.engine.state = .ready ∨ s.engine.state = .running → s.engine.standby = some n →
      Effect p s .go (s.fire n (.port p) .go)
  | backs {m : CueNum} {c : CueRec} : s.engine.state = .running → s.engine.current = some m →
      cueBefore s.cues m = some c → Effect p s .back (s.fire c.num (.port p) .back)
  | standsBy {n : CueNum} : s.engine.state ≠ .idle → (findCue s.cues n).isSome = true → Effect p s .standby (s.standBy n)
  | holds {fr : HeldFrom} : s.engine.state = fr.state → Effect p s .hold (s.holdFrom fr)
  | holdsOn : s.engine.state = .held → Effect p s .hold s
  | releases : s.engine.state = .held → Effect p s .release s.releaseShow
  | beats : Effect p s .beat (s.takeBeat .request)
  | claimsHeld : s.arbiter.holder = some p → Effect p s .claim s
  | claimsFree : s.arbiter.holder = none → Effect p s .claim (s.grantFree p)
  | takesOver {q : Port} : s.arbiter.holder = some q → q ≠ p → Effect p s .claim (s.takeOver p q)
  | joins {q : Port} : s.arbiter.holder = some q → q ≠ p → Effect p s .claim (s.joinList p)
  | yields : s.arbiter.holder = some p → Effect p s .yieldRight (s.passRight p none)
  | withdraws : s.arbiter.holder ≠ some p → Effect p s .yieldRight
      (s.withArbiter { s.arbiter with claims := s.arbiter.claims.filter (fun q => decide (q ≠ p)) })
  | yieldsNothing : Effect p s .yieldRight s
  | givesRole {target : Port} {r : Role} : s.engine.state = .idle → Effect p s .setRole (s.setRoleOf target r)
  | setsPolicy {b : Bool} : Effect p s .setPort (s.onPort p (fun u => { u with lockPolicy := b }))
  | addsCue {pl : List Byte} {c : CueRec} : cueRecOf pl = some c → (∀ e ∈ c.body.texts, (findText s.texts e.text).isSome = true) →
      findCue s.cues c.num = none → s.cues.length < 2048 → Effect p s .putCue (s.addCueRec c)
  | replacesCue {pl : List Byte} {c old : CueRec} : cueRecOf pl = some c →
      (∀ e ∈ c.body.texts, (findText s.texts e.text).isSome = true) → findCue s.cues c.num = some old → ¬ CueInUse s c.num →
      Effect p s .putCue (s.replaceCueRec old c)
  | dropsCue {c : CueRec} : findCue s.cues c.num = some c → ¬ CueInUse s c.num → Effect p s .dropCue (s.removeCueRec c)
  | addsText {i : Nat} {bytes : List Byte} : textInRange i bytes = true → findText s.texts i = none →
      s.texts.length < 16384 → byteTotal s.texts + bytes.length ≤ 1048576 →
      Effect p s .putText (s.withTexts (putTextRec i bytes s.texts))
  | replacesText {i : Nat} {bytes : List Byte} {old : TextRec} : textInRange i bytes = true → findText s.texts i = some old →
      byteTotal s.texts - old.bytes.length + bytes.length ≤ 1048576 →
      Effect p s .putText (s.withTexts (putTextRec i bytes s.texts))
  | dropsText {x : TextRec} : findText s.texts x.id = some x → x.refs = 0 →
      Effect p s .dropText (s.withTexts (dropTextRec x.id s.texts))
  | setsHead {h : HeadId} {on : Bool} {lang : Lang} {group : GroupId} {gap : GapPolicy} :
      Effect p s .setHead ((s.setHead h { s.head h with lang := lang, group := group, gap := gap }).actOnEnable h on)
  | refreshes {h : HeadId} : Effect p s .refreshHead (s.refreshHead h)
  | setsLink {limit hold : Nat} : Effect p s .setLink (s.withLink { s.link with retryLimit := limit, holdOff := hold })
  | setsBeat {b : BeatSource} {e : EdgeSel} {g : Nat} : Effect p s .setBeat (s.setBeatUnit b e g)
  | setsWatch {w : WatchUnit} : Effect p s .setWatch (s.withWatch w)
  | enables {c : CauseSet} : Effect p s .setNotice (s.onPort p (fun u => u.enable c))
  | readsPosition : Effect p s .readPosition s
  | readsCue : Effect p s .readCue s
  | readsText : Effect p s .readText s
  | readsHead : Effect p s .readHead s
  | readsCauses : Effect p s .readCauses s
  | readsCapture : Effect p s .readCapture s
  | lists {k : Listing} {next : Option CueRec} :
      Effect p s .listCues (s.onPort p (fun u => ({ u with listing := some k } : PortUnit).listNext next))
  | syncs : Effect p s .sync (s.onPort p (fun u => { u with
      sync := some { waiting := s.link.queue.map Command.id, total := s.link.queue.length, unacked := 0 } }))
  | clearsCauses {c : CauseSet} : Effect p s .clearCauses (s.onPort p (fun u => u.clearCauses c))
  | clearsPortCapture : Effect p s .clearCapture (s.onPort p (fun u => { u with capture := none }))
  | clearsLinkCapture : Effect p s .clearCapture (s.withLink { s.link with capture := none })

/-- The state of a verdict, where it has one, has the property. -/
def Verdict.Gives (P : State → Prop) : Verdict → Prop
  | .done t _ => P t
  | .refuse _ _ => True
  | .wait t => P t

theorem findCue_isSome_of_mem {cues : List CueRec} {c : CueRec} (h : c ∈ cues) : (findCue cues c.num).isSome = true :=
  findCue_isSome.2 ⟨c, h, rfl⟩

/-- An owner refuses, or does one of the things its kind can do. -/
theorem owner_effect (k : ReqKind) (p : Port) (pl : List Byte) (s : State) : (k.owner p pl s).Gives (Effect p s k) := by
  cases k <;> simp only [ReqKind.owner]
  case openShow =>
    unfold ownOpen
    repeat' split
    all_goals first
      | trivial
      | exact .opens (by simp_all) (findCue_isSome_of_mem (List.mem_of_mem_head? ‹_›))
      | exact .opens (by simp_all) (findCue_isSome_of_mem (findCue_mem ‹_›))
  case closeShow =>
    unfold ownClose
    repeat' split
    all_goals first | trivial | exact .closes ‹_›
  case go =>
    unfold ownGo
    repeat' split
    all_goals first | trivial | exact .goes (.inl ‹_›) ‹_› | exact .goes (.inr ‹_›) ‹_›
  case back =>
    unfold ownBack
    repeat' split
    all_goals first | trivial | skip
    next hrun _ c hc =>
      obtain ⟨m, hm, hb⟩ := Option.bind_eq_some_iff.1 hc
      exact .backs hrun hm hb
  case standby =>
    unfold ownStandby
    repeat' split
    all_goals first | trivial | exact .standsBy ‹_› (findCue_isSome_of_mem (findCue_mem ‹_›))
  case hold =>
    unfold ownHold
    split
    next => trivial
    next h => exact .holdsOn h
    next h => exact .holds h
    next h => exact .holds h
  case release =>
    unfold ownRelease
    split
    next h => exact .releases h
    next => trivial
  case beat =>
    unfold ownBeat
    repeat' split
    all_goals first | trivial | exact .beats
  case claim =>
    unfold ownClaim
    split
    next h => exact .claimsFree h
    next q h =>
      by_cases hq : q = p
      · rw [if_pos hq]; exact .claimsHeld (hq ▸ h)
      · rw [if_neg hq]
        split
        · exact .takesOver h hq
        · exact .joins h hq
  case yieldRight =>
    unfold ownYield
    split
    next h => split <;> exact .yields h
    next h =>
      split
      · exact .withdraws h
      · exact .yieldsNothing
  case setRole =>
    unfold ownSetRole
    repeat' split
    all_goals first | trivial | exact .givesRole (by simp_all)
  case setPort =>
    unfold ownSetPort
    repeat' split
    all_goals first | trivial | exact .setsPolicy
  case putCue =>
    unfold ownPutCue
    split
    next => trivial
    next c hc =>
      split
      next => trivial
      next hno =>
        have ht : ∀ e ∈ c.body.texts, (findText s.texts e.text).isSome = true := fun e he => by
          simpa [Option.isSome_iff_ne_none] using List.find?_eq_none.1 hno e he
        split
        next hn =>
          split
          next => trivial
          next hlen => exact .addsCue hc ht hn (by simpa [Config.maxCues] using hlen)
        next old ho =>
          split
          next => trivial
          next hu => exact .replacesCue hc ht ho (mt cueInUse_iff.2 hu)
  case dropCue =>
    unfold ownDropCue
    split
    next =>
      split
      next => trivial
      next =>
        split
        next => trivial
        next c hc =>
          split
          next => trivial
          next hu => exact .dropsCue (by rw [findCue_num hc]; exact hc) (mt cueInUse_iff.2 hu)
    next => trivial
  case putText =>
    unfold ownPutText
    split
    next lo hi bytes =>
      dsimp only
      by_cases hr : textInRange (nat2 lo hi) bytes = true
      · rw [if_neg (by simp [hr])]
        split
        next hn =>
          split
          next => trivial
          next hlim =>
            simp only [Config.maxTexts, Config.maxTextBytes, not_or, not_le, not_lt] at hlim
            exact .addsText hr hn hlim.1 hlim.2
        next old ho =>
          split
          next => trivial
          next hlim =>
            split
            next => trivial
            next => exact .replacesText hr ho (by simpa [Config.maxTextBytes] using hlim)
      · rw [if_pos (by simpa using hr)]; trivial
    next => trivial
  case dropText =>
    unfold ownDropText
    split
    next =>
      split
      next => trivial
      next =>
        split
        next => trivial
        next x hx =>
          split
          next => trivial
          next hrefs =>
            have := Effect.dropsText (p := p) (s := s) (x := x) (by rw [findText_id hx]; exact hx) (by simpa using hrefs)
            rwa [findText_id hx] at this
    next => trivial
  case setHead =>
    unfold ownSetHead
    repeat' split
    all_goals first | trivial | exact .setsHead
  case refreshHead =>
    unfold ownRefreshHead
    repeat' split
    all_goals first | trivial | exact .refreshes
  case setLink =>
    unfold ownSetLink
    repeat' split
    all_goals first | trivial | exact .setsLink
  case setBeat =>
    unfold ownSetBeat
    repeat' split
    all_goals first | trivial | exact .setsBeat
  case setWatch =>
    unfold ownSetWatch
    repeat' split
    all_goals first | trivial | exact .setsWatch
  case setNotice =>
    unfold ownSetNotice
    repeat' split
    all_goals first | trivial | exact .enables
  case readPosition => exact .readsPosition
  case readCauses => exact .readsCauses
  case readCue =>
    unfold ownReadCue
    repeat' split
    all_goals first | trivial | exact .readsCue
  case readText =>
    unfold ownReadText
    repeat' split
    all_goals first | trivial | exact .readsText
  case readHead =>
    unfold ownReadHead
    repeat' split
    all_goals first | trivial | exact .readsHead
  case readCapture =>
    unfold ownReadCapture
    repeat' split
    all_goals first | trivial | exact .readsCapture
  case listCues =>
    unfold ownListCues
    repeat' split
    all_goals first | trivial | exact .lists
  case sync => exact .syncs
  case clearCauses =>
    unfold ownClearCauses
    repeat' split
    all_goals first | trivial | exact .clearsCauses
  case clearCapture =>
    unfold ownClearCapture
    repeat' split
    all_goals first | trivial | exact .clearsPortCapture | exact .clearsLinkCapture

theorem ReqKind.ofCode_eq {b : Byte} {k : ReqKind} (h : ReqKind.ofCode b = some k) : b = k.code := by
  have hb : k.code = b := by simpa using List.find?_some h
  exact hb.symm

/-- The turn's request executes where it is not marked, of this kind, and passes the checks. -/
theorem executes_of_checkRequest {s : State} {k : ReqKind} {p : Port} {r : Request} (ht : s.turn p = some r)
    (hd : r.drop = false) (hk : ReqKind.ofCode r.kind = some k) (hc : s.checkRequest k p r = none) : Executes s p k r := by
  unfold State.checkRequest at hc
  split_ifs at hc with hlen hflags
  have hall : ∀ f ∈ k.needs r.payload, s.hasFlag p f = true := by simpa using hflags
  exact ⟨ht, hd, ReqKind.ofCode_eq hk, by simpa using hlen, hall⟩

/-- What an execution keeps: a law that its owner's effects, a refusal, an answer and the end of the event keep. -/
theorem serve_kept {Inv : State → Prop} {k : ReqKind} {p : Port} {s : State} (hs : Inv s)
    (heffect : ∀ r t, Executes s p k r → Effect p s k t → Inv t)
    (hrefuse : ∀ r st extra, Inv (s.refuse p r st extra))
    (hrespond : ∀ t r st pl, Inv t → Inv (t.respond p r st pl))
    (hsettle : ∀ t, Inv t → Inv t.settle) : Inv (s.serve k p k.owner) := by
  rcases serve_cases s k p k.owner with h | ⟨r, ht, hd, hk, h⟩ <;> rw [h]
  · exact hs
  refine hsettle _ ?_
  unfold State.execute
  split
  next => exact hrefuse _ _ _
  next hc =>
    have hx := executes_of_checkRequest ht hd hk hc
    have hgives := owner_effect k p r.payload s
    split
    next t pl ho =>
      rw [ho] at hgives
      exact hrespond _ _ _ _ (heffect r t hx hgives)
    next => exact hrefuse _ _ _
    next t ho =>
      rw [ho] at hgives
      exact heffect r t hx hgives

/-- For a law that reads neither the ports nor the Call Arbiter only the owner's effects count. -/
theorem ReadsOnly.serve_kept {bs : List Block} {Inv : State → Prop} (h : ReadsOnly bs Inv) {k : ReqKind} {p : Port} {s : State}
    (hs : Inv s) (heffect : ∀ t, Effect p s k t → Inv t)
    (hd : Block.apart bs [.arbiter, .ports] = true := by decide) : Inv (s.serve k p k.owner) :=
  Machine.serve_kept hs (fun _ t _ => heffect t) (fun _ _ _ => h.of_only (refuse_only _ _ _ _ _) hd hs)
    (fun t r st pl ht => h.of_only ((respond_keeps t p r st pl).1.mono (by decide)) hd ht)
    (fun t ht => h.of_only ((settle_only t).mono (by decide)) hd ht)

/-- A request keeps such a law where its owner's effects do. -/
theorem ReadsOnly.of_request {bs : List Block} {Inv : State → Prop} (h : ReadsOnly bs Inv) (k : ReqKind) {p : Port} {s t : State}
    (he : exec (k.command p) s = .next t) (hs : Inv s) (heffect : ∀ t, Effect p s k t → Inv t)
    (hd : Block.apart bs [.arbiter, .ports] = true := by decide) : Inv t := by
  rw [exec_command] at he
  cases he
  exact h.serve_kept hs heffect hd

end Sys2Proof.Machine
end

section
/-! Laws that firings keep: a law kept by a cue's change on one head, by a clear and by a raise, and that reads nothing of the
show's own blocks, is kept by every firing, floor end, beat and CLOSE. -/

namespace Sys2Proof.Machine

/-- What a law needs so that whatever fires keeps it. -/
structure KeptByChanges (Inv : State → Prop) : Prop where
  blocks : ∀ {s t : State}, OnlyChanges [.engine, .run, .beat, .watch] s t → Inv s → Inv t
  raised : ∀ {s : State} (r : Raise), Inv s → Inv (s.raiseAll r)
  changed : ∀ {s : State} {c : CueRec} (g : GroupId) (l : Layer) (h : HeadId), c ∈ s.cues → Inv s → Inv (s.changeHead c g l h)
  cleared : ∀ {s : State} (h : HeadId), Inv s → Inv (s.clearHead h)

/-- A law that every slot move keeps is kept by every change. -/
theorem KeptByChanges.ofMoves {Inv : State → Prop}
    (hb : ∀ {s t : State}, OnlyChanges [.engine, .run, .beat, .watch] s t → Inv s → Inv t)
    (hr : ∀ {s : State} (r : Raise), Inv s → Inv (s.raiseAll r))
    (hm : ∀ {s : State} (h : HeadId) (l : Layer) (m : SlotMove), Inv s → Inv (s.moveSlot h l m)) : KeptByChanges Inv where
  blocks := hb
  raised := hr
  changed g l h _ hs := by
    unfold State.changeHead
    split
    · split
      · rw [change_eq]; exact hm _ _ _ hs
      · exact hs
    · exact hs
  cleared h hs := by
    unfold State.clearHead
    split
    · rw [change_eq, change_eq]; exact hm _ _ _ (hm _ _ _ hs)
    · exact hs

namespace KeptByChanges
variable {Inv : State → Prop} (k : KeptByChanges Inv) {s : State}
include k

theorem withRun (x : RunQueue) (hs : Inv s) : Inv (s.withRun x) := k.blocks ((withRun_keeps s x).1.mono (by decide)) hs
theorem withBeat (x : BeatUnit) (hs : Inv s) : Inv (s.withBeat x) := k.blocks ((withBeat_keeps s x).1.mono (by decide)) hs
theorem withWatch (x : WatchUnit) (hs : Inv s) : Inv (s.withWatch x) := k.blocks ((withWatch_keeps s x).1.mono (by decide)) hs

theorem applyChange (g : GroupId) (l : Layer) (n : CueNum) (hs : Inv s) : Inv (s.applyChange g l n) := by
  unfold State.applyChange
  split
  next c hc =>
    have heads (hds : List HeadId) (t : State) (hm : c ∈ t.cues) (ht : Inv t) :
        Inv (hds.foldl (fun t h => t.changeHead c g l h) t) := by
      induction hds generalizing t with
      | nil => exact ht
      | cons h hds ih => exact ih _ (by rw [(changeHead_keeps t c g l h).1.cues]; exact hm) (k.changed g l h hm ht)
    exact heads _ _ (findCue_mem hc) (k.withRun _ hs)
  next => exact hs

theorem offerOne (n : CueNum) (o : Origin) (g : GroupId) (l : Layer) (hs : Inv s) : Inv (s.offer n o g l) := by
  unfold State.offer
  split
  · exact k.applyChange g l n hs
  · split
    · exact k.raised _ (k.withRun _ hs)
    · exact k.withRun _ hs

theorem recallOne (n : CueNum) (g : GroupId) (l : Layer) (hs : Inv s) : Inv (s.recall n g l) :=
  k.applyChange g l n (k.withRun _ hs)

theorem offerChanges (n : CueNum) (o : Origin) (kind : FiringKind) (hs : Inv s) : Inv (s.offerChanges n o kind) := by
  unfold State.offerChanges
  split
  next c hc =>
    clear hc
    generalize c.body.groupLayers = gls
    induction gls generalizing s with
    | nil => exact hs
    | cons gl gls ih =>
      rw [List.foldl_cons]
      refine ih ?_
      split
      · exact k.recallOne n gl.1 gl.2 hs
      · exact k.offerOne n o gl.1 gl.2 hs
  next => exact hs

theorem completeFiring (n : CueNum) (o : Origin) (kind : FiringKind) (hs : Inv s) : Inv (s.completeFiring n o kind) := by
  have watches : Inv (s.compareWatches n) := by
    unfold State.compareWatches
    dsimp only
    split
    · exact k.raised _ (k.withWatch _ hs)
    · exact k.withWatch _ hs
  unfold State.completeFiring
  dsimp only
  split
  · exact k.raised _ (k.raised _ watches)
  · exact k.raised _ watches

theorem fire (n : CueNum) (o : Origin) (kind : FiringKind) (hs : Inv s) : Inv (s.fire n o kind) := by
  have moved : Inv ((s.movePosition n).setFollow kind) :=
    k.blocks (((movePosition_keeps s n).1.mono (by decide)).trans ((setFollow_keeps _ _).1.mono (by decide))) hs
  exact k.completeFiring n o kind (k.offerChanges n o kind moved)

theorem expire (hs : Inv s) : Inv s.expire := by
  unfold State.expire
  split
  · exact k.fire _ _ _ (k.withRun _ hs)
  · exact hs

theorem takeBeat (src : BeatSource) (hs : Inv s) : Inv (s.takeBeat src) := by
  unfold State.takeBeat
  split
  · exact hs
  · exact k.raised _ hs
  · exact k.withBeat _ hs
  · unfold State.countBeat
    split
    · exact k.withBeat _ hs
    · split
      · exact k.expire (k.withBeat _ hs)
      · exact k.withRun _ (k.withBeat _ hs)

theorem floorEnd (g : GroupId) (l : Layer) (hs : Inv s) : Inv (s.floorEnd g l) := by
  unfold State.floorEnd
  dsimp only
  split
  · exact k.applyChange _ _ _ (k.withRun _ (k.withRun _ hs))
  · exact k.withRun _ hs

theorem closeDown (p : Port) (hs : Inv s) : Inv (s.closeDown p) := by
  have heads (hds : List HeadId) (t : State) (ht : Inv t) : Inv (hds.foldl State.clearHead t) := by
    induction hds generalizing t with
    | nil => exact ht
    | cons h hds ih => exact ih _ (k.cleared h ht)
  exact k.raised _ (k.withWatch _ (heads _ _ (k.blocks ((closePosition_keeps s).1.mono (by decide)) hs)))

/-- An edge on BEAT, if the end of an event keeps the law (R65, R66). -/
theorem beatEdge (hsettle : ∀ t, Inv t → Inv t.settle) {high : Bool} {t : State} (he : exec (.beatEdge high) s = .next t)
    (hs : Inv s) : Inv t := by
  cases he
  split
  · exact hs
  · dsimp only
    split
    · exact hsettle _ (k.takeBeat _ (k.withBeat _ hs))
    · exact k.withBeat _ hs

end KeptByChanges

end Sys2Proof.Machine
end

section
/-! The in-flight phase, its command and the attempt count (R100, R106): the law O10, kept by every step. -/

namespace Sys2Proof.Machine

/-- The link's phase law but for a queue that waits to be started: what every operation on the queue keeps. -/
structure LinkReady (s : State) : Prop where
  free : s.link.phase = .none → s.link.attempts = 0
  tail : ∀ n, s.link.phase = .sending n true → s.link.attempts = 0
  inFlight : s.link.phase ≠ .none → (∀ n, s.link.phase ≠ .sending n true) →
    (∃ c, s.link.queue.head? = some c ∧ c.seq.isSome = true) ∧ 1 ≤ s.link.attempts ∧ s.link.attempts ≤ Config.maxAttempts

theorem LinkPhaseLaw.ready {s : State} (h : LinkPhaseLaw s) : LinkReady s := ⟨fun hp => (h.empty hp).2, h.tail, h.inFlight⟩

theorem linkPhaseLaw_readsOnly : ReadsOnly [.link] LinkPhaseLaw := by
  intro s t hsame ⟨hempty, htail, hinFlight⟩
  have hlink : t.link = s.link := hsame .link List.mem_cons_self
  constructor <;> rw [hlink] <;> assumption

theorem linkReady_readsOnly : ReadsOnly [.link] LinkReady := by
  intro s t hsame ⟨hfree, htail, hinFlight⟩
  have hlink : t.link = s.link := hsame .link List.mem_cons_self
  constructor <;> rw [hlink] <;> assumption

/-! ## The queue's operations -/

theorem LinkReady.enqueue {s : State} (hs : LinkReady s) (h : HeadId) (b : CmdBody) : LinkReady (s.enqueue h b) := by
  refine ⟨hs.free, hs.tail, fun hp ht => ?_⟩
  obtain ⟨⟨c, hc, hseq⟩, hatt⟩ := hs.inFlight hp ht
  exact ⟨⟨c, by simp [State.enqueue, hc], hseq⟩, hatt⟩

/-- Once the oldest command has been started, if it can be, the law holds (R106). -/
theorem LinkReady.startLink {s : State} (hs : LinkReady s) : LinkPhaseLaw s.startLink := by
  unfold State.startLink
  split
  · exact ⟨nofun, nofun, fun _ _ => ⟨⟨_, rfl, rfl⟩, Nat.le_refl 1, (by decide : 1 ≤ Config.maxAttempts)⟩⟩
  next hno =>
    refine ⟨fun hp => ⟨?_, hs.free hp⟩, hs.tail, hs.inFlight⟩
    cases hq : s.link.queue with
    | nil => rfl
    | cons c cs => exact absurd hq (hno c cs hp)

theorem LinkReady.markOutOfStep {s : State} (hs : LinkReady s) (h : HeadId) : LinkReady (s.markOutOfStep h) :=
  linkReady_readsOnly.of_only (markOutOfStep_keeps s h).1 (by decide) hs

theorem LinkPhaseLaw.markOutOfStep {s : State} (hs : LinkPhaseLaw s) (h : HeadId) : LinkPhaseLaw (s.markOutOfStep h) :=
  linkPhaseLaw_readsOnly.of_only (markOutOfStep_keeps s h).1 (by decide) hs

theorem LinkPhaseLaw.ask {s : State} (hs : LinkPhaseLaw s) (h : HeadId) (l : Layer) (a : Ask) : LinkPhaseLaw (s.ask h l a) := by
  unfold State.ask
  split_ifs
  · exact hs
  · exact hs
  · exact LinkReady.startLink (LinkReady.enqueue hs.ready _ _)
  · exact LinkPhaseLaw.markOutOfStep hs h

theorem LinkPhaseLaw.askProbe {s : State} (hs : LinkPhaseLaw s) (h : HeadId) : LinkPhaseLaw (s.askProbe h) := by
  unfold State.askProbe
  split_ifs
  · exact LinkReady.startLink (LinkReady.enqueue hs.ready _ _)
  · exact LinkPhaseLaw.markOutOfStep hs h

theorem LinkReady.queueRefresh {s : State} (hs : LinkReady s) (h : HeadId) : LinkReady (s.queueRefresh h) := by
  unfold State.queueRefresh
  split_ifs
  · exact hs
  · exact LinkReady.enqueue (LinkReady.enqueue (linkReady_readsOnly.of_only (clearOutOfStep_keeps s h).1 (by decide) hs) _ _) _ _
  · exact LinkReady.markOutOfStep hs h

theorem LinkReady.catchUpHead {s : State} (hs : LinkReady s) (h : HeadId) : LinkReady (s.catchUpHead h) := by
  unfold State.catchUpHead
  split
  · split
    · exact LinkReady.queueRefresh hs h
    · exact LinkReady.enqueue (linkReady_readsOnly.of_only (clearOutOfStep_keeps s h).1 (by decide) hs) _ _
    · exact hs
    · exact hs
  · exact hs

theorem LinkReady.afterLeaving {s : State} (hs : LinkReady s) : LinkPhaseLaw s.afterLeaving := by
  have heads (hds : List HeadId) (t : State) (ht : LinkReady t) : LinkReady (hds.foldl State.catchUpHead t) := by
    induction hds generalizing t with
    | nil => exact ht
    | cons h hds ih => exact ih _ (LinkReady.catchUpHead ht h)
  refine LinkReady.startLink ?_
  unfold State.catchUp
  split
  · exact heads _ _ hs
  · exact hs

/-! ## Commands that leave -/

theorem takeOut_linkReady (s : State) (rest : List Command) (ids : List Nat) (acked : Bool) :
    LinkReady (s.takeOut rest .none ids acked) := ⟨fun _ => rfl, nofun, fun hp => absurd rfl hp⟩

theorem acknowledged_linkPhaseLaw (s : State) (c : Command) (rest : List Command) : LinkPhaseLaw (s.acknowledged c rest) := by
  have hout := takeOut_linkReady s rest [c.id] true
  refine LinkReady.afterLeaving ?_
  split
  · unfold State.probeAnswered
    split
    · exact LinkReady.queueRefresh (linkReady_readsOnly.of_only (cs := [.heads, .ports])
        (((setHead_only _ _ _).mono (by decide)).trans ((raiseAll_keeps _ _).1.mono (by decide))) (by decide) hout) _
    · exact hout
  · exact hout

theorem failCommand_linkPhaseLaw (s : State) (c : Command) (rest : List Command) : LinkPhaseLaw (s.failCommand c rest) := by
  refine LinkReady.afterLeaving (linkReady_readsOnly.of_only (raiseAll_keeps _ _).1 (by decide) ?_)
  exact ⟨fun _ => rfl, nofun, fun hp => absurd rfl hp⟩

theorem LinkPhaseLaw.holdOffOver {s : State} (hs : LinkPhaseLaw s) {n : Nat}
    (hp : s.link.phase = .holding n ∨ s.link.phase = .waiting n) : LinkPhaseLaw s.holdOffOver := by
  unfold State.holdOffOver
  split
  · exact hs
  next c rest hq =>
    split
    · exact failCommand_linkPhaseLaw _ _ _
    · obtain ⟨hc, -, -⟩ := hs.inFlight (by rcases hp with hp | hp <;> simp [hp]) (by rcases hp with hp | hp <;> simp [hp])
      exact ⟨nofun, nofun, fun _ _ => ⟨hc, by simp [Config.maxAttempts], Nat.min_le_left _ _⟩⟩

theorem LinkPhaseLaw.windowClosed {s : State} (hs : LinkPhaseLaw s) {n : Nat} (hp : s.link.phase = .waiting n) :
    LinkPhaseLaw s.windowClosed := by
  unfold State.windowClosed
  split
  · exact hs
  · split_ifs
    · exact failCommand_linkPhaseLaw _ _ _
    · exact LinkPhaseLaw.holdOffOver hs (.inr hp)
    · exact ⟨nofun, nofun, fun _ _ => hs.inFlight (by simp [hp]) (by simp [hp])⟩

/-- A disabled head's commands leave: an in-flight command of another head stays the oldest, one of its own leaves no attempt
counted (R117). -/
theorem LinkPhaseLaw.dropHeadCommands {s : State} (hs : LinkPhaseLaw s) (h : HeadId) : LinkPhaseLaw (s.dropHeadCommands h) := by
  by_cases hg : ∃ x ∈ s.link.queue, x.head = h
  case neg => rw [dropHeadCommands_none s h (by simpa using hg)]; exact hs
  obtain ⟨z, hz, dropped⟩ := dropHeadCommands_eq s h hg
  rw [hz]
  refine LinkReady.afterLeaving ?_
  have hbusy : s.link.phase ≠ .none := fun hp => by
    obtain ⟨x, hx, -⟩ := hg
    rw [(hs.empty hp).1] at hx
    cases hx
  by_cases htail : ∃ n, s.link.phase = .sending n true
  · obtain ⟨n, hn⟩ := htail
    obtain ⟨hphase, hatt⟩ := dropped.tail n hn
    have hzero : z.link.attempts = 0 := hatt.trans (hs.tail n hn)
    exact ⟨fun _ => hzero, fun _ _ => hzero, fun _ hnot => absurd hphase (hnot n)⟩
  · have hnot : ∀ n, s.link.phase ≠ .sending n true := fun n hn => htail ⟨n, hn⟩
    obtain ⟨⟨c, hc, hseq⟩, hatt⟩ := hs.inFlight hbusy hnot
    obtain ⟨rest, hq⟩ := List.head?_eq_some_iff.1 hc
    by_cases hown : c.head = h
    · obtain ⟨hsending, hstopped⟩ := dropped.own c rest hq hown
      cases hp : s.link.phase with
      | none => exact absurd hp hbusy
      | sending n tail =>
        cases tail with
        | true => exact absurd hp (hnot n)
        | false =>
          obtain ⟨hphase, hzero⟩ := hsending n hp
          exact ⟨fun _ => hzero, fun _ _ => hzero, fun _ hz => absurd hphase (hz n)⟩
      | waiting n =>
        obtain ⟨hphase, hzero⟩ := hstopped n (.inl hp)
        exact ⟨fun _ => hzero, fun _ _ => hzero, fun hz _ => absurd hphase hz⟩
      | holding n =>
        obtain ⟨hphase, hzero⟩ := hstopped n (.inr hp)
        exact ⟨fun _ => hzero, fun _ _ => hzero, fun hz _ => absurd hphase hz⟩
    · obtain ⟨hphase, hattempts⟩ := dropped.other c rest hq hbusy hown
      refine ⟨fun hz => absurd (hphase ▸ hz) hbusy, fun n hz => absurd (hphase ▸ hz) (hnot n), fun _ _ => ?_⟩
      rw [hattempts, dropped.queue, hq]
      exact ⟨⟨c, by simp [hown], hseq⟩, hatt⟩

/-! ## The screen's operations -/

theorem LinkPhaseLaw.moveSlot {s : State} (hs : LinkPhaseLaw s) (h : HeadId) (l : Layer) (m : SlotMove) :
    LinkPhaseLaw (s.moveSlot h l m) := by
  have asked (as : List Ask) (t : State) (ht : LinkPhaseLaw t) : LinkPhaseLaw (as.foldl (fun t a => t.ask h l a) t) := by
    induction as generalizing t with
    | nil => exact ht
    | cons a as ih => exact ih _ (LinkPhaseLaw.ask ht h l a)
  have hasks := asked m.asks _ (linkPhaseLaw_readsOnly.of_only (writeSlot_keeps s h l m.slot).1 (by decide) hs)
  unfold State.moveSlot
  dsimp only
  split
  · exact linkPhaseLaw_readsOnly.of_only (raiseAll_keeps _ _).1 (by decide) hasks
  · exact hasks

theorem linkPhaseLaw_changes : KeptByChanges LinkPhaseLaw :=
  .ofMoves (fun h => linkPhaseLaw_readsOnly.of_only h (by decide))
    (fun r => linkPhaseLaw_readsOnly.of_only (raiseAll_keeps _ r).1 (by decide)) (fun h l m hs => LinkPhaseLaw.moveSlot hs h l m)

theorem LinkPhaseLaw.settle {s : State} (hs : LinkPhaseLaw s) : LinkPhaseLaw s.settle :=
  linkPhaseLaw_readsOnly.of_only (settle_only s) (by decide) hs

theorem LinkPhaseLaw.setHead {s : State} (hs : LinkPhaseLaw s) (h : HeadId) (x : Head) : LinkPhaseLaw (s.setHead h x) :=
  linkPhaseLaw_readsOnly.of_only (setHead_only s h x) (by decide) hs

theorem LinkPhaseLaw.actOnEnable {s : State} (hs : LinkPhaseLaw s) (h : HeadId) (on : Bool) : LinkPhaseLaw (s.actOnEnable h on) := by
  unfold State.actOnEnable
  split_ifs
  · exact LinkPhaseLaw.askProbe (LinkPhaseLaw.setHead hs _ _) h
  · exact LinkPhaseLaw.dropHeadCommands (linkPhaseLaw_readsOnly.of_only (darken_keeps s h).1 (by decide) hs) h
  · exact hs

theorem LinkPhaseLaw.refreshHead {s : State} (hs : LinkPhaseLaw s) (h : HeadId) : LinkPhaseLaw (s.refreshHead h) := by
  unfold State.refreshHead
  split
  · exact hs
  · exact hs
  · exact LinkReady.startLink (LinkReady.queueRefresh hs.ready h)
  · exact LinkPhaseLaw.askProbe (LinkPhaseLaw.setHead hs _ _) h

/-! ## Every command and every millisecond -/

theorem LinkPhaseLaw.tick {s : State} (hs : LinkPhaseLaw s) : LinkPhaseLaw s.tick := by
  obtain ⟨hempty, htail, hinFlight⟩ := hs
  have hphase : s.tick.link.phase = s.link.phase.tick := rfl
  have hrest : s.tick.link.queue = s.link.queue ∧ s.tick.link.attempts = s.link.attempts := ⟨rfl, rfl⟩
  constructor <;> rw [hphase] <;> simp only [hrest] <;> cases hp : s.link.phase <;> simp_all [LinkPhase.tick]

theorem LinkPhaseLaw.exec {c : Instr} {s t : State} (he : exec c s = .next t) (hs : LinkPhaseLaw s) : LinkPhaseLaw t := by
  cases c
  case powerOn => cases he; exact ⟨fun _ => ⟨rfl, rfl⟩, nofun, fun hp => absurd rfl hp⟩
  case reset => cases he; exact ⟨fun _ => ⟨rfl, rfl⟩, nofun, fun hp => absurd rfl hp⟩
  case closeShow p =>
    refine linkPhaseLaw_readsOnly.of_request .closeShow he hs fun t e => ?_
    cases e; exact linkPhaseLaw_changes.closeDown p hs
  case go p =>
    refine linkPhaseLaw_readsOnly.of_request .go he hs fun t e => ?_
    cases e; exact linkPhaseLaw_changes.fire _ _ _ hs
  case back p =>
    refine linkPhaseLaw_readsOnly.of_request .back he hs fun t e => ?_
    cases e; exact linkPhaseLaw_changes.fire _ _ _ hs
  case beat p =>
    refine linkPhaseLaw_readsOnly.of_request .beat he hs fun t e => ?_
    cases e; exact linkPhaseLaw_changes.takeBeat _ hs
  case setHead p =>
    refine linkPhaseLaw_readsOnly.of_request .setHead he hs fun t e => ?_
    cases e; exact (hs.setHead _ _).actOnEnable _ _
  case refreshHead p =>
    refine linkPhaseLaw_readsOnly.of_request .refreshHead he hs fun t e => ?_
    cases e; exact hs.refreshHead _
  case setLink p =>
    refine linkPhaseLaw_readsOnly.of_request .setLink he hs fun t e => ?_
    cases e; exact ⟨hs.empty, hs.tail, hs.inFlight⟩
  case clearCapture p =>
    refine linkPhaseLaw_readsOnly.of_request .clearCapture he hs fun t e => ?_
    cases e with
    | clearsPortCapture => exact linkPhaseLaw_readsOnly.of_only (onPort_only _ _ _) (by decide) hs
    | clearsLinkCapture => exact ⟨hs.empty, hs.tail, hs.inFlight⟩
  case followExpiry =>
    cases he
    split
    · exact (linkPhaseLaw_changes.expire hs).settle
    · exact hs
  case floorEnd g l =>
    cases he
    split
    · exact (linkPhaseLaw_changes.floorEnd g l hs).settle
    · exact hs
  case beatEdge high => exact linkPhaseLaw_changes.beatEdge (fun _ => LinkPhaseLaw.settle) he hs
  case fadeEnd h l =>
    cases he
    split
    · exact (hs.moveSlot h l _).settle
    · exact (hs.moveSlot h l _).settle
    · exact hs
    · exact hs
  case linkFrameSent =>
    cases he
    split
    next hp => exact ⟨nofun, nofun, fun _ _ => hs.inFlight (by simp [hp]) (by simp [hp])⟩
    next hp => exact LinkReady.startLink ⟨fun _ => hs.tail _ hp, nofun, fun h => absurd rfl h⟩
    all_goals exact hs
  case acknowledgement frame =>
    cases he
    split
    · split
      · exact (acknowledged_linkPhaseLaw _ _ _).settle
      · exact hs
    · exact hs
  case ackTimeout =>
    cases he
    split
    next hp => exact (hs.windowClosed hp).settle
    all_goals exact hs
  case holdOffEnd =>
    cases he
    split
    next hp => exact (hs.holdOffOver (.inl hp)).settle
    all_goals exact hs
  all_goals exact linkPhaseLaw_readsOnly.of_exec he rfl hs

/-- Settles O10: the law reads the link alone, and each operation on the queue leaves it once the oldest command has started. -/
theorem everyStepKeepsTheLinkPhaseLaw : Obligations.EveryStepKeepsTheLinkPhaseLaw :=
  keptByStep_of linkPhaseLaw_readsOnly (fun _ _ _ => LinkPhaseLaw.exec) (fun _ => LinkPhaseLaw.tick)

end Sys2Proof.Machine
end

section
/-! A millisecond of card time on the group-layer table and on the heads, place by place (R52, R81). -/

namespace Sys2Proof.Machine

theorem mem_allGroupLayers (gl : GroupId × Layer) : gl ∈ allGroupLayers := by
  obtain ⟨g, l⟩ := gl
  cases l <;> revert g <;> decide

theorem allGroupLayers_nodup : allGroupLayers.Nodup := by decide

/-- Each record of the table is ticked once: the fold writes the places of the list and no other. -/
theorem tickTable_fold (L : List (GroupId × Layer)) (hn : L.Nodup) (r : RunQueue) (g : GroupId) (l : Layer) :
    (L.foldl (fun r gl => r.setTable gl.1 gl.2 (r.table gl.1 gl.2).tick) r).table g l =
      (if (g, l) ∈ L then (r.table g l).tick else r.table g l) ∧
    (L.foldl (fun r gl => r.setTable gl.1 gl.2 (r.table gl.1 gl.2).tick) r).entries = r.entries := by
  induction L generalizing r with
  | nil => exact ⟨rfl, rfl⟩
  | cons gl L ih =>
    obtain ⟨hgl, hn⟩ := List.nodup_cons.1 hn
    obtain ⟨htable, hentries⟩ := ih hn (r.setTable gl.1 gl.2 (r.table gl.1 gl.2).tick)
    rw [List.foldl_cons]
    refine ⟨?_, hentries.trans (RunQueue.setTable_entries _ _ _ _)⟩
    rw [htable, table_setTable]
    by_cases he : (g, l) = gl
    · subst he
      simp [hgl]
    · have hne : ¬ (g = gl.1 ∧ l = gl.2) := fun h => he (Prod.ext h.1 h.2)
      simp [he, hne]

@[simp] theorem RunQueue.table_tick (r : RunQueue) (g : GroupId) (l : Layer) : r.tick.table g l = (r.table g l).tick := by
  unfold RunQueue.tick
  rw [(tickTable_fold _ allGroupLayers_nodup _ g l).1, if_pos (mem_allGroupLayers _)]
  cases l <;> rfl

@[simp] theorem RunQueue.entries_tick (r : RunQueue) : r.tick.entries = r.entries.map RunEntry.tick :=
  (tickTable_fold _ allGroupLayers_nodup _ 0 .base).2

theorem tickHeads_fold (hs : List HeadId) (hn : hs.Nodup) (v : Vector Head 16) (h : HeadId) :
    (hs.foldl (fun v h => v.set h.val (v.get h).tick h.isLt) v).get h = if h ∈ hs then (v.get h).tick else v.get h := by
  induction hs generalizing v with
  | nil => rfl
  | cons k hs ih =>
    obtain ⟨hk, hn⟩ := List.nodup_cons.1 hn
    rw [List.foldl_cons, ih hn, vector_get_set]
    by_cases he : h = k
    · subst he
      simp [hk]
    · simp [he, Ne.symm he]

@[simp] theorem State.head_tick (s : State) (h : HeadId) : s.tick.head h = (s.head h).tick := by
  show (allHeads.foldl _ s.heads).get h = _
  rw [tickHeads_fold _ allHeads_nodup, if_pos (mem_allHeads h)]
  rfl

@[simp] theorem State.port_tick (s : State) (p : Port) : s.tick.port p = (s.port p).tick := by cases p <;> rfl

@[simp] theorem State.tick_engine (s : State) : s.tick.engine = s.engine := rfl
@[simp] theorem State.tick_run (s : State) : s.tick.run = if s.engine.state = .running then s.run.tick else s.run := rfl

theorem countDown_eq_zero {n : Nat} : countDown n = 0 ↔ n = 0 := by
  unfold countDown
  split <;> omega

@[simp] theorem RunEntry.isFollow_tick (e : RunEntry) : e.tick.isFollow = e.isFollow := by
  cases e with
  | follow c m full n => cases m <;> rfl
  | deferred => rfl

@[simp] theorem RunEntry.waitsOn_tick (g : GroupId) (l : Layer) (e : RunEntry) : e.tick.waitsOn g l = e.waitsOn g l := by
  cases e with
  | follow c m full n => cases m <;> rfl
  | deferred => rfl

/-! ## What CLOSE leaves of the show (R41, R60) -/

theorem clearHeads_keeps (s : State) : Keeps [.heads, .texts, .link, .ports] s (allHeads.foldl State.clearHead s) :=
  .foldl clearHead_keeps _ _

/-- CLOSE changes the show position and the Run Queue, then nothing but the screens, the link, the watch line and the ports. -/
theorem closeDown_afterPosition (s : State) (p : Port) :
    OnlyChanges [.heads, .texts, .link, .watch, .ports] s.closePosition (s.closeDown p) :=
  ((clearHeads_keeps _).1.mono (by decide)).trans
    (((withWatch_keeps _ _).1.mono (by decide)).trans ((raiseAll_keeps _ _).1.mono (by decide)))

@[simp] theorem State.closeDown_engine (s : State) (p : Port) :
    (s.closeDown p).engine = { s.engine with state := .idle, current := none, standby := none } :=
  (closeDown_afterPosition s p).engine

@[simp] theorem State.closeDown_run (s : State) (p : Port) : (s.closeDown p).run = s.closePosition.run :=
  (closeDown_afterPosition s p).run

@[simp] theorem State.closeDown_watch (s : State) (p : Port) : (s.closeDown p).watch = { s.watch with line := false } := by
  have h := (clearHeads_keeps s.closePosition).1.watch
  unfold State.closeDown
  dsimp only [State.raiseAll, State.onPorts_watch, State.withWatch_watch]
  rw [h]
  rfl

end Sys2Proof.Machine
end

section
/-! Laws of the show: a law of the show position, the Run Queue and the cue table is kept by every step if each move of the show
keeps it. -/

namespace Sys2Proof.Machine

theorem ReadsOnly.mono {bs cs : List Block} {Inv : State → Prop} (h : ReadsOnly bs Inv)
    (hs : ∀ b ∈ bs, b ∈ cs := by decide) : ReadsOnly cs Inv :=
  fun s t hsame => h s t (fun b hb => hsame b (hs b hb))

/-- The expiry of the FOLLOW entry is a firing in RUNNING, or nothing (R34, R51). -/
theorem expire_cases (s : State) : s.expire = s ∨ ∃ n, s.run.followCue = some n ∧
    s.expire = (s.withRun s.run.dropFollow).fire n .auto .follow := by
  unfold State.expire
  split
  next n h => exact .inr ⟨n, h, rfl⟩
  next => exact .inl rfl

/-- What a beat can do, outside RUNNING nothing (R67 to R71): a rejection, a settling, a count, or an expiry. -/
theorem takeBeat_cases (s : State) (src : BeatSource) : s.takeBeat src = s ∨ s.engine.state = .running ∧
    ((∃ d, s.takeBeat src = s.raiseAll (.beatReject src d)) ∨
     (∃ b, s.takeBeat src = s.withBeat b) ∨
     (∃ b, s.takeBeat src = (s.withBeat b).withRun (s.run.setBeats (fun _ m => m - 1))) ∨
     (∃ b, s.takeBeat src = (s.withBeat b).expire)) := by
  by_cases hr : s.engine.state = .running
  case neg => exact .inl (takeBeat_notRunning hr src)
  right
  refine ⟨hr, ?_⟩
  unfold State.takeBeat
  split
  next h => simp [State.beatResult, hr] at h; split at h <;> [cases h; (split at h <;> cases h)]
  next d _ => exact .inl ⟨d, rfl⟩
  next => exact .inr (.inl ⟨_, rfl⟩)
  next =>
    unfold State.countBeat
    split
    next => exact .inr (.inl ⟨_, rfl⟩)
    next =>
      split
      · exact .inr (.inr (.inr ⟨_, rfl⟩))
      · exact .inr (.inr (.inl ⟨_, rfl⟩))

/-- A cue that can fire: it is in the table, or standby, or named by an entry of the Run Queue. -/
def MayFire (s : State) (n : CueNum) : Prop :=
  (findCue s.cues n).isSome = true ∨ s.engine.standby = some n ∨ ∃ e ∈ s.run.entries, e.cue = n

/-- Each move of the show keeps the law. -/
structure KeptByShow (Inv : State → Prop) : Prop where
  reads : ReadsOnly [.engine, .run, .cues] Inv
  reset : ∀ (s : State) (st : Straps) (b : Bool), Inv (s.powerOnReset st b)
  opens : ∀ {s : State} {n : CueNum}, s.engine.state = .idle → (findCue s.cues n).isSome = true → Inv s → Inv (s.openAt n)
  closes : ∀ {s : State}, Inv s → Inv s.closePosition
  fires : ∀ {s : State} {n : CueNum} {o : Origin} {k : FiringKind}, s.engine.state = .ready ∨ s.engine.state = .running →
    MayFire s n → Inv s → Inv (s.fire n o k)
  expires : ∀ {s : State} {n : CueNum}, s.engine.state = .running → s.run.followCue = some n → Inv s →
    Inv ((s.withRun s.run.dropFollow).fire n .auto .follow)
  standsBy : ∀ {s : State} {n : CueNum}, s.engine.state ≠ .idle → (findCue s.cues n).isSome = true → Inv s → Inv (s.standBy n)
  holds : ∀ {s : State} {fr : HeldFrom}, s.engine.state = fr.state → Inv s → Inv (s.holdFrom fr)
  releases : ∀ {s : State}, s.engine.state = .held → Inv s → Inv s.releaseShow
  /-- a beat counted, or the countdown restarted -/
  counts : ∀ {s : State} (f : Nat → Nat → Nat), (∀ full n, n ≤ full → f full n ≤ full) → Inv s →
    Inv (s.withRun (s.run.setBeats f))
  floorEnds : ∀ {s : State} (g : GroupId) (l : Layer), s.engine.state = .running → Inv s → Inv (s.floorEnd g l)
  ticks : ∀ {s : State}, s.engine.state = .running → Inv s → Inv (s.withRun s.run.tick)
  addsCue : ∀ {s : State} {c : CueRec}, findCue s.cues c.num = none → Inv s → Inv (s.addCueRec c)
  replacesCue : ∀ {s : State} {old c : CueRec}, findCue s.cues c.num = some old → ¬ CueInUse s c.num → Inv s →
    Inv (s.replaceCueRec old c)
  dropsCue : ∀ {s : State} {c : CueRec}, ¬ CueInUse s c.num → Inv s → Inv (s.removeCueRec c)

namespace KeptByShow
variable {Inv : State → Prop} (k : KeptByShow Inv) {s t : State}
include k

theorem settle (hs : Inv s) : Inv s.settle := k.reads.of_only (settle_only s) (by decide) hs

theorem expire (hrun : s.engine.state = .running) (hs : Inv s) : Inv s.expire := by
  rcases expire_cases s with h | ⟨n, hn, h⟩ <;> rw [h]
  · exact hs
  · exact k.expires hrun hn hs

theorem withBeat (b : BeatUnit) (hs : Inv s) : Inv (s.withBeat b) := k.reads.of_only (withBeat_keeps _ _).1 (by decide) hs

theorem takeBeat (src : BeatSource) (hs : Inv s) : Inv (s.takeBeat src) := by
  rcases takeBeat_cases s src with h | ⟨hr, ⟨d, h⟩ | ⟨b, h⟩ | ⟨b, h⟩ | ⟨b, h⟩⟩ <;> rw [h]
  · exact hs
  · exact k.reads.of_only (raiseAll_keeps _ _).1 (by decide) hs
  · exact k.withBeat b hs
  · exact k.counts (s := s.withBeat b) _ (fun full n hn => by omega) (k.withBeat b hs)
  · exact k.expire (s := s.withBeat b) hr (k.withBeat b hs)

theorem closeDown (p : Port) (hs : Inv s) : Inv (s.closeDown p) :=
  k.reads.of_only (closeDown_afterPosition s p) (by decide) (k.closes hs)

theorem beatEdge {high : Bool} (he : Machine.exec (.beatEdge high) s = .next t) (hs : Inv s) : Inv t := by
  cases he
  split
  · exact hs
  · dsimp only
    split
    · exact k.settle (k.takeBeat _ (k.withBeat _ hs))
    · exact k.withBeat _ hs

theorem exec {c : Instr} (he : Machine.exec c s = .next t) (hs : Inv s) : Inv t := by
  cases c
  case powerOn => cases he; exact k.reset _ _ _
  case reset => cases he; exact k.reset _ _ _
  case openShow p =>
    refine k.reads.of_request .openShow he hs fun t e => ?_
    cases e with | opens hidle hn => exact k.opens hidle hn hs
  case closeShow p =>
    refine k.reads.of_request .closeShow he hs fun t e => ?_
    cases e with | closes => exact k.closeDown p hs
  case go p =>
    refine k.reads.of_request .go he hs fun t e => ?_
    cases e with | goes hst hn => exact k.fires hst (.inr (.inl hn)) hs
  case back p =>
    refine k.reads.of_request .back he hs fun t e => ?_
    cases e with
    | backs hrun _ hc =>
      have hmem := List.mem_of_mem_filter (List.mem_of_getLast? hc)
      exact k.fires (.inr hrun) (.inl (findCue_isSome_of_mem hmem)) hs
  case standby p =>
    refine k.reads.of_request .standby he hs fun t e => ?_
    cases e with | standsBy hopen hn => exact k.standsBy hopen hn hs
  case hold p =>
    refine k.reads.of_request .hold he hs fun t e => ?_
    cases e with
    | holds hst => exact k.holds hst hs
    | holdsOn => exact hs
  case release p =>
    refine k.reads.of_request .release he hs fun t e => ?_
    cases e with | releases hheld => exact k.releases hheld hs
  case beat p =>
    refine k.reads.of_request .beat he hs fun t e => ?_
    cases e with | beats => exact k.takeBeat _ hs
  case setBeat p =>
    refine k.reads.of_request .setBeat he hs fun t e => ?_
    cases e with
    | setsBeat => exact k.counts (s := s.withBeat _) _ (fun full _ _ => Nat.le_refl full) (k.withBeat _ hs)
  case putCue p =>
    refine k.reads.of_request .putCue he hs fun t e => ?_
    cases e with
    | addsCue _ _ hn _ => exact k.addsCue hn hs
    | replacesCue _ _ ho hu => exact k.replacesCue ho hu hs
  case dropCue p =>
    refine k.reads.of_request .dropCue he hs fun t e => ?_
    cases e with | dropsCue _ hu => exact k.dropsCue hu hs
  case followExpiry =>
    cases he
    split
    next hrun => exact k.settle (k.expire hrun hs)
    next => exact hs
  case floorEnd g l =>
    cases he
    split
    next hrun => exact k.settle (k.floorEnds g l hrun hs)
    next => exact hs
  case beatEdge high => exact k.beatEdge he hs
  all_goals exact k.reads.of_exec he rfl hs

theorem tick (hs : Inv s) : Inv s.tick := by
  by_cases hrun : s.engine.state = .running
  · exact k.reads (s.withRun s.run.tick) s.tick
      (fun b hb => by fin_cases hb; exacts [rfl, if_pos hrun, rfl]) (k.ticks hrun hs)
  · exact k.reads s s.tick (fun b hb => by fin_cases hb; exacts [rfl, if_neg hrun, rfl]) hs

theorem step : KeptByStep Inv := keptByStep_of k.reads (fun _ _ _ => k.exec) (fun _ => k.tick)

end KeptByShow

end Sys2Proof.Machine
end

section
/-! The Run Queue (R46, R55) and which cues the show position holds in which show state (R22): the laws O7, kept by every step. -/

namespace Sys2Proof.Machine

/-! ## The shape of the Run Queue, whatever the show state -/

/-- The fifth law but for the show states: one FOLLOW entry, and one DEFERRED entry for a group-layer, whose floor is above 0. -/
structure RunShape (r : RunQueue) : Prop where
  deferredWaits : ∀ g l, r.entries.filter (RunEntry.waitsOn g l) ≠ [] → (r.table g l).floor ≠ 0
  oneFollow : (r.entries.filter RunEntry.isFollow).length ≤ 1
  oneDeferred : ∀ g l, (r.entries.filter (RunEntry.waitsOn g l)).length ≤ 1

theorem filter_ne_nil_iff_any {α : Type} {p : α → Bool} {l : List α} : l.filter p ≠ [] ↔ l.any p = true := by
  rw [Ne, List.filter_eq_nil_iff, List.any_eq_true]
  push Not
  rfl

theorem RunQueueLaw.shape {s : State} (h : RunQueueLaw s) : RunShape s.run :=
  ⟨fun g l hw => h.deferredWaits g l (filter_ne_nil_iff_any.1 hw), h.oneFollow, h.oneDeferred⟩

/-- In RUNNING the shape is all that the law says. -/
theorem RunShape.law {s : State} (h : RunShape s.run) (hr : s.engine.state = .running) : RunQueueLaw s :=
  ⟨fun g l hw => h.deferredWaits g l (filter_ne_nil_iff_any.2 hw), h.oneFollow, h.oneDeferred, by simp [hr], by simp [hr]⟩

theorem runQueueLaw_of_empty {s : State} (h : s.run.entries = []) : RunQueueLaw s := by
  constructor <;> simp [h]

/-- A Run Queue with the same waiting entries and the same floors, and no more FOLLOW entries. -/
theorem RunShape.congr {r r' : RunQueue} (h : RunShape r)
    (hw : ∀ g l, (r'.entries.filter (RunEntry.waitsOn g l)).length = (r.entries.filter (RunEntry.waitsOn g l)).length)
    (ht : ∀ g l, (r.table g l).floor ≠ 0 → (r'.table g l).floor ≠ 0)
    (hf : (r'.entries.filter RunEntry.isFollow).length ≤ 1) : RunShape r' := by
  refine ⟨fun g l hne => ht g l (h.deferredWaits g l fun he => hne ?_), hf, fun g l => (hw g l).trans_le (h.oneDeferred g l)⟩
  rw [← List.length_eq_zero_iff, hw, he]
  rfl

/-- The entries rewritten in place, each staying what it is. -/
theorem RunShape.map {r : RunQueue} (h : RunShape r) {f : RunEntry → RunEntry} {r' : RunQueue} (he : r'.entries = r.entries.map f)
    (hfol : ∀ e, (f e).isFollow = e.isFollow) (hwait : ∀ g l e, (f e).waitsOn g l = e.waitsOn g l)
    (ht : ∀ g l, (r.table g l).floor ≠ 0 → (r'.table g l).floor ≠ 0) : RunShape r' := by
  refine h.congr (fun g l => ?_) ht ?_
  · rw [he, List.filter_map, List.length_map]
    congr 2
    exact funext (hwait g l)
  · rw [he, List.filter_map, List.length_map]
    refine le_of_eq_of_le ?_ h.oneFollow
    congr 2
    exact funext hfol

theorem RunShape.tick {r : RunQueue} (h : RunShape r) : RunShape r.tick :=
  h.map r.entries_tick RunEntry.isFollow_tick RunEntry.waitsOn_tick fun g l hf => by
    rw [RunQueue.table_tick]
    exact mt countDown_eq_zero.1 hf

theorem RunShape.setBeats {r : RunQueue} (h : RunShape r) (f : Nat → Nat → Nat) : RunShape (r.setBeats f) := by
  refine h.map rfl (fun e => ?_) (fun g l e => ?_) (fun g l => id)
  · cases e with
    | follow c m full n => cases m <;> rfl
    | deferred => rfl
  · cases e with
    | follow c m full n => cases m <;> rfl
    | deferred => rfl

theorem dropFollow_noFollow (r : RunQueue) : r.dropFollow.entries.filter RunEntry.isFollow = [] := by
  rw [List.filter_eq_nil_iff]
  intro e he
  simpa using (List.mem_filter.1 he).2

theorem RunShape.dropFollow {r : RunQueue} (h : RunShape r) : RunShape r.dropFollow :=
  h.congr (fun g l => by rw [dropFollow_waiting]) (fun g l => id) (by rw [dropFollow_noFollow]; exact Nat.zero_le 1)

/-- An old FOLLOW entry goes before one is made, so that one at most is left (R30). -/
theorem RunShape.setFollow {s : State} (h : RunShape s.run) (n : CueNum) (k : FiringKind) :
    RunShape ((s.movePosition n).setFollow k).run := by
  refine h.congr (fun g l => by rw [setFollow_waiting]) (fun g l => by rw [setFollow_table]; exact id) ?_
  obtain ⟨made, -, he⟩ := setFollow_entries s n k
  have hold : (s.run.entries.filter (fun e => !e.isFollow)).filter RunEntry.isFollow = [] := dropFollow_noFollow s.run
  rw [he, List.filter_append, hold, List.nil_append]
  refine (List.length_filter_le _ _).trans ?_
  cases made <;> simp

/-- The changes of a firing, offered or recalled: a record whose floor they write has no entry that waits (R53, R54, R57). -/
theorem RunShape.offerChanges {s : State} (h : RunShape s.run) (n : CueNum) (o : Origin) (k : FiringKind) :
    RunShape (s.offerChanges n o k).run := by
  unfold State.offerChanges
  split
  case h_2 => exact h
  case h_1 c hc =>
    by_cases hk : k = .back
    · simp only [hk, if_true]
      have hrun := recalls_run c.body.groupLayers s hc
      refine ⟨fun g l hw => ?_, (hrun 0 .base).2.2 ▸ h.oneFollow, fun g l => ?_⟩
      · obtain ⟨htable, hwaiting, -⟩ := hrun g l
        by_cases hm : (g, l) ∈ c.body.groupLayers
        · rw [hwaiting, if_pos hm] at hw
          exact absurd rfl hw
        · rw [htable, if_neg hm]
          rw [hwaiting, if_neg hm] at hw
          exact h.deferredWaits g l hw
      · rw [(hrun g l).2.1]
        split
        · exact Nat.zero_le 1
        · exact h.oneDeferred g l
    · simp only [hk, if_false]
      have hrun := offers_run o c.body.groupLayers (groupLayers_nodup _) s hc
      refine ⟨fun g l hw => ?_, (hrun 0 .base).2.2 ▸ h.oneFollow, fun g l => ?_⟩
      · obtain ⟨htable, hwaiting, -⟩ := hrun g l
        by_cases hm : (g, l) ∈ c.body.groupLayers ∧ (s.run.table g l).floor = 0
        · rw [hwaiting, if_neg (fun x => x.2 hm.2)] at hw
          exact absurd hm.2 (h.deferredWaits g l hw)
        · rw [htable, if_neg hm]
          by_cases hm' : (g, l) ∈ c.body.groupLayers
          · exact fun h0 => hm ⟨hm', h0⟩
          · rw [hwaiting, if_neg (fun x => hm' x.1)] at hw
            exact h.deferredWaits g l hw
      · rw [(hrun g l).2.1]
        split_ifs
        · exact Nat.le_refl 1
        · rw [List.length_map]; exact h.oneDeferred g l
        · exact h.oneDeferred g l

theorem fire_run (s : State) (n : CueNum) (o : Origin) (k : FiringKind) :
    (s.fire n o k).run = (((s.movePosition n).setFollow k).offerChanges n o k).run :=
  (completeFiring_keeps _ n o k).1.run

theorem RunShape.fire {s : State} (h : RunShape s.run) (n : CueNum) (o : Origin) (k : FiringKind) :
    RunShape (s.fire n o k).run := by
  rw [fire_run]
  exact (h.setFollow n k).offerChanges n o k

/-- A floor end leaves no entry that waits where it brings the floor to 0, or applies the one that waits (R52, R55). -/
theorem RunShape.floorEnd {s : State} (h : RunShape s.run) (g : GroupId) (l : Layer) : RunShape (s.floorEnd g l).run := by
  have cleared {r' : RunQueue} (hf : (r'.entries.filter RunEntry.isFollow).length ≤ 1)
      (hw : ∀ g' l', r'.entries.filter (RunEntry.waitsOn g' l') =
        if g' = g ∧ l' = l then [] else s.run.entries.filter (RunEntry.waitsOn g' l'))
      (ht : ∀ g' l', ¬ (g' = g ∧ l' = l) → r'.table g' l' = s.run.table g' l') : RunShape r' := by
    refine ⟨fun g' l' hne => ?_, hf, fun g' l' => ?_⟩
    · rw [hw] at hne
      by_cases hgl : g' = g ∧ l' = l
      · exact absurd (if_pos hgl) hne
      · rw [if_neg hgl] at hne
        rw [ht g' l' hgl]
        exact h.deferredWaits g' l' hne
    · rw [hw]
      split
      · exact Nat.zero_le 1
      · exact h.oneDeferred g' l'
  have table (x : GroupLayer) (g' : GroupId) (l' : Layer) (hgl : ¬ (g' = g ∧ l' = l)) :
      (s.run.setTable g l x).table g' l' = s.run.table g' l' := by rw [table_setTable, if_neg hgl]
  unfold State.floorEnd
  dsimp only
  split
  next e he =>
    have hshape : RunShape ((s.run.setTable g l { s.run.table g l with floor := 0 }).dropDeferred g l) := by
      refine cleared ?_ (fun g' l' => ?_) (fun g' l' hgl => ?_)
      · rw [dropDeferred_follow, RunQueue.setTable_entries]; exact h.oneFollow
      · rw [dropDeferred_waiting, RunQueue.setTable_entries]
      · rw [dropDeferred_table, table _ g' l' hgl]
    generalize hu : State.withRun _ _ = u
    have hurun : u.run = (s.run.setTable g l { s.run.table g l with floor := 0 }).dropDeferred g l := by rw [← hu]; rfl
    cases hc : findCue u.cues e.cue with
    | none => rw [applyChange_absent hc, hurun]; exact hshape
    | some c =>
      rw [applyChange_run hc, hurun]
      refine cleared ?_ (fun g' l' => ?_) (fun g' l' hgl => ?_)
      · rw [RunQueue.setTable_entries, dropDeferred_follow, RunQueue.setTable_entries]; exact h.oneFollow
      · rw [RunQueue.setTable_entries, dropDeferred_waiting, RunQueue.setTable_entries]
      · rw [table_setTable, if_neg hgl, dropDeferred_table, table _ g' l' hgl]
  next he =>
    have hnone : s.run.entries.filter (RunEntry.waitsOn g l) = [] := by
      rw [List.filter_eq_nil_iff]
      exact fun x hx hw => List.find?_eq_none.1 he x hx hw
    refine cleared (by simpa using h.oneFollow) (fun g' l' => ?_) (table _)
    rw [State.withRun_run, RunQueue.setTable_entries]
    split
    next hgl => rw [hgl.1, hgl.2, hnone]
    next => rfl

/-! ## The two laws -/

theorem runQueueLaw_readsOnly : ReadsOnly [.engine, .run] RunQueueLaw := by
  intro s t hsame ⟨h1, h2, h3, h4, h5⟩
  have hengine : t.engine = s.engine := hsame .engine (by decide)
  have hrun : t.run = s.run := hsame .run (by decide)
  constructor <;> simp only [hengine, hrun] <;> assumption

theorem showStateLaw_readsOnly : ReadsOnly [.engine] ShowStateLaw := by
  intro s t hsame ⟨h1, h2, h3, h4⟩
  have hengine : t.engine = s.engine := hsame .engine (by decide)
  constructor <;> rw [hengine] <;> assumption

/-- A firing ends in RUNNING with a current cue (R29). -/
theorem fire_engine {s : State} (h : s.engine.state = .ready ∨ s.engine.state = .running) (n : CueNum) (o : Origin)
    (k : FiringKind) : (s.fire n o k).engine.state = .running ∧ (s.fire n o k).engine.current = some n := by
  rw [(fire_done n o k h).position]
  exact ⟨rfl, rfl⟩

theorem RunQueueLaw.fire {s : State} (hs : RunQueueLaw s) (h : s.engine.state = .ready ∨ s.engine.state = .running) (n : CueNum)
    (o : Origin) (k : FiringKind) : RunQueueLaw (s.fire n o k) :=
  (hs.shape.fire n o k).law (fire_engine h n o k).1

theorem showStateLaw_of_running {s : State} (h : s.engine.state = .running) (hc : s.engine.current.isSome = true) :
    ShowStateLaw s := by
  constructor <;> simp [h, hc]

theorem showStateLaw_fire {s : State} (h : s.engine.state = .ready ∨ s.engine.state = .running) (n : CueNum) (o : Origin)
    (k : FiringKind) : ShowStateLaw (s.fire n o k) :=
  showStateLaw_of_running (fire_engine h n o k).1 (by rw [(fire_engine h n o k).2]; rfl)

/-! ## Every command and every millisecond -/

theorem RunQueueLaw.openAt {s : State} (hs : RunQueueLaw s) (hidle : s.engine.state = .idle) (n : CueNum) :
    RunQueueLaw (s.openAt n) :=
  runQueueLaw_of_empty (hs.emptyWhenIdleOrReady (.inl hidle))

/-- Rewriting the entries of an empty queue leaves it empty, so that the shape is all there is to keep. -/
theorem RunQueueLaw.rewrite {s : State} (hs : RunQueueLaw s) {r : RunQueue} (hshape : RunShape r)
    (he : s.run.entries = [] → r.entries = []) : RunQueueLaw (s.withRun r) :=
  ⟨fun g l hw => hshape.deferredWaits g l (filter_ne_nil_iff_any.2 hw), hshape.oneFollow, hshape.oneDeferred,
    fun h => he (hs.emptyWhenIdleOrReady h), fun h h' => he (hs.emptyWhenHeldFromReady h h')⟩

theorem RunQueueLaw.standBy {s : State} (hs : RunQueueLaw s) (n : CueNum) : RunQueueLaw (s.standBy n) :=
  runQueueLaw_readsOnly _ _ (fun b hb => by fin_cases hb <;> rfl)
    (RunQueueLaw.rewrite (s := s.withEngine { s.engine with standby := some n })
      ⟨hs.deferredWaits, hs.oneFollow, hs.oneDeferred, hs.emptyWhenIdleOrReady, hs.emptyWhenHeldFromReady⟩
      hs.shape.dropFollow (fun h => by simp [RunQueue.dropFollow, show s.run.entries = [] from h]))

theorem RunQueueLaw.holdFrom {s : State} (hs : RunQueueLaw s) {fr : HeldFrom} (hst : s.engine.state = fr.state) :
    RunQueueLaw (s.holdFrom fr) := by
  refine ⟨hs.deferredWaits, hs.oneFollow, hs.oneDeferred, ?_, fun _ (hfr : fr = .ready) => ?_⟩
  · rintro (h | h) <;> cases h
  · exact hs.emptyWhenIdleOrReady (.inr (by rw [hst, hfr]; rfl))

theorem RunQueueLaw.releaseShow {s : State} (hs : RunQueueLaw s) (hheld : s.engine.state = .held) :
    RunQueueLaw s.releaseShow := by
  refine ⟨hs.deferredWaits, hs.oneFollow, hs.oneDeferred, fun h => ?_, fun h => ?_⟩
  · replace h : s.engine.heldFrom.state = .idle ∨ s.engine.heldFrom.state = .ready := h
    cases hf : s.engine.heldFrom with
    | ready => exact hs.emptyWhenHeldFromReady hheld hf
    | running => rw [hf] at h; simp [HeldFrom.state] at h
  · replace h : s.engine.heldFrom.state = .held := h
    cases hf : s.engine.heldFrom <;> rw [hf] at h <;> cases h

theorem runQueueLaw_keptByShow : KeptByShow RunQueueLaw where
  reads := runQueueLaw_readsOnly.mono
  reset _ _ _ := runQueueLaw_of_empty rfl
  opens hidle _ hs := hs.openAt hidle _
  closes _ := runQueueLaw_of_empty rfl
  fires hst _ hs := hs.fire hst _ _ _
  expires hrun _ hs :=
    (RunShape.law (s := State.withRun _ _) hs.shape.dropFollow hrun).fire (.inr hrun) _ .auto .follow
  standsBy _ _ hs := hs.standBy _
  holds hst hs := hs.holdFrom hst
  releases hheld hs := hs.releaseShow hheld
  counts f _ hs := hs.rewrite (hs.shape.setBeats _) (fun h => by simp [RunQueue.setBeats, h])
  floorEnds g l hrun hs := (hs.shape.floorEnd g l).law (by rw [(floorEnd_keeps _ g l).1.engine]; exact hrun)
  ticks hrun hs := RunShape.law (s := State.withRun _ _) hs.shape.tick hrun
  addsCue _ hs := runQueueLaw_readsOnly.of_only (addCueRec_keeps _ _).1 (by decide) hs
  replacesCue _ _ hs := runQueueLaw_readsOnly.of_only (replaceCueRec_keeps _ _ _).1 (by decide) hs
  dropsCue _ hs := runQueueLaw_readsOnly.of_only (removeCueRec_keeps _ _).1 (by decide) hs

theorem ShowStateLaw.releaseShow {s : State} (hs : ShowStateLaw s) (hheld : s.engine.state = .held) :
    ShowStateLaw s.releaseShow := by
  have hcues := hs.held hheld
  cases hf : s.engine.heldFrom <;> rw [hf] at hcues <;> constructor <;>
    simp [State.releaseShow, State.raiseAll, hf, HeldFrom.state] <;> simpa using hcues

theorem ShowStateLaw.holdFrom {s : State} (hs : ShowStateLaw s) {fr : HeldFrom} (hst : s.engine.state = fr.state) :
    ShowStateLaw (s.holdFrom fr) := by
  refine ⟨nofun, nofun, nofun, fun _ => ?_⟩
  show if fr = .ready then _ else _
  cases fr with
  | ready => exact hs.ready hst
  | running => exact hs.running hst

theorem showStateLaw_keptByShow : KeptByShow ShowStateLaw where
  reads := showStateLaw_readsOnly.mono
  reset _ _ _ := ⟨fun _ => ⟨rfl, rfl⟩, nofun, nofun, nofun⟩
  opens _ _ _ := ⟨nofun, fun _ => ⟨rfl, rfl⟩, nofun, nofun⟩
  closes _ := ⟨fun _ => ⟨rfl, rfl⟩, nofun, nofun, nofun⟩
  fires hst _ _ := showStateLaw_fire hst _ _ _
  expires {s _} hrun _ _ := showStateLaw_fire (s := s.withRun s.run.dropFollow) (.inr hrun) _ .auto .follow
  standsBy hopen _ hs :=
    ⟨fun h => absurd h hopen, fun h => ⟨(hs.ready h).1, rfl⟩, hs.running, fun h => by
      have hcues := hs.held h
      split at hcues
      next hf => rw [if_pos (by exact hf)]; exact ⟨hcues.1, rfl⟩
      next hf => rw [if_neg (by exact hf)]; exact hcues⟩
  holds hst hs := hs.holdFrom hst
  releases hheld hs := hs.releaseShow hheld
  counts f _ hs := showStateLaw_readsOnly.of_only (withRun_keeps _ _).1 (by decide) hs
  floorEnds g l _ hs := showStateLaw_readsOnly.of_only (floorEnd_keeps _ g l).1 (by decide) hs
  ticks _ hs := showStateLaw_readsOnly.of_only (withRun_keeps _ _).1 (by decide) hs
  addsCue _ hs := showStateLaw_readsOnly.of_only (addCueRec_keeps _ _).1 (by decide) hs
  replacesCue _ _ hs := showStateLaw_readsOnly.of_only (replaceCueRec_keeps _ _ _).1 (by decide) hs
  dropsCue _ hs := showStateLaw_readsOnly.of_only (removeCueRec_keeps _ _).1 (by decide) hs

/-- Settles O7: both laws are laws of the show, kept by each of its moves. -/
theorem everyStepKeepsTheRunQueueAndShowStateLaws : Obligations.EveryStepKeepsTheRunQueueAndShowStateLaws :=
  ⟨runQueueLaw_keptByShow.step, showStateLaw_keptByShow.step⟩

end Sys2Proof.Machine
end

section
/-! The cues the show names are in the cue table, and the FOLLOW entry names the standby cue (R11, R47): the laws O8, kept by every
step. -/

namespace Sys2Proof.Machine

/-! ## What is in use is present -/

theorem PositionLaw.present {s : State} (hs : PositionLaw s) {n : CueNum} (hu : CueInUse s n) :
    (findCue s.cues n).isSome = true := by
  rcases hu with hcur | hsta | ⟨e, he, rfl⟩
  · exact hs.current n hcur
  · exact hs.standby n hsta
  · exact hs.entries e he

/-- The second and the sixth law, which a change of the cue table has to keep together. -/
structure NamesLaw (s : State) : Prop where
  position : PositionLaw s
  follow : FollowLaw s

/-- A change of the table at a number that is not in use. -/
theorem NamesLaw.recued {s t : State} (hs : NamesLaw s) {m : CueNum} (hm : ¬ CueInUse s m) (ho : OnlyChanges [.cues, .texts] s t)
    (hc : ∀ n, n ≠ m → findCue t.cues n = findCue s.cues n) : NamesLaw t := by
  have same {n : CueNum} (hu : CueInUse s n) : findCue t.cues n = findCue s.cues n := hc n (fun h => hm (h ▸ hu))
  refine ⟨⟨fun n h => ?_, fun n h => ?_, fun e h => ?_⟩, fun c md full n h => ?_⟩
  · rw [ho.engine] at h
    rw [same (.inl h)]
    exact hs.position.current n h
  · rw [ho.engine] at h
    rw [same (.inr (.inl h))]
    exact hs.position.standby n h
  · rw [ho.run] at h
    rw [same (.inr (.inr ⟨e, h, rfl⟩))]
    exact hs.position.entries e h
  · rw [ho.run] at h
    obtain ⟨hsta, hle, x, hx, hf⟩ := hs.follow c md full n h
    rw [ho.engine, same (.inr (.inl hsta))]
    exact ⟨hsta, hle, x, hx, hf⟩

/-- Entries that go, and entries rewritten in place with their cue and, for a FOLLOW entry, their mode and full count, and with no
more left than that. -/
theorem NamesLaw.withRun {s : State} (hs : NamesLaw s) {r : RunQueue}
    (hcue : ∀ e ∈ r.entries, ∃ e' ∈ s.run.entries, e'.cue = e.cue)
    (hfol : ∀ c m full n, .follow c m full n ∈ r.entries → n ≤ full ∧ ∃ n', .follow c m full n' ∈ s.run.entries) :
    NamesLaw (s.withRun r) := by
  refine ⟨⟨hs.position.current, hs.position.standby, fun e he => ?_⟩, fun c m full n he => ?_⟩
  · obtain ⟨e', he', hce⟩ := hcue e he
    exact hce ▸ hs.position.entries e' he'
  · obtain ⟨hle, n', he'⟩ := hfol c m full n he
    obtain ⟨hsta, -, hx⟩ := hs.follow c m full n' he'
    exact ⟨hsta, hle, hx⟩

theorem NamesLaw.subset {s : State} (hs : NamesLaw s) {r : RunQueue} (hr : r.entries ⊆ s.run.entries) :
    NamesLaw (s.withRun r) :=
  hs.withRun (fun e he => ⟨e, hr he, rfl⟩) fun c m full n he => ⟨(hs.follow c m full n (hr he)).2.1, n, hr he⟩

theorem RunQueue.mem_dropFollow {r : RunQueue} {e : RunEntry} (h : e ∈ r.dropFollow.entries) :
    e ∈ r.entries ∧ e.isFollow = false := by
  simpa [RunQueue.dropFollow] using h

theorem RunEntry.cue_tick (e : RunEntry) : e.tick.cue = e.cue := by
  cases e with
  | follow c m full n => cases m <;> rfl
  | deferred => rfl

theorem NamesLaw.tick {s : State} (hs : NamesLaw s) : NamesLaw (s.withRun s.run.tick) := by
  refine hs.withRun (fun e he => ?_) (fun c m full n he => ?_)
  · rw [RunQueue.entries_tick] at he
    obtain ⟨e', he', rfl⟩ := List.mem_map.1 he
    exact ⟨e', he', e'.cue_tick.symm⟩
  · rw [RunQueue.entries_tick] at he
    obtain ⟨e', he', heq⟩ := List.mem_map.1 he
    cases e' with
    | deferred => cases heq
    | follow c' m' full' n' =>
      obtain ⟨-, hle, -⟩ := hs.follow _ _ _ _ he'
      cases m' with
      | beats => cases heq; exact ⟨hle, n, he'⟩
      | time =>
        cases heq
        refine ⟨?_, n', he'⟩
        unfold countDown
        split <;> omega

theorem NamesLaw.setBeats {s : State} (hs : NamesLaw s) {f : Nat → Nat → Nat} (hf : ∀ full n, n ≤ full → f full n ≤ full) :
    NamesLaw (s.withRun (s.run.setBeats f)) := by
  refine hs.withRun (fun e he => ?_) (fun c m full n he => ?_)
  · obtain ⟨e', he', rfl⟩ := List.mem_map.1 he
    refine ⟨e', he', ?_⟩
    cases e' with
    | follow c m full n => cases m <;> rfl
    | deferred => rfl
  · obtain ⟨e', he', heq⟩ := List.mem_map.1 he
    cases e' with
    | deferred => cases heq
    | follow c' m' full' n' =>
      obtain ⟨-, hle, -⟩ := hs.follow _ _ _ _ he'
      cases m' with
      | beats => cases heq; exact ⟨hf _ _ hle, n', he'⟩
      | time => cases heq; exact ⟨hle, n, he'⟩

/-! ## Which cues a firing and a floor end leave named -/

theorem applyChange_entries (s : State) (g : GroupId) (l : Layer) (n : CueNum) :
    (s.applyChange g l n).run.entries = s.run.entries := by
  cases h : findCue s.cues n with
  | none => rw [applyChange_absent h]
  | some c => rw [applyChange_run h, RunQueue.setTable_entries]

theorem mem_replaceDeferred {g : GroupId} {l : Layer} {n : CueNum} {o : Origin} {es : List RunEntry} {e : RunEntry}
    (h : e ∈ replaceDeferred g l n o es) : e ∈ es ∨ e.cue = n := by
  obtain ⟨e', he', rfl⟩ := List.mem_map.1 h
  split
  · exact .inr rfl
  · exact .inl he'

theorem mem_offer_entries {s : State} {n : CueNum} {o : Origin} {g : GroupId} {l : Layer} {e : RunEntry}
    (h : e ∈ (s.offer n o g l).run.entries) : e ∈ s.run.entries ∨ e.cue = n := by
  unfold State.offer at h
  split at h
  · rw [applyChange_entries] at h
    exact .inl h
  · split at h
    · exact mem_replaceDeferred h
    · rcases List.mem_append.1 h with h | h
      · exact .inl h
      · rw [List.mem_singleton.1 h]
        exact .inr rfl

theorem mem_recall_entries {s : State} {n : CueNum} {g : GroupId} {l : Layer} {e : RunEntry}
    (h : e ∈ (s.recall n g l).run.entries) : e ∈ s.run.entries := by
  unfold State.recall at h
  rw [applyChange_entries] at h
  exact List.mem_of_mem_filter h

/-- The changes of a firing leave old entries, and entries that name the cue fired. -/
theorem mem_offerChanges_entries {s : State} {n : CueNum} {o : Origin} {k : FiringKind} {e : RunEntry}
    (h : e ∈ (s.offerChanges n o k).run.entries) : e ∈ s.run.entries ∨ e.cue = n := by
  unfold State.offerChanges at h
  split at h
  next c hc =>
    clear hc
    generalize c.body.groupLayers = gls at h
    induction gls generalizing s with
    | nil => exact .inl h
    | cons gl gls ih =>
      rcases ih h with hold | hnew
      · split at hold
        · exact .inl (mem_recall_entries hold)
        · exact mem_offer_entries hold
      · exact .inr hnew
  next => exact .inl h

theorem mem_fire_entries {s : State} {n : CueNum} {o : Origin} {k : FiringKind} {e : RunEntry}
    (h : e ∈ (s.fire n o k).run.entries) (hf : e.isFollow = false) : e ∈ s.run.entries ∨ e.cue = n := by
  rw [fire_run] at h
  rcases mem_offerChanges_entries h with h | h
  · obtain ⟨made, hmade, he⟩ := setFollow_entries s n k
    rw [he] at h
    rcases List.mem_append.1 h with h | h
    · exact .inl (List.mem_of_mem_filter h)
    · rw [hmade e (Option.mem_toList.1 h)] at hf
      cases hf
  · exact .inr h

theorem mem_floorEnd_entries {s : State} {g : GroupId} {l : Layer} {e : RunEntry}
    (h : e ∈ (s.floorEnd g l).run.entries) : e ∈ s.run.entries := by
  unfold State.floorEnd at h
  dsimp only at h
  split at h
  · rw [applyChange_entries] at h
    simpa using List.mem_of_mem_filter h
  · simpa using h

/-! ## The two laws through a firing and a floor end -/

theorem cueAfter_present {cues : List CueRec} {n : CueNum} {c : CueRec} (h : cueAfter cues n = some c) :
    (findCue cues c.num).isSome = true :=
  findCue_isSome_of_mem (List.mem_of_find?_eq_some h)

theorem followFor_eq {x : CueRec} {c : CueNum} {m : CountMode} {full n : Nat} (h : followFor x = some (.follow c m full n)) :
    c = x.num ∧ n = full := by
  unfold followFor at h
  split at h <;> cases h <;> exact ⟨rfl, rfl⟩

/-- A firing of a present cue leaves just present cues named, whatever was so before of the standby cue and the FOLLOW entry. -/
theorem namesLaw_fire {s : State} (hst : s.engine.state = .ready ∨ s.engine.state = .running) {n : CueNum}
    (hn : (findCue s.cues n).isSome = true) (he : ∀ e ∈ s.run.entries, (findCue s.cues e.cue).isSome = true) (o : Origin)
    (k : FiringKind) : NamesLaw (s.fire n o k) := by
  have hdone := fire_done n o k hst
  have hcues : (s.fire n o k).cues = s.cues := hdone.frame.cues
  have hfollow : FollowLaw (s.fire n o k) := by
    intro c m full left hmem
    have hmade : RunEntry.follow c m full left ∈ (s.fire n o k).run.entries.filter RunEntry.isFollow :=
      List.mem_filter.2 ⟨hmem, rfl⟩
    rw [hdone.follow, Option.mem_toList] at hmade
    split at hmade
    · cases hmade
    · obtain ⟨x, hx, hfor⟩ := Option.bind_eq_some_iff.1 hmade
      obtain ⟨d, hd, hfind⟩ := Option.bind_eq_some_iff.1 hx
      obtain ⟨rfl, rfl⟩ := followFor_eq hfor
      have hnum := findCue_num hfind
      rw [hdone.position, hcues]
      refine ⟨by rw [hd]; exact congrArg some hnum.symm, Nat.le_refl _, x, ?_, hfor⟩
      rw [hnum, hfind]
  refine ⟨⟨fun m hm => ?_, fun m hm => ?_, fun e hmem => ?_⟩, hfollow⟩
  · rw [hdone.position] at hm
    cases hm
    rw [hcues]; exact hn
  · rw [hdone.position] at hm
    obtain ⟨c, hc, rfl⟩ := Option.map_eq_some_iff.1 hm
    rw [hcues]; exact cueAfter_present hc
  · cases hf : e.isFollow with
    | true =>
      cases e with
      | deferred => cases hf
      | follow c m full left =>
        obtain ⟨-, -, x, hx, -⟩ := hfollow c m full left hmem
        exact Option.isSome_iff_exists.2 ⟨x, hx⟩
    | false =>
      rw [hcues]
      rcases mem_fire_entries hmem hf with h | h
      · exact he e h
      · rw [h]; exact hn

theorem MayFire.present {s : State} (hs : PositionLaw s) {n : CueNum} (h : MayFire s n) : (findCue s.cues n).isSome = true := by
  rcases h with h | h | ⟨e, he, rfl⟩
  · exact h
  · exact hs.standby n h
  · exact hs.entries e he

theorem namesLaw_readsOnly : ReadsOnly [.engine, .run, .cues] NamesLaw := by
  intro s t hsame ⟨⟨hcur, hsta, hent⟩, hfol⟩
  have hengine : t.engine = s.engine := hsame .engine (by decide)
  have hrun : t.run = s.run := hsame .run (by decide)
  have hcues : t.cues = s.cues := hsame .cues (by decide)
  refine ⟨⟨?_, ?_, ?_⟩, ?_⟩
  · rw [hengine, hcues]; exact hcur
  · rw [hengine, hcues]; exact hsta
  · rw [hrun, hcues]; exact hent
  · unfold FollowLaw
    rw [hengine, hrun, hcues]
    exact hfol

/-- A floor end removes an entry at most. -/
theorem NamesLaw.floorEnd {s : State} (hs : NamesLaw s) (g : GroupId) (l : Layer) : NamesLaw (s.floorEnd g l) := by
  have ho := (floorEnd_keeps s g l).1
  refine namesLaw_readsOnly (s.withRun (s.floorEnd g l).run) _ (fun b hb => ?_)
    (hs.subset (fun e => mem_floorEnd_entries))
  fin_cases hb
  exacts [ho.engine, rfl, ho.cues]

theorem namesLaw_of_empty {s : State} (hcur : s.engine.current = none)
    (hsta : ∀ n, s.engine.standby = some n → (findCue s.cues n).isSome = true) (he : s.run.entries = []) : NamesLaw s := by
  refine ⟨⟨fun n h => ?_, hsta, fun e h => ?_⟩, fun c m full n h => ?_⟩
  · rw [hcur] at h; cases h
  · rw [he] at h; cases h
  · rw [he] at h; cases h

/-! ## Every step -/

/-- With the fifth law, which says that no entry waits in IDLE, the two laws are laws of the show. -/
theorem namesLaw_keptByShow : KeptByShow (fun s => RunQueueLaw s ∧ NamesLaw s) where
  reads s t hsame hs := ⟨runQueueLaw_keptByShow.reads s t hsame hs.1, namesLaw_readsOnly s t hsame hs.2⟩
  reset s st b := ⟨runQueueLaw_keptByShow.reset s st b, namesLaw_of_empty rfl nofun rfl⟩
  opens hidle hn hs :=
    ⟨runQueueLaw_keptByShow.opens hidle hn hs.1,
      namesLaw_of_empty rfl (fun m hm => by cases hm; exact hn) (hs.1.emptyWhenIdleOrReady (.inl hidle))⟩
  closes hs := ⟨runQueueLaw_keptByShow.closes hs.1, namesLaw_of_empty rfl nofun rfl⟩
  fires hst hf hs :=
    ⟨runQueueLaw_keptByShow.fires hst hf hs.1, namesLaw_fire hst (hf.present hs.2.position) hs.2.position.entries _ _⟩
  expires {s n} hrun hf hs := by
    refine ⟨runQueueLaw_keptByShow.expires hrun hf hs.1, ?_⟩
    obtain ⟨e, he, rfl⟩ := Option.map_eq_some_iff.1 hf
    exact namesLaw_fire (s := s.withRun s.run.dropFollow) (.inr hrun)
      (hs.2.position.entries e (List.mem_of_find?_eq_some he))
      (fun x hx => hs.2.position.entries x (RunQueue.mem_dropFollow hx).1) _ _
  standsBy {s n} hopen hn hs := by
    refine ⟨runQueueLaw_keptByShow.standsBy hopen hn hs.1, ⟨⟨hs.2.position.current, ?_, fun e he => ?_⟩, fun c m full k he => ?_⟩⟩
    · intro m hm; cases hm; exact hn
    · exact hs.2.position.entries e (RunQueue.mem_dropFollow he).1
    · have := (RunQueue.mem_dropFollow he).2
      cases this
  holds hst hs :=
    ⟨runQueueLaw_keptByShow.holds hst hs.1,
      ⟨⟨hs.2.position.current, hs.2.position.standby, hs.2.position.entries⟩, hs.2.follow⟩⟩
  releases hheld hs :=
    ⟨runQueueLaw_keptByShow.releases hheld hs.1,
      ⟨⟨hs.2.position.current, hs.2.position.standby, hs.2.position.entries⟩, hs.2.follow⟩⟩
  counts f hf hs := ⟨runQueueLaw_keptByShow.counts f hf hs.1, hs.2.setBeats hf⟩
  floorEnds g l hrun hs := ⟨runQueueLaw_keptByShow.floorEnds g l hrun hs.1, hs.2.floorEnd g l⟩
  ticks hrun hs := ⟨runQueueLaw_keptByShow.ticks hrun hs.1, hs.2.tick⟩
  addsCue {s c} hn hs := by
    have hfree : ¬ CueInUse s c.num := fun hu => by
      have := hs.2.position.present hu
      rw [hn] at this
      cases this
    exact ⟨runQueueLaw_keptByShow.addsCue hn hs.1,
      hs.2.recued hfree (addCueRec_keeps s c).1 (fun m => findCue_putCueRec_ne c s.cues)⟩
  replacesCue {s old c} ho hu hs :=
    ⟨runQueueLaw_keptByShow.replacesCue ho hu hs.1,
      hs.2.recued hu (replaceCueRec_keeps s old c).1 (fun m => findCue_putCueRec_ne c s.cues)⟩
  dropsCue {s c} hu hs :=
    ⟨runQueueLaw_keptByShow.dropsCue hu hs.1, hs.2.recued hu (removeCueRec_keeps s c).1 (fun m => findCue_dropCueRec_ne)⟩

/-- Settles O8: the laws are laws of the show, kept by each of its moves. -/
theorem everyStepKeepsThePositionAndFollowLaws : Obligations.EveryStepKeepsThePositionAndFollowLaws := by
  intro s t ⟨hrun, hposition, hfollow⟩ hstep
  obtain ⟨hrun', hnames⟩ := namesLaw_keptByShow.step s t ⟨hrun, ⟨hposition, hfollow⟩⟩ hstep
  exact ⟨hrun', hnames.position, hnames.follow⟩

end Sys2Proof.Machine
end

section
/-! Laws of one port: a law that reads a Port Unit's requests, lock, capture, cause sets and waiting SYNC is kept by whatever
happens to the port if a raise, a frame and the few writes of those items keep it. -/

namespace Sys2Proof.Machine

/-! ## Commands that execute requests -/

/-- The request kind and port of a command that executes a request of a known kind. -/
def requestOf : Instr → Option (ReqKind × Port)
  | .openShow p => some (.openShow, p)
  | .closeShow p => some (.closeShow, p)
  | .go p => some (.go, p)
  | .back p => some (.back, p)
  | .standby p => some (.standby, p)
  | .hold p => some (.hold, p)
  | .release p => some (.release, p)
  | .beat p => some (.beat, p)
  | .claim p => some (.claim, p)
  | .yieldRight p => some (.yieldRight, p)
  | .setRole p => some (.setRole, p)
  | .setPort p => some (.setPort, p)
  | .putCue p => some (.putCue, p)
  | .dropCue p => some (.dropCue, p)
  | .putText p => some (.putText, p)
  | .dropText p => some (.dropText, p)
  | .setHead p => some (.setHead, p)
  | .refreshHead p => some (.refreshHead, p)
  | .setLink p => some (.setLink, p)
  | .setBeat p => some (.setBeat, p)
  | .setWatch p => some (.setWatch, p)
  | .setNotice p => some (.setNotice, p)
  | .readPosition p => some (.readPosition, p)
  | .readCue p => some (.readCue, p)
  | .readText p => some (.readText, p)
  | .readHead p => some (.readHead, p)
  | .readCauses p => some (.readCauses, p)
  | .readCapture p => some (.readCapture, p)
  | .listCues p => some (.listCues, p)
  | .sync p => some (.sync, p)
  | .clearCauses p => some (.clearCauses, p)
  | .clearCapture p => some (.clearCapture, p)
  | _ => none

theorem eq_command_of_request {c : Instr} {kp : ReqKind × Port} (h : requestOf c = some kp) : c = kp.1.command kp.2 := by
  cases c <;> cases h <;> rfl

/-- The command is POWER_ON or RESET. -/
def isReset : Instr → Bool
  | .powerOn _ _ => true
  | .reset _ _ => true
  | _ => false

/-- The events that can let commands leave the command queue. -/
def mayLeave : Instr → Bool
  | .acknowledgement _ => true
  | .ackTimeout => true
  | .holdOffEnd => true
  | _ => false

/-- The requests whose owners write a waiting SYNC, the pending causes or a capture. -/
def ReqKind.writesRecords : ReqKind → Bool
  | .setHead => true
  | .sync => true
  | .clearCauses => true
  | .clearCapture => true
  | _ => false

theorem port_powerOnReset (s : State) (st : Straps) (b : Bool) (p : Port) : (s.powerOnReset st b).port p = .atReset := by
  cases p <;> rfl

/-! ## Laws of a Port Unit -/

/-- Two Port Units agree in what a law of one port may read. -/
structure PortUnit.SameRecords (u v : PortUnit) : Prop where
  queue : v.queue = u.queue
  locked : v.locked = u.locked
  capture : v.capture = u.capture
  sync : v.sync = u.sync
  pending : v.pending = u.pending
  repeats : v.repeats = u.repeats

/-- The writes of what arrives, is sent, raised and answered on a port keep the law. -/
structure LineLaw (P : PortUnit → Prop) : Prop where
  congr : ∀ {u v : PortUnit}, P u → u.SameRecords v → P v
  raises : ∀ {u : PortUnit} (r : Raise), P u → P (u.raise r)
  syncEnds : ∀ {u : PortUnit}, P u → P { u with sync := none }
  leaves : ∀ {u : PortUnit}, P u → P { u with queue := u.queue.tail }
  joins : ∀ {u : PortUnit} (r : Request), u.queue.length < Config.maxRequests → P u → P { u with queue := u.queue ++ [r] }
  marks : ∀ {u : PortUnit}, P u → P u.markHeld
  unlocks : ∀ {u : PortUnit}, P u → P { u with locked := false }
  notes : ∀ {u : PortUnit} (tag kind : Byte) (st : Status), P u → P { u with capture := noteRefusal u.capture tag kind st }

/-- So do the writes of requests on their own port, but for a lock and CLEAR_CAPTURE's. -/
structure PortLaw (P : PortUnit → Prop) : Prop extends LineLaw P where
  waits : ∀ {u : PortUnit} (w : SyncWait), P u → P { u with sync := some w }
  clears : ∀ {u : PortUnit} (c : CauseSet), P u → P (u.clearCauses c)

/-! ## On the ports of a state -/

section
variable {P : PortUnit → Prop} {s : State} {q : Port}

theorem port_of_only {bs : List Block} {t : State} (h : OnlyChanges bs s t) (hs : P (s.port q))
    (hb : .ports ∉ bs := by decide) : P (t.port q) := by
  rw [h.port q hb]; exact hs

theorem port_onPort {p : Port} {f : PortUnit → PortUnit} (hf : q = p → P (f (s.port p))) (hs : P (s.port q)) :
    P ((s.onPort p f).port q) := by
  by_cases hq : q = p
  · subst hq; rw [State.port_onPort_self]; exact hf rfl
  · rw [State.port_onPort_ne _ _ hq]; exact hs

/-- A write that keeps the law of any unit keeps it on the port it is made on. -/
theorem port_onPort_any {p : Port} {f : PortUnit → PortUnit} (hf : ∀ u, P u → P (f u)) (hs : P (s.port q)) :
    P ((s.onPort p f).port q) :=
  port_onPort (fun h => hf _ (h ▸ hs)) hs

theorem port_startLink (hs : P (s.port q)) : P (s.startLink.port q) := port_of_only (startLink_keeps s).1 hs

theorem port_afterLeaving (hs : P (s.port q)) : P (s.afterLeaving.port q) := by
  unfold State.port
  rw [afterLeaving_ports]
  exact hs

end

namespace LineLaw
variable {P : PortUnit → Prop} (k : LineLaw P) {u : PortUnit}
include k

theorem make (f : OutFrame) (hu : P u) : P (u.make f) := k.congr hu ⟨rfl, rfl, rfl, rfl, rfl, rfl⟩

theorem startSending (hu : P u) : P u.startSending := by
  refine k.congr hu ?_
  obtain ⟨hqueue, -, hlocked, -, hcapture, -⟩ := u.startSending_fields
  exact ⟨hqueue, hlocked, hcapture, u.sync_startSending, u.pending_startSending, u.repeats_startSending⟩

theorem answerSync (hu : P u) : P u.answerSync := by
  unfold PortUnit.answerSync
  split
  · split
    · exact k.make _ (k.syncEnds hu)
    · exact hu
  · exact hu

theorem endOfEvent (hu : P u) : P u.answerSync.startSending := k.startSending (k.answerSync hu)

/-- Writes of the receiver, the lock policy, the listing, the frames or the enable set. -/
theorem listing (x : Option Listing) (hu : P u) : P { u with listing := x } := k.congr hu ⟨rfl, rfl, rfl, rfl, rfl, rfl⟩

theorem receiver (x : Receiver) (hu : P u) : P { u with receiver := x } := k.congr hu ⟨rfl, rfl, rfl, rfl, rfl, rfl⟩

theorem cutListing (hu : P u) : P u.cutListing := by
  unfold PortUnit.cutListing
  split
  · exact k.make _ (k.listing none hu)
  · exact hu

theorem listNext (next : Option CueRec) (hu : P u) : P (u.listNext next) := by
  unfold PortUnit.listNext
  split
  · split
    · split
      · exact k.make _ (k.listing none hu)
      · exact k.make _ (k.listing _ hu)
    · exact k.make _ (k.listing none hu)
  · exact hu

theorem joined (tag kind : Byte) (pl : List Byte) (hu : P u) : P (u.joined tag kind pl) := by
  have hcut := k.cutListing hu
  unfold PortUnit.joined
  dsimp only
  split
  · split
    · exact k.raises _ hcut
    · exact k.raises _ (k.make _ hcut)
  next hlen => exact k.joins _ (Nat.lt_of_not_le hlen) hcut

theorem unlocked (tag : Byte) (pl : List Byte) (hu : P u) : P (u.unlocked tag pl) := by
  unfold PortUnit.unlocked
  split
  · exact k.raises _ hu
  · split
    · split
      · refine k.make _ ?_
        dsimp only
        split
        · exact k.unlocks hu
        · exact k.marks (k.unlocks hu)
      · exact k.make _ hu
    · exact k.make _ (k.raises _ (k.notes _ _ _ hu))

variable {s : State} {q : Port}

theorem settle (hs : P (s.port q)) : P (s.settle.port q) := by
  rw [State.port_settle]; exact k.endOfEvent hs

theorem raiseAll (r : Raise) (hs : P (s.port q)) : P ((s.raiseAll r).port q) := by
  rw [port_raiseAll]; exact k.raises r hs

theorem raiseOn (p : Port) (r : Raise) (hs : P (s.port q)) : P ((s.raiseOn p r).port q) := port_onPort_any (fun _ => k.raises r) hs

theorem respond (p : Port) (r : Request) (st : Status) (pl : List Byte) (hs : P (s.port q)) :
    P ((s.respond p r st pl).port q) :=
  port_onPort_any (fun _ => k.make _) hs

theorem noteRefusal (p : Port) (tag kind : Byte) (st : Status) (hs : P (s.port q)) :
    P ((s.noteRefusal p tag kind st).port q) :=
  k.raiseOn p _ (port_onPort_any (fun _ => k.notes tag kind st) hs)

theorem lineError (p : Port) (w : LineCase) (tag kind : Option Byte) (hs : P (s.port q)) :
    P ((s.lineError p w tag kind).port q) := by
  rw [lineError_eq]
  exact port_onPort_any (fun _ hu => k.raises _ (k.receiver .hunting hu)) hs

theorem goodFrame (p : Port) (tag kind : Byte) (pl : List Byte) (hs : P (s.port q)) :
    P ((s.goodFrame p tag kind pl).port q) := by
  by_cases hk : kind = 0x14
  · rw [hk, goodFrame_unlock]
    exact port_onPort_any (fun _ hu => k.unlocked tag pl (k.cutListing hu)) hs
  · rw [goodFrame_eq s p tag kind pl hk]
    exact port_onPort_any (fun _ => k.joined tag kind pl) hs

theorem frameComplete (p : Port) (tag kind : Byte) (pl : List Byte) (crc : BitVec 16) (hs : P (s.port q)) :
    P ((s.frameComplete p tag kind pl crc).port q) := by
  unfold State.frameComplete
  split
  · exact k.lineError p _ _ _ hs
  · split
    · exact k.lineError p _ _ _ hs
    · exact k.goodFrame p _ _ _ (port_onPort_any (fun _ => k.receiver .hunting) hs)

theorem frameByte (p : Port) (got : List Byte) (hs : P (s.port q)) : P ((s.frameByte p got).port q) := by
  unfold State.frameByte
  split
  · split
    · exact k.lineError p _ _ _ hs
    · split
      · dsimp only
        split
        · exact k.frameComplete p _ _ _ _ hs
        · exact hs
      · exact port_onPort_any (fun _ => k.receiver _) hs
  · exact port_onPort_any (fun _ => k.receiver _) hs

theorem receiveByte (p : Port) (b : Byte) (good : Bool) (hs : P (s.port q)) : P ((s.receiveByte p b good).port q) := by
  unfold State.receiveByte
  split
  · exact hs
  · split
    · split
      · exact port_onPort_any (fun _ => k.receiver _) hs
      · exact hs
    · split
      · exact k.frameByte p _ hs
      · exact k.lineError p _ _ _ hs

theorem frameSent (p : Port) (hs : P (s.port q)) : P ((s.frameSent p).port q) := by
  unfold State.frameSent
  split
  · exact hs
  · have hsent := port_onPort_any (p := p) (f := fun u => { u with sending := none, sendLeft := 0 })
      (fun _ hu => k.congr hu ⟨rfl, rfl, rfl, rfl, rfl, rfl⟩) hs
    dsimp only
    split
    · exact port_onPort_any (fun _ => k.leaves) hsent
    · exact port_onPort_any (fun _ => k.listNext _) hsent
    · exact hsent
    · exact hsent
    · exact hsent

theorem spacingDiscard (p : Port) (hs : P (s.port q)) : P ((s.spacingDiscard p).port q) := by
  unfold State.spacingDiscard
  split
  · exact hs
  · exact port_of_only (withChoices_keeps _ _).1 (k.settle (k.lineError p _ _ _ hs))

theorem tick (hs : P (s.port q)) : P (s.tick.port q) := by
  rw [State.port_tick]; exact k.congr hs ⟨rfl, rfl, rfl, rfl, rfl, rfl⟩

theorem passRight (p : Port) (way : Option CallWay) (hs : P (s.port q)) : P ((s.passRight p way).port q) := by
  unfold State.passRight
  dsimp only
  have moved := port_of_only (withArbiter_keeps s { s.arbiter with
    holder := s.arbiter.claims.head?, claims := s.arbiter.claims.tail }).1 hs
  cases way <;> cases s.arbiter.claims.head?
  · exact moved
  · exact k.raiseOn _ _ moved
  · exact k.raiseOn _ _ moved
  · exact k.raiseOn _ _ (k.raiseOn _ _ moved)

theorem leaveArbiter (p : Port) (way : CallWay) (hs : P (s.port q)) : P ((s.leaveArbiter p way).port q) := by
  unfold State.leaveArbiter
  split
  · exact k.passRight p _ hs
  · exact port_of_only (withArbiter_keeps _ _).1 hs

theorem portReset (p : Port) (hbreak : q = p → P (s.port p).afterBreak) (hs : P (s.port q)) : P ((s.portReset p).port q) :=
  k.leaveArbiter p _ (port_onPort hbreak hs)

end LineLaw

/-! ## The display link and the screens -/

namespace LineLaw
variable {P : PortUnit → Prop} (k : LineLaw P) {s : State} {q : Port}
include k

theorem markOutOfStep (h : HeadId) (hs : P (s.port q)) : P ((s.markOutOfStep h).port q) := by
  unfold State.markOutOfStep
  split
  · exact hs
  · exact k.raiseAll _ hs

theorem ask (h : HeadId) (l : Layer) (a : Ask) (hs : P (s.port q)) : P ((s.ask h l a).port q) := by
  unfold State.ask
  split_ifs
  · exact hs
  · exact hs
  · exact port_startLink hs
  · exact k.markOutOfStep h hs

theorem askProbe (h : HeadId) (hs : P (s.port q)) : P ((s.askProbe h).port q) := by
  unfold State.askProbe
  split_ifs
  · exact port_startLink hs
  · exact k.markOutOfStep h hs

theorem queueRefresh (h : HeadId) (hs : P (s.port q)) : P ((s.queueRefresh h).port q) := by
  unfold State.queueRefresh
  split_ifs
  · exact hs
  · exact hs
  · exact k.markOutOfStep h hs

theorem moveSlot (h : HeadId) (l : Layer) (m : SlotMove) (hs : P (s.port q)) : P ((s.moveSlot h l m).port q) := by
  have asked (as : List Ask) (t : State) (ht : P (t.port q)) : P ((as.foldl (fun t a => t.ask h l a) t).port q) := by
    induction as generalizing t with
    | nil => exact ht
    | cons a as ih => exact ih _ (k.ask h l a ht)
  have hasks := asked m.asks (s.writeSlot h l m.slot) hs
  unfold State.moveSlot
  dsimp only
  split
  · exact k.raiseAll _ hasks
  · exact hasks

theorem keptByChanges : KeptByChanges (fun s => P (s.port q)) :=
  .ofMoves (fun h => port_of_only h) (fun r => k.raiseAll r) (fun h l m => k.moveSlot h l m)

theorem setRoleOf (p : Port) (r : Role) (hs : P (s.port q)) : P ((s.setRoleOf p r).port q) := by
  unfold State.setRoleOf
  dsimp only
  split
  · exact hs
  · exact k.leaveArbiter p _ hs

theorem refreshHead (h : HeadId) (hs : P (s.port q)) : P ((s.refreshHead h).port q) := by
  unfold State.refreshHead
  split
  · exact hs
  · exact hs
  · exact port_startLink (k.queueRefresh h hs)
  · exact k.askProbe h hs

end LineLaw

/-! ## Commands leaving, for a law that does not read the waiting SYNC -/

namespace PortLaw
variable {P : PortUnit → Prop} (k : PortLaw P) {s : State} {q : Port}
include k

theorem commandsLeft (ids : List Nat) (acked : Bool) (hs : P (s.port q)) : P ((s.commandsLeft ids acked).port q) := by
  unfold State.commandsLeft
  rw [State.port_onPorts]
  cases h : (s.port q).sync with
  | none => exact k.syncEnds hs
  | some w => exact k.waits _ hs

theorem acknowledged (c : Command) (rest : List Command) (hs : P (s.port q)) : P ((s.acknowledged c rest).port q) := by
  have hout : P ((s.takeOut rest .none [c.id] true).port q) := k.commandsLeft (s := s.withLink _) _ _ hs
  refine port_afterLeaving ?_
  split
  · unfold State.probeAnswered
    split
    · exact k.queueRefresh _ (k.raiseAll _ hout)
    · exact hout
  · exact hout

theorem failCommand (c : Command) (rest : List Command) (hs : P (s.port q)) : P ((s.failCommand c rest).port q) := by
  have hfailed := port_of_only (headFailed_keeps s c.head c.body.kind).1 hs
  exact port_afterLeaving (k.raiseAll _ (k.commandsLeft (s := State.withLink _ _) _ _ hfailed))

theorem holdOffOver (hs : P (s.port q)) : P (s.holdOffOver.port q) := by
  unfold State.holdOffOver
  split
  · exact hs
  · split
    · exact k.failCommand _ _ hs
    · exact hs

theorem windowClosed (hs : P (s.port q)) : P (s.windowClosed.port q) := by
  unfold State.windowClosed
  split
  · exact hs
  · split_ifs
    · exact k.failCommand _ _ hs
    · exact k.holdOffOver hs
    · exact hs

theorem dropHeadCommands (h : HeadId) (hs : P (s.port q)) : P ((s.dropHeadCommands h).port q) := by
  unfold State.dropHeadCommands
  dsimp only
  split_ifs
  · exact hs
  · exact port_afterLeaving (k.commandsLeft (s := State.withLink _ _) _ _ hs)
  · exact port_afterLeaving (k.commandsLeft (s := State.withLink _ _) _ _ hs)

theorem actOnEnable (h : HeadId) (on : Bool) (hs : P (s.port q)) : P ((s.actOnEnable h on).port q) := by
  unfold State.actOnEnable
  split_ifs
  · exact k.askProbe h hs
  · exact k.dropHeadCommands h (port_of_only (darken_keeps s h).1 hs)
  · exact hs

end PortLaw

/-! ## Every command -/

namespace LineLaw
variable {P : PortUnit → Prop} (k : LineLaw P) {s : State} {q : Port}
include k

theorem refuse (hlock : ∀ u, P u → P { u with locked := true }) (p : Port) (r : Request) (st : Status) (extra : List Byte)
    (hs : P (s.port q)) :
    P ((s.refuse p r st extra).port q) := by
  unfold State.refuse
  dsimp only
  refine k.respond p r st extra ?_
  split
  · exact k.leaveArbiter p _ (k.raiseOn p _ (port_onPort_any hlock (k.noteRefusal p _ _ _ hs)))
  · exact k.noteRefusal p _ _ _ hs

/-- The effects of a request's owner, but of those that write a waiting SYNC, the pending causes or a capture. -/
theorem effect {p : Port} {kind : ReqKind} {t : State} (e : Effect p s kind t) (hs : P (s.port q))
    (hrest : kind.writesRecords = true → P (t.port q)) : P (t.port q) := by
  cases e
  case opens => exact k.raiseAll _ hs
  case closes => exact k.keptByChanges.closeDown p hs
  case goes => exact k.keptByChanges.fire _ _ _ hs
  case backs => exact k.keptByChanges.fire _ _ _ hs
  case beats => exact k.keptByChanges.takeBeat _ hs
  case holds => exact k.raiseAll _ hs
  case releases => exact k.raiseAll _ hs
  case claimsFree => exact k.raiseOn (s := s.withArbiter _) _ _ hs
  case takesOver => exact k.raiseOn _ _ (k.raiseOn (s := s.withArbiter _) _ _ hs)
  case joins => exact port_of_only (joinList_keeps s p).1 hs
  case yields => exact k.passRight p none hs
  case givesRole => exact k.setRoleOf _ _ hs
  case setsPolicy => exact port_onPort_any (fun _ hu => k.congr hu ⟨rfl, rfl, rfl, rfl, rfl, rfl⟩) hs
  case setsHead => exact hrest rfl
  case refreshes => exact k.refreshHead _ hs
  case enables => exact port_onPort_any (fun _ hu => k.congr hu ⟨rfl, rfl, rfl, rfl, rfl, rfl⟩) hs
  case lists => exact port_onPort_any (fun _ hu => k.listNext _ (k.listing _ hu)) hs
  case syncs => exact hrest rfl
  case clearsCauses => exact hrest rfl
  case clearsPortCapture => exact hrest rfl
  all_goals exact hs

/-- A command that executes no request and lets no command leave keeps the law, if a lock does where the command can lock, and the
port reset where it is a break of the port. -/
theorem event {c : Instr} {t : State} (he : Machine.exec c s = .next t) (hc : requestOf c = none) (hs : P (s.port q))
    (hlock : (∃ p, c = .unknownKindRequest p) → ∀ u, P u → P { u with locked := true })
    (hreset : isReset c = true → P .atReset) (hbreak : c = .lineBreak q → ∀ u, P u → P u.afterBreak)
    (hleft : mayLeave c = true → P (t.port q)) : P (t.port q) := by
  cases c
  case powerOn => cases he; rw [port_powerOnReset]; exact hreset rfl
  case reset => cases he; rw [port_powerOnReset]; exact hreset rfl
  case lineBreak p =>
    cases he
    split
    · exact hs
    · refine k.settle (k.portReset p (fun h => ?_) (k.spacingDiscard p hs))
      subst h
      exact hbreak rfl _ (k.spacingDiscard q hs)
  case frameReceived p tag kind pl crc =>
    cases he
    split
    · exact hs
    · exact k.settle (k.frameComplete p tag kind pl crc hs)
  case frameGapTimeout p =>
    cases he
    split
    · exact k.settle (k.lineError p _ _ _ hs)
    · exact hs
  case unlock p tag pl =>
    cases he
    split
    · exact hs
    · exact k.settle (k.goodFrame p _ _ _ (port_onPort_any (fun _ => k.receiver .hunting) hs))
  case callerFrameSent p => cases he; exact k.settle (k.frameSent p hs)
  case dropped p =>
    cases he
    split
    · split
      · exact k.settle (k.respond p _ _ _ hs)
      · exact hs
    · exact hs
  case unknownKindRequest p =>
    cases he
    split
    · split
      · exact k.settle (k.refuse (hlock ⟨p, rfl⟩) p _ _ _ hs)
      · exact hs
    · exact hs
  case followExpiry =>
    cases he
    split
    · exact k.settle (k.keptByChanges.expire hs)
    · exact hs
  case floorEnd g l =>
    cases he
    split
    · exact k.settle (k.keptByChanges.floorEnd g l hs)
    · exact hs
  case beatEdge => exact k.keptByChanges.beatEdge (fun _ => k.settle) he hs
  case fadeEnd h l =>
    cases he
    split
    · exact k.settle (k.moveSlot h l _ hs)
    · exact k.settle (k.moveSlot h l _ hs)
    · exact hs
    · exact hs
  case linkFrameSent =>
    cases he
    split
    · exact hs
    · exact port_startLink (s := s.withLink _) hs
    all_goals exact hs
  case acknowledgement => exact hleft rfl
  case ackTimeout => exact hleft rfl
  case holdOffEnd => exact hleft rfl
  case callerByteReceived p b good => cases he; exact k.settle (k.receiveByte p b good hs)
  case lineReturnsToMarking p =>
    cases he
    split
    · exact port_onPort_any (fun _ hu => k.congr hu ⟨rfl, rfl, rfl, rfl, rfl, rfl⟩) hs
    · exact hs
  all_goals cases hc

end LineLaw

namespace PortLaw
variable {P : PortUnit → Prop} (k : PortLaw P) {s : State} {q : Port}
include k

/-- The effects of a request's owner, CLEAR_CAPTURE's on its port apart. -/
theorem effect {p : Port} {kind : ReqKind} {t : State} (e : Effect p s kind t) (hs : P (s.port q))
    (hclear : kind = .clearCapture → q = p → P { s.port p with capture := none }) : P (t.port q) := by
  refine k.toLineLaw.effect e hs (fun hk => ?_)
  cases e <;> try cases hk
  case setsHead => exact k.actOnEnable _ _ hs
  case syncs => exact port_onPort_any (fun _ => k.waits _) hs
  case clearsCauses => exact port_onPort_any (fun _ => k.clears _) hs
  case clearsPortCapture => exact port_onPort (hclear rfl) hs
  case clearsLinkCapture => exact hs

/-- A request keeps the law. -/
theorem request (kind : ReqKind) {p : Port} {t : State} (he : Machine.exec (kind.command p) s = .next t) (hs : P (s.port q))
    (hlock : ∀ u, P u → P { u with locked := true })
    (hclear : kind = .clearCapture → q = p → P { s.port p with capture := none }) : P (t.port q) := by
  rw [exec_command] at he
  cases he
  exact serve_kept (Inv := fun t => P (t.port q)) hs (fun _ _ _ e => k.effect e hs hclear) (fun _ _ _ => k.refuse hlock p _ _ _ hs)
    (fun _ _ _ _ => k.respond p _ _ _) (fun _ => k.settle)

/-- A command that executes no request keeps the law, if a lock does where the command can lock, and the port reset where it is a
break of the port. -/
theorem event {c : Instr} {t : State} (he : Machine.exec c s = .next t) (hc : requestOf c = none) (hs : P (s.port q))
    (hlock : (∃ p, c = .unknownKindRequest p) → ∀ u, P u → P { u with locked := true })
    (hreset : isReset c = true → P .atReset) (hbreak : c = .lineBreak q → ∀ u, P u → P u.afterBreak) : P (t.port q) := by
  refine k.toLineLaw.event he hc hs hlock hreset hbreak (fun hl => ?_)
  cases c <;> try cases hl
  case acknowledgement frame =>
    cases he
    split
    · split
      · exact k.settle (k.acknowledged _ _ hs)
      · exact hs
    · exact hs
  case ackTimeout =>
    cases he
    split
    · exact k.settle (k.windowClosed hs)
    all_goals exact hs
  case holdOffEnd =>
    cases he
    split
    · exact k.settle (k.holdOffOver hs)
    all_goals exact hs

/-- Every command keeps the law, but for what a lock, a reset, a break of the port and a CLEAR_CAPTURE on it do. -/
theorem exec {c : Instr} {t : State} (he : Machine.exec c s = .next t) (hs : P (s.port q))
    (hlock : ∀ u, P u → P { u with locked := true })
    (hreset : isReset c = true → P .atReset) (hbreak : c = .lineBreak q → ∀ u, P u → P u.afterBreak)
    (hclear : c = .clearCapture q → P { s.port q with capture := none }) : P (t.port q) := by
  cases hc : requestOf c with
  | none => exact k.event he hc hs (fun _ => hlock) hreset hbreak
  | some kp =>
    have hcommand := eq_command_of_request hc
    rw [hcommand] at he
    exact k.request kp.1 he hs hlock (fun hkind hq => by
      subst hq
      exact hclear (by rw [hcommand, hkind]; rfl))

/-- A law that a lock, a reset, a break and a cleared capture keep too is kept on every port by every step. -/
theorem step (hlock : ∀ u, P u → P { u with locked := true }) (hreset : P .atReset)
    (hbreak : ∀ u, P u → P u.afterBreak) (hclear : ∀ u, P u → P { u with capture := none }) :
    KeptByStep (fun s => ∀ p, P (s.port p)) := by
  refine keptByStep_of (bs := [.ports]) (fun s t hsame hs p => ?_) (fun c s t he hs p => ?_) (fun s hs p => k.tick (hs p))
  · have hports : t.ports = s.ports := hsame .ports (by decide)
    unfold State.port
    rw [hports]
    exact hs p
  · exact k.exec he (hs p) hlock (fun _ => hreset) (fun _ => hbreak) (fun _ => hclear _ (hs p))

end PortLaw

end Sys2Proof.Machine
end

section
/-! The request queues (R141), the cause sets (R162) and the settled lines (R142, R150): three of the laws O5, kept by every step. -/

namespace Sys2Proof.Machine

/-! ## The request queue -/

theorem PortUnit.markHeld_length (u : PortUnit) : u.markHeld.queue.length = u.queue.length := by
  unfold PortUnit.markHeld
  dsimp only
  split <;> simp
  omega

theorem requestQueue_portLaw : PortLaw (fun u => u.queue.length ≤ Config.maxRequests) where
  congr hu h := by rw [h.queue]; exact hu
  raises _ hu := hu
  syncEnds hu := hu
  leaves hu := by simp only [List.length_tail]; omega
  joins _ hlen _ := by simp only [List.length_append, List.length_singleton]; omega
  marks hu := by rw [PortUnit.markHeld_length]; exact hu
  unlocks hu := hu
  notes _ _ _ hu := hu
  waits _ hu := hu
  clears _ hu := hu

/-! ## The cause sets -/

/-- The law of the cause sets on one port. -/
structure PortUnit.CausesStand (u : PortUnit) : Prop where
  ascending : CausesRise u.pending
  repeatsPending : ∀ x, hasCause u.repeats x = true → u.isPending x = true

theorem PortUnit.isPending_iff {u : PortUnit} {x : Cause} : u.isPending x = true ↔ ∃ r ∈ u.pending, r.cause = x := by
  simp [PortUnit.isPending]

theorem PortUnit.isPending_raise {u : PortUnit} {r : Raise} {x : Cause} (h : u.isPending x = true) :
    (u.raise r).isPending x = true := by
  obtain ⟨y, hy, rfl⟩ := PortUnit.isPending_iff.1 h
  rw [PortUnit.isPending_iff]
  by_cases hc : y.cause = r.cause
  · exact ⟨r, mem_putRaise r _, hc.symm⟩
  · exact ⟨y, mem_putRaise_of_ne hy hc, rfl⟩

theorem PortUnit.CausesStand.raise {u : PortUnit} (hu : u.CausesStand) (r : Raise) : (u.raise r).CausesStand := by
  refine ⟨putRaise_rise hu.ascending r, fun x hx => ?_⟩
  rw [Machine.repeats_raise, Bool.or_eq_true, Bool.and_eq_true, decide_eq_true_iff] at hx
  rcases hx with hx | ⟨rfl, hx⟩
  · exact PortUnit.isPending_raise (hu.repeatsPending x hx)
  · exact PortUnit.isPending_raise hx

theorem hasCause_sdiff (c d : CauseSet) (x : Cause) : hasCause (c &&& ~~~d) x = (hasCause c x && !hasCause d x) := by
  have hcode : x.code < 19 := by cases x <;> decide
  simp [hasCause, hcode]

/-- The causes cleared leave both sets, so that a cause still repeated is still pending (R165). -/
theorem PortUnit.CausesStand.clearCauses {u : PortUnit} (hu : u.CausesStand) (c : CauseSet) : (u.clearCauses c).CausesStand := by
  refine ⟨List.Pairwise.filter _ hu.ascending, fun x hx => ?_⟩
  have hrep : (hasCause u.repeats x && !hasCause c x) = true := by rw [← hasCause_sdiff]; exact hx
  rw [Bool.and_eq_true] at hrep
  obtain ⟨y, hy, rfl⟩ := PortUnit.isPending_iff.1 (hu.repeatsPending x hrep.1)
  exact PortUnit.isPending_iff.2 ⟨y, List.mem_filter.2 ⟨hy, hrep.2⟩, rfl⟩

theorem hasCause_zero (x : Cause) : hasCause 0 x = false := by cases x <;> rfl

theorem PortUnit.causesStand_of_empty {u : PortUnit} (hp : u.pending = []) (hr : u.repeats = 0) : u.CausesStand := by
  refine ⟨by rw [CausesRise, hp]; exact .nil, fun x hx => ?_⟩
  rw [hr, hasCause_zero] at hx
  cases hx

theorem causesStand_portLaw : PortLaw PortUnit.CausesStand where
  congr hu h := by
    refine ⟨by rw [h.pending]; exact hu.ascending, fun x hx => ?_⟩
    rw [h.repeats] at hx
    unfold PortUnit.isPending
    rw [h.pending]
    exact hu.repeatsPending x hx
  raises r hu := hu.raise r
  syncEnds hu := ⟨hu.ascending, hu.repeatsPending⟩
  leaves hu := ⟨hu.ascending, hu.repeatsPending⟩
  joins _ _ hu := ⟨hu.ascending, hu.repeatsPending⟩
  marks {u} hu := by
    unfold PortUnit.markHeld
    dsimp only
    split <;> exact ⟨hu.ascending, hu.repeatsPending⟩
  unlocks hu := ⟨hu.ascending, hu.repeatsPending⟩
  notes _ _ _ hu := ⟨hu.ascending, hu.repeatsPending⟩
  waits _ hu := ⟨hu.ascending, hu.repeatsPending⟩
  clears c hu := hu.clearCauses c

/-! ## The settled lines -/

/-- Nothing is left over on the port from an earlier event. -/
def PortUnit.Rests (u : PortUnit) : Prop := u.answerSync.startSending = u

theorem PortUnit.Rests.congr {u v : PortUnit} (hu : u.Rests) (hsend : v.sending = u.sending) (hout : v.outgoing = u.outgoing)
    (hsync : v.sync = u.sync) (hqueue : v.queue = u.queue) : v.Rests := by
  rw [PortUnit.Rests, quiet_iff] at hu ⊢
  rw [hsend, hout, hsync, hqueue]
  exact hu

theorem settled_of_ports {s t : State} (hs : Settled s) (h : t.ports = s.ports) : Settled t := by
  rw [settled_iff] at hs ⊢
  unfold State.port
  rw [h]
  exact hs

theorem Settled.of_only {bs : List Block} {s t : State} (hs : Settled s) (h : OnlyChanges bs s t)
    (hb : .ports ∉ bs := by decide) : Settled t :=
  settled_of_ports hs (h.ports hb)

theorem settled_powerOnReset (s : State) (st : Straps) (b : Bool) : Settled (s.powerOnReset st b) := rfl

theorem Settled.serve {s : State} (hs : Settled s) (k : ReqKind) (p : Port) (owner : Port → List Byte → State → Verdict) :
    Settled (s.serve k p owner) := by
  rcases serve_cases s k p owner with h | ⟨r, -, -, -, h⟩ <;> rw [h]
  · exact hs
  · exact settle_settled _

/-- Every event ends settled: it is none, it touches no frame and no waiting SYNC, or its last step is the end of an event. -/
theorem Settled.event {c : Instr} {s t : State} (he : Machine.exec c s = .next t) (hc : requestOf c = none) (hs : Settled s) :
    Settled t := by
  cases c
  case powerOn => cases he; exact settled_powerOnReset _ _ _
  case reset => cases he; exact settled_powerOnReset _ _ _
  case beatEdge high =>
    cases he
    split
    · exact hs
    · dsimp only
      split
      · exact settle_settled _
      · exact hs.of_only (withBeat_keeps _ _).1
  case linkFrameSent => exact hs.of_only (by obtain ⟨u, hu, ho⟩ := exec_only .linkFrameSent s; rw [hu] at he; cases he; exact ho)
  case lineReturnsToMarking p =>
    cases he
    split
    · rw [settled_iff] at hs ⊢
      intro q
      exact port_onPort_any (P := PortUnit.Rests) (fun u hu => hu.congr rfl rfl rfl rfl) (hs q)
    · exact hs
  case frameReceived => cases he; split <;> first | exact hs | exact settle_settled _
  case lineBreak => cases he; split <;> first | exact hs | exact settle_settled _
  case frameGapTimeout => cases he; split <;> first | exact hs | exact settle_settled _
  case unlock => cases he; split <;> first | exact hs | exact settle_settled _
  case followExpiry => cases he; split <;> first | exact hs | exact settle_settled _
  case floorEnd => cases he; split <;> first | exact hs | exact settle_settled _
  case fadeEnd => cases he; split <;> first | exact hs | exact settle_settled _
  case ackTimeout => cases he; split <;> first | exact hs | exact settle_settled _
  case holdOffEnd => cases he; split <;> first | exact hs | exact settle_settled _
  case callerFrameSent => cases he; exact settle_settled _
  case callerByteReceived => cases he; exact settle_settled _
  case dropped =>
    cases he
    split
    · split
      · exact settle_settled _
      · exact hs
    · exact hs
  case unknownKindRequest =>
    cases he
    split
    · split
      · exact settle_settled _
      · exact hs
    · exact hs
  case acknowledgement =>
    cases he
    split
    · split
      · exact settle_settled _
      · exact hs
    · exact hs
  all_goals cases hc

theorem Settled.exec {c : Instr} {s t : State} (he : Machine.exec c s = .next t) (hs : Settled s) : Settled t := by
  cases hc : requestOf c with
  | none => exact hs.event he hc
  | some kp =>
    rw [eq_command_of_request hc, exec_command] at he
    cases he
    exact hs.serve _ _ _

theorem Settled.tick {s : State} (hs : Settled s) : Settled s.tick := by
  rw [settled_iff] at hs ⊢
  intro q
  rw [State.port_tick]
  exact PortUnit.Rests.congr (hs q) rfl rfl rfl rfl

theorem settled_kept : KeptByStep Settled := by
  refine keptByStep_of (bs := [.ports]) (fun s t hsame hs => ?_) (fun c s t he hs => hs.exec he) (fun s hs => hs.tick)
  exact settled_of_ports hs (hsame .ports (by decide))

theorem requestQueueLaw_kept : KeptByStep RequestQueueLaw :=
  requestQueue_portLaw.step (fun _ hu => hu) (Nat.zero_le _) (fun _ _ => Nat.zero_le _) (fun _ hu => hu)

theorem causeSetsLaw_iff {s : State} : CauseSetsLaw s ↔ ∀ p, (s.port p).CausesStand :=
  ⟨fun h p => ⟨h.ascending p, h.repeatsPending p⟩, fun h => ⟨fun p => (h p).ascending, fun p => (h p).repeatsPending⟩⟩

theorem causeSetsLaw_kept : KeptByStep CauseSetsLaw := by
  intro s t hs hstep
  rw [causeSetsLaw_iff] at hs ⊢
  exact causesStand_portLaw.step (fun _ hu => ⟨hu.ascending, hu.repeatsPending⟩) (PortUnit.causesStand_of_empty rfl rfl)
    (fun _ _ => PortUnit.causesStand_of_empty rfl rfl) (fun _ hu => ⟨hu.ascending, hu.repeatsPending⟩) s t hs hstep

end Sys2Proof.Machine
end

section
/-! The cue-record layout (R2, R170) part by part: the trigger, the text entries and the fields of the kind read back as they are
written, and what is read is well formed and writes its bytes again: the statement O15. -/

namespace Sys2Proof.Machine

/-! ## Bytes of scaled times -/

/-- A time that is a multiple of its step and fits its byte reads back. -/
theorem scaled_byteOf {m n : Nat} (hm : n % m = 0) (hn : n / m < 256) : m * (byteOf (n / m)).toNat = n := by
  rw [toNat_byteOf hn]
  have := Nat.div_add_mod n m
  omega

/-! ## The trigger -/

/-- The trigger's part of `CueRec.WellFormed`. -/
def Trigger.WellFormed : Trigger → Prop
  | .manual => True
  | .afterTime ms => 10 ≤ ms ∧ ms ≤ 600000 ∧ ms % 10 = 0
  | .afterBeats n => 1 ≤ n ∧ n ≤ 255

theorem triggerOf_bytes {t : Trigger} (h : t.WellFormed) :
    ∃ code d0 d1, t.bytes = [code, d0, d1] ∧ triggerOf code (nat2 d0 d1) = some t := by
  cases t with
  | manual => exact ⟨0, 0, 0, rfl, rfl⟩
  | afterTime ms =>
    obtain ⟨hlo, hhi, hstep⟩ := h
    refine ⟨1, _, _, rfl, ?_⟩
    rw [nat2_le2 (by omega)]
    have hms : 10 * (ms / 10) = ms := by omega
    have hrange : 1 ≤ ms / 10 ∧ ms / 10 ≤ 60000 := by omega
    simp [triggerOf, hrange, hms]
  | afterBeats n =>
    refine ⟨2, _, _, rfl, ?_⟩
    obtain ⟨hlo, hhi⟩ := h
    rw [nat2_le2 (by omega)]
    simp [triggerOf, hlo, hhi]

theorem triggerOf_some {code d0 d1 : Byte} {t : Trigger} (h : triggerOf code (nat2 d0 d1) = some t) :
    t.WellFormed ∧ t.bytes = [code, d0, d1] := by
  unfold triggerOf at h
  split_ifs at h with h0 hz h1 hr h2 hr
  · cases h
    have hbytes := le2_nat2 d0 d1
    rw [hz] at hbytes
    exact ⟨trivial, by rw [h0, ← hbytes]; rfl⟩
  · cases h
    refine ⟨⟨by omega, by omega, by omega⟩, ?_⟩
    rw [h1, Trigger.bytes, Nat.mul_div_cancel_left _ (by decide), le2_nat2]
  · cases h
    exact ⟨hr, by rw [h2, Trigger.bytes, le2_nat2]⟩

/-! ## The text entries -/

/-- The text entries of a well-formed TITLE cue, from a least language on. -/
structure EntriesFit (least : Nat) (ts : List TextEntry) : Prop where
  ascending : ts.Pairwise (fun a b => a.lang < b.lang)
  each : ∀ e ∈ ts, least ≤ e.lang.val ∧ e.text ≤ 16383

theorem textEntriesOf_bytes {least : Nat} {ts : List TextEntry} (h : EntriesFit least ts) :
    textEntriesOf least (ts.flatMap TextEntry.bytes) = some ts := by
  induction ts generalizing least with
  | nil => rfl
  | cons e ts ih =>
    obtain ⟨hhead, htail⟩ := List.pairwise_cons.1 h.ascending
    obtain ⟨hlang, htext⟩ := h.each e List.mem_cons_self
    have hbyte : (byteOf e.lang.val).toNat = e.lang.val := toNat_byteOf (by omega)
    have hrest := ih (least := e.lang.val + 1)
      ⟨htail, fun d hd => ⟨hhead d hd, (h.each d (List.mem_cons_of_mem e hd)).2⟩⟩
    have hid : nat2 (byteOf e.text) (byteOf (e.text / 256)) = e.text := nat2_le2 (by omega)
    rw [List.flatMap_cons]
    show textEntriesOf least (byteOf e.lang.val :: byteOf e.text :: byteOf (e.text / 256) :: _) = _
    simp [textEntriesOf, eighthOf_byteOf, hbyte, hlang, hid, htext, hrest]

theorem textEntriesOf_some {least : Nat} {bs : List Byte} {ts : List TextEntry} (h : textEntriesOf least bs = some ts) :
    EntriesFit least ts ∧ ts.flatMap TextEntry.bytes = bs := by
  fun_induction textEntriesOf least bs generalizing ts with
  | case1 => cases h; exact ⟨⟨.nil, by simp⟩, rfl⟩
  | case2 least lang lo hi rest l hl hr ih =>
    obtain ⟨ts', hts, rfl⟩ := Option.map_eq_some_iff.1 h
    obtain ⟨hfit, hbytes⟩ := ih hts
    have hval := eighthOf_val hl
    refine ⟨⟨List.pairwise_cons.2 ⟨fun d hd => ?_, hfit.ascending⟩, fun d hd => ?_⟩, ?_⟩
    · have := (hfit.each d hd).1
      exact Fin.lt_def.2 (show l.val < d.lang.val by omega)
    · rcases List.mem_cons.1 hd with rfl | hd
      · exact ⟨show least ≤ l.val by omega, hr.2⟩
      · have := hfit.each d hd
        exact ⟨by omega, this.2⟩
    · simp only [List.flatMap_cons, TextEntry.bytes, hval, byteOf_toNat, le2_nat2, hbytes]
      rfl
  | case3 => cases h
  | case4 => cases h
  | case5 => cases h

/-! ## The fields of the kind -/

/-- The body's part of `CueRec.WellFormed`. -/
def CueBody.WellFormed : CueBody → Prop
  | .title _ groups texts fadeIn fadeOut floor =>
    groups ≠ 0 ∧ texts ≠ [] ∧ texts.length ≤ 8 ∧ texts.Pairwise (fun a b => a.lang < b.lang) ∧
      (∀ e ∈ texts, e.text ≤ 16383) ∧ fadeIn ≤ 2550 ∧ fadeIn % 10 = 0 ∧ fadeOut ≤ 2550 ∧ fadeOut % 10 = 0 ∧
      floor ≤ 5000 ∧ floor % 100 = 0
  | .clear _ groups floor => groups ≠ 0 ∧ floor ≤ 5000 ∧ floor % 100 = 0
  | .mark => True

theorem CueRec.wellFormed_iff (c : CueRec) :
    c.WellFormed ↔ c.num.valid = true ∧ c.body.WellFormed ∧ c.trigger.WellFormed := Iff.rfl

theorem CueBody.WellFormed.entriesFit {b : CueBody} (h : b.WellFormed) : EntriesFit 0 b.texts := by
  cases b with
  | title =>
    obtain ⟨-, -, -, hasc, htext, -⟩ := h
    exact ⟨hasc, fun e he => ⟨Nat.zero_le _, htext e he⟩⟩
  | clear => exact ⟨.nil, by simp [CueBody.texts]⟩
  | mark => exact ⟨.nil, by simp [CueBody.texts]⟩

theorem cueBodyOf_bytes {b : CueBody} (h : b.WellFormed) :
    ∃ kind layer groups fadeIn fadeOut floor, b.bytes = [kind, layer, groups, fadeIn, fadeOut, floor] ∧
      cueBodyOf kind layer groups fadeIn fadeOut floor b.texts = some b := by
  cases b with
  | title l g ts fi fo fl =>
    obtain ⟨hg, hne, hlen, -, -, hfi, hfi', hfo, hfo', hfl, hfl'⟩ := h
    refine ⟨_, _, _, _, _, _, rfl, ?_⟩
    have hin : 10 * (byteOf (fi / 10)).toNat = fi := scaled_byteOf hfi' (by omega)
    have hout : 10 * (byteOf (fo / 10)).toNat = fo := scaled_byteOf hfo' (by omega)
    have hfloor : 100 * (byteOf (fl / 100)).toNat = fl := scaled_byteOf hfl' (by omega)
    have hmax : (byteOf (fl / 100)).toNat ≤ 50 := by omega
    replace hg : g ≠ 0#8 := hg
    cases l <;> simp [cueBodyOf, CueBody.texts, layerByte, hg, hne, hlen, hin, hout, hfloor, hmax]
  | clear only g fl =>
    obtain ⟨hg, hfl, hfl'⟩ := h
    replace hg : g ≠ 0#8 := hg
    have hfloor : 100 * (byteOf (fl / 100)).toNat = fl := scaled_byteOf hfl' (by omega)
    have hmax : (byteOf (fl / 100)).toNat ≤ 50 := by omega
    cases only with
    | none => exact ⟨_, _, _, _, _, _, rfl, by simp [cueBodyOf, CueBody.texts, hg, hfloor, hmax]⟩
    | some l =>
      refine ⟨_, _, _, _, _, _, rfl, ?_⟩
      cases l <;> simp [cueBodyOf, CueBody.texts, layerByte, hg, hfloor, hmax]
  | mark => exact ⟨_, _, _, _, _, _, rfl, rfl⟩

theorem cueBodyOf_some {kind layer groups fadeIn fadeOut floor : Byte} {ts : List TextEntry} {b : CueBody}
    (h : cueBodyOf kind layer groups fadeIn fadeOut floor ts = some b) (hts : EntriesFit 0 ts) :
    b.WellFormed ∧ b.bytes = [kind, layer, groups, fadeIn, fadeOut, floor] ∧ b.texts = ts := by
  have title (l : Layer) (hg : groups ≠ 0 ∧ floor.toNat ≤ 50 ∧ ts ≠ [] ∧ ts.length ≤ 8) :
      CueBody.WellFormed (.title l groups ts (10 * fadeIn.toNat) (10 * fadeOut.toNat) (100 * floor.toNat)) :=
    ⟨hg.1, hg.2.2.1, hg.2.2.2, hts.ascending, fun e he => (hts.each e he).2, by omega, by omega, by omega, by omega, by omega,
      by omega⟩
  have clear (only : Option Layer) (hg : groups ≠ 0 ∧ floor.toNat ≤ 50 ∧ ts = [] ∧ fadeIn = 0 ∧ fadeOut = 0) :
      CueBody.WellFormed (.clear only groups (100 * floor.toNat)) := ⟨hg.1, by omega, by omega⟩
  unfold cueBodyOf at h
  split_ifs at h with hk hg hl hl' hk' hg' hl hl' hl'' hk'' hg''
  · cases h
    exact ⟨title _ hg, by simp [CueBody.bytes, layerByte, hk, hl, byteOf_toNat], rfl⟩
  · cases h
    exact ⟨title _ hg, by simp [CueBody.bytes, layerByte, hk, hl', byteOf_toNat], rfl⟩
  · cases h
    exact ⟨clear _ hg', by simp [CueBody.bytes, layerByte, hk', hl, hg', byteOf_toNat], hg'.2.2.1.symm⟩
  · cases h
    exact ⟨clear _ hg', by simp [CueBody.bytes, layerByte, hk', hl', hg', byteOf_toNat], hg'.2.2.1.symm⟩
  · cases h
    exact ⟨clear _ hg', by simp [CueBody.bytes, hk', hl'', hg', byteOf_toNat], hg'.2.2.1.symm⟩
  · cases h
    obtain ⟨rfl, rfl, rfl, rfl, rfl, rfl⟩ := hg''
    exact ⟨trivial, by rw [hk'']; rfl, rfl⟩

/-! ## The whole record -/

theorem cueRecOf_bytes {c : CueRec} (h : c.WellFormed) : cueRecOf c.bytes = some c := by
  obtain ⟨hnum, hbody, htrig⟩ := c.wellFormed_iff.1 h
  obtain ⟨kind, layer, groups, fadeIn, fadeOut, floor, hbytes, hof⟩ := cueBodyOf_bytes hbody
  obtain ⟨code, d0, d1, htbytes, htof⟩ := triggerOf_bytes htrig
  have hcue := cueOf_bytes hnum
  have hentries := textEntriesOf_bytes hbody.entriesFit
  simp only [CueRec.bytes, hbytes, htbytes, cueBytes, le2, List.cons_append, List.nil_append, cueRecOf, hcue, hnum, if_true,
    hentries, hof, htof]

theorem cueRecOf_some {pl : List Byte} {c : CueRec} (h : cueRecOf pl = some c) : c.WellFormed ∧ c.bytes = pl := by
  unfold cueRecOf at h
  split at h
  next n0 n1 n2 kind layer groups fadeIn fadeOut floor trig d0 d1 rest =>
    split at h
    next hv =>
      split at h
      next ts hts =>
        split at h
        next body t hbody ht =>
          cases h
          obtain ⟨hfit, hrest⟩ := textEntriesOf_some hts
          obtain ⟨hwf, hbytes, htexts⟩ := cueBodyOf_some hbody hfit
          obtain ⟨htwf, htbytes⟩ := triggerOf_some ht
          refine ⟨(CueRec.wellFormed_iff _).2 ⟨hv, hwf, htwf⟩, ?_⟩
          rw [CueRec.bytes, cueBytes_cueOf, hbytes, htbytes, htexts, hrest]
          rfl
        next => cases h
      next => cases h
    next => cases h
  next => cases h

/-- Settles O15: each part of the layout reads back, and what is read writes its bytes again. -/
theorem cueRecordLayoutReadsBack : Obligations.CueRecordLayoutReadsBack :=
  ⟨fun _ => cueRecOf_bytes, fun _ _ => cueRecOf_some⟩

end Sys2Proof.Machine
end

section
/-! Laws of the stores: a law of the cue table, the text store and the text ids the slots name is kept by every step if the Cue
Store's writes and a slot's write keep it. -/

namespace Sys2Proof.Machine

/-! ## The names on the screens -/

/-- The text ids a head's two slots name (R6). -/
def Head.names (x : Head) : List Nat := x.baseSlot.names ++ x.overSlot.names

theorem State.slotNames_eq (s : State) : s.slotNames = allHeads.flatMap (fun h => (s.head h).names) := rfl

/-- Every head's slots name the same texts in both states. -/
def SameNames (s t : State) : Prop := ∀ h, (t.head h).names = (s.head h).names

theorem SameNames.refl (s : State) : SameNames s s := fun _ => rfl
theorem SameNames.trans {s t u : State} (a : SameNames s t) (b : SameNames t u) : SameNames s u := fun h => (b h).trans (a h)

theorem SameNames.slotNames {s t : State} (h : SameNames s t) : t.slotNames = s.slotNames := by
  rw [State.slotNames_eq, State.slotNames_eq, funext h]

theorem SameNames.ofOnly {bs : List Block} {s t : State} (h : OnlyChanges bs s t) (hb : .heads ∉ bs := by decide) :
    SameNames s t := fun k => by rw [h.head k hb]

theorem SameNames.ofImage {s t : State} (h : SameImage s t) : SameNames s t := fun k => by
  obtain ⟨-, -, -, -, -, hslot⟩ := Head.core_eq (h k)
  rw [Head.names, Head.names, show (t.head k).baseSlot = _ from hslot .base, show (t.head k).overSlot = _ from hslot .overlay]
  rfl

section
variable {s t u : State}

/-- A write of one head that keeps its slots' names, and a change of other blocks. -/
theorem SameNames.setHead (a : SameNames s t) (h : HeadId) {x : Head} (hx : x.names = (t.head h).names) :
    SameNames s (t.setHead h x) := by
  refine a.trans fun k => ?_
  by_cases hk : k = h
  · rw [hk, State.head_setHead_self, hx]
  · rw [State.head_setHead_ne _ _ hk]

theorem SameNames.only {bs : List Block} (a : SameNames s t) (h : OnlyChanges bs t u) (hb : .heads ∉ bs := by decide) :
    SameNames s u :=
  a.trans (.ofOnly h hb)

theorem SameNames.image (a : SameNames s t) (h : SameImage t u) : SameNames s u := a.trans (.ofImage h)

theorem Slot.names_tick (x : Slot) : x.tick.names = x.names := by
  cases x with
  | falling p n f => cases n <;> rfl
  | _ => rfl

theorem sameNames_tick (s : State) : SameNames s s.tick := fun h => by
  rw [State.head_tick]
  exact congrArg₂ (· ++ ·) (Slot.names_tick _) (Slot.names_tick _)

theorem SameNames.afterLeaving (a : SameNames s t) : SameNames s t.afterLeaving := by
  refine a.trans fun h => ?_
  rcases (afterLeaving_caughtUp t).heads h with he | ⟨-, he⟩ <;> rw [he]
  rfl

theorem SameNames.askProbe (a : SameNames s t) (h : HeadId) : SameNames s (t.askProbe h) := by
  unfold State.askProbe
  split
  · exact (a.only (enqueue_only _ _ _)).only (startLink_only _)
  · exact a.image (markOutOfStep_image t h)

theorem SameNames.queueRefresh (a : SameNames s t) (h : HeadId) : SameNames s (t.queueRefresh h) := by
  unfold State.queueRefresh
  split_ifs
  · exact a
  · exact ((a.image (clearOutOfStep_image t h)).only (enqueue_only _ _ _)).only (enqueue_only _ _ _)
  · exact a.image (markOutOfStep_image t h)

theorem sameNames_acknowledged (s : State) (c : Command) (rest : List Command) : SameNames s (s.acknowledged c rest) := by
  have out : SameNames s (s.takeOut rest .none [c.id] true) := .ofOnly (takeOut_keeps _ _ _ _ _).1
  refine SameNames.afterLeaving ?_
  split
  · unfold State.probeAnswered
    split
    · exact ((out.setHead _ (by rfl)).only (raiseAll_keeps _ _).1).queueRefresh _
    · exact out
  · exact out

theorem sameNames_headFailed (s : State) (h : HeadId) (k : CmdKind) : SameNames s (s.headFailed h k) := by
  unfold State.headFailed
  split
  · exact (SameNames.refl s).setHead h (by rfl)
  · exact (SameNames.refl s).setHead h (by rfl)
  · exact (SameNames.refl s).setHead h (by rfl)
  · exact .refl s

theorem sameNames_failCommand (s : State) (c : Command) (rest : List Command) : SameNames s (s.failCommand c rest) :=
  SameNames.afterLeaving ((((sameNames_headFailed s c.head c.body.kind).only (takeOut_keeps _ _ _ _ _).1).only
    (withLink_keeps _ _).1).only (raiseAll_keeps _ _).1)

theorem sameNames_holdOffOver (s : State) : SameNames s s.holdOffOver := by
  unfold State.holdOffOver
  split
  · exact .refl s
  · split
    · exact sameNames_failCommand _ _ _
    · exact .refl s

theorem sameNames_windowClosed (s : State) : SameNames s s.windowClosed := by
  unfold State.windowClosed
  split
  · exact .refl s
  · split_ifs
    · exact sameNames_failCommand _ _ _
    · exact sameNames_holdOffOver s
    · exact .refl s

theorem SameNames.dropHeadCommands (a : SameNames s t) (h : HeadId) : SameNames s (t.dropHeadCommands h) := by
  by_cases hg : ∃ x ∈ t.link.queue, x.head = h
  · obtain ⟨z, hz, dropped⟩ := dropHeadCommands_eq t h hg
    rw [hz]
    exact SameNames.afterLeaving (a.trans fun k => by rw [dropped.heads k])
  · rw [dropHeadCommands_none t h (by simpa using hg)]
    exact a

theorem sameNames_refreshHead (s : State) (h : HeadId) : SameNames s (s.refreshHead h) := by
  unfold State.refreshHead
  split
  · exact .refl s
  · exact .refl s
  · exact ((SameNames.refl s).queueRefresh h).only (startLink_only _)
  · exact ((SameNames.refl s).setHead h (by rfl)).askProbe h

end

/-! ## The names of a slot after a move -/

theorem rise_names (p : TextPart) : (rise p).names = [p.text] := by
  unfold rise
  split <;> rfl

theorem Slot.names_fadeEnd (x : Slot) : x.fadeEnd.slot.names ⊆ x.names := by
  cases x with
  | falling p n f =>
    cases n with
    | none => simp [Slot.fadeEnd, Slot.names]
    | some n =>
      show (rise n).names ⊆ [p.text, n.text]
      rw [rise_names]
      simp
  | _ => simp [Slot.fadeEnd, Slot.names]

theorem startFall_names (shown : TextPart) (next : Option TextPart) (cue : Option CueNum) :
    (startFall shown next cue).slot.names ⊆ (Slot.falling shown next 0).names := by
  unfold startFall
  split
  · exact Slot.names_fadeEnd _
  · cases next <;> exact fun _ => id

theorem Slot.names_put (x : Slot) (t : TextPart) : (x.put t).slot.names ⊆ t.text :: x.names := by
  cases x with
  | dark => simp [Slot.put, rise_names]
  | rising p f => exact fun i hi => by have := startFall_names p (some t) _ hi; simp_all [Slot.names, or_comm]
  | lit p => exact fun i hi => by have := startFall_names p (some t) _ hi; simp_all [Slot.names, or_comm]
  | falling p n f => cases n <;> simp [Slot.put, Slot.names]

theorem Slot.names_clear (x : Slot) (cue : Option CueNum) : (x.clear cue).slot.names ⊆ x.names := by
  cases x with
  | dark => simp [Slot.clear, Slot.names]
  | rising p f => exact startFall_names p none cue
  | lit p => exact startFall_names p none cue
  | falling p n f => cases n <;> simp [Slot.clear, Slot.names]

/-! ## What every step writes of the stores -/

/-- A law of the stores is kept by what writes them: the Cue Store's requests, and a slot that names texts it named before or
texts some cue names. -/
structure KeptByStores (Inv : State → Prop) : Prop where
  congr : ∀ {s t : State}, Inv s → t.cues = s.cues → t.texts = s.texts → SameNames s t → Inv t
  reset : ∀ (s : State) (st : Straps) (b : Bool), Inv (s.powerOnReset st b)
  writes : ∀ {s : State} (h : HeadId) (l : Layer) {x : Slot},
    (∀ i ∈ x.names, i ∈ ((s.head h).slot l).names ∨ i ∈ s.cueNames) → Inv s → Inv (s.writeSlot h l x)
  addsCue : ∀ {s : State} {pl : List Byte} {c : CueRec}, cueRecOf pl = some c →
    (∀ e ∈ c.body.texts, (findText s.texts e.text).isSome = true) → findCue s.cues c.num = none → s.cues.length < 2048 →
    Inv s → Inv (s.addCueRec c)
  replacesCue : ∀ {s : State} {pl : List Byte} {old c : CueRec}, cueRecOf pl = some c →
    (∀ e ∈ c.body.texts, (findText s.texts e.text).isSome = true) → findCue s.cues c.num = some old → Inv s →
    Inv (s.replaceCueRec old c)
  dropsCue : ∀ {s : State} {c : CueRec}, findCue s.cues c.num = some c → Inv s → Inv (s.removeCueRec c)
  addsText : ∀ {s : State} {i : Nat} {bytes : List Byte}, textInRange i bytes = true → findText s.texts i = none →
    s.texts.length < 16384 → byteTotal s.texts + bytes.length ≤ 1048576 → Inv s → Inv (s.withTexts (putTextRec i bytes s.texts))
  replacesText : ∀ {s : State} {i : Nat} {bytes : List Byte} {old : TextRec}, textInRange i bytes = true →
    findText s.texts i = some old → byteTotal s.texts - old.bytes.length + bytes.length ≤ 1048576 → Inv s →
    Inv (s.withTexts (putTextRec i bytes s.texts))
  dropsText : ∀ {s : State} {x : TextRec}, findText s.texts x.id = some x → x.refs = 0 → Inv s →
    Inv (s.withTexts (dropTextRec x.id s.texts))

namespace KeptByStores
variable {Inv : State → Prop} (k : KeptByStores Inv) {s t : State}
include k

theorem of_only {bs : List Block} (h : OnlyChanges bs s t) (hs : Inv s)
    (hb : Block.apart [.cues, .texts, .heads] bs = true := by decide) : Inv t :=
  k.congr hs (h.cues (Block.not_mem_of_apart hb (by decide))) (h.texts (Block.not_mem_of_apart hb (by decide)))
    (.ofOnly h (Block.not_mem_of_apart hb (by decide)))

theorem reads : ReadsOnly [.cues, .texts, .heads] Inv := fun s t hsame hs =>
  k.congr hs (hsame .cues (by decide)) (hsame .texts (by decide)) fun h => by
    unfold State.head
    rw [show t.heads = s.heads from hsame .heads (by decide)]

/-- What the display link does to the heads names no texts. -/
theorem of_link (h : Keeps [.heads, .link, .ports] s t) (hn : SameNames s t) (hs : Inv s) : Inv t :=
  k.congr hs h.1.cues h.1.texts hn

theorem raiseAll (r : Raise) (hs : Inv s) : Inv (s.raiseAll r) := k.of_only (raiseAll_keeps s r).1 hs

/-- The slot and its counts are all that a slot's move writes of the stores. -/
theorem moveSlot (h : HeadId) (l : Layer) (m : SlotMove)
    (hn : ∀ i ∈ m.slot.names, i ∈ ((s.head h).slot l).names ∨ i ∈ s.cueNames) (hs : Inv s) : Inv (s.moveSlot h l m) := by
  have asked : Keeps [.heads, .link, .ports] (s.writeSlot h l m.slot) (m.asks.foldl (fun t a => t.ask h l a) (s.writeSlot h l m.slot)) :=
    .foldl (fun t a => ask_keeps t h l a) _ _
  have hasks := k.congr (k.writes h l hn hs) asked.1.cues asked.1.texts (.ofImage (asks_image _ h l m.asks))
  unfold State.moveSlot
  dsimp only
  split
  · exact k.raiseAll _ hasks
  · exact hasks

/-- A change names a text of its cue, and what its slot named. -/
theorem changeHead {c : CueRec} (g : GroupId) (l : Layer) (h : HeadId) (hc : c ∈ s.cues) (hs : Inv s) :
    Inv (s.changeHead c g l h) := by
  unfold State.changeHead
  split
  · split
    next ch hch =>
      cases ch with
      | clear cue => exact k.moveSlot h l _ (fun i hi => .inl (Slot.names_clear _ _ hi)) hs
      | put part =>
        refine k.moveSlot h l _ (fun i hi => ?_) hs
        rcases List.mem_cons.1 (Slot.names_put _ _ hi) with rfl | hold
        · exact .inr (List.mem_flatMap.2 ⟨c, hc, text_of_changeFor hch⟩)
        · exact .inl hold
    next => exact hs
  · exact hs
where
  text_of_changeFor {c : CueRec} {x : Head} {part : TextPart} (h : c.changeFor x = some (.put part)) : part.text ∈ c.names := by
    unfold CueRec.changeFor at h
    split at h
    next hb =>
      split at h
      next e he =>
        cases h
        exact List.mem_map.2 ⟨e, by rw [hb]; exact List.mem_of_find?_eq_some he, rfl⟩
      next => split at h <;> cases h
    next => cases h
    next => cases h

theorem clearHead (h : HeadId) (hs : Inv s) : Inv (s.clearHead h) := by
  unfold State.clearHead
  split
  · exact k.moveSlot h _ _ (fun i hi => .inl (Slot.names_clear _ _ hi))
      (k.moveSlot h _ _ (fun i hi => .inl (Slot.names_clear _ _ hi)) hs)
  · exact hs

theorem keptByChanges : KeptByChanges Inv where
  blocks h := k.of_only h
  raised := k.raiseAll
  changed g l h hc hs := k.changeHead g l h hc hs
  cleared := k.clearHead

theorem settle (hs : Inv s) : Inv s.settle := k.of_only (settle_only s) hs

theorem darken (h : HeadId) (hs : Inv s) : Inv (s.darken h) := by
  have dark {t : State} (l : Layer) (ht : Inv t) : Inv (t.writeSlot h l .dark) := k.writes h l (by simp [Slot.names]) ht
  exact k.congr (dark .overlay (dark .base hs)) rfl rfl ((SameNames.refl _).setHead h (by rfl))

theorem actOnEnable (h : HeadId) (on : Bool) (hs : Inv s) : Inv (s.actOnEnable h on) := by
  unfold State.actOnEnable
  split_ifs
  · exact k.of_link (enableHead_keeps s h) (((SameNames.refl s).setHead h (by rfl)).askProbe h) hs
  · exact k.of_link (dropHeadCommands_keeps _ h) ((SameNames.refl _).dropHeadCommands h) (k.darken h hs)
  · exact hs

theorem exec {c : Instr} (he : Machine.exec c s = .next t) (hs : Inv s) : Inv t := by
  cases c
  case powerOn => cases he; exact k.reset _ _ _
  case reset => cases he; exact k.reset _ _ _
  case closeShow p =>
    refine k.reads.of_request .closeShow he hs fun t e => ?_
    cases e with | closes => exact k.keptByChanges.closeDown p hs
  case go p =>
    refine k.reads.of_request .go he hs fun t e => ?_
    cases e with | goes => exact k.keptByChanges.fire _ _ _ hs
  case back p =>
    refine k.reads.of_request .back he hs fun t e => ?_
    cases e with | backs => exact k.keptByChanges.fire _ _ _ hs
  case beat p =>
    refine k.reads.of_request .beat he hs fun t e => ?_
    cases e with | beats => exact k.keptByChanges.takeBeat _ hs
  case putCue p =>
    refine k.reads.of_request .putCue he hs fun t e => ?_
    cases e with
    | addsCue hpl ht hn hlen => exact k.addsCue hpl ht hn hlen hs
    | replacesCue hpl ht ho _ => exact k.replacesCue hpl ht ho hs
  case dropCue p =>
    refine k.reads.of_request .dropCue he hs fun t e => ?_
    cases e with | dropsCue hc _ => exact k.dropsCue hc hs
  case putText p =>
    refine k.reads.of_request .putText he hs fun t e => ?_
    cases e with
    | addsText hr hn hlen htot => exact k.addsText hr hn hlen htot hs
    | replacesText hr ho htot => exact k.replacesText hr ho htot hs
  case dropText p =>
    refine k.reads.of_request .dropText he hs fun t e => ?_
    cases e with | dropsText hx hrefs => exact k.dropsText hx hrefs hs
  case setHead p =>
    refine k.reads.of_request .setHead he hs fun t e => ?_
    cases e with | setsHead => exact k.actOnEnable _ _ (k.congr hs rfl rfl ((SameNames.refl s).setHead _ (by rfl)))
  case refreshHead p =>
    refine k.reads.of_request .refreshHead he hs fun t e => ?_
    cases e with | refreshes => exact k.of_link (refreshHead_keeps s _) (sameNames_refreshHead s _) hs
  case followExpiry =>
    cases he
    split
    · exact k.settle (k.keptByChanges.expire hs)
    · exact hs
  case floorEnd g l =>
    cases he
    split
    · exact k.settle (k.keptByChanges.floorEnd g l hs)
    · exact hs
  case beatEdge high => exact k.keptByChanges.beatEdge (fun _ => k.settle) he hs
  case fadeEnd h l =>
    have ends {x : Slot} (hslot : (s.head h).slot l = x) : Inv (s.moveSlot h l x.fadeEnd) :=
      k.moveSlot h l _ (fun i hi => .inl (by rw [hslot]; exact Slot.names_fadeEnd _ hi)) hs
    cases he
    split
    next hslot => exact k.settle (ends hslot)
    next hslot => exact k.settle (ends hslot)
    next => exact hs
    next => exact hs
  case acknowledgement frame =>
    cases he
    split
    · split
      · exact k.settle (k.of_link (acknowledged_keeps s _ _) (sameNames_acknowledged s _ _) hs)
      · exact hs
    · exact hs
  case ackTimeout =>
    cases he
    split
    · exact k.settle (k.of_link (windowClosed_keeps s) (sameNames_windowClosed s) hs)
    all_goals exact hs
  case holdOffEnd =>
    cases he
    split
    · exact k.settle (k.of_link (holdOffOver_keeps s) (sameNames_holdOffOver s) hs)
    all_goals exact hs
  all_goals exact k.reads.of_exec he rfl hs

theorem step : KeptByStep Inv :=
  keptByStep_of k.reads (fun _ _ _ => k.exec) (fun s hs => k.congr hs rfl rfl (sameNames_tick s))

end KeptByStores

end Sys2Proof.Machine
end

section
/-! The stores' order and limits (R1, R4, R5) and the reference counts (R6, R8): the laws O11, and the rest of O5. -/

namespace Sys2Proof.Machine

/-! ## Order and limits -/

/-- A store whose records keep their ids and bytes. -/
theorem textsAscending_of_ids {xs ys : List TextRec} (h : ys.map TextRec.id = xs.map TextRec.id)
    (hp : textsAscending xs = true) : textsAscending ys = true :=
  textsAscending_iff.2 (ascending_of_ids h (textsAscending_iff.1 hp))

theorem writeSlot_ids (s : State) (h : HeadId) (l : Layer) (x : Slot) :
    (s.writeSlot h l x).texts.map TextRec.id = s.texts.map TextRec.id := by simp [State.writeSlot]

theorem storesAscending_keptByStores : KeptByStores StoresAscending where
  congr hs hc ht _ := by rw [StoresAscending, hc, ht]; exact hs
  reset _ _ _ := ⟨rfl, rfl⟩
  writes h l x _ hs := ⟨hs.1, textsAscending_of_ids (writeSlot_ids _ h l x) hs.2⟩
  addsCue _ _ _ _ hs := ⟨cuesAscending_iff.2 (putCueRec_ascending (cuesAscending_iff.1 hs.1)),
    textsAscending_of_ids (addNames_ids _ _) hs.2⟩
  replacesCue _ _ _ hs := ⟨cuesAscending_iff.2 (putCueRec_ascending (cuesAscending_iff.1 hs.1)),
    textsAscending_of_ids ((addNames_ids _ _).trans (removeNames_ids _ _)) hs.2⟩
  dropsCue _ hs := ⟨cuesAscending_iff.2 (dropCueRec_ascending _ (cuesAscending_iff.1 hs.1)),
    textsAscending_of_ids (removeNames_ids _ _) hs.2⟩
  addsText _ _ _ _ hs := ⟨hs.1, textsAscending_iff.2 (putTextRec_ascending (textsAscending_iff.1 hs.2))⟩
  replacesText _ _ _ hs := ⟨hs.1, textsAscending_iff.2 (putTextRec_ascending (textsAscending_iff.1 hs.2))⟩
  dropsText _ _ hs := ⟨hs.1, textsAscending_iff.2 (List.Pairwise.filter _ (textsAscending_iff.1 hs.2))⟩

/-- The limits of the text store. -/
structure TextLimits (texts : List TextRec) : Prop where
  count : texts.length ≤ 16384
  bytes : byteTotal texts ≤ 1048576
  each : ∀ t ∈ texts, t.id ≤ 16383 ∧ t.bytes ≠ [] ∧ t.bytes.length ≤ 192 ∧ lineCount t.bytes ≤ 3

theorem storeLimits_iff {s : State} : StoreLimits s ↔ s.cues.length ≤ 2048 ∧ TextLimits s.texts :=
  ⟨fun h => ⟨h.cues, h.texts, h.bytes, h.each⟩, fun h => ⟨h.1, h.2.count, h.2.bytes, h.2.each⟩⟩

/-- The limits do not read the reference counts. -/
theorem TextLimits.recount {texts : List TextRec} (h : TextLimits texts) (f : TextRec → Nat) :
    TextLimits (texts.map (fun t => { t with refs := f t })) := by
  refine ⟨by rw [List.length_map]; exact h.count, ?_, fun t ht => ?_⟩
  · rw [byteTotal, List.map_map]
    exact h.bytes
  · obtain ⟨x, hx, rfl⟩ := List.mem_map.1 ht
    exact h.each x hx

theorem addNames_eq (names : List Nat) (texts : List TextRec) :
    addNames names texts = texts.map (fun t => { t with refs := t.refs + names.count t.id }) := rfl

theorem removeNames_addNames (gone names : List Nat) (texts : List TextRec) :
    removeNames gone (addNames names texts) =
      texts.map (fun t => { t with refs := t.refs + names.count t.id - gone.count t.id }) := by
  simp [removeNames, addNames]

theorem addNames_removeNames (names gone : List Nat) (texts : List TextRec) :
    addNames names (removeNames gone texts) =
      texts.map (fun t => { t with refs := t.refs - gone.count t.id + names.count t.id }) := by
  simp [removeNames, addNames]

/-- What a new text writes where its id was: its own bytes, and the other records as they were. -/
theorem mem_putTextRec_bytes {i : Nat} {bytes : List Byte} {x : TextRec} {texts : List TextRec}
    (h : x ∈ putTextRec i bytes texts) : (x.id = i ∧ x.bytes = bytes) ∨ x ∈ texts := by
  induction texts with
  | nil => cases List.mem_singleton.1 h; exact .inl ⟨rfl, rfl⟩
  | cons y ys ih =>
    unfold putTextRec at h
    split_ifs at h with he hlt
    · rcases List.mem_cons.1 h with rfl | h
      · exact .inl ⟨he, rfl⟩
      · exact .inr (List.mem_cons_of_mem y h)
    · rcases List.mem_cons.1 h with rfl | h
      · exact .inl ⟨rfl, rfl⟩
      · exact .inr h
    · rcases List.mem_cons.1 h with rfl | h
      · exact .inr List.mem_cons_self
      · exact (ih h).imp id (List.mem_cons_of_mem y)

/-- A text put within the ranges leaves every record within them. -/
theorem TextLimits.put {texts : List TextRec} (h : TextLimits texts) {i : Nat} {bytes : List Byte}
    (hr : textInRange i bytes = true) (hc : (putTextRec i bytes texts).length ≤ 16384)
    (hb : byteTotal (putTextRec i bytes texts) ≤ 1048576) : TextLimits (putTextRec i bytes texts) := by
  refine ⟨hc, hb, fun t ht => ?_⟩
  rcases mem_putTextRec_bytes ht with ⟨rfl, rfl⟩ | ht
  · exact textInRange_iff.1 hr
  · exact h.each t ht

theorem TextLimits.drop {texts : List TextRec} (h : TextLimits texts) (i : Nat) : TextLimits (dropTextRec i texts) := by
  refine ⟨(List.length_filter_le _ _).trans h.count, le_trans ?_ h.bytes, fun t ht => h.each t (List.mem_of_mem_filter ht)⟩
  exact (List.filter_sublist.map _).sum_le_sum (fun _ _ => Nat.zero_le _)

theorem storeLimits_keptByStores : KeptByStores (fun s => StoresAscending s ∧ StoreLimits s) where
  congr hs hc ht hn := ⟨storesAscending_keptByStores.congr hs.1 hc ht hn, by
    rw [storeLimits_iff, hc, ht]; exact storeLimits_iff.1 hs.2⟩
  reset s st b := ⟨storesAscending_keptByStores.reset s st b, ⟨Nat.zero_le _, Nat.zero_le _, Nat.zero_le _, nofun⟩⟩
  writes {s} h l x hn hs := by
    obtain ⟨hcues, htexts⟩ := storeLimits_iff.1 hs.2
    refine ⟨storesAscending_keptByStores.writes h l hn hs.1, storeLimits_iff.2 ⟨hcues, ?_⟩⟩
    show TextLimits (removeNames _ (addNames _ s.texts))
    rw [removeNames_addNames]
    exact htexts.recount _
  addsCue {s pl c} hpl ht hnone hlen hs := by
    obtain ⟨-, htexts⟩ := storeLimits_iff.1 hs.2
    refine ⟨storesAscending_keptByStores.addsCue hpl ht hnone hlen hs.1, storeLimits_iff.2 ⟨?_, htexts.recount _⟩⟩
    show (putCueRec c s.cues).length ≤ 2048
    rw [length_putCueRec_new hnone]
    omega
  replacesCue {s pl old c} hpl ht hold hs := by
    obtain ⟨hcues, htexts⟩ := storeLimits_iff.1 hs.2
    refine ⟨storesAscending_keptByStores.replacesCue hpl ht hold hs.1, storeLimits_iff.2 ⟨?_, ?_⟩⟩
    · show (putCueRec c s.cues).length ≤ 2048
      rw [length_putCueRec_old (cuesAscending_iff.1 hs.1.1) hold]
      exact hcues
    · show TextLimits (addNames _ (removeNames _ s.texts))
      rw [addNames_removeNames]
      exact htexts.recount _
  dropsCue {s c} hc hs := by
    obtain ⟨hcues, htexts⟩ := storeLimits_iff.1 hs.2
    exact ⟨storesAscending_keptByStores.dropsCue hc hs.1,
      storeLimits_iff.2 ⟨(List.length_filter_le _ _).trans hcues, htexts.recount _⟩⟩
  addsText {s i bytes} hr hn hlen htot hs := by
    obtain ⟨hcues, htexts⟩ := storeLimits_iff.1 hs.2
    obtain ⟨hcount, hbytes⟩ := length_putTextRec_new bytes hn
    exact ⟨storesAscending_keptByStores.addsText hr hn hlen htot hs.1,
      storeLimits_iff.2 ⟨hcues, htexts.put hr (by omega) (by omega)⟩⟩
  replacesText {s i bytes old} hr ho htot hs := by
    obtain ⟨hcues, htexts⟩ := storeLimits_iff.1 hs.2
    obtain ⟨hcount, hbytes, -⟩ := length_putTextRec_old bytes (textsAscending_iff.1 hs.1.2) ho
    have hmax := htexts.count
    exact ⟨storesAscending_keptByStores.replacesText hr ho htot hs.1,
      storeLimits_iff.2 ⟨hcues, htexts.put hr (by omega) (by omega)⟩⟩
  dropsText {s x} hx hrefs hs := by
    obtain ⟨hcues, htexts⟩ := storeLimits_iff.1 hs.2
    exact ⟨storesAscending_keptByStores.dropsText hx hrefs hs.1, storeLimits_iff.2 ⟨hcues, htexts.drop _⟩⟩

/-- Settles O5: the stores' laws are kept by each write of them, the queues' and the cause sets' by each write of a port, and every
event ends settled. -/
theorem everyStepKeepsStoresQueuesAndLines : Obligations.EveryStepKeepsStoresQueuesAndLines :=
  ⟨storesAscending_keptByStores.step, storeLimits_keptByStores.step, requestQueueLaw_kept, causeSetsLaw_kept, settled_kept⟩

/-! ## The reference counts -/

/-- How often the text is named by cue entries and slot parts. -/
def State.nameCount (s : State) (i : Nat) : Nat := s.cueNames.count i + s.slotNames.count i

/-- The part of the third and the fourth law that the counts are about. -/
structure CountsExact (s : State) : Prop where
  present : ∀ i, s.nameCount i ≠ 0 → i ∈ s.texts.map TextRec.id
  exact : ∀ t ∈ s.texts, t.refs = s.nameCount t.id

theorem State.nameCount_ne_zero {s : State} {i : Nat} : s.nameCount i ≠ 0 ↔ i ∈ s.cueNames ++ s.slotNames := by
  rw [← List.count_pos_iff, List.count_append, State.nameCount]
  omega

theorem referenceLaw_iff {s : State} : ReferenceLaw s ↔ (∀ c ∈ s.cues, c.WellFormed) ∧ CountsExact s := by
  constructor
  · exact fun h => ⟨h.wellFormed, fun i hi => findText_isSome.1 (h.present i (State.nameCount_ne_zero.1 hi)), h.exact⟩
  · rintro ⟨hwf, hpresent, hexact⟩
    refine ⟨hwf, fun c hc => ?_, fun i hi => findText_isSome.2 (hpresent i (State.nameCount_ne_zero.2 hi)), hexact⟩
    have hasc := ((c.wellFormed_iff.1 (hwf c hc)).2.1).entriesFit.ascending
    exact List.pairwise_map.2 (hasc.imp fun h => ne_of_lt h)

/-- Names come and go, and every record's count moves with them. -/
theorem CountsExact.recount {s t : State} (hs : CountsExact s) {f : TextRec → Nat}
    (ht : t.texts = s.texts.map (fun x => { x with refs := f x }))
    (hf : ∀ x ∈ s.texts, x.refs = s.nameCount x.id → f x = t.nameCount x.id)
    (hnew : ∀ i, t.nameCount i ≠ 0 → s.nameCount i ≠ 0 ∨ i ∈ s.texts.map TextRec.id) : CountsExact t := by
  have hids : t.texts.map TextRec.id = s.texts.map TextRec.id := by rw [ht, List.map_map]; rfl
  refine ⟨fun i hi => ?_, fun x hx => ?_⟩
  · rw [hids]
    rcases hnew i hi with h | h
    · exact hs.present i h
    · exact h
  · rw [ht] at hx
    obtain ⟨y, hy, rfl⟩ := List.mem_map.1 hx
    exact hf y hy (hs.exact y hy)

/-! ### Slots -/

/-- One summand of a list without repetitions replaced. -/
theorem count_flatMap_update {α : Type} {L : List α} (hn : L.Nodup) {h : α} (hm : h ∈ L) {f g : α → List Nat}
    (hoff : ∀ k, k ≠ h → g k = f k) (i : Nat) :
    (L.flatMap g).count i + (f h).count i = (L.flatMap f).count i + (g h).count i := by
  induction L with
  | nil => cases hm
  | cons x xs ih =>
    obtain ⟨hx, hn⟩ := List.nodup_cons.1 hn
    simp only [List.flatMap_cons, List.count_append]
    by_cases he : x = h
    · subst he
      have hrest : xs.flatMap g = xs.flatMap f :=
        List.flatMap_congr fun k hk => hoff k (fun e => hx (e ▸ hk))
      rw [hrest]
      omega
    · have hm' : h ∈ xs := (List.mem_cons.1 hm).resolve_left (Ne.symm he)
      have := ih hn hm'
      rw [hoff x he]
      omega

theorem count_le_flatMap {α : Type} [DecidableEq α] {L : List α} (hn : L.Nodup) {h : α} (hm : h ∈ L) (f : α → List Nat) (i : Nat) :
    (f h).count i ≤ (L.flatMap f).count i := by
  have := count_flatMap_update hn hm (f := f) (g := fun k => if k = h then [] else f k) (fun k hk => if_neg hk) i
  simp only [if_true, List.count_nil] at this
  omega

theorem Head.count_names_setSlot (x : Head) (l : Layer) (y : Slot) (i : Nat) :
    (x.setSlot l y).names.count i + (x.slot l).names.count i = x.names.count i + y.names.count i := by
  cases l <;> simp only [Head.names, Head.setSlot, Head.slot, List.count_append] <;> omega

theorem nameCount_writeSlot (s : State) (h : HeadId) (l : Layer) (x : Slot) (i : Nat) :
    (s.writeSlot h l x).nameCount i + ((s.head h).slot l).names.count i = s.nameCount i + x.names.count i := by
  have hslots : (s.writeSlot h l x).slotNames.count i + (s.head h).names.count i =
      s.slotNames.count i + ((s.head h).setSlot l x).names.count i := by
    have := count_flatMap_update allHeads_nodup (mem_allHeads h) (f := fun k => (s.head k).names)
      (g := fun k => ((s.writeSlot h l x).head k).names) (fun k hk => by rw [writeSlot_head, if_neg hk]) i
    rw [State.slotNames_eq, State.slotNames_eq]
    simpa [writeSlot_head] using this
  have hhead := (s.head h).count_names_setSlot l x i
  have hcues : (s.writeSlot h l x).cueNames = s.cueNames := rfl
  unfold State.nameCount
  rw [hcues]
  omega

theorem CountsExact.writeSlot {s : State} (hs : CountsExact s) (h : HeadId) (l : Layer) {x : Slot}
    (hn : ∀ i ∈ x.names, i ∈ ((s.head h).slot l).names ∨ i ∈ s.cueNames) : CountsExact (s.writeSlot h l x) := by
  have hcount := nameCount_writeSlot s h l x
  refine hs.recount (removeNames_addNames _ _ _) (fun y _ hrefs => ?_) (fun i hi => .inl ?_)
  · have := hcount y.id
    omega
  · have hslot : ((s.head h).slot l).names.count i ≤ s.nameCount i := by
      have hmem : ((s.head h).slot l).names.count i ≤ (s.head h).names.count i := by
        cases l <;> simp [Head.names, Head.slot]
      have hle : (s.head h).names.count i ≤ s.slotNames.count i := by
        rw [State.slotNames_eq]
        exact count_le_flatMap allHeads_nodup (mem_allHeads h) (fun k => (s.head k).names) i
      unfold State.nameCount
      omega
    by_cases hx : i ∈ x.names
    · rcases hn i hx with hold | hcue
      · have := List.count_pos_iff.2 hold
        omega
      · have := List.count_pos_iff.2 hcue
        unfold State.nameCount
        omega
    · have hzero := List.count_eq_zero.2 hx
      have := hcount i
      omega

/-! ### Cues -/

/-- How often the text is named by these cues. -/
def cueCount (cues : List CueRec) (i : Nat) : Nat := (cues.flatMap CueRec.names).count i

theorem cueCount_cons (c : CueRec) (cues : List CueRec) (i : Nat) : cueCount (c :: cues) i = c.names.count i + cueCount cues i :=
  List.count_append

theorem State.nameCount_eq (s : State) (i : Nat) : s.nameCount i = cueCount s.cues i + s.slotNames.count i := rfl

theorem cueCount_putCueRec_new {c : CueRec} {cues : List CueRec} (h : findCue cues c.num = none) (i : Nat) :
    cueCount (putCueRec c cues) i = cueCount cues i + c.names.count i := by
  induction cues with
  | nil => simp [putCueRec, cueCount]
  | cons x xs ih =>
    obtain ⟨hx, hxs⟩ := List.forall_mem_cons.1 (findCue_eq_none.1 h)
    unfold putCueRec
    rw [if_neg hx]
    split
    · rw [cueCount_cons]; omega
    · rw [cueCount_cons, cueCount_cons, ih (findCue_eq_none.2 hxs)]; omega

/-- On an ascending table the record of a present number stands before every greater one. -/
theorem findCue_cons_ne {x c : CueRec} {xs : List CueRec} {n : CueNum} (hne : x.num ≠ n) :
    findCue (x :: xs) n = some c ↔ findCue xs n = some c := by
  simp [findCue, hne]

theorem cueCount_putCueRec_old {c old : CueRec} {cues : List CueRec} (hp : cues.Pairwise (fun a b => a.num.lt b.num = true))
    (h : findCue cues c.num = some old) (i : Nat) :
    cueCount (putCueRec c cues) i + old.names.count i = cueCount cues i + c.names.count i := by
  induction cues with
  | nil => cases h
  | cons x xs ih =>
    obtain ⟨hhead, htail⟩ := List.pairwise_cons.1 hp
    unfold putCueRec
    by_cases hx : x.num = c.num
    · have hold : x = old := by simpa [findCue, hx] using h
      rw [if_pos hx, cueCount_cons, cueCount_cons, hold]
      omega
    · replace h := (findCue_cons_ne hx).1 h
      have hlt : ¬ c.num.lt x.num = true := fun hlt => by
        have hgt := hhead old (findCue_mem h)
        rw [findCue_num h] at hgt
        have := CueNum.lt_trans hlt hgt
        rw [CueNum.lt_irrefl] at this
        cases this
      rw [if_neg hx, if_neg hlt, cueCount_cons, cueCount_cons]
      have := ih htail h
      omega

theorem cueCount_dropCueRec {c : CueRec} {cues : List CueRec} (hp : cues.Pairwise (fun a b => a.num.lt b.num = true))
    (h : findCue cues c.num = some c) (i : Nat) :
    cueCount (dropCueRec c.num cues) i + c.names.count i = cueCount cues i := by
  induction cues with
  | nil => cases h
  | cons x xs ih =>
    obtain ⟨hhead, htail⟩ := List.pairwise_cons.1 hp
    by_cases hx : x.num = c.num
    · have hold : x = c := by simpa [findCue, hx] using h
      subst hold
      have hrest : dropCueRec x.num (x :: xs) = xs := by
        rw [dropCueRec, List.filter_cons_of_neg (by simp), List.filter_eq_self]
        exact fun y hy => decide_eq_true (CueNum.ne_of_lt (hhead y hy)).symm
      rw [hrest, cueCount_cons]
      omega
    · have hrest : dropCueRec c.num (x :: xs) = x :: dropCueRec c.num xs := by simp [dropCueRec, hx]
      rw [hrest, cueCount_cons, cueCount_cons, ← ih htail ((findCue_cons_ne hx).1 h)]
      omega

/-- The names of a record that PUT_CUE takes are present. -/
theorem names_present {c : CueRec} {texts : List TextRec} (h : ∀ e ∈ c.body.texts, (findText texts e.text).isSome = true) {i : Nat}
    (hi : c.names.count i ≠ 0) : i ∈ texts.map TextRec.id := by
  obtain ⟨e, he, rfl⟩ := List.mem_map.1 (List.count_pos_iff.1 (Nat.pos_of_ne_zero hi))
  exact findText_isSome.1 (h e he)

section
variable {s : State} {c : CueRec}

theorem CountsExact.addCueRec (hs : CountsExact s) (ht : ∀ e ∈ c.body.texts, (findText s.texts e.text).isSome = true)
    (hn : findCue s.cues c.num = none) : CountsExact (s.addCueRec c) := by
  have hcount (i : Nat) : (s.addCueRec c).nameCount i = s.nameCount i + c.names.count i := by
    have := cueCount_putCueRec_new hn i
    rw [State.nameCount_eq, State.nameCount_eq]
    show cueCount (putCueRec c s.cues) i + s.slotNames.count i = _
    omega
  refine hs.recount (addNames_eq c.names s.texts) (fun x _ hrefs => ?_) (fun i hi => ?_)
  · rw [hcount, hrefs]
  · rw [hcount] at hi
    by_cases h0 : s.nameCount i = 0
    · exact .inr (names_present ht (by omega))
    · exact .inl h0

theorem CountsExact.replaceCueRec {old : CueRec} (hs : CountsExact s) (hasc : cuesAscending s.cues = true)
    (ht : ∀ e ∈ c.body.texts, (findText s.texts e.text).isSome = true) (ho : findCue s.cues c.num = some old) :
    CountsExact (s.replaceCueRec old c) := by
  have hcount (i : Nat) : (s.replaceCueRec old c).nameCount i + old.names.count i = s.nameCount i + c.names.count i := by
    have := cueCount_putCueRec_old (cuesAscending_iff.1 hasc) ho i
    rw [State.nameCount_eq, State.nameCount_eq]
    show cueCount (putCueRec c s.cues) i + s.slotNames.count i + _ = _
    omega
  have hold (i : Nat) : old.names.count i ≤ s.nameCount i := by
    have hsub : old.names.count i ≤ cueCount s.cues i := by
      obtain ⟨before, after, hsplit⟩ := List.append_of_mem (findCue_mem ho)
      rw [hsplit, cueCount, List.flatMap_append, List.flatMap_cons, List.count_append, List.count_append]
      omega
    rw [State.nameCount_eq]
    omega
  refine hs.recount (addNames_removeNames c.names old.names s.texts) (fun x _ hrefs => ?_) (fun i hi => ?_)
  · have := hcount x.id
    have := hold x.id
    omega
  · by_cases h0 : s.nameCount i = 0
    · have := hcount i
      exact .inr (names_present ht (by omega))
    · exact .inl h0

theorem CountsExact.removeCueRec (hs : CountsExact s) (hasc : cuesAscending s.cues = true)
    (hc : findCue s.cues c.num = some c) : CountsExact (s.removeCueRec c) := by
  have hcount (i : Nat) : (s.removeCueRec c).nameCount i + c.names.count i = s.nameCount i := by
    have := cueCount_dropCueRec (cuesAscending_iff.1 hasc) hc i
    rw [State.nameCount_eq, State.nameCount_eq]
    show cueCount (dropCueRec c.num s.cues) i + s.slotNames.count i + _ = _
    omega
  refine hs.recount (f := fun x => x.refs - c.names.count x.id) rfl (fun x _ hrefs => ?_) (fun i hi => .inl ?_)
  · have := hcount x.id
    omega
  · have := hcount i
    omega

end

/-! ### Texts -/

section
variable {s : State} {i : Nat} {bytes : List Byte}

theorem mem_putTextRec_new {x : TextRec} {texts : List TextRec} (hn : findText texts i = none)
    (h : x ∈ putTextRec i bytes texts) : x = { id := i, bytes := bytes, refs := 0 } ∨ x ∈ texts := by
  induction texts with
  | nil => exact .inl (List.mem_singleton.1 h)
  | cons y ys ih =>
    obtain ⟨hy, hys⟩ := List.forall_mem_cons.1 (findText_eq_none.1 hn)
    unfold putTextRec at h
    rw [if_neg hy] at h
    split at h
    · exact List.mem_cons.1 h
    · rcases List.mem_cons.1 h with rfl | h
      · exact .inr List.mem_cons_self
      · exact (ih (findText_eq_none.2 hys) h).imp id (List.mem_cons_of_mem y)

theorem present_putTextRec (bytes : List Byte) {texts : List TextRec} {j : Nat} (h : j ∈ texts.map TextRec.id) :
    j ∈ (putTextRec i bytes texts).map TextRec.id := by
  by_cases hj : j = i
  · subst hj
    induction texts with
    | nil => cases h
    | cons y ys ih =>
      unfold putTextRec
      split_ifs with he
      · simp [he]
      · simp
      · rw [List.map_cons] at h ⊢
        rcases List.mem_cons.1 h with h | h
        · exact absurd h.symm he
        · exact List.mem_cons_of_mem _ (ih h)
  · rw [← findText_isSome, findText_putTextRec_ne i bytes texts hj, findText_isSome]
    exact h

/-- A text that is new is named by nothing yet. -/
theorem CountsExact.addText (hs : CountsExact s) (hn : findText s.texts i = none) :
    CountsExact (s.withTexts (putTextRec i bytes s.texts)) := by
  refine ⟨fun j hj => present_putTextRec bytes (hs.present j hj), fun x hx => ?_⟩
  rcases mem_putTextRec_new hn hx with rfl | hx
  · show 0 = s.nameCount i
    by_contra h0
    have := findText_isSome.2 (hs.present i (Ne.symm h0))
    rw [hn] at this
    cases this
  · exact hs.exact x hx

/-- On an ascending store a record of a present id is found where it stands. -/
theorem mem_putTextRec_old {old x : TextRec} {texts : List TextRec} (hp : texts.Pairwise (fun a b => a.id < b.id))
    (ho : findText texts i = some old) (h : x ∈ putTextRec i bytes texts) : ∃ y ∈ texts, y.id = x.id ∧ y.refs = x.refs := by
  induction texts with
  | nil => cases ho
  | cons y ys ih =>
    obtain ⟨hhead, htail⟩ := List.pairwise_cons.1 hp
    unfold putTextRec at h
    by_cases hy : y.id = i
    · rw [if_pos hy] at h
      rcases List.mem_cons.1 h with rfl | h
      · exact ⟨y, List.mem_cons_self, rfl, rfl⟩
      · exact ⟨x, List.mem_cons_of_mem y h, rfl, rfl⟩
    · replace ho : findText ys i = some old := by simpa [findText, hy] using ho
      have hlt := hhead old (findText_mem ho)
      rw [findText_id ho] at hlt
      rw [if_neg hy, if_neg (by omega)] at h
      rcases List.mem_cons.1 h with rfl | h
      · exact ⟨x, List.mem_cons_self, rfl, rfl⟩
      · obtain ⟨z, hz, hzx⟩ := ih htail ho h
        exact ⟨z, List.mem_cons_of_mem y hz, hzx⟩

theorem CountsExact.replaceText {old : TextRec} (hs : CountsExact s) (hasc : textsAscending s.texts = true)
    (ho : findText s.texts i = some old) : CountsExact (s.withTexts (putTextRec i bytes s.texts)) := by
  refine ⟨fun j hj => present_putTextRec bytes (hs.present j hj), fun x hx => ?_⟩
  obtain ⟨y, hy, hid, hrefs⟩ := mem_putTextRec_old (textsAscending_iff.1 hasc) ho hx
  rw [← hrefs, ← hid]
  exact hs.exact y hy

/-- A text whose count is 0 is named by nothing. -/
theorem CountsExact.dropText {x : TextRec} (hs : CountsExact s) (hx : findText s.texts x.id = some x) (hrefs : x.refs = 0) :
    CountsExact (s.withTexts (dropTextRec x.id s.texts)) := by
  refine ⟨fun j hj => ?_, fun y hy => hs.exact y (List.mem_of_mem_filter hy)⟩
  have hj' : s.nameCount j ≠ 0 := hj
  obtain ⟨y, hy, rfl⟩ := List.mem_map.1 (hs.present j hj')
  refine List.mem_map.2 ⟨y, List.mem_filter.2 ⟨hy, decide_eq_true fun hid => hj' ?_⟩, rfl⟩
  rw [hid, ← hs.exact x (findText_mem hx), hrefs]

end

/-! ### Every step -/

theorem State.nameCount_congr {s t : State} (hc : t.cues = s.cues) (hn : SameNames s t) : t.nameCount = s.nameCount := by
  funext i
  rw [State.nameCount, State.nameCount, hn.slotNames, State.cueNames, hc]
  rfl

theorem CountsExact.congr {s t : State} (hs : CountsExact s) (hc : t.cues = s.cues) (ht : t.texts = s.texts)
    (hn : SameNames s t) : CountsExact t := by
  have hcount := State.nameCount_congr hc hn
  exact ⟨fun i hi => by rw [ht]; exact hs.present i (hcount ▸ hi), fun x hx => by rw [hcount]; exact hs.exact x (ht ▸ hx)⟩

/-- The third and the fourth law over ascending stores, with the cues' form apart from the counts. -/
def StoreReferences (s : State) : Prop := StoresAscending s ∧ (∀ c ∈ s.cues, c.WellFormed) ∧ CountsExact s

theorem storeReferences_keptByStores : KeptByStores StoreReferences where
  congr hs hc ht hn := ⟨storesAscending_keptByStores.congr hs.1 hc ht hn, by rw [hc]; exact hs.2.1, hs.2.2.congr hc ht hn⟩
  reset s st b := by
    have hnames (i : Nat) : (s.powerOnReset st b).nameCount i = 0 := rfl
    exact ⟨⟨rfl, rfl⟩, nofun, ⟨fun i hi => absurd (hnames i) hi, nofun⟩⟩
  writes h l _ hn hs := ⟨storesAscending_keptByStores.writes h l hn hs.1, hs.2.1, hs.2.2.writeSlot h l hn⟩
  addsCue hpl ht hn hlen hs :=
    ⟨storesAscending_keptByStores.addsCue hpl ht hn hlen hs.1,
      fun d hd => (mem_putCueRec hd).elim (fun h => h ▸ (cueRecOf_some hpl).1) (hs.2.1 d), hs.2.2.addCueRec ht hn⟩
  replacesCue hpl ht ho hs :=
    ⟨storesAscending_keptByStores.replacesCue hpl ht ho hs.1,
      fun d hd => (mem_putCueRec hd).elim (fun h => h ▸ (cueRecOf_some hpl).1) (hs.2.1 d),
      hs.2.2.replaceCueRec hs.1.1 ht ho⟩
  dropsCue hc hs :=
    ⟨storesAscending_keptByStores.dropsCue hc hs.1, fun d hd => hs.2.1 d (List.mem_of_mem_filter hd),
      hs.2.2.removeCueRec hs.1.1 hc⟩
  addsText hr hn hlen htot hs := ⟨storesAscending_keptByStores.addsText hr hn hlen htot hs.1, hs.2.1, hs.2.2.addText hn⟩
  replacesText hr ho htot hs :=
    ⟨storesAscending_keptByStores.replacesText hr ho htot hs.1, hs.2.1, hs.2.2.replaceText hs.1.2 ho⟩
  dropsText hx hrefs hs := ⟨storesAscending_keptByStores.dropsText hx hrefs hs.1, hs.2.1, hs.2.2.dropText hx hrefs⟩

/-- Settles O11: the laws are laws of the stores, kept by each write of them; PUT_CUE's records are well formed by O15. -/
theorem everyStepKeepsTheReferenceLaw : Obligations.EveryStepKeepsTheReferenceLaw := by
  intro s t ⟨hasc, href⟩ hstep
  obtain ⟨hasc', href'⟩ := storeReferences_keptByStores.step s t ⟨hasc, referenceLaw_iff.1 href⟩ hstep
  exact ⟨hasc', referenceLaw_iff.2 href'⟩

end Sys2Proof.Machine
end

section
/-! The call right, the claim list and the LOCKED ports (R124, R146): the law O6, kept by every step. -/

namespace Sys2Proof.Machine

/-! ## The Call Arbiter's part of the law -/

/-- The port holds the call right or stands in the claim list. -/
def CallArbiter.Standing (a : CallArbiter) (p : Port) : Prop := a.holder = some p ∨ p ∈ a.claims

/-- The first law, which is about the Call Arbiter alone. -/
structure CallArbiter.Fit (a : CallArbiter) : Prop where
  atMostTwo : a.claims.length ≤ 2
  noneTwice : a.claims.Nodup
  notHolder : ∀ p, a.holder = some p → p ∉ a.claims
  emptyWhenFree : a.holder = none → a.claims = []
  highFirst : a.claims.Pairwise (fun p q => a.ring q = .high → a.ring p = .high)
  haveCall : ∀ p, a.Standing p → (a.roles.get p).profile.has .call = true

theorem callRightLaw_iff {s : State} :
    CallRightLaw s ↔ s.arbiter.Fit ∧ ∀ p, (s.port p).locked = true → ¬ s.arbiter.Standing p := by
  constructor
  · exact fun h => ⟨⟨h.atMostTwo, h.noneTwice, h.notHolder, h.emptyWhenFree, h.highFirst, h.haveCall⟩,
      fun p hp hst => hst.elim (h.lockedHoldsNothing p hp).1 (h.lockedHoldsNothing p hp).2⟩
  · rintro ⟨h, hlocked⟩
    exact ⟨h.atMostTwo, h.noneTwice, h.notHolder, h.emptyWhenFree, h.highFirst, h.haveCall,
      fun p hp => ⟨fun hh => hlocked p hp (.inl hh), fun hm => hlocked p hp (.inr hm)⟩⟩

namespace CallArbiter.Fit
variable {a : CallArbiter} {p : Port}

/-- A part of the list, with the right where it was or, of a port that was in the list, where that port no longer is. -/
theorem sublist (h : a.Fit) {holder : Option Port} {claims : List Port} (hsub : claims.Sublist a.claims)
    (hnot : ∀ q, holder = some q → q ∉ claims ∧ a.Standing q) (hfree : holder = none → claims = []) :
    Fit { a with holder := holder, claims := claims } where
  atMostTwo := hsub.length_le.trans h.atMostTwo
  noneTwice := h.noneTwice.sublist hsub
  notHolder q hq := (hnot q hq).1
  emptyWhenFree := hfree
  highFirst := h.highFirst.sublist hsub
  haveCall q hq := h.haveCall q (hq.elim (fun hh => (hnot q hh).2) (fun hm => .inr (hsub.subset hm)))

/-- The right passed on to the head of the list (R127). -/
theorem passed (h : a.Fit) : Fit { a with holder := a.claims.head?, claims := a.claims.tail } := by
  refine h.sublist (List.tail_sublist _) (fun q hq => ?_) (fun hnone => ?_)
  · obtain ⟨rest, hlist⟩ := List.head?_eq_some_iff.1 hq
    have hnodup := h.noneTwice
    rw [hlist] at hnodup
    exact ⟨by rw [hlist]; exact (List.nodup_cons.1 hnodup).1, .inr (by rw [hlist]; exact List.mem_cons_self)⟩
  · rw [List.head?_eq_none_iff.1 hnone]
    rfl

/-- A port taken out of the list. -/
theorem withdrawn (h : a.Fit) (p : Port) : Fit { a with claims := a.claims.filter (fun q => decide (q ≠ p)) } := by
  refine h.sublist List.filter_sublist (fun q hq => ⟨fun hm => h.notHolder q hq (List.mem_of_mem_filter hm), .inl hq⟩) ?_
  exact fun hnone => by rw [h.emptyWhenFree hnone]; rfl

/-- The right given to a port with CALL, which leaves the list (R125, R126). -/
theorem granted (h : a.Fit) (hcall : (a.roles.get p).profile.has .call = true) :
    Fit { a with holder := some p, claims := a.claims.filter (fun q => decide (q ≠ p)) } where
  atMostTwo := (List.length_filter_le _ _).trans h.atMostTwo
  noneTwice := h.noneTwice.filter _
  notHolder q hq hm := by
    cases hq
    simpa using (List.mem_filter.1 hm).2
  emptyWhenFree := nofun
  highFirst := h.highFirst.filter _
  haveCall q hq := by
    rcases hq with hq | hq
    · cases hq; exact hcall
    · exact h.haveCall q (.inr (List.mem_of_mem_filter hq))

end CallArbiter.Fit

/-! ## The list in its order -/

theorem CallArbiter.mem_inOrder {a : CallArbiter} {ps : List Port} {p : Port} : p ∈ a.inOrder ps ↔ p ∈ ps := by
  cases h : a.ring p <;> simp [CallArbiter.inOrder, h]

theorem CallArbiter.inOrder_perm (a : CallArbiter) (ps : List Port) : (a.inOrder ps).Perm ps := by
  have hlow : ps.filter (fun p => decide (a.ring p = .low)) = ps.filter (fun p => !decide (a.ring p = .high)) :=
    List.filter_congr fun p _ => by cases a.ring p <;> rfl
  rw [CallArbiter.inOrder, hlow]
  exact List.filter_append_perm _ _

theorem CallArbiter.inOrder_highFirst (a : CallArbiter) (ps : List Port) :
    (a.inOrder ps).Pairwise (fun p q => a.ring q = .high → a.ring p = .high) := by
  refine List.pairwise_append.2 ⟨?_, ?_, fun p hp q _ _ => ?_⟩
  · exact List.pairwise_of_forall_mem_list fun p hp q _ _ => by simpa using (List.mem_filter.1 hp).2
  · refine List.pairwise_of_forall_mem_list fun p _ q hq hhigh => ?_
    have hlow : a.ring q = .low := by simpa using (List.mem_filter.1 hq).2
    rw [hlow] at hhigh
    cases hhigh
  · simpa using (List.mem_filter.1 hp).2

/-- Ports without repetition, with one left out, are two at most. -/
theorem length_le_two_of_nodup {q : Port} {ps : List Port} (h : (q :: ps).Nodup) : ps.length ≤ 2 := by
  have hle := (List.subperm_of_subset h (l₂ := allPorts) (fun p _ => by cases p <;> decide)).length_le
  simp [allPorts] at hle
  omega

theorem CallArbiter.Fit.joined {a : CallArbiter} (h : a.Fit) {p q : Port} (hh : a.holder = some q) (hq : q ≠ p) (hp : p ∉ a.claims)
    (hcall : (a.roles.get p).profile.has .call = true) : Fit { a with claims := a.inOrder (a.claims ++ [p]) } := by
  have hnodup : (q :: (a.claims ++ [p])).Nodup := by
    refine List.nodup_cons.2 ⟨?_, ?_⟩
    · simp [h.notHolder q hh, hq]
    · exact List.nodup_append.2 ⟨h.noneTwice, List.nodup_singleton p, fun x hx y hy => by
        rw [List.mem_singleton.1 hy]
        rintro rfl
        exact hp hx⟩
  have hperm := a.inOrder_perm (a.claims ++ [p])
  refine ⟨?_, hperm.nodup_iff.2 (List.nodup_cons.1 hnodup).2, fun x hx hm => ?_, fun hnone => ?_, a.inOrder_highFirst _,
    fun x hx => ?_⟩
  · rw [hperm.length_eq]
    exact length_le_two_of_nodup hnodup
  · cases hh.symm.trans hx
    exact (List.nodup_cons.1 hnodup).1 (CallArbiter.mem_inOrder.1 hm)
  · rw [show a.holder = none from hnone] at hh
    cases hh
  · rcases hx with hx | hx
    · exact h.haveCall x (.inl hx)
    · rcases List.mem_append.1 (CallArbiter.mem_inOrder.1 hx) with hx | hx
      · exact h.haveCall x (.inr hx)
      · rw [List.mem_singleton.1 hx]
        exact hcall

/-! ## Roles -/

theorem CallArbiter.ring_setRole_ne (a : CallArbiter) {p q : Port} (r : Role) (h : q ≠ p) :
    CallArbiter.ring { a with roles := a.roles.set p r } q = a.ring q := by
  unfold CallArbiter.ring
  rw [PerPort.get_set_ne _ _ h]

/-- A role with CALL: the list is put in order by the new ring (R132). -/
theorem CallArbiter.Fit.roleWithCall {a : CallArbiter} (h : a.Fit) (p : Port) {r : Role} (hr : r.profile.has .call = true) :
    Fit { a with
      roles := a.roles.set p r, claims := CallArbiter.inOrder { a with roles := a.roles.set p r } a.claims } := by
  have hperm := CallArbiter.inOrder_perm { a with roles := a.roles.set p r } a.claims
  refine ⟨by rw [hperm.length_eq]; exact h.atMostTwo, hperm.nodup_iff.2 h.noneTwice,
    fun x hx hm => h.notHolder x hx (hperm.mem_iff.1 hm), fun hnone => ?_, CallArbiter.inOrder_highFirst _ _, fun x hx => ?_⟩
  · rw [h.emptyWhenFree hnone]
    rfl
  · by_cases hxp : x = p
    · rw [hxp, PerPort.get_set_self]
      exact hr
    · rw [PerPort.get_set_ne _ _ hxp]
      exact h.haveCall x (hx.imp id hperm.mem_iff.1)

/-- A port that has no standing may have any role. -/
theorem CallArbiter.Fit.roleOfOutsider {a : CallArbiter} (h : a.Fit) {p : Port} (hp : ¬ a.Standing p) (r : Role) :
    Fit { a with roles := a.roles.set p r } := by
  have hne {x : Port} (hx : x ∈ a.claims) : x ≠ p := fun he => hp (.inr (he ▸ hx))
  refine ⟨h.atMostTwo, h.noneTwice, h.notHolder, h.emptyWhenFree, ?_, fun x hx => ?_⟩
  · refine h.highFirst.imp_of_mem fun hx hy himp => ?_
    rw [CallArbiter.ring_setRole_ne _ _ (hne hx), CallArbiter.ring_setRole_ne _ _ (hne hy)]
    exact himp
  · have hxp : x ≠ p := by rintro rfl; exact hp hx
    rw [PerPort.get_set_ne _ _ hxp]
    exact h.haveCall x hx

/-! ## What each operation leaves of the arbiter -/

/-- The Call Arbiter once a port has lost its standing (R127, R130). -/
def CallArbiter.without (a : CallArbiter) (p : Port) : CallArbiter :=
  if a.holder = some p then { a with holder := a.claims.head?, claims := a.claims.tail }
  else { a with claims := a.claims.filter (fun q => decide (q ≠ p)) }

@[simp] theorem State.raiseOn_arbiter (s : State) (p : Port) (r : Raise) : (s.raiseOn p r).arbiter = s.arbiter := rfl

@[simp] theorem State.passRight_arbiter (s : State) (p : Port) (way : Option CallWay) :
    (s.passRight p way).arbiter = { s.arbiter with holder := s.arbiter.claims.head?, claims := s.arbiter.claims.tail } := by
  unfold State.passRight
  dsimp only
  cases way <;> cases s.arbiter.claims.head? <;> rfl

@[simp] theorem State.leaveArbiter_arbiter (s : State) (p : Port) (way : CallWay) :
    (s.leaveArbiter p way).arbiter = s.arbiter.without p := by
  unfold State.leaveArbiter CallArbiter.without
  split
  · exact s.passRight_arbiter p _
  · rfl

theorem CallArbiter.Fit.without {a : CallArbiter} (h : a.Fit) (p : Port) : (a.without p).Fit := by
  unfold CallArbiter.without
  split
  · exact h.passed
  · exact h.withdrawn p

theorem CallArbiter.not_standing_without {a : CallArbiter} (h : a.Fit) (p : Port) : ¬ (a.without p).Standing p := by
  unfold CallArbiter.without CallArbiter.Standing
  split
  next hh =>
    rintro (hhead | htail)
    · exact h.notHolder p hh (List.mem_of_head? hhead)
    · exact h.notHolder p hh (List.mem_of_mem_tail htail)
  next hh =>
    rintro (hhead | hmem)
    · exact hh hhead
    · simpa using (List.mem_filter.1 hmem).2

theorem CallArbiter.standing_of_without {a : CallArbiter} {p q : Port} (h : (a.without p).Standing q) : a.Standing q := by
  unfold CallArbiter.without at h
  split at h
  · exact .inr (h.elim List.mem_of_head? List.mem_of_mem_tail)
  · exact h.imp id List.mem_of_mem_filter

@[simp] theorem CallArbiter.without_roles (a : CallArbiter) (p : Port) : (a.without p).roles = a.roles := by
  unfold CallArbiter.without
  split <;> rfl

theorem CallArbiter.without_setRole (a : CallArbiter) (p : Port) (r : Role) :
    CallArbiter.without { a with roles := a.roles.set p r } p = { a.without p with roles := (a.without p).roles.set p r } := by
  rw [CallArbiter.without_roles]
  unfold CallArbiter.without
  dsimp only
  split <;> rfl

/-! ## The law through an event -/

/-- The law is kept where the arbiter stays fit, and no port is locked or gains a standing but an unlocked one. -/
theorem CallRightLaw.of_standing {s t : State} (hs : CallRightLaw s) (hfit : t.arbiter.Fit)
    (hlocked : ∀ q, (s.port q).locked = false → (t.port q).locked = false)
    (hst : ∀ q, t.arbiter.Standing q → s.arbiter.Standing q ∨ (s.port q).locked = false) : CallRightLaw t := by
  obtain ⟨-, hs⟩ := callRightLaw_iff.1 hs
  refine callRightLaw_iff.2 ⟨hfit, fun q hq hstand => ?_⟩
  cases h : (s.port q).locked with
  | false =>
    rw [hlocked q h] at hq
    cases hq
  | true =>
    rcases hst q hstand with hold | hopen
    · exact hs q h hold
    · rw [hopen] at h
      cases h

theorem CallRightLaw.of_arbiter {s t : State} (hs : CallRightLaw s) (ha : t.arbiter = s.arbiter)
    (hlocked : ∀ q, (s.port q).locked = false → (t.port q).locked = false) : CallRightLaw t :=
  hs.of_standing (ha ▸ (callRightLaw_iff.1 hs).1) hlocked (fun _ hst => .inl (ha ▸ hst))

/-- An unlocked port stays unlocked but where a refusal locks it. -/
theorem unlocked_portLaw : PortLaw (fun u => u.locked = false) where
  congr hu h := h.locked.trans hu
  raises _ hu := hu
  syncEnds hu := hu
  leaves hu := hu
  joins _ _ hu := hu
  marks {u} hu := by
    obtain ⟨-, -, -, -, hlocked, -⟩ := u.markHeld_fields
    exact hlocked.trans hu
  unlocks _ := rfl
  notes _ _ _ hu := hu
  waits _ hu := hu
  clears _ hu := hu

/-- A port locked, or reset by a break, that then leaves the arbiter. -/
theorem CallRightLaw.leaves {s t : State} (hs : CallRightLaw s) {p : Port} (ha : t.arbiter = s.arbiter.without p)
    (hlocked : ∀ q, q ≠ p → (s.port q).locked = false → (t.port q).locked = false) : CallRightLaw t := by
  obtain ⟨hfit, hs⟩ := callRightLaw_iff.1 hs
  refine callRightLaw_iff.2 ⟨ha ▸ hfit.without p, fun q hq hstand => ?_⟩
  rw [ha] at hstand
  by_cases hqp : q = p
  · exact CallArbiter.not_standing_without hfit p (hqp ▸ hstand)
  · cases h : (s.port q).locked with
    | false =>
      rw [hlocked q hqp h] at hq
      cases hq
    | true => exact hs q h (CallArbiter.standing_of_without hstand)

theorem CallRightLaw.settle {s : State} (hs : CallRightLaw s) : CallRightLaw s.settle :=
  hs.of_arbiter rfl (fun _ h => unlocked_portLaw.settle h)

theorem CallRightLaw.respond {s : State} (hs : CallRightLaw s) (p : Port) (r : Request) (st : Status) (pl : List Byte) :
    CallRightLaw (s.respond p r st pl) :=
  hs.of_arbiter rfl (fun _ h => unlocked_portLaw.respond p r st pl h)

/-- A refusal that locks takes the port out of the arbiter (R130, R146). -/
theorem CallRightLaw.refuse {s : State} (hs : CallRightLaw s) (p : Port) (r : Request) (st : Status) (extra : List Byte) :
    CallRightLaw (s.refuse p r st extra) := by
  have hnoted : CallRightLaw (s.noteRefusal p r.tag r.kind st) :=
    hs.of_arbiter rfl (fun _ h => unlocked_portLaw.noteRefusal p _ _ _ h)
  unfold State.refuse
  dsimp only
  refine CallRightLaw.respond ?_ p r st extra
  split
  · refine hnoted.leaves (p := p) ?_ (fun q hq h => unlocked_portLaw.leaveArbiter p .lock
      (unlocked_portLaw.raiseOn p _ (by rw [State.port_onPort_ne _ _ hq]; exact h)))
    exact State.leaveArbiter_arbiter _ p .lock
  · exact hnoted

/-! ## What requests' owners do -/

/-- The requests that are not the Call Arbiter's leave it alone. -/
theorem Effect.arbiter {p : Port} {s t : State} {k : ReqKind} (e : Effect p s k t) (hc : k ≠ .claim) (hy : k ≠ .yieldRight)
    (hr : k ≠ .setRole) : t.arbiter = s.arbiter := by
  cases e
  case closes => exact (closeDown_keeps s p).1.arbiter
  case goes => exact (fire_keeps s _ _ _).1.arbiter
  case backs => exact (fire_keeps s _ _ _).1.arbiter
  case beats => exact (takeBeat_keeps s _).1.arbiter
  case setsHead => exact (actOnEnable_keeps _ _ _).1.arbiter
  case refreshes => exact (refreshHead_keeps s _).1.arbiter
  case claimsHeld => exact absurd rfl hc
  case claimsFree => exact absurd rfl hc
  case takesOver => exact absurd rfl hc
  case joins => exact absurd rfl hc
  case yields => exact absurd rfl hy
  case withdraws => exact absurd rfl hy
  case yieldsNothing => exact absurd rfl hy
  case givesRole => exact absurd rfl hr
  all_goals rfl

/-- A port that claims has CALL. -/
theorem Executes.hasCall {s : State} {p : Port} {r : Request} (hx : Executes s p .claim r) :
    (s.arbiter.roles.get p).profile.has .call = true := by
  refine hx.flags .call ?_
  show Flag.call ∈ if claimForce r.payload = true then [.call, .takeover] else [.call]
  split <;> exact List.mem_cons_self

theorem setRoleOf_fit {s : State} (h : s.arbiter.Fit) (p : Port) (r : Role) : (s.setRoleOf p r).arbiter.Fit := by
  unfold State.setRoleOf
  dsimp only
  split
  next hcall => exact h.roleWithCall p hcall
  next =>
    rw [State.leaveArbiter_arbiter]
    exact (CallArbiter.without_setRole s.arbiter p r) ▸
      (h.without p).roleOfOutsider (CallArbiter.not_standing_without h p) r

theorem standing_setRoleOf {s : State} {p q : Port} {r : Role} (h : (s.setRoleOf p r).arbiter.Standing q) :
    s.arbiter.Standing q := by
  unfold State.setRoleOf at h
  dsimp only at h
  split at h
  · exact h.imp id CallArbiter.mem_inOrder.1
  · rw [State.leaveArbiter_arbiter] at h
    have hst := CallArbiter.without_setRole s.arbiter p r ▸ h
    exact CallArbiter.standing_of_without (a := s.arbiter) hst

theorem CallRightLaw.effect {p : Port} {s t : State} {k : ReqKind} {r : Request} (hs : CallRightLaw s) (hx : Executes s p k r)
    (e : Effect p s k t) : CallRightLaw t := by
  have hfit := (callRightLaw_iff.1 hs).1
  have hlocked (q : Port) (h : (s.port q).locked = false) : (t.port q).locked = false :=
    unlocked_portLaw.effect e h (fun _ hq => hq ▸ h)
  have hopen : (s.port p).locked = false := (turn_some hx.turn).1
  /- the port that claims is unlocked; every other standing was there before -/
  have gained {q : Port} (hq : q = p ∨ s.arbiter.Standing q) : s.arbiter.Standing q ∨ (s.port q).locked = false :=
    hq.elim (fun h => .inr (h ▸ hopen)) .inl
  by_cases hk : k = .claim ∨ k = .yieldRight ∨ k = .setRole
  case neg =>
    obtain ⟨hc, hy, hr⟩ := not_or.1 hk |>.imp id not_or.1
    exact hs.of_arbiter (e.arbiter hc hy hr) hlocked
  case pos =>
    cases e <;> try exact absurd hk (by decide)
    case claimsHeld => exact hs
    case claimsFree =>
      refine hs.of_standing (hfit.granted hx.hasCall) hlocked (fun q hq => gained ?_)
      exact hq.imp (fun h => (Option.some.inj h).symm) (fun h => .inr (List.mem_of_mem_filter h))
    case takesOver =>
      refine hs.of_standing (hfit.granted hx.hasCall) hlocked (fun q hq => gained ?_)
      exact hq.imp (fun h => (Option.some.inj h).symm) (fun h => .inr (List.mem_of_mem_filter h))
    case joins q hh hq =>
      by_cases hp : p ∈ s.arbiter.claims
      · rw [joinList_of_mem hp]; exact hs
      · rw [joinList_of_not_mem hp] at hlocked ⊢
        refine hs.of_standing (hfit.joined hh hq hp hx.hasCall) hlocked (fun x hx' => gained ?_)
        rcases hx' with h | h
        · exact .inr (.inl h)
        · rcases List.mem_append.1 (CallArbiter.mem_inOrder.1 h) with h | h
          · exact .inr (.inr h)
          · exact .inl (List.mem_singleton.1 h)
    case yields =>
      refine hs.of_standing (by rw [State.passRight_arbiter]; exact hfit.passed) hlocked (fun q hq => .inl ?_)
      rw [State.passRight_arbiter] at hq
      exact .inr (hq.elim List.mem_of_head? List.mem_of_mem_tail)
    case withdraws =>
      exact hs.of_standing (hfit.withdrawn p) hlocked (fun q hq => .inl (hq.imp id List.mem_of_mem_filter))
    case yieldsNothing => exact hs
    case givesRole => exact hs.of_standing (setRoleOf_fit hfit _ _) hlocked (fun q hq => .inl (standing_setRoleOf hq))

/-! ## Every step -/

theorem callRightLaw_powerOnReset (s : State) (st : Straps) (b : Bool) : CallRightLaw (s.powerOnReset st b) := by
  refine callRightLaw_iff.2 ⟨⟨Nat.zero_le _, .nil, nofun, fun _ => rfl, .nil, fun p hp => ?_⟩, fun p hp => ?_⟩
  · rcases hp with hp | hp <;> cases hp
  · rw [port_powerOnReset] at hp
    cases hp

theorem CallRightLaw.event {c : Instr} {s t : State} (hs : CallRightLaw s) (he : Machine.exec c s = .next t)
    (hc : requestOf c = none) : CallRightLaw t := by
  by_cases ha : Block.apart [.arbiter] (changes c) = true
  · have harb : t.arbiter = s.arbiter := by
      obtain ⟨u, hu, ho⟩ := exec_only c s
      rw [hu] at he
      cases he
      exact ho.arbiter (Block.not_mem_of_apart ha List.mem_cons_self)
    refine hs.of_arbiter harb (fun q h => unlocked_portLaw.event he hc h ?_ ?_ (fun _ _ _ => rfl))
    · rintro ⟨p, rfl⟩
      cases ha
    · exact fun _ => rfl
  · cases c <;> try exact absurd rfl ha
    case powerOn => cases he; exact callRightLaw_powerOnReset _ _ _
    case reset => cases he; exact callRightLaw_powerOnReset _ _ _
    case lineBreak p =>
      cases he
      split
      · exact hs
      · have harb : (s.spacingDiscard p).arbiter = s.arbiter := by
          unfold State.spacingDiscard
          split <;> rfl
        have hdiscard : CallRightLaw (s.spacingDiscard p) :=
          hs.of_arbiter harb (fun _ h => unlocked_portLaw.spacingDiscard p h)
        refine CallRightLaw.settle (hdiscard.leaves (State.leaveArbiter_arbiter _ p _) (fun q hq h => ?_))
        exact unlocked_portLaw.portReset p (fun h' => absurd h' hq) h
    case unknownKindRequest p =>
      cases he
      split
      · split
        · exact (hs.refuse p _ _ _).settle
        · exact hs
      · exact hs
    all_goals cases hc

theorem CallRightLaw.exec {c : Instr} {s t : State} (hs : CallRightLaw s) (he : Machine.exec c s = .next t) : CallRightLaw t := by
  cases hc : requestOf c with
  | none => exact hs.event he hc
  | some kp =>
    rw [eq_command_of_request hc, exec_command] at he
    cases he
    exact serve_kept hs (fun r t hx e => hs.effect hx e) (fun r st extra => hs.refuse _ r st extra)
      (fun t r st pl ht => ht.respond _ r st pl) (fun t ht => ht.settle)

/-- Settles O6: a port gains a standing by a CLAIM alone, which an unlocked port with CALL makes, and loses it where it is locked. -/
theorem everyStepKeepsTheCallRightLaw : Obligations.EveryStepKeepsTheCallRightLaw := by
  refine keptByStep_of (bs := [.arbiter, .ports]) (fun s t hsame hs => ?_) (fun c s t he hs => hs.exec he)
    (fun s hs => hs.of_arbiter rfl (fun _ h => unlocked_portLaw.tick h))
  refine hs.of_arbiter (hsame .arbiter (by decide)) (fun q h => ?_)
  unfold State.port
  rw [show t.ports = s.ports from hsame .ports (by decide)]
  exact h

end Sys2Proof.Machine
end

section
/-! The command queue (R102 to R105, R113, R117) and the SYNCs that wait for its commands: the law O9, kept by every step. -/

namespace Sys2Proof.Machine

/-! ## The law, head by head -/

/-- What is queued for the head. -/
def State.mine (s : State) (h : HeadId) : List CmdBody := (s.commands.filter (fun c => decide (c.1 = h))).map Prod.snd

/-- The serial numbers of the queued commands. -/
def State.ids (s : State) : List Nat := s.link.queue.map Command.id

/-- What may be queued for a head: PUTs and TAKEs while ONLINE, one PROBE while PROBING and in step, else nothing. -/
def Head.MayHave (x : Head) (bs : List CmdBody) : Prop :=
  match x.state with
  | .online => ∀ b ∈ bs, b ≠ .probe
  | .probing => (∀ b ∈ bs, b = .probe) ∧ bs.length ≤ 1 ∧ (x.outOfStep = true → bs = [])
  | .absent => bs = [] ∧ x.outOfStep = false
  | .fault => bs = [] ∧ x.outOfStep = false

/-- The SYNC that waits on the port waits for these commands alone. -/
def PortUnit.WaitsFor (ids : List Nat) (u : PortUnit) : Prop := ∀ w, u.sync = some w → ∀ i ∈ w.waiting, i ∈ ids

/-- The law without the queue's bound, as each operation on the queue keeps it. -/
structure QueueOrder (s : State) : Prop where
  mayHave : ∀ h, (s.head h).MayHave (s.mine h)
  distinct : s.ids.Nodup
  given : ∀ i ∈ s.ids, i < s.link.nextId
  syncs : ∀ p, (s.port p).WaitsFor s.ids

theorem State.mine_eq (s : State) (h : HeadId) :
    s.mine h = (s.link.queue.filter (fun c => decide (c.head = h))).map Command.body := by
  simp [State.mine, State.commands, List.filter_map, Function.comp_def]

theorem State.mem_mine {s : State} {c : Command} (hc : c ∈ s.link.queue) : c.body ∈ s.mine c.head := by
  rw [State.mine_eq]
  exact List.mem_map_of_mem (List.mem_filter.2 ⟨hc, decide_eq_true rfl⟩)

theorem State.exists_of_mem_mine {s : State} {h : HeadId} {b : CmdBody} (hb : b ∈ s.mine h) :
    ∃ c ∈ s.link.queue, c.head = h ∧ c.body = b := by
  rw [State.mine_eq] at hb
  obtain ⟨c, hc, rfl⟩ := List.mem_map.1 hb
  obtain ⟨hq, hh⟩ := List.mem_filter.1 hc
  exact ⟨c, hq, of_decide_eq_true hh, rfl⟩

namespace Head.MayHave
variable {x y : Head} {bs cs : List CmdBody}

theorem online (hx : x.state = .online) : x.MayHave bs ↔ ∀ b ∈ bs, b ≠ .probe := by
  rw [Head.MayHave, hx]

theorem probing (hx : x.state = .probing) :
    x.MayHave bs ↔ (∀ b ∈ bs, b = .probe) ∧ bs.length ≤ 1 ∧ (x.outOfStep = true → bs = []) := by
  rw [Head.MayHave, hx]

/-- A head that is neither ONLINE nor PROBING has nothing queued and is in step. -/
theorem atRest (hon : x.state ≠ .online) (hpr : x.state ≠ .probing) : x.MayHave bs ↔ bs = [] ∧ x.outOfStep = false := by
  unfold Head.MayHave
  split
  next hst => exact absurd hst hon
  next hst => exact absurd hst hpr
  next => rfl
  next => rfl

/-- The same state, and the flag as it was or cleared. -/
theorem congr (h : x.MayHave bs) (hst : y.state = x.state) (hout : y.outOfStep = x.outOfStep ∨ y.outOfStep = false) :
    y.MayHave bs := by
  have hflag : y.outOfStep = true → x.outOfStep = true := fun hy => by
    rcases hout with ho | ho <;> rw [ho] at hy
    · exact hy
    · cases hy
  unfold Head.MayHave at h ⊢
  rw [hst]
  split at h
  next => exact h
  next => exact ⟨h.1, h.2.1, fun hy => h.2.2 (hflag hy)⟩
  next => exact ⟨h.1, Bool.eq_false_iff.2 fun hy => by rw [hflag hy] at h; cases h.2⟩
  next => exact ⟨h.1, Bool.eq_false_iff.2 fun hy => by rw [hflag hy] at h; cases h.2⟩

theorem sublist (h : x.MayHave bs) (hsub : cs.Sublist bs) : x.MayHave cs := by
  unfold Head.MayHave at h ⊢
  split at h
  · exact fun c hc => h c (hsub.subset hc)
  · exact ⟨fun c hc => h.1 c (hsub.subset hc), hsub.length_le.trans h.2.1, fun ho => List.sublist_nil.1 (h.2.2 ho ▸ hsub)⟩
  · exact ⟨List.sublist_nil.1 (h.1 ▸ hsub), h.2⟩
  · exact ⟨List.sublist_nil.1 (h.1 ▸ hsub), h.2⟩

/-- With nothing queued a head may be in any state and in step. -/
theorem nil (hout : x.outOfStep = false) : x.MayHave [] := by
  unfold Head.MayHave
  split
  · nofun
  · exact ⟨nofun, Nat.zero_le _, fun _ => rfl⟩
  · exact ⟨rfl, hout⟩
  · exact ⟨rfl, hout⟩

end Head.MayHave

theorem CommandQueueLaw.order {s : State} (hs : CommandQueueLaw s) : QueueOrder s := by
  refine ⟨fun h => ?_, hs.idsDistinct, fun i hi => ?_, hs.syncsWaitHere⟩
  · have state_of {b : CmdBody} (hb : b ∈ s.mine h) : (s.head h).state = if b = .probe then .probing else .online := by
      obtain ⟨c, hc, rfl, rfl⟩ := State.exists_of_mem_mine hb
      have := hs.addressed c hc
      split at this <;> simp_all
    by_cases hon : (s.head h).state = .online
    · refine (Head.MayHave.online hon).2 fun b hb hprobe => ?_
      have := state_of hb
      rw [hon, if_pos hprobe] at this
      cases this
    by_cases hpr : (s.head h).state = .probing
    · refine (Head.MayHave.probing hpr).2 ⟨fun b hb => ?_, ?_, fun ho => ?_⟩
      · by_contra hprobe
        have := state_of hb
        rw [hpr, if_neg hprobe] at this
        cases this
      · rw [State.mine_eq, List.length_map]; exact hs.oneProbe h hpr
      · rw [State.mine_eq, hs.noneOutOfStep h hpr ho]; rfl
    · refine (Head.MayHave.atRest hon hpr).2 ⟨List.eq_nil_iff_forall_not_mem.2 fun b hb => ?_, hs.inStep h ?_⟩
      · have := state_of hb
        split at this
        · exact hpr this
        · exact hon this
      · cases hst : (s.head h).state <;> simp_all
  · obtain ⟨c, hc, rfl⟩ := List.mem_map.1 hi
    exact hs.idsGiven c hc

theorem QueueOrder.law {s : State} (hs : QueueOrder s) (hlen : s.link.queue.length ≤ Config.maxCommands) : CommandQueueLaw s where
  atMost := hlen
  addressed c hc := by
    have hm := hs.mayHave c.head
    by_cases hon : (s.head c.head).state = .online
    · rw [if_neg ((Head.MayHave.online hon).1 hm _ (State.mem_mine hc))]; exact hon
    by_cases hpr : (s.head c.head).state = .probing
    · rw [if_pos (((Head.MayHave.probing hpr).1 hm).1 _ (State.mem_mine hc))]; exact hpr
    · have hmem := State.mem_mine hc
      rw [((Head.MayHave.atRest hon hpr).1 hm).1] at hmem
      cases hmem
  oneProbe h hst := by
    obtain ⟨-, hlen, -⟩ := (Head.MayHave.probing hst).1 (hs.mayHave h)
    rwa [State.mine_eq, List.length_map] at hlen
  noneOutOfStep h hst hout := by
    obtain ⟨-, -, hnone⟩ := (Head.MayHave.probing hst).1 (hs.mayHave h)
    have := hnone hout
    rwa [State.mine_eq, List.map_eq_nil_iff] at this
  inStep h hst := ((Head.MayHave.atRest (by rcases hst with h | h <;> simp [h]) (by rcases hst with h | h <;> simp [h])).1
    (hs.mayHave h)).2
  idsDistinct := hs.distinct
  idsGiven c hc := hs.given _ (List.mem_map_of_mem hc)
  syncsWaitHere := hs.syncs

/-! ## The waiting SYNCs -/

theorem waitsFor_lineLaw (ids : List Nat) : LineLaw (PortUnit.WaitsFor ids) where
  congr hu h := by
    unfold PortUnit.WaitsFor
    rw [h.sync]
    exact hu
  raises _ hu := hu
  syncEnds _ := nofun
  leaves hu := hu
  joins _ _ hu := hu
  marks {u} hu := by
    unfold PortUnit.markHeld
    dsimp only
    split <;> exact hu
  unlocks hu := hu
  notes _ _ _ hu := hu

theorem PortUnit.WaitsFor.mono {u : PortUnit} {ids ids' : List Nat} (hu : u.WaitsFor ids) (h : ids ⊆ ids') : u.WaitsFor ids' :=
  fun w hw i hi => h (hu w hw i hi)

/-! ## What the operations on the queue keep -/

theorem State.ids_startLink (s : State) : s.startLink.ids = s.ids := by
  unfold State.startLink
  split
  next hq => simp [State.ids, hq]
  next => rfl

theorem State.nextId_startLink (s : State) : s.startLink.link.nextId = s.link.nextId := by
  unfold State.startLink
  split <;> rfl

theorem State.ids_enqueue (s : State) (h : HeadId) (b : CmdBody) : (s.enqueue h b).ids = s.ids ++ [s.link.nextId] := by
  simp [State.ids, State.enqueue]

theorem State.mine_enqueue (s : State) (h k : HeadId) (b : CmdBody) :
    (s.enqueue h b).mine k = s.mine k ++ if h = k then [b] else [] := by
  unfold State.mine
  rw [commands_enqueue, List.filter_append, List.map_append]
  split <;> simp_all

theorem refreshBody_ne_probe (x : Slot) (l : Layer) (texts : List TextRec) : refreshBody x l texts ≠ .probe := by
  unfold refreshBody
  split <;> nofun

namespace QueueOrder
variable {s : State}

/-- The queue as it was, the heads as they may be, the ports waiting for no more. -/
theorem of_same {t : State} (hs : QueueOrder s) (hc : t.commands = s.commands) (hi : t.ids = s.ids)
    (hn : t.link.nextId = s.link.nextId) (hheads : ∀ h, (t.head h).MayHave (s.mine h))
    (hports : ∀ p, (t.port p).WaitsFor s.ids) : QueueOrder t := by
  refine ⟨fun h => ?_, hi ▸ hs.distinct, ?_, fun p => hi ▸ hports p⟩
  · unfold State.mine; rw [hc]; exact hheads h
  · rw [hi, hn]; exact hs.given

theorem withLink (hs : QueueOrder s) {x : LinkController} (hq : x.queue = s.link.queue) (hn : x.nextId = s.link.nextId) :
    QueueOrder (s.withLink x) := by
  have hids : (s.withLink x).ids = s.ids := congrArg (List.map Command.id) hq
  refine hs.of_same ?_ hids hn hs.mayHave hs.syncs
  exact congrArg (List.map fun c : Command => (c.head, c.body)) hq

theorem of_ports {t : State} (hs : QueueOrder s) (hlink : t.link = s.link) (hheads : ∀ h, t.head h = s.head h)
    (hports : ∀ p, (t.port p).WaitsFor s.ids) : QueueOrder t :=
  hs.of_same (commands_of_link hlink) (by unfold State.ids; rw [hlink]) (by rw [hlink])
    (fun h => by rw [hheads]; exact hs.mayHave h) hports

/-- One head's state or flag changes. -/
theorem setHead (hs : QueueOrder s) (h : HeadId) {x : Head} (hx : x.MayHave (s.mine h)) : QueueOrder (s.setHead h x) := by
  refine hs.of_same rfl rfl rfl (fun k => ?_) hs.syncs
  by_cases hk : k = h
  · rw [hk, State.head_setHead_self]; exact hx
  · rw [State.head_setHead_ne _ _ hk]; exact hs.mayHave k

theorem raiseAll (hs : QueueOrder s) (r : Raise) : QueueOrder (s.raiseAll r) :=
  hs.of_ports rfl (fun _ => rfl) (fun p => (waitsFor_lineLaw _).raiseAll r (hs.syncs p))

/-- A command joins the queue (R102): the head may have it too. -/
theorem enqueue (hs : QueueOrder s) {h : HeadId} {b : CmdBody} (hb : (s.head h).MayHave (s.mine h ++ [b])) :
    QueueOrder (s.enqueue h b) := by
  refine ⟨fun k => ?_, ?_, fun i hi => ?_, fun p => (hs.syncs p).mono ?_⟩
  · rw [State.mine_enqueue]
    show (s.head k).MayHave _
    split
    next hk => exact hk ▸ hb
    next => rw [List.append_nil]; exact hs.mayHave k
  · rw [State.ids_enqueue]
    refine List.nodup_append.2 ⟨hs.distinct, List.nodup_singleton _, fun i hi j hj => ?_⟩
    rw [List.mem_singleton.1 hj]
    exact Nat.ne_of_lt (hs.given i hi)
  · rw [State.ids_enqueue, List.mem_append, List.mem_singleton] at hi
    rcases hi with hi | rfl
    · exact Nat.lt_succ_of_lt (hs.given i hi)
    · exact Nat.lt_succ_self _
  · rw [State.ids_enqueue]; exact List.subset_append_left _ _

theorem startLink (hs : QueueOrder s) : QueueOrder s.startLink :=
  hs.of_same (commands_startLink s) s.ids_startLink s.nextId_startLink
    (fun h => by unfold State.head; rw [(startLink_keeps s).1.heads]; exact hs.mayHave h)
    (fun p => port_startLink (hs.syncs p))

theorem clearOutOfStep (hs : QueueOrder s) (h : HeadId) : QueueOrder (s.clearOutOfStep h) :=
  hs.setHead h ((hs.mayHave h).congr rfl (.inr rfl))

theorem mayHave_put (hs : QueueOrder s) {h : HeadId} (hon : (s.head h).state = .online) {b : CmdBody} (hb : b ≠ .probe) :
    (s.head h).MayHave (s.mine h ++ [b]) := by
  refine (Head.MayHave.online hon).2 fun d hd => ?_
  rcases List.mem_append.1 hd with hd | hd
  · exact (Head.MayHave.online hon).1 (hs.mayHave h) d hd
  · rwa [List.mem_singleton.1 hd]

/-- A head is marked out of step: one that is ONLINE, or PROBING with nothing queued (R104). -/
theorem markOutOfStep (hs : QueueOrder s) {h : HeadId}
    (hst : (s.head h).state = .online ∨ (s.head h).state = .probing ∧ s.mine h = []) : QueueOrder (s.markOutOfStep h) := by
  unfold State.markOutOfStep
  split
  · exact hs
  · refine (hs.setHead h ?_).raiseAll _
    rcases hst with hon | ⟨hpr, hnil⟩
    · exact (Head.MayHave.online (by exact hon)).2 ((Head.MayHave.online hon).1 (hs.mayHave h))
    · exact (Head.MayHave.probing (by exact hpr)).2 ⟨by rw [hnil]; nofun, by rw [hnil]; exact Nat.zero_le _, fun _ => hnil⟩

theorem ask (hs : QueueOrder s) (h : HeadId) (l : Layer) (a : Ask) : QueueOrder (s.ask h l a) := by
  unfold State.ask
  split_ifs with hon
  · exact hs
  · exact hs
  · exact (hs.enqueue (hs.mayHave_put (not_not.1 hon) (by cases a <;> nofun))).startLink
  · exact hs.markOutOfStep (.inl (not_not.1 hon))

/-- A PROBE for a PROBING head that is in step and has nothing queued. -/
theorem askProbe (hs : QueueOrder s) {h : HeadId} (hpr : (s.head h).state = .probing) (hout : (s.head h).outOfStep = false)
    (hnil : s.mine h = []) : QueueOrder (s.askProbe h) := by
  unfold State.askProbe
  split
  · refine (hs.enqueue ((Head.MayHave.probing hpr).2 ?_)).startLink
    rw [hnil, hout]
    exact ⟨fun b hb => List.mem_singleton.1 hb, Nat.le_refl 1, nofun⟩
  · exact hs.markOutOfStep (.inr ⟨hpr, hnil⟩)

theorem queueRefresh (hs : QueueOrder s) (h : HeadId) : QueueOrder (s.queueRefresh h) := by
  unfold State.queueRefresh
  split_ifs with hon
  · exact hs
  · have hon : (s.head h).state = .online := not_not.1 hon
    have hclear : ((s.clearOutOfStep h).head h).state = .online := by
      unfold State.clearOutOfStep
      rw [State.head_setHead_self]
      exact hon
    have hfirst := (hs.clearOutOfStep h).enqueue
      ((hs.clearOutOfStep h).mayHave_put hclear (refreshBody_ne_probe (s.head h).baseSlot .base s.texts))
    exact hfirst.enqueue (hfirst.mayHave_put hclear (refreshBody_ne_probe _ _ _))
  · exact hs.markOutOfStep (.inl (not_not.1 hon))

theorem catchUpHead (hs : QueueOrder s) (h : HeadId) : QueueOrder (s.catchUpHead h) := by
  unfold State.catchUpHead
  split
  next hout =>
    split
    next => exact hs.queueRefresh h
    next hpr =>
      have hnil : s.mine h = [] := ((Head.MayHave.probing hpr).1 (hs.mayHave h)).2.2 hout
      refine (hs.clearOutOfStep h).enqueue ?_
      unfold State.clearOutOfStep
      rw [State.head_setHead_self]
      refine (Head.MayHave.probing (by exact hpr)).2 ?_
      rw [show (s.setHead h _).mine h = s.mine h from rfl, hnil]
      exact ⟨fun b hb => List.mem_singleton.1 hb, Nat.le_refl 1, nofun⟩
    next => exact hs
    next => exact hs
  next => exact hs

theorem afterLeaving (hs : QueueOrder s) : QueueOrder s.afterLeaving := by
  have heads (hds : List HeadId) (t : State) (ht : QueueOrder t) : QueueOrder (hds.foldl State.catchUpHead t) := by
    induction hds generalizing t with
    | nil => exact ht
    | cons h hds ih => exact ih _ (ht.catchUpHead h)
  refine QueueOrder.startLink ?_
  unfold State.catchUp
  split
  · exact heads _ _ hs
  · exact hs

/-- Commands leave the queue, some heads changing with them (R113, R117): what stays is told by the serial numbers that go. -/
theorem leave {t : State} (hs : QueueOrder s) {x : LinkController} {gone : List Nat} (acked : Bool)
    (hsub : x.queue.Sublist s.link.queue) (hgone : ∀ c ∈ s.link.queue, c ∈ x.queue ∨ c.id ∈ gone)
    (hn : x.nextId = s.link.nextId) (hports : t.ports = s.ports)
    (hheads : ∀ h, (t.head h).MayHave ((t.withLink x).mine h)) : QueueOrder ((t.withLink x).commandsLeft gone acked) := by
  have hids : ((t.withLink x).commandsLeft gone acked).ids.Sublist s.ids := hsub.map _
  refine ⟨hheads, hs.distinct.sublist hids, fun i hi => hn ▸ hs.given i (hids.subset hi), fun p w hw i hi => ?_⟩
  rw [commandsLeft_sync] at hw
  obtain ⟨v, hv, rfl⟩ := Option.map_eq_some_iff.1 hw
  obtain ⟨hi, hstay⟩ := List.mem_filter.1 hi
  have hport : (s.port p).sync = some v := by
    unfold State.port at hv ⊢
    rw [← hports]
    exact hv
  obtain ⟨c, hc, rfl⟩ := List.mem_map.1 (hs.syncs p v hport i hi)
  rcases hgone c hc with hc | hc
  · exact List.mem_map_of_mem hc
  · simp [hc] at hstay

end QueueOrder

/-! ## The bound -/

theorem length_startLink (s : State) : s.startLink.link.queue.length = s.link.queue.length := by
  rw [← commands_length, commands_startLink, commands_length]

theorem length_enqueue (s : State) (h : HeadId) (b : CmdBody) : (s.enqueue h b).link.queue.length = s.link.queue.length + 1 := by
  simp [State.enqueue]

theorem link_markOutOfStep (s : State) (h : HeadId) : (s.markOutOfStep h).link = s.link := (markOutOfStep_keeps s h).1.link

theorem catchUpHead_length (s : State) (h : HeadId) : (s.catchUpHead h).link.queue.length ≤ s.link.queue.length + 2 := by
  have refresh : (s.queueRefresh h).link.queue.length ≤ s.link.queue.length + 2 := by
    unfold State.queueRefresh
    split_ifs
    · exact Nat.le_add_right _ _
    · rw [length_enqueue, length_enqueue]; exact Nat.le_refl _
    · rw [link_markOutOfStep]; exact Nat.le_add_right _ _
  unfold State.catchUpHead
  split
  · split
    · exact refresh
    · rw [length_enqueue]; exact Nat.le_succ _
    · exact Nat.le_add_right _ _
    · exact Nat.le_add_right _ _
  · exact Nat.le_add_right _ _

theorem catchUpHeads_length (hds : List HeadId) (s : State) :
    (hds.foldl State.catchUpHead s).link.queue.length ≤ s.link.queue.length + 2 * hds.length := by
  induction hds generalizing s with
  | nil => exact Nat.le_refl _
  | cons h hds ih =>
    have hrest := ih (s.catchUpHead h)
    have hone := catchUpHead_length s h
    rw [List.foldl_cons, List.length_cons]
    omega

theorem afterLeaving_atMost {s : State} (hlen : s.link.queue.length ≤ Config.maxCommands) :
    s.afterLeaving.link.queue.length ≤ Config.maxCommands := by
  unfold State.afterLeaving State.catchUp
  rw [length_startLink]
  split
  next hlow =>
    have hheads := catchUpHeads_length allHeads s
    simp only [Config.catchUpLevel] at hlow
    simp only [show allHeads.length = 16 from rfl] at hheads
    simp only [Config.maxCommands]
    omega
  next => exact hlen

theorem QueueOrder.afterLeaving_law {s : State} (hs : QueueOrder s) (hlen : s.link.queue.length ≤ Config.maxCommands) :
    CommandQueueLaw s.afterLeaving := hs.afterLeaving.law (afterLeaving_atMost hlen)

/-! ## The operations of the link and the screens -/

namespace CommandQueueLaw
variable {s : State}

theorem of_ports {t : State} (hs : CommandQueueLaw s) (hlink : t.link = s.link) (hheads : ∀ h, t.head h = s.head h)
    (hports : ∀ p, (t.port p).WaitsFor s.ids) : CommandQueueLaw t :=
  (hs.order.of_ports hlink hheads hports).law (by rw [hlink]; exact hs.atMost)

theorem withLink (hs : CommandQueueLaw s) {x : LinkController} (hq : x.queue = s.link.queue) (hn : x.nextId = s.link.nextId) :
    CommandQueueLaw (s.withLink x) := (hs.order.withLink hq hn).law (by show x.queue.length ≤ _; rw [hq]; exact hs.atMost)

theorem raiseAll (hs : CommandQueueLaw s) (r : Raise) : CommandQueueLaw (s.raiseAll r) := (hs.order.raiseAll r).law hs.atMost

theorem setHead (hs : CommandQueueLaw s) (h : HeadId) {x : Head} (hx : x.MayHave (s.mine h)) : CommandQueueLaw (s.setHead h x) :=
  (hs.order.setHead h hx).law hs.atMost

theorem startLink (hs : CommandQueueLaw s) : CommandQueueLaw s.startLink :=
  hs.order.startLink.law (by rw [length_startLink]; exact hs.atMost)

theorem ask (hs : CommandQueueLaw s) (h : HeadId) (l : Layer) (a : Ask) : CommandQueueLaw (s.ask h l a) := by
  refine (hs.order.ask h l a).law ?_
  unfold State.ask
  split_ifs with _ _ hroom
  · exact hs.atMost
  · exact hs.atMost
  · rw [length_startLink, length_enqueue]; exact hroom
  · rw [link_markOutOfStep]; exact hs.atMost

theorem askProbe (hs : CommandQueueLaw s) {h : HeadId} (hpr : (s.head h).state = .probing) (hout : (s.head h).outOfStep = false)
    (hnil : s.mine h = []) : CommandQueueLaw (s.askProbe h) := by
  refine (hs.order.askProbe hpr hout hnil).law ?_
  unfold State.askProbe
  split_ifs with hroom
  · rw [length_startLink, length_enqueue]; exact hroom
  · rw [link_markOutOfStep]; exact hs.atMost

theorem queueRefresh (hs : CommandQueueLaw s) (h : HeadId) : CommandQueueLaw (s.queueRefresh h) := by
  refine (hs.order.queueRefresh h).law ?_
  unfold State.queueRefresh
  split_ifs with _ hroom
  · exact hs.atMost
  · rw [length_enqueue, length_enqueue]; exact hroom
  · rw [link_markOutOfStep]; exact hs.atMost

theorem writeSlot (hs : CommandQueueLaw s) (h : HeadId) (l : Layer) (x : Slot) : CommandQueueLaw (s.writeSlot h l x) := by
  refine hs.setHead h (x := (s.head h).setSlot l x) ((hs.order.mayHave h).congr ?_ (.inl ?_)) |>.of_ports rfl (fun _ => rfl) ?_
  · cases l <;> rfl
  · cases l <;> rfl
  · exact hs.syncsWaitHere

theorem moveSlot (hs : CommandQueueLaw s) (h : HeadId) (l : Layer) (m : SlotMove) : CommandQueueLaw (s.moveSlot h l m) := by
  have asked (as : List Ask) (t : State) (ht : CommandQueueLaw t) : CommandQueueLaw (as.foldl (fun t a => t.ask h l a) t) := by
    induction as generalizing t with
    | nil => exact ht
    | cons a as ih => exact ih _ (ht.ask h l a)
  have hasks := asked m.asks _ (hs.writeSlot h l m.slot)
  unfold State.moveSlot
  dsimp only
  split
  · exact hasks.raiseAll _
  · exact hasks

end CommandQueueLaw

theorem commandQueueLaw_readsOnly : ReadsOnly [.link, .heads, .ports] CommandQueueLaw := by
  intro s t hsame hs
  have hheads : t.heads = s.heads := hsame .heads (by decide)
  have hports : t.ports = s.ports := hsame .ports (by decide)
  refine hs.of_ports (hsame .link (by decide)) (fun h => by unfold State.head; rw [hheads]) (fun p => ?_)
  unfold State.port
  rw [hports]
  exact hs.syncsWaitHere p

theorem commandQueueLaw_changes : KeptByChanges CommandQueueLaw :=
  .ofMoves (fun h => commandQueueLaw_readsOnly.of_only h (by decide)) (fun r hs => hs.raiseAll r) (fun h l m hs => hs.moveSlot h l m)

/-! ## Commands that leave -/

/-- The oldest command's head holds its own commands and no other's. -/
theorem mine_cons {s : State} {c : Command} {rest : List Command} (hq : s.link.queue = c :: rest) (h : HeadId) :
    s.mine h = (if c.head = h then [c.body] else []) ++ (rest.filter (fun d => decide (d.head = h))).map Command.body := by
  rw [State.mine_eq, hq]
  by_cases hh : c.head = h <;> simp [hh]

theorem CommandQueueLaw.acknowledged {s : State} (hs : CommandQueueLaw s) {c : Command} {rest : List Command}
    (hq : s.link.queue = c :: rest) : CommandQueueLaw (s.acknowledged c rest) := by
  have hlen : rest.length ≤ Config.maxCommands := by
    have := hs.atMost
    rw [hq, List.length_cons] at this
    omega
  have hmine (h : HeadId) : (s.takeOut rest .none [c.id] true).mine h =
      (rest.filter (fun d => decide (d.head = h))).map Command.body := State.mine_eq _ h
  have hout : QueueOrder (s.takeOut rest .none [c.id] true) := by
    refine hs.order.leave true (by rw [hq]; exact List.sublist_cons_self c rest) (fun d hd => ?_) rfl rfl (fun h => ?_)
    · rw [hq] at hd
      rcases List.mem_cons.1 hd with rfl | hd
      · exact .inr List.mem_cons_self
      · exact .inl hd
    · refine (hs.order.mayHave h).sublist ?_
      rw [mine_cons hq h, State.mine_eq]
      exact List.sublist_append_right _ _
  have hlaw : CommandQueueLaw (s.takeOut rest .none [c.id] true) := hout.law hlen
  have after {t : State} (ht : CommandQueueLaw t) : CommandQueueLaw t.afterLeaving := ht.order.afterLeaving_law ht.atMost
  unfold State.acknowledged
  refine after ?_
  split
  · unfold State.probeAnswered
    split
    next hpr =>
      refine ((hlaw.setHead c.head (Head.MayHave.online (by rfl) |>.2 ?_)).raiseAll _).queueRefresh _
      obtain ⟨-, hone, -⟩ := (Head.MayHave.probing (x := s.head c.head) hpr).1 (hs.order.mayHave c.head)
      rw [mine_cons hq, if_pos rfl, List.length_append, List.length_singleton, ← hmine] at hone
      have hnone : (s.takeOut rest .none [c.id] true).mine c.head = [] := List.eq_nil_of_length_eq_zero (by omega)
      rw [hnone]
      nofun
    next => exact hlaw
  · exact hlaw

/-- A failed command's head is in FAULT, and in step (R97, R79). -/
theorem CommandQueueLaw.head_headFailed {s : State} (hs : CommandQueueLaw s) {c : Command} (hc : c ∈ s.link.queue) (h : HeadId) :
    (s.headFailed c.head c.body.kind).head h =
      if h = c.head then { s.head h with state := .fault, outOfStep := false } else s.head h := by
  have haddr := hs.addressed c hc
  have set {x : Head} : (s.setHead c.head x).head h = if h = c.head then x else s.head h := by
    split
    next hh => rw [hh, State.head_setHead_self]
    next hh => rw [State.head_setHead_ne _ _ hh]
  cases hb : c.body with
  | probe =>
    rw [if_pos hb] at haddr
    have hin : (s.head c.head).outOfStep = false := by
      obtain ⟨-, -, hnone⟩ := (Head.MayHave.probing haddr).1 (hs.order.mayHave c.head)
      refine Bool.eq_false_iff.2 fun ho => ?_
      have := State.mem_mine hc
      rw [hnone ho] at this
      cases this
    simp only [State.headFailed, CmdBody.kind, haddr, set]
    split
    next hh => rw [hh, ← hin]
    next => rfl
  | put l text fade cue =>
    rw [if_neg (by rw [hb]; nofun)] at haddr
    simp only [State.headFailed, CmdBody.kind, haddr, set]
    split
    next hh => rw [hh]
    next => rfl
  | take l fade cue =>
    rw [if_neg (by rw [hb]; nofun)] at haddr
    simp only [State.headFailed, CmdBody.kind, haddr, set]
    split
    next hh => rw [hh]
    next => rfl

/-- Nothing of the failed command's head stays queued. -/
theorem CommandQueueLaw.stillQueued_mine {s : State} (hs : CommandQueueLaw s) {c : Command} {rest : List Command}
    (hq : s.link.queue = c :: rest) : (stillQueued c rest).filter (fun d => decide (d.head = c.head)) = [] := by
  unfold stillQueued
  split
  next hk =>
    have hprobe : c.body = .probe := by
      cases hb : c.body <;> rw [hb] at hk <;> first | rfl | cases hk
    have haddr := hs.addressed c (by rw [hq]; exact List.mem_cons_self)
    rw [if_pos hprobe] at haddr
    have hone := hs.oneProbe c.head haddr
    rw [hq, List.filter_cons_of_pos (by simp), List.length_cons] at hone
    exact List.eq_nil_of_length_eq_zero (by omega)
  next =>
    rw [List.filter_filter, List.filter_eq_nil_iff]
    simp

theorem stillQueued_sublist (c : Command) (rest : List Command) : (stillQueued c rest).Sublist rest := by
  unfold stillQueued
  split
  · exact List.Sublist.refl _
  · exact List.filter_sublist

theorem mem_stillQueued_or (c : Command) {d : Command} {rest : List Command} (hd : d ∈ rest) :
    d ∈ stillQueued c rest ∨ d ∈ alsoRemoved c rest := by
  unfold stillQueued alsoRemoved
  split
  · exact .inl hd
  · by_cases hh : d.head = c.head <;> simp [hd, hh]

theorem CommandQueueLaw.failCommand {s : State} (hs : CommandQueueLaw s) {c : Command} {rest : List Command}
    (hq : s.link.queue = c :: rest) : CommandQueueLaw (s.failCommand c rest) := by
  have hkeep := (headFailed_keeps s c.head c.body.kind).1
  have hsub : (stillQueued c rest).Sublist s.link.queue := by
    rw [hq]; exact (stillQueued_sublist c rest).trans (List.sublist_cons_self c rest)
  have hout : QueueOrder ((s.headFailed c.head c.body.kind).takeOut (stillQueued c rest) .none
      (c.id :: (alsoRemoved c rest).map Command.id) false) := by
    refine hs.order.leave false hsub (fun d hd => ?_) (by show (s.headFailed _ _).link.nextId = _; rw [hkeep.link]) hkeep.ports
      (fun h => ?_)
    · rw [hq] at hd
      rcases List.mem_cons.1 hd with rfl | hd
      · exact .inr List.mem_cons_self
      · exact (mem_stillQueued_or c hd).imp id (fun hg => List.mem_cons_of_mem _ (List.mem_map_of_mem hg))
    · rw [State.mine_eq, hs.head_headFailed (by rw [hq]; exact List.mem_cons_self)]
      split
      next hh =>
        rw [hh]
        dsimp only [State.withLink_link]
        rw [hs.stillQueued_mine hq]
        exact .nil rfl
      next =>
        refine (hs.order.mayHave h).sublist ?_
        rw [State.mine_eq]
        exact (hsub.filter _).map _
  have hlen : (stillQueued c rest).length ≤ Config.maxCommands := hsub.length_le.trans hs.atMost
  refine QueueOrder.afterLeaving_law (QueueOrder.raiseAll ?_ _) hlen
  exact hout.withLink rfl rfl

theorem CommandQueueLaw.holdOffOver {s : State} (hs : CommandQueueLaw s) : CommandQueueLaw s.holdOffOver := by
  unfold State.holdOffOver
  split
  · exact hs
  next c rest hq =>
    split
    · exact hs.failCommand hq
    · exact hs.withLink rfl rfl

theorem CommandQueueLaw.windowClosed {s : State} (hs : CommandQueueLaw s) : CommandQueueLaw s.windowClosed := by
  unfold State.windowClosed
  split
  · exact hs
  next c rest hq =>
    split_ifs
    · exact hs.failCommand hq
    · exact hs.holdOffOver
    · exact hs.withLink rfl rfl

/-! ## SET_HEAD and REFRESH_HEAD -/

/-- A darkened head has both slots DARK, and is ABSENT and in step (R94); no other head changes. -/
theorem head_darken (s : State) (h k : HeadId) :
    (s.darken h).head k = if k = h then
      { s.head h with state := .absent, outOfStep := false, baseSlot := .dark, overSlot := .dark } else s.head k := by
  unfold State.darken
  dsimp only
  split
  next hk => rw [hk, State.head_setHead_self, writeSlot_head, if_pos rfl, writeSlot_head, if_pos rfl]; rfl
  next hk => rw [State.head_setHead_ne _ _ hk, writeSlot_head, if_neg hk, writeSlot_head, if_neg hk]

theorem CommandQueueLaw.disableHead {s : State} (hs : CommandQueueLaw s) (h : HeadId) : CommandQueueLaw (s.disableHead h) := by
  have hkeep := (darken_keeps s h).1
  have hlink : (s.darken h).link = s.link := hkeep.link
  have heads {ds : List Command} (hds : ds.Sublist s.link.queue) (hnone : ds.filter (fun d => decide (d.head = h)) = [])
      (k : HeadId) : ((s.darken h).head k).MayHave ((ds.filter (fun d => decide (d.head = k))).map Command.body) := by
    rw [head_darken]
    split
    next hk => rw [hk, hnone]; exact .nil rfl
    next =>
      refine (hs.order.mayHave k).sublist ?_
      rw [State.mine_eq]
      exact (hds.filter _).map _
  have hrest : (s.link.queue.filter (fun d => !decide (d.head = h))).Sublist s.link.queue := List.filter_sublist
  have hnone : (s.link.queue.filter (fun d => !decide (d.head = h))).filter (fun d => decide (d.head = h)) = [] := by
    rw [List.filter_filter, List.filter_eq_nil_iff]
    simp
  have hgone (c : Command) (hc : c ∈ s.link.queue) : c ∈ s.link.queue.filter (fun d => !decide (d.head = h)) ∨
      c.id ∈ (s.link.queue.filter (fun d => decide (d.head = h))).map Command.id := by
    by_cases hh : c.head = h
    · exact .inr (List.mem_map_of_mem (List.mem_filter.2 ⟨hc, by simpa using hh⟩))
    · exact .inl (List.mem_filter.2 ⟨hc, by simpa using hh⟩)
  have hlen : (s.link.queue.filter (fun d => !decide (d.head = h))).length ≤ Config.maxCommands :=
    (List.length_filter_le _ _).trans hs.atMost
  unfold State.disableHead State.dropHeadCommands
  dsimp only
  rw [hlink]
  split_ifs with hgoneNil hfl
  · rw [List.map_eq_nil_iff] at hgoneNil
    refine (hs.order.of_same (commands_of_link hlink) (by unfold State.ids; rw [hlink]) (by rw [hlink]) (fun k => ?_) ?_).law
      (by rw [hlink]; exact hs.atMost)
    · rw [State.mine_eq]; exact heads (List.Sublist.refl _) hgoneNil k
    · intro p
      unfold State.port
      rw [hkeep.ports]
      exact hs.syncsWaitHere p
  · refine QueueOrder.afterLeaving_law (hs.order.leave false hrest hgone (by rw [hlink]) hkeep.ports (fun k => ?_)) hlen
    rw [State.mine_eq]; exact heads hrest hnone k
  · refine QueueOrder.afterLeaving_law (hs.order.leave false hrest hgone rfl hkeep.ports (fun k => ?_)) hlen
    rw [State.mine_eq]; exact heads hrest hnone k

/-- A head that has nothing queued and begins PROBING is asked for a PROBE (R93, R96). -/
theorem CommandQueueLaw.probe {s : State} (hs : CommandQueueLaw s) {h : HeadId} {x : Head} (hnil : s.mine h = [])
    (hpr : x.state = .probing) (hout : x.outOfStep = false) : CommandQueueLaw ((s.setHead h x).askProbe h) :=
  (hs.setHead h (by rw [hnil]; exact .nil hout)).askProbe (by rw [State.head_setHead_self]; exact hpr)
    (by rw [State.head_setHead_self]; exact hout) hnil

theorem CommandQueueLaw.actOnEnable {s : State} (hs : CommandQueueLaw s) (h : HeadId) (on : Bool) :
    CommandQueueLaw (s.actOnEnable h on) := by
  unfold State.actOnEnable
  split_ifs with hen
  · have habs : (s.head h).state = .absent := by simpa [Head.enabled] using hen.2
    exact hs.probe ((Head.MayHave.atRest (by simp [habs]) (by simp [habs])).1 (hs.order.mayHave h)).1 rfl rfl
  · exact hs.disableHead h
  · exact hs

theorem CommandQueueLaw.refreshHead {s : State} (hs : CommandQueueLaw s) (h : HeadId) : CommandQueueLaw (s.refreshHead h) := by
  unfold State.refreshHead
  split
  · exact hs
  · exact hs
  · exact (hs.queueRefresh h).startLink
  next hfault =>
    obtain ⟨hnil, hout⟩ := (Head.MayHave.atRest (by simp [hfault]) (by simp [hfault])).1 (hs.order.mayHave h)
    exact hs.probe hnil rfl hout

/-! ## Every step -/

/-- The queue and the heads as they were, each port as a line event leaves it. -/
theorem CommandQueueLaw.of_line {bs : List Block} {s t : State} (hs : CommandQueueLaw s) (ho : OnlyChanges bs s t)
    (hports : ∀ q, (t.port q).WaitsFor s.ids) (hd : Block.apart [.link, .heads] bs = true) : CommandQueueLaw t := by
  have hheads : t.heads = s.heads := ho.heads (Block.not_mem_of_apart hd (by decide))
  exact hs.of_ports (ho.link (Block.not_mem_of_apart hd (by decide))) (fun h => by unfold State.head; rw [hheads]) hports

theorem commandQueueLaw_powerOnReset (s : State) (st : Straps) (b : Bool) : CommandQueueLaw (s.powerOnReset st b) := by
  refine QueueOrder.law ⟨fun h => ?_, .nil, nofun, fun p => ?_⟩ (Nat.zero_le _)
  · show (Vector.get (Vector.replicate 16 Head.atReset) h).MayHave []
    rw [vector_get_replicate]
    exact .nil rfl
  · rw [port_powerOnReset]
    nofun

theorem CommandQueueLaw.settle {s : State} (hs : CommandQueueLaw s) : CommandQueueLaw s.settle :=
  hs.of_line (settle_only s) (fun q => (waitsFor_lineLaw _).settle (hs.syncsWaitHere q)) (by decide)

theorem CommandQueueLaw.effect {p : Port} {s t : State} {k : ReqKind} (hs : CommandQueueLaw s) (e : Effect p s k t) :
    CommandQueueLaw t := by
  have line (hlink : t.link = s.link) (hheads : t.heads = s.heads) (hw : k.writesRecords = false) : CommandQueueLaw t :=
    hs.of_ports hlink (fun h => by unfold State.head; rw [hheads])
      (fun q => (waitsFor_lineLaw s.ids).effect e (hs.syncsWaitHere q) (fun hw' => by rw [hw] at hw'; cases hw'))
  cases e
  case closes => exact commandQueueLaw_changes.closeDown p hs
  case goes => exact commandQueueLaw_changes.fire _ _ _ hs
  case backs => exact commandQueueLaw_changes.fire _ _ _ hs
  case beats => exact commandQueueLaw_changes.takeBeat _ hs
  case setsHead h on lang group gap =>
    exact (hs.setHead h (x := { s.head h with lang := lang, group := group, gap := gap })
      ((hs.order.mayHave h).congr rfl (.inl rfl))).actOnEnable h on
  case refreshes => exact hs.refreshHead _
  case setsLink => exact hs.withLink rfl rfl
  case clearsLinkCapture => exact hs.withLink rfl rfl
  case syncs =>
    refine hs.of_ports rfl (fun _ => rfl) (fun q => port_onPort_any (P := PortUnit.WaitsFor s.ids) (fun u hu => ?_) (hs.syncsWaitHere q))
    intro w hw i hi
    cases hw
    exact hi
  case clearsCauses =>
    exact hs.of_ports rfl (fun _ => rfl) (fun q => port_onPort_any (P := PortUnit.WaitsFor s.ids) (fun _ hu => hu) (hs.syncsWaitHere q))
  case clearsPortCapture =>
    exact hs.of_ports rfl (fun _ => rfl) (fun q => port_onPort_any (P := PortUnit.WaitsFor s.ids) (fun _ hu => hu) (hs.syncsWaitHere q))
  case joins => exact line (joinList_keeps s p).1.link (joinList_keeps s p).1.heads rfl
  case yields => exact line (passRight_keeps s p none).1.link (passRight_keeps s p none).1.heads rfl
  case givesRole r _ => exact line (setRoleOf_keeps s _ r).1.link (setRoleOf_keeps s _ r).1.heads rfl
  all_goals exact line rfl rfl rfl

theorem CommandQueueLaw.event {c : Instr} {s t : State} (hs : CommandQueueLaw s) (he : Machine.exec c s = .next t)
    (hc : requestOf c = none) : CommandQueueLaw t := by
  by_cases ha : Block.apart [.link, .heads] (changes c) = true
  · obtain ⟨u, hu, ho⟩ := exec_only c s
    rw [hu] at he
    cases he
    refine hs.of_line ho (fun q => (waitsFor_lineLaw s.ids).event hu hc (hs.syncsWaitHere q) (fun _ _ h => h) (fun _ => nofun)
      (fun _ _ _ => nofun) (fun hl => ?_)) ha
    cases c <;> cases hl <;> cases ha
  · cases c <;> try exact absurd rfl ha
    case powerOn => cases he; exact commandQueueLaw_powerOnReset _ _ _
    case reset => cases he; exact commandQueueLaw_powerOnReset _ _ _
    case followExpiry =>
      cases he
      split
      · exact (commandQueueLaw_changes.expire hs).settle
      · exact hs
    case floorEnd g l =>
      cases he
      split
      · exact (commandQueueLaw_changes.floorEnd g l hs).settle
      · exact hs
    case beatEdge => exact commandQueueLaw_changes.beatEdge (fun _ h => h.settle) he hs
    case fadeEnd h l =>
      cases he
      split
      · exact (hs.moveSlot h l _).settle
      · exact (hs.moveSlot h l _).settle
      · exact hs
      · exact hs
    case linkFrameSent =>
      cases he
      split
      · exact hs.withLink rfl rfl
      · refine CommandQueueLaw.startLink ?_
        exact hs.withLink rfl rfl
      all_goals exact hs
    case acknowledgement frame =>
      cases he
      split
      · split
        · exact (hs.acknowledged ‹_›).settle
        · exact hs
      · exact hs
    case ackTimeout =>
      cases he
      split
      · exact hs.windowClosed.settle
      all_goals exact hs
    case holdOffEnd =>
      cases he
      split
      · exact hs.holdOffOver.settle
      all_goals exact hs
    all_goals cases hc

theorem CommandQueueLaw.exec {c : Instr} {s t : State} (hs : CommandQueueLaw s) (he : Machine.exec c s = .next t) :
    CommandQueueLaw t := by
  cases hc : requestOf c with
  | none => exact hs.event he hc
  | some kp =>
    rw [eq_command_of_request hc, exec_command] at he
    cases he
    refine serve_kept hs (fun r t _ e => hs.effect e) (fun r st extra => ?_) (fun t r st pl ht => ?_) (fun t ht => ht.settle)
    · exact hs.of_line (refuse_only _ _ _ _ _)
        (fun q => (waitsFor_lineLaw _).refuse (fun _ hu => hu) _ r st extra (hs.syncsWaitHere q)) (by decide)
    · exact ht.of_line (respond_keeps t _ r st pl).1 (fun q => (waitsFor_lineLaw _).respond _ r st pl (ht.syncsWaitHere q)) (by decide)

/-- Settles O9: the law is kept head by head, by each operation on the queue, and a SYNC waits for what its port has been told of. -/
theorem everyStepKeepsTheCommandQueueLaw : Obligations.EveryStepKeepsTheCommandQueueLaw := by
  refine keptByStep_of commandQueueLaw_readsOnly (fun c s t he hs => hs.exec he) (fun s hs => ?_)
  refine (hs.order.of_same (t := s.tick) rfl rfl rfl (fun h => ?_)
    (fun q => (waitsFor_lineLaw _).tick (hs.syncsWaitHere q))).law hs.atMost
  rw [State.head_tick]
  exact (hs.order.mayHave h).congr rfl (.inl rfl)

end Sys2Proof.Machine
end

section
/-! The frozen show of HELD (R58) and the captures, which keep what they hold (R115, R163): the laws O12. -/

namespace Sys2Proof.Machine

/-! ## HELD freezes the show -/

/-- What HELD keeps as it is: the show position, the Run Queue with its table, and what beats write. -/
structure FrozenAs (s t : State) : Prop where
  engine : t.engine = s.engine
  run : t.run = s.run
  lastAccepted : t.beat.lastAccepted = s.beat.lastAccepted
  settling : t.beat.settling = s.beat.settling

theorem FrozenAs.refl (s : State) : FrozenAs s s := ⟨rfl, rfl, rfl, rfl⟩

theorem frozenAs_readsOnly (s : State) : ReadsOnly [.engine, .run, .beat] (FrozenAs s) := by
  intro t u hsame ⟨he, hr, hl, hg⟩
  have hbeat : u.beat = t.beat := hsame .beat (by decide)
  exact ⟨(hsame .engine (by decide)).trans he, (hsame .run (by decide)).trans hr, by rw [hbeat]; exact hl, by rw [hbeat]; exact hg⟩

/-- The requests that act on a HELD show. -/
def ReqKind.unfreezes : ReqKind → Bool
  | .release => true
  | .closeShow => true
  | .standby => true
  | .setBeat => true
  | _ => false

/-- No owner of another kind acts on a HELD show. -/
theorem Effect.frozen {p : Port} {s t : State} {k : ReqKind} (e : Effect p s k t) (hheld : s.engine.state = .held)
    (hk : k.unfreezes = false) : FrozenAs s t := by
  have still {bs : List Block} (ho : OnlyChanges bs s t) (hd : Block.apart [.engine, .run, .beat] bs = true) : FrozenAs s t :=
    (frozenAs_readsOnly s).of_only ho hd (.refl s)
  cases e
  case opens hidle _ => rw [hheld] at hidle; cases hidle
  case closes => cases hk
  case goes hst _ => rcases hst with hst | hst <;> rw [hheld] at hst <;> cases hst
  case backs hst _ _ => rw [hheld] at hst; cases hst
  case standsBy => cases hk
  case holds fr hst => rw [hheld] at hst; cases fr <;> cases hst
  case releases => cases hk
  case beats => rw [takeBeat_notRunning (by simp [hheld])]; exact .refl s
  case yields => exact still (passRight_keeps s p none).1 (by decide)
  case givesRole r _ => exact still (setRoleOf_keeps s _ r).1 (by decide)
  case joins => exact still (joinList_keeps s p).1 (by decide)
  case setsHead => exact still (((setHead_only _ _ _).mono (by decide)).trans (actOnEnable_keeps _ _ _).1) (by decide)
  case refreshes => exact still (refreshHead_keeps s _).1 (by decide)
  case setsBeat => cases hk
  all_goals exact ⟨rfl, rfl, rfl, rfl⟩

theorem exec_frozen {c : Instr} {s t : State} (hheld : s.engine.state = .held) (he : exec c s = .next t)
    (hreset : isReset c = false) (hk : ∀ kp, requestOf c = some kp → kp.1.unfreezes = false) : FrozenAs s t := by
  cases hc : requestOf c with
  | some kp =>
    rw [eq_command_of_request hc] at he
    exact (frozenAs_readsOnly s).of_request kp.1 he (.refl s) (fun t e => e.frozen hheld (hk kp hc))
  | none =>
    by_cases ha : Block.apart [.engine, .run, .beat] (changes c) = true
    · exact (frozenAs_readsOnly s).of_exec he ha (.refl s)
    · cases c <;> try exact absurd rfl ha
      case powerOn => cases hreset
      case reset => cases hreset
      case followExpiry => cases he; rw [if_neg (by simp [hheld])]; exact .refl s
      case floorEnd => cases he; rw [if_neg (by simp [hheld])]; exact .refl s
      case beatEdge high =>
        cases he
        split
        · exact .refl s
        · dsimp only
          rw [takeBeat_notRunning (show (s.withBeat _).engine.state ≠ .running by simp [hheld])]
          split
          · exact (frozenAs_readsOnly s).of_only (settle_only _) (by decide) ⟨rfl, rfl, rfl, rfl⟩
          · exact ⟨rfl, rfl, rfl, rfl⟩
      all_goals cases hc

theorem idle_frozen {s : State} (hheld : s.engine.state = .held) :
    s.idle.engine = s.engine ∧ s.idle.run = s.run ∧ s.idle.beat = s.beat := by
  by_cases hr : s.ready = []
  · rw [idle_of_quiet hr]
    exact ⟨rfl, by rw [State.tick_run, if_neg (by simp [hheld])], rfl⟩
  · obtain ⟨-, -, -, -, ho⟩ := idle_of_ready hr
    exact ⟨ho.engine, ho.run, ho.beat⟩

/-! ## A filled refusal capture -/

/-- A filled refusal capture with this record, marked "more" or not. -/
def PortUnit.Holds (x : RefusalCapture) (u : PortUnit) : Prop :=
  u.capture = some x ∨ u.capture = some { x with more := true }

theorem holds_portLaw (x : RefusalCapture) : PortLaw (PortUnit.Holds x) where
  congr hu h := by
    unfold PortUnit.Holds
    rw [h.capture]
    exact hu
  raises _ hu := hu
  syncEnds hu := hu
  leaves hu := hu
  joins _ _ hu := hu
  marks {u} hu := by
    unfold PortUnit.Holds
    unfold PortUnit.markHeld
    dsimp only
    split <;> exact hu
  unlocks hu := hu
  notes _ _ _ hu := .inr (by rcases hu with hu | hu <;> simp only [hu, noteRefusal])
  waits _ hu := hu
  clears _ hu := hu

/-! ## A filled link capture -/

/-- The filled link capture with this record, marked "more" or not. -/
def LinkHolds (x : LinkCapture) (s : State) : Prop := s.link.capture = some x ∨ s.link.capture = some { x with more := true }

theorem linkHolds_readsOnly (x : LinkCapture) : ReadsOnly [.link] (LinkHolds x) := by
  intro s t hsame hs
  unfold LinkHolds
  rw [show t.link = s.link from hsame .link (by decide)]
  exact hs

namespace LinkHolds
variable {x : LinkCapture} {s : State}

theorem of_capture {t : State} (hs : LinkHolds x s) (h : t.link.capture = s.link.capture) : LinkHolds x t := by
  unfold LinkHolds
  rw [h]
  exact hs

theorem startLink (hs : LinkHolds x s) : LinkHolds x s.startLink := hs.of_capture (capture_startLink s)

theorem markOutOfStep (hs : LinkHolds x s) (h : HeadId) : LinkHolds x (s.markOutOfStep h) :=
  hs.of_capture (by rw [link_markOutOfStep])

theorem ask (hs : LinkHolds x s) (h : HeadId) (l : Layer) (a : Ask) : LinkHolds x (s.ask h l a) := by
  unfold State.ask
  split_ifs
  · exact hs
  · exact hs
  · exact startLink hs
  · exact hs.markOutOfStep h

theorem askProbe (hs : LinkHolds x s) (h : HeadId) : LinkHolds x (s.askProbe h) := by
  unfold State.askProbe
  split
  · exact startLink hs
  · exact hs.markOutOfStep h

theorem queueRefresh (hs : LinkHolds x s) (h : HeadId) : LinkHolds x (s.queueRefresh h) := by
  unfold State.queueRefresh
  split_ifs
  · exact hs
  · exact hs
  · exact hs.markOutOfStep h

theorem catchUpHead (hs : LinkHolds x s) (h : HeadId) : LinkHolds x (s.catchUpHead h) := by
  unfold State.catchUpHead
  split
  · split
    · exact hs.queueRefresh h
    · exact hs
    · exact hs
    · exact hs
  · exact hs

theorem afterLeaving (hs : LinkHolds x s) : LinkHolds x s.afterLeaving := by
  have heads (hds : List HeadId) (t : State) (ht : LinkHolds x t) : LinkHolds x (hds.foldl State.catchUpHead t) := by
    induction hds generalizing t with
    | nil => exact ht
    | cons h hds ih => exact ih _ (ht.catchUpHead h)
  refine startLink ?_
  unfold State.catchUp
  split
  · exact heads _ _ hs
  · exact hs

theorem moveSlot (hs : LinkHolds x s) (h : HeadId) (l : Layer) (m : SlotMove) : LinkHolds x (s.moveSlot h l m) := by
  have asked (as : List Ask) (t : State) (ht : LinkHolds x t) : LinkHolds x (as.foldl (fun t a => t.ask h l a) t) := by
    induction as generalizing t with
    | nil => exact ht
    | cons a as ih => exact ih _ (ht.ask h l a)
  have hasks := asked m.asks (s.writeSlot h l m.slot) hs
  unfold State.moveSlot
  dsimp only
  split <;> exact hasks

theorem acknowledged (hs : LinkHolds x s) (c : Command) (rest : List Command) : LinkHolds x (s.acknowledged c rest) := by
  have hout : LinkHolds x (s.takeOut rest .none [c.id] true) := hs.of_capture rfl
  have hprobe : LinkHolds x ((s.takeOut rest .none [c.id] true).probeAnswered c.head) := by
    unfold State.probeAnswered
    split
    · refine queueRefresh ?_ _
      exact hout
    · exact hout
  unfold State.acknowledged
  dsimp only
  refine afterLeaving ?_
  split
  · exact hprobe
  · exact hout

/-- A further failure marks the record and leaves it else (R115). -/
theorem failCommand (hs : LinkHolds x s) (c : Command) (rest : List Command) : LinkHolds x (s.failCommand c rest) := by
  refine afterLeaving (.inr ?_)
  show noteFailure (s.headFailed c.head c.body.kind).link.capture _ _ _ = _
  rw [(headFailed_keeps s c.head c.body.kind).1.link]
  rcases hs with hs | hs <;> rw [hs] <;> rfl

theorem holdOffOver (hs : LinkHolds x s) : LinkHolds x s.holdOffOver := by
  unfold State.holdOffOver
  split
  · exact hs
  · split
    · exact hs.failCommand _ _
    · exact hs

theorem windowClosed (hs : LinkHolds x s) : LinkHolds x s.windowClosed := by
  unfold State.windowClosed
  split
  · exact hs
  · split_ifs
    · exact hs.failCommand _ _
    · exact hs.holdOffOver
    · exact hs

theorem disableHead (hs : LinkHolds x s) (h : HeadId) : LinkHolds x (s.disableHead h) := by
  have hdark : LinkHolds x (s.darken h) := hs.of_capture (by rw [(darken_keeps s h).1.link])
  by_cases hg : ∃ c ∈ (s.darken h).link.queue, c.head = h
  · obtain ⟨z, hz, dropped⟩ := dropHeadCommands_eq (s.darken h) h hg
    unfold State.disableHead
    rw [hz]
    exact afterLeaving (hdark.of_capture dropped.capture)
  · unfold State.disableHead
    rw [dropHeadCommands_none _ h (by simpa using hg)]
    exact hdark

theorem changes (x : LinkCapture) : KeptByChanges (LinkHolds x) :=
  .ofMoves (fun h => (linkHolds_readsOnly x).of_only h (by decide))
    (fun r => (linkHolds_readsOnly x).of_only (raiseAll_keeps _ r).1 (by decide)) (fun h l m hs => hs.moveSlot h l m)

theorem settle (hs : LinkHolds x s) : LinkHolds x s.settle := (linkHolds_readsOnly x).of_only (settle_only s) (by decide) hs

theorem effect {p : Port} {t : State} {k : ReqKind} (hs : LinkHolds x s) (e : Effect p s k t) (hk : k ≠ .clearCapture) :
    LinkHolds x t := by
  have still {bs : List Block} (ho : OnlyChanges bs s t) (hd : Block.apart [.link] bs = true) : LinkHolds x t :=
    (linkHolds_readsOnly x).of_only ho hd hs
  cases e
  case closes => exact (changes x).closeDown p hs
  case goes => exact (changes x).fire _ _ _ hs
  case backs => exact (changes x).fire _ _ _ hs
  case beats => exact (changes x).takeBeat _ hs
  case setsHead h on lang group gap =>
    have hset : LinkHolds x (s.setHead h { s.head h with lang := lang, group := group, gap := gap }) := hs
    unfold State.actOnEnable
    split_ifs
    · refine askProbe ?_ h
      exact hset
    · exact hset.disableHead h
    · exact hset
  case refreshes h =>
    unfold State.refreshHead
    split
    · exact hs
    · exact hs
    · exact (hs.queueRefresh h).startLink
    · refine askProbe ?_ h
      exact hs
  case yields => exact still (passRight_keeps s p none).1 (by decide)
  case givesRole r _ => exact still (setRoleOf_keeps s _ r).1 (by decide)
  case joins => exact still (joinList_keeps s p).1 (by decide)
  case clearsPortCapture => exact absurd rfl hk
  case clearsLinkCapture => exact absurd rfl hk
  all_goals exact hs

theorem exec {c : Instr} {t : State} (hs : LinkHolds x s) (he : Machine.exec c s = .next t) (hreset : isReset c = false)
    (hclear : ∀ p, c ≠ .clearCapture p) : LinkHolds x t := by
  cases hc : requestOf c with
  | some kp =>
    have hcommand := eq_command_of_request hc
    rw [hcommand] at he
    refine (linkHolds_readsOnly x).of_request kp.1 he hs (fun t e => hs.effect e fun hk => hclear kp.2 ?_)
    rw [hcommand, hk]
    rfl
  | none =>
    by_cases ha : Block.apart [.link] (Machine.changes c) = true
    · exact (linkHolds_readsOnly x).of_exec he ha hs
    · cases c <;> try exact absurd rfl ha
      case powerOn => cases hreset
      case reset => cases hreset
      case followExpiry =>
        cases he
        split
        · exact ((changes x).expire hs).settle
        · exact hs
      case floorEnd g l =>
        cases he
        split
        · exact ((changes x).floorEnd g l hs).settle
        · exact hs
      case beatEdge => exact (changes x).beatEdge (fun _ h => h.settle) he hs
      case fadeEnd h l =>
        cases he
        split
        · exact (hs.moveSlot h l _).settle
        · exact (hs.moveSlot h l _).settle
        · exact hs
        · exact hs
      case linkFrameSent =>
        cases he
        split
        · exact hs
        · exact startLink (s := State.withLink _ _) hs
        all_goals exact hs
      case acknowledgement frame =>
        cases he
        split
        · split
          · exact (hs.acknowledged _ _).settle
          · exact hs
        · exact hs
      case ackTimeout =>
        cases he
        split
        · exact hs.windowClosed.settle
        all_goals exact hs
      case holdOffEnd =>
        cases he
        split
        · exact hs.holdOffOver.settle
        all_goals exact hs
      all_goals cases hc

end LinkHolds

/-! ## The laws -/

theorem isReset_eq_false {c : Instr} (hp : ∀ st b, c ≠ .powerOn st b) (hr : ∀ st b, c ≠ .reset st b) : isReset c = false := by
  cases c
  case powerOn st b => exact absurd rfl (hp st b)
  case reset st b => exact absurd rfl (hr st b)
  all_goals rfl

/-- Settles O12: the owners and events that would act on the show test its state first; a capture is written by `noteRefusal` and
`noteFailure` alone, which mark what is there. -/
theorem heldFreezesAndCapturesKeep : Obligations.HeldFreezesAndCapturesKeep := by
  refine ⟨⟨fun c s t hheld he hp hr hrel hclose hst hbeat => ?_, fun s t hheld hpend hstep => ?_⟩,
    fun c s t p x hx he hp hr hbreak hclear => ?_, fun c s t x hx he hp hr hclear => ?_⟩
  · obtain ⟨hengine, hrun, hlast, hsettling⟩ := exec_frozen hheld he (isReset_eq_false hp hr) (fun kp hc => by
      obtain ⟨k, p⟩ := kp
      have hcommand := eq_command_of_request hc
      cases k <;> first | rfl | skip
      case closeShow => exact absurd hcommand (hclose p)
      case standby => exact absurd hcommand (hst p)
      case release => exact absurd hcommand (hrel p)
      case setBeat => exact absurd hcommand (hbeat p))
    exact ⟨hengine, hrun, hlast, hsettling⟩
  · unfold step at hstep
    rw [hpend] at hstep
    cases hstep
    exact idle_frozen hheld
  · refine (holds_portLaw x).exec (P := PortUnit.Holds x) he (.inl hx) (fun _ hu => hu) (fun h => ?_) (fun h => absurd h hbreak)
      (fun h => absurd h hclear)
    rw [isReset_eq_false hp hr] at h
    cases h
  · exact LinkHolds.exec (.inl hx) he (isReset_eq_false hp hr) hclear

end Sys2Proof.Machine
end

section
/-! The machine at reset, the step and the clock: O1, O2, O3 and O4. -/

namespace Sys2Proof.Machine

/-- Settles O1: the front command is executed with the rest of the queue left. -/
theorem stepTakesFrontCommand : Obligations.StepTakesFrontCommand := fun _ _ => rfl

/-! ## Reset -/

theorem table_powerOnReset (s : State) (st : Straps) (b : Bool) (g : GroupId) (l : Layer) :
    (s.powerOnReset st b).run.table g l = { owner := none, floor := 0 } := by
  cases l <;> exact vector_get_replicate _ _ _

theorem head_powerOnReset (s : State) (st : Straps) (b : Bool) (h : HeadId) : (s.powerOnReset st b).head h = .atReset :=
  vector_get_replicate _ _ _

theorem role_powerOnReset (s : State) (st : Straps) (b : Bool) (p : Port) :
    (s.powerOnReset st b).arbiter.roles.get p = Role.ofStraps (st.of p) := by
  cases p <;> rfl

theorem profile_has_iff (pr : Profile) (f : Flag) : pr.has f = true ↔
    (pr = .desk ∧ (f = .call ∨ f = .edit)) ∨ (pr = .backup ∧ (f = .call ∨ f = .edit ∨ f = .takeover)) ∨
    (pr = .stage ∧ (f = .call ∨ f = .hold ∨ f = .takeover ∨ f = .admin)) := by
  cases pr <;> simp [Profile.has]

/-- Settles O3: POWER_ON and RESET are one reset, block by block at its value. -/
theorem powerOnAndResetGiveResetValues : Obligations.PowerOnAndResetGiveResetValues := by
  refine ⟨fun s st high => ⟨rfl, _, rfl, rfl, rfl, rfl, rfl, rfl, rfl, table_powerOnReset s st high, rfl, fun h => ?_, rfl, rfl, rfl,
    rfl, rfl, rfl, rfl, rfl, rfl, fun p => ?_, rfl, rfl, rfl, rfl, rfl, fun p => ?_, rfl⟩, profile_has_iff⟩
  · rw [head_powerOnReset]
    exact ⟨rfl, rfl, rfl, rfl, rfl, rfl, rfl⟩
  · rw [role_powerOnReset]
    refine ⟨fun h => ?_, fun h => ?_, fun h => ?_, fun h => ?_⟩ <;> rw [h] <;> rfl
  · rw [port_powerOnReset]
    exact ⟨rfl, rfl, rfl, rfl, rfl, rfl, rfl, rfl, rfl, rfl, rfl, rfl⟩

theorem head_reset (h : HeadId) : State.reset.head h = .atReset := vector_get_replicate _ _ _

theorem slotNames_reset : State.reset.slotNames = [] := by
  unfold State.slotNames
  rw [List.flatMap_eq_nil_iff]
  intro h _
  rw [head_reset]
  rfl

/-- Settles O4: the stores, queues and lists are empty, and every port and every head is at its reset value. -/
theorem resetStateIsLawful : Obligations.ResetStateIsLawful := by
  have hreset : State.reset = State.reset.powerOnReset { a := 1, b := 2, c := 3 } false := rfl
  refine ⟨⟨rfl, rfl⟩, ?_, fun p => ?_, ⟨nofun, Nat.zero_le _, fun _ _ => Nat.zero_le _, fun _ => rfl, fun _ _ => rfl⟩, ⟨nofun, nofun, nofun⟩,
    nofun, ⟨fun _ => ⟨rfl, rfl⟩, nofun, nofun, nofun⟩, ?_, ⟨fun _ => ⟨rfl, rfl⟩, nofun, fun h => absurd rfl h⟩,
    ⟨nofun, nofun, fun i hi => ?_, nofun⟩, ⟨Nat.zero_le _, Nat.zero_le _, Nat.zero_le _, nofun⟩, ?_, settled_powerOnReset State.reset _ _⟩
  · exact callRightLaw_powerOnReset State.reset _ _
  · rw [hreset, port_powerOnReset]
    exact Nat.zero_le _
  · exact commandQueueLaw_powerOnReset State.reset _ _
  · rw [slotNames_reset] at hi
    cases hi
  · rw [causeSetsLaw_iff]
    intro p
    rw [hreset, port_powerOnReset]
    exact PortUnit.causesStand_of_empty rfl rfl

/-! ## The clock -/

theorem Head.slot_tick (x : Head) (l : Layer) : x.tick.slot l = (x.slot l).tick := by cases l <;> rfl

theorem RunQueue.followDue_iff {r : RunQueue} : r.followDue = true ↔ ∃ c full n, .follow c .time full n ∈ r.entries ∧ n ≤ 1 := by
  unfold RunQueue.followDue
  rw [List.any_eq_true]
  constructor
  · rintro ⟨e, he, hdue⟩
    split at hdue
    next c full n => exact ⟨c, full, n, he, of_decide_eq_true hdue⟩
    next => cases hdue
  · rintro ⟨c, full, n, he, hn⟩
    exact ⟨_, he, decide_eq_true hn⟩

/-! ## Which clock events are due -/

theorem Slot.mem_dueEvents {x : Slot} {h : HeadId} {l : Layer} {e : Instr} : e ∈ x.dueEvents h l ↔
    e = .fadeEnd h l ∧ ∃ shown f, f ≤ 1 ∧ (x = .rising shown f ∨ ∃ next, x = .falling shown next f) := by
  cases x <;> simp [Slot.dueEvents, Slot.fadeLeft, and_comm]

theorem LinkPhase.mem_dueEvents {ph : LinkPhase} {e : Instr} (h : e ∈ ph.dueEvents) :
    e = .linkFrameSent ∨ e = .ackTimeout ∨ e = .holdOffEnd := by
  unfold LinkPhase.dueEvents at h
  split at h
  · cases h
  all_goals split at h <;> simp_all

theorem PortUnit.mem_dueEvents {u : PortUnit} {p : Port} {e : Instr} (h : e ∈ u.dueEvents p) :
    e = .callerFrameSent p ∨ e = .frameGapTimeout p := by
  unfold PortUnit.dueEvents at h
  rcases List.mem_append.1 h with h | h
  · split at h <;> simp_all
  · split at h
    · split at h <;> simp_all
    · cases h

/-- An event of the show or the screens is due by its own count. -/
theorem mem_dueEvents_iff {s : State} {e : Instr} (hlink : e ≠ .linkFrameSent ∧ e ≠ .ackTimeout ∧ e ≠ .holdOffEnd)
    (hport : ∀ p, e ≠ .callerFrameSent p ∧ e ≠ .frameGapTimeout p) : e ∈ s.dueEvents ↔
      (s.engine.state = .running ∧ (e = .followExpiry ∧ s.run.followDue = true ∨
        ∃ g l, (s.run.table g l).floor = 1 ∧ e = .floorEnd g l)) ∨
      ∃ h l, e = .fadeEnd h l ∧ ∃ shown f, f ≤ 1 ∧
        ((s.head h).slot l = .rising shown f ∨ ∃ next, (s.head h).slot l = .falling shown next f) := by
  have hshow : (e ∈ if s.engine.state = .running then
      (if s.run.followDue then [.followExpiry] else []) ++
        (allGroupLayers.filter (fun gl => decide ((s.run.table gl.1 gl.2).floor = 1))).map (fun gl => Instr.floorEnd gl.1 gl.2)
      else []) ↔ s.engine.state = .running ∧ (e = .followExpiry ∧ s.run.followDue = true ∨
        ∃ g l, (s.run.table g l).floor = 1 ∧ e = .floorEnd g l) := by
    split
    next hrun =>
      rw [List.mem_append, and_iff_right hrun]
      refine or_congr ?_ ?_
      · split <;> simp_all
      · simp [mem_allGroupLayers, eq_comm]
    next hrun => simp [hrun]
  have hheads : (e ∈ allHeads.flatMap (fun h =>
      (s.head h).baseSlot.dueEvents h .base ++ (s.head h).overSlot.dueEvents h .overlay)) ↔
      ∃ h l, e = .fadeEnd h l ∧ ∃ shown f, f ≤ 1 ∧
        ((s.head h).slot l = .rising shown f ∨ ∃ next, (s.head h).slot l = .falling shown next f) := by
    simp only [List.mem_flatMap, mem_allHeads, true_and, List.mem_append, Slot.mem_dueEvents]
    refine exists_congr fun h => ⟨fun hor => ?_, ?_⟩
    · rcases hor with hb | ho
      · exact ⟨.base, hb⟩
      · exact ⟨.overlay, ho⟩
    · rintro ⟨l, hl⟩
      cases l
      · exact .inl hl
      · exact .inr hl
  have hnolink : e ∉ s.link.phase.dueEvents := fun h => by
    rcases LinkPhase.mem_dueEvents h with h | h | h
    · exact hlink.1 h
    · exact hlink.2.1 h
    · exact hlink.2.2 h
  have hnoport : e ∉ allPorts.flatMap (fun p => (s.port p).dueEvents p) := fun h => by
    obtain ⟨p, -, h⟩ := List.mem_flatMap.1 h
    rcases PortUnit.mem_dueEvents h with h | h
    · exact (hport p).1 h
    · exact (hport p).2 h
  unfold State.dueEvents
  rw [List.mem_append, List.mem_append, List.mem_append, hshow, hheads]
  simp only [hnolink, hnoport, or_false]

theorem followExpiry_mem_dueEvents {s : State} : .followExpiry ∈ s.dueEvents ↔
    s.engine.state = .running ∧ ∃ c full n, .follow c .time full n ∈ s.run.entries ∧ n ≤ 1 := by
  rw [mem_dueEvents_iff (by simp) (by simp), RunQueue.followDue_iff]
  simp

theorem floorEnd_mem_dueEvents {s : State} {g : GroupId} {l : Layer} : .floorEnd g l ∈ s.dueEvents ↔
    s.engine.state = .running ∧ (s.run.table g l).floor = 1 := by
  rw [mem_dueEvents_iff (by simp) (by simp)]
  simp

theorem fadeEnd_mem_dueEvents {s : State} {h : HeadId} {l : Layer} : .fadeEnd h l ∈ s.dueEvents ↔ ∃ shown f, f ≤ 1 ∧
    ((s.head h).slot l = .rising shown f ∨ ∃ next, (s.head h).slot l = .falling shown next f) := by
  rw [mem_dueEvents_iff (by simp) (by simp)]
  simp

theorem tick_only (s : State) : OnlyChanges [.time, .run, .heads, .link, .ports, .due] s s.tick := by
  intro b hb
  cases b <;> first | exact absurd (by decide) hb | rfl

/-- No command but a break takes a free choice. -/
theorem choices_of_exec {c : Instr} {s t : State} (h : OnlyChanges (changes c) s t) (hb : ∀ p, c ≠ .lineBreak p) :
    t.choices = s.choices := by
  refine h.choices ?_
  cases c <;> try exact of_decide_eq_true rfl
  case lineBreak p => exact absurd rfl (hb p)

/-- Settles O2: with nothing ready a step is a millisecond, else it takes a ready thing; a command's blocks are those of `changes`. -/
theorem everyStepIsAnsweredByTheMachine : Obligations.EveryStepIsAnsweredByTheMachine := by
  refine ⟨fun s hp => ⟨s.idle, by unfold step; rw [hp], fun hr => ?_, fun hr => ?_⟩, fun c s => ?_⟩
  · rw [idle_of_quiet hr]
    refine ⟨rfl, hp, tick_only s, fun hrun => if_neg hrun, fun hrun => ?_, fun h => ?_, fun h l => ?_, followExpiry_mem_dueEvents,
      fun g l => floorEnd_mem_dueEvents, fun h l => fadeEnd_mem_dueEvents⟩
    · rw [State.tick_run, if_pos hrun, RunQueue.entries_tick]
      refine ⟨List.map_congr_left fun e _ => ?_, fun g l => ?_⟩
      · cases e with
        | follow c m full n => cases m <;> rfl
        | deferred => rfl
      · rw [RunQueue.table_tick]
        rfl
    · rw [State.head_tick]
      exact ⟨rfl, rfl, rfl, rfl, rfl⟩
    · rw [State.head_tick, Head.slot_tick]
      cases (s.head h).slot l <;> rfl
  · obtain ⟨c, hc, hpend, hdue, ho⟩ := idle_of_ready hr
    exact ⟨⟨c, hc, hpend, hdue⟩, ho⟩
  · obtain ⟨t, ht, ho⟩ := exec_only c s
    exact ⟨t, ht, ho.pending (by cases c <;> exact of_decide_eq_true rfl), choices_of_exec ho⟩

end Sys2Proof.Machine
end

section
/-! Raised causes on a port (R162, R163) and the byte layouts (R168, R173, R174): O13 and O16. -/

namespace Sys2Proof.Machine

/-! ## The NOTICE of a raised cause -/

theorem putNotice_new {r : Raise} {out : List OutFrame} (h : ∀ f ∈ out, f.noticeOf r.cause = false) :
    putNotice r out = out ++ [.notice r] := by
  unfold putNotice
  rw [if_neg]
  rw [List.any_eq_true]
  rintro ⟨f, hf, hn⟩
  rw [h f hf] at hn
  cases hn

/-- A waiting NOTICE takes the new detail at its place (R163). -/
theorem putNotice_waiting {r x : Raise} {before after : List OutFrame} (hx : x.cause = r.cause)
    (h : ∀ f ∈ before ++ after, f.noticeOf r.cause = false) :
    putNotice r (before ++ .notice x :: after) = before ++ .notice r :: after := by
  have hnotice : OutFrame.noticeOf r.cause (.notice x) = true := decide_eq_true hx
  have keep {out : List OutFrame} (ho : ∀ f ∈ out, f.noticeOf r.cause = false) :
      out.map (fun f => if f.noticeOf r.cause = true then OutFrame.notice r else f) = out := by
    conv_rhs => rw [← List.map_id out]
    refine List.map_congr_left fun f hf => ?_
    rw [ho f hf]
    rfl
  unfold putNotice
  rw [if_pos (List.any_eq_true.2 ⟨.notice x, by simp, hnotice⟩), List.map_append, List.map_cons, if_pos hnotice,
    keep fun f hf => h f (List.mem_append_left _ hf), keep fun f hf => h f (List.mem_append_right _ hf)]

theorem PortUnit.outgoing_raise (u : PortUnit) (r : Raise) :
    (u.raise r).outgoing = if hasCause u.enabled r.cause = true then putNotice r u.outgoing else u.outgoing := rfl

/-- Settles O13: the three parts that a raise writes, each by its own rule; a pending set in code order names a cause once. -/
theorem raisingACauseActsOnThePortsSets : Obligations.RaisingACauseActsOnThePortsSets := by
  intro u r
  refine ⟨⟨rfl, rfl, rfl, rfl, rfl, rfl, rfl, rfl⟩, rfl, rfl, mem_putRaise r _, fun x hx => mem_putRaise_iff hx _, fun hrise => ⟨fun x hx hc => ?_, putRaise_rise hrise r⟩,
    rfl, fun x => ?_, fun hen => ?_, fun hen hnone => ?_, fun hen before after x hx hout hother => ?_⟩
  · exact (putRaise_rise hrise r).unique hx (mem_putRaise r _) hc
  · rw [Machine.repeats_raise, Bool.or_eq_true, Bool.and_eq_true, decide_eq_true_iff, PortUnit.isPending_iff]
  · rw [PortUnit.outgoing_raise, hen, if_neg Bool.false_ne_true]
  · rw [PortUnit.outgoing_raise, if_pos hen, putNotice_new hnone]
  · rw [PortUnit.outgoing_raise, if_pos hen, hout, putNotice_waiting hx hother]

/-! ## Lengths on the wire -/

@[simp] theorem length_le2 (n : Nat) : (le2 n).length = 2 := rfl

@[simp] theorem length_cueBytes (n : CueNum) : (cueBytes n).length = 3 := rfl

@[simp] theorem length_optCueBytes (n : Option CueNum) : (optCueBytes n).length = 3 := by cases n <;> rfl

@[simp] theorem length_partBytes (t : Option TextPart) : (partBytes t).length = 7 := by cases t <;> rfl

@[simp] theorem length_slotBytes (x : Slot) : x.bytes.length = 17 := by cases x <;> simp [Slot.bytes]

theorem length_headBytes (s : State) (h : HeadId) : (headBytes s h).length = 41 := by simp [headBytes]

theorem length_entryBytes (e : RunEntry) : e.bytes.length = if e.isFollow = true then 11 else 7 := by
  cases e with
  | follow c m full left => cases m <;> rfl
  | deferred g l c o => rfl

theorem length_entriesBytes (es : List RunEntry) : (es.flatMap RunEntry.bytes).length =
    11 * (es.filter RunEntry.isFollow).length + 7 * (es.filter (fun e => !e.isFollow)).length := by
  induction es with
  | nil => rfl
  | cons e es ih =>
    rw [List.flatMap_cons, List.length_append, ih, length_entryBytes]
    cases he : e.isFollow <;> simp [he] <;> omega

theorem length_groupLayerBytes (x : GroupLayer) : x.bytes.length = 5 := by simp [GroupLayer.bytes]

theorem length_runBytes (r : RunQueue) : r.bytes.length = 81 + 11 * (r.entries.filter RunEntry.isFollow).length +
    7 * (r.entries.filter (fun e => !e.isFollow)).length := by
  have htable : (allGroupLayers.flatMap (fun gl => (r.table gl.1 gl.2).bytes)).length = 80 := by
    rw [List.length_flatMap, List.map_congr_left (fun gl _ => length_groupLayerBytes (r.table gl.1 gl.2))]
    rfl
  rw [RunQueue.bytes, List.length_append, List.length_cons, length_entriesBytes, htable]
  omega

theorem length_positionBytes (s : State) (p : Port) : (s.engine.bytes ++ s.run.bytes ++ s.arbiter.bytes p ++ s.watch.bytes).length =
    112 + 11 * (s.run.entries.filter RunEntry.isFollow).length
      + 7 * (s.run.entries.filter (fun e => !e.isFollow)).length := by
  have hengine : s.engine.bytes.length = 8 := by simp [ShowEngine.bytes]
  have harbiter : (s.arbiter.bytes p).length = 11 := rfl
  have hwatch : s.watch.bytes.length = 12 := rfl
  rw [List.length_append, List.length_append, List.length_append, length_runBytes, hengine, harbiter, hwatch]
  omega

/-! ## The layouts of frames -/

/-- A 16-bit value of two bytes is written as these bytes. -/
theorem le2_of_toNat {x : BitVec 16} {lo hi : Byte} (h : x.toNat = lo.toNat + 256 * hi.toNat) : le2 x.toNat = [lo, hi] := by
  rw [h]
  exact le2_nat2 lo hi

theorem byteOf_mod (n : Nat) : byteOf (n % 256) = byteOf n := BitVec.eq_of_toNat_eq (by simp [byteOf])

theorem cueBytes_eq (n : CueNum) :
    cueBytes n = [BitVec.ofNat 8 (n.major % 256), BitVec.ofNat 8 (n.major / 256), BitVec.ofNat 8 n.minor] := by
  show _ = [byteOf (n.major % 256), byteOf (n.major / 256), byteOf n.minor]
  rw [byteOf_mod]
  rfl

theorem layerByte_eq (l : Layer) : layerByte l = if l = .base then 1 else 2 := by cases l <;> rfl

theorem frameBytes_eq (tag kind : Byte) (payload : List Byte) (lo hi : Byte)
    (h : (crc16 (tag :: kind :: BitVec.ofNat 8 payload.length :: payload)).toNat = lo.toNat + 256 * hi.toNat) :
    frameBytes tag kind payload = [0xC3, tag, kind, BitVec.ofNat 8 payload.length] ++ payload ++ [lo, hi] := by
  unfold frameBytes frameCrc byteOf
  rw [le2_of_toNat h]
  rfl

/-- A command's frame from the code and the payload of its kind. -/
theorem commandFrame_eq {c : Command} {code : Byte} {payload : List Byte} (hcode : c.body.kind.code = code)
    (hpayload : c.body.payload = payload) (seq lo hi : Byte)
    (h : (crc16 ([BitVec.ofNat 8 c.head.val, seq, code, BitVec.ofNat 8 payload.length] ++ payload)).toNat =
      lo.toNat + 256 * hi.toNat) :
    c.frame seq = [0xA5, BitVec.ofNat 8 c.head.val, seq, code, BitVec.ofNat 8 payload.length] ++ payload ++ [lo, hi] := by
  have hcore : c.core seq = [BitVec.ofNat 8 c.head.val, seq, code, BitVec.ofNat 8 payload.length] ++ payload := by
    unfold Command.core
    rw [hcode, hpayload]
    rfl
  unfold Command.frame crcBytes
  rw [hcore, le2_of_toNat h]
  rfl

/-- Settles O16: each layout is its parts' bytes, whose lengths do not depend on their values but for the Run Queue's entries. -/
theorem frameSizesAndCheckValue : Obligations.FrameSizesAndCheckValue := by
  refine ⟨by decide +kernel, length_positionBytes, length_headBytes, frameBytes_eq, fun c seq lo hi code payload hbody hcrc => ?_⟩
  rcases hbody with ⟨l, text, fade, n, hb, rfl, rfl⟩ | ⟨l, fade, n, hb, rfl, rfl⟩ | ⟨l, fade, hb, rfl, rfl⟩ | ⟨hb, rfl, rfl⟩
  · refine commandFrame_eq (by rw [hb]; rfl) ?_ seq lo hi hcrc
    rw [hb, CmdBody.payload, cueBytes_eq, layerByte_eq]
    rfl
  · refine commandFrame_eq (by rw [hb]; rfl) ?_ seq lo hi hcrc
    rw [hb, CmdBody.payload, optCueBytes, cueBytes_eq, layerByte_eq]
    rfl
  · refine commandFrame_eq (by rw [hb]; rfl) ?_ seq lo hi hcrc
    rw [hb, CmdBody.payload, optCueBytes, layerByte_eq]
    rfl
  · exact commandFrame_eq (by rw [hb]; rfl) (by rw [hb]; rfl) seq lo hi hcrc

end Sys2Proof.Machine
end

section
/-! The holder's requests (R24 to R28, R35, R36): what the owners of OPEN, GO and BACK answer in each test's case, and the
statements O18, O19, O20, O22 and O25 assembled from that. -/

namespace Sys2Proof.Machine

/-! ## The holder test and the optional cue -/

theorem isHolder_eq_false {s : State} {p : Port} (h : s.arbiter.holder ≠ some p) : s.isHolder p = false :=
  decide_eq_false h

theorem owner_notCaller {k : ReqKind} (hk : k = .openShow ∨ k = .closeShow ∨ k = .go ∨ k = .back ∨ k = .standby ∨ k = .beat)
    {s : State} {p : Port} (hh : s.arbiter.holder ≠ some p) (pl : List Byte) : k.owner p pl s = .refuse .notCaller [] := by
  have htest := isHolder_eq_false hh
  rcases hk with rfl | rfl | rfl | rfl | rfl | rfl
  · exact if_pos htest
  · exact if_pos htest
  · exact if_pos htest
  · exact if_pos htest
  · exact if_pos htest
  · exact if_pos htest

/-- Settles O18: the six owners test the holder first, and NOT_CALLER does not lock. -/
theorem holderRequestsNeedTheCallRight : Obligations.HolderRequestsNeedTheCallRight := fun s p k r hk hs hx hh =>
  refuses_of_owner hs hx (exec_command k p s) (owner_notCaller hk hh r.payload) rfl

/-- A payload of no bytes or three is an optional cue. -/
theorem optCue_payload {pl : List Byte} (h : pl.length = 0 ∨ pl.length = 3) : pl = [] ∨ ∃ lo hi mi, pl = [lo, hi, mi] :=
  h.imp List.length_eq_zero_iff.1 List.length_eq_three.1

/-! ## OPEN, test by test (R25, R26) -/

section
variable {p : Port} {s : State} {pl : List Byte}

theorem ownOpen_open (hh : s.arbiter.holder = some p) (hopen : s.engine.state ≠ .idle) : ownOpen p pl s = .refuse .state [] := by
  simp [ownOpen, isHolder_iff.2 hh, hopen]

theorem ownOpen_first {c : CueRec} (hh : s.arbiter.holder = some p) (hidle : s.engine.state = .idle)
    (hc : firstCue s.cues = some c) : ownOpen p [] s = .done (s.openAt c.num) (cueBytes c.num) := by
  simp [ownOpen, isHolder_iff.2 hh, hidle, hc]

theorem ownOpen_emptyTable (hh : s.arbiter.holder = some p) (hidle : s.engine.state = .idle) (hnil : s.cues = []) :
    ownOpen p [] s = .refuse .noCue [] := by
  simp [ownOpen, isHolder_iff.2 hh, hidle, hnil, firstCue]

theorem ownOpen_outOfRange {lo hi mi : Byte} (hh : s.arbiter.holder = some p) (hidle : s.engine.state = .idle)
    (hv : (cueOf lo hi mi).valid = false) : ownOpen p [lo, hi, mi] s = .refuse .range [] := by
  simp [ownOpen, isHolder_iff.2 hh, hidle, hv]

theorem ownOpen_absentCue {lo hi mi : Byte} (hh : s.arbiter.holder = some p) (hidle : s.engine.state = .idle)
    (hv : (cueOf lo hi mi).valid = true) (hn : findCue s.cues (cueOf lo hi mi) = none) :
    ownOpen p [lo, hi, mi] s = .refuse .noCue [] := by
  simp [ownOpen, isHolder_iff.2 hh, hidle, hv, hn]

theorem ownOpen_present {lo hi mi : Byte} {c : CueRec} (hh : s.arbiter.holder = some p) (hidle : s.engine.state = .idle)
    (hv : (cueOf lo hi mi).valid = true) (hc : findCue s.cues (cueOf lo hi mi) = some c) :
    ownOpen p [lo, hi, mi] s = .done (s.openAt (cueOf lo hi mi)) (cueBytes (cueOf lo hi mi)) := by
  simp [ownOpen, isHolder_iff.2 hh, hidle, hv, hc, findCue_num hc]

end

theorem findCue_nil (n : CueNum) : findCue [] n = none := rfl

/-- Settles O19: the state, then the range of a cue given, then the presence of the cue. -/
theorem openTests : Obligations.OpenTests := by
  intro s p r hs hx hh
  refine ⟨fun hopen => ?state, fun hidle hbad => ?range, fun hidle hval hnone => ?noCue⟩
  case state => exact refuses_of_owner hs hx rfl (ownOpen_open hh hopen) rfl
  case range =>
    obtain ⟨n, hn, hv⟩ := hbad
    rcases optCue_payload (of_decide_eq_true hx.length) with hpl | ⟨lo, hi, mi, hpl⟩ <;> rw [hpl] at hn <;> cases hn
    exact refuses_of_owner hs hx rfl (hpl ▸ ownOpen_outOfRange hh hidle hv) rfl
  case noCue =>
    refine refuses_of_owner hs hx rfl (owner := ownOpen) ?_ rfl
    rcases optCue_payload (of_decide_eq_true hx.length) with hpl | ⟨lo, hi, mi, hpl⟩ <;> rw [hpl] at hnone hval ⊢
    · rcases hnone with hnil | ⟨n, hn, -⟩
      · exact ownOpen_emptyTable hh hidle hnil
      · cases hn
    · refine ownOpen_absentCue hh hidle (hval _ rfl) ?_
      rcases hnone with hnil | ⟨n, hn, hnone⟩
      · rw [hnil]; rfl
      · cases hn; exact hnone

/-! ## The order of the cue table (R1) -/

theorem find?_smallest {cues : List CueRec} (hasc : cues.Pairwise (fun a b => a.num.lt b.num = true)) (f : CueRec → Bool)
    {P : CueNum → Prop} (hf : ∀ c, f c = true ↔ P c.num) : SmallestOf cues P (cues.find? f) := by
  induction hasc with
  | nil => nofun
  | @cons a cues ha _ ih =>
    by_cases hfa : f a = true
    · rw [List.find?_cons_of_pos hfa]
      exact ⟨List.mem_cons_self, (hf a).1 hfa, fun d hd _ => (List.mem_cons.1 hd).imp id (ha d)⟩
    · rw [List.find?_cons_of_neg hfa]
      have hskip {d : CueRec} (hd : d ∈ a :: cues) (hpd : P d.num) : d ∈ cues :=
        (List.mem_cons.1 hd).resolve_left fun he => hfa ((hf a).2 (he ▸ hpd))
      cases h : cues.find? f with
      | none =>
        rw [h] at ih
        exact fun d hd hpd => ih d (hskip hd hpd) hpd
      | some c =>
        rw [h] at ih
        obtain ⟨hc, hpc, hleast⟩ := ih
        exact ⟨List.mem_cons_of_mem _ hc, hpc, fun d hd hpd => hleast d (hskip hd hpd) hpd⟩

theorem firstCue_smallest {cues : List CueRec} (hasc : cues.Pairwise (fun a b => a.num.lt b.num = true)) :
    SmallestOf cues (fun _ => True) (firstCue cues) := by
  cases hasc with
  | nil => nofun
  | cons ha _ => exact ⟨List.mem_cons_self, trivial, fun d hd _ => (List.mem_cons.1 hd).imp id (ha d)⟩

theorem getLast?_filter_largest {cues : List CueRec} (hasc : cues.Pairwise (fun a b => a.num.lt b.num = true)) (f : CueRec → Bool)
    {P : CueNum → Prop} (hf : ∀ c, f c = true ↔ P c.num) : LargestOf cues P (cues.filter f).getLast? := by
  cases h : (cues.filter f).getLast? with
  | none =>
    intro d hd hpd
    have hmem : d ∈ cues.filter f := List.mem_filter.2 ⟨hd, (hf d).2 hpd⟩
    rw [List.getLast?_eq_none_iff.1 h] at hmem
    cases hmem
  | some c =>
    obtain ⟨before, hlist⟩ := List.getLast?_eq_some_iff.1 h
    have hc : c ∈ cues.filter f := List.mem_of_getLast? h
    obtain ⟨hmem, hfc⟩ := List.mem_filter.1 hc
    refine ⟨hmem, (hf c).1 hfc, fun d hd hpd => ?_⟩
    have hd' : d ∈ cues.filter f := List.mem_filter.2 ⟨hd, (hf d).2 hpd⟩
    have hpair := hasc.filter f
    rw [hlist] at hd' hpair
    rcases List.mem_append.1 hd' with hd' | hd'
    · exact .inr ((List.pairwise_append.1 hpair).2.2 d hd' c (List.mem_singleton_self c))
    · exact .inl (List.mem_singleton.1 hd')

/-! ## OPEN opens the show (R26) -/

/-- What OPEN's owner answers where every test passes. -/
theorem ownOpen_opens {s : State} {p : Port} {r : Request} {n : CueNum} (hx : Executes s p .openShow r)
    (hh : s.arbiter.holder = some p) (hidle : s.engine.state = .idle)
    (hcue : optCueOf r.payload = none ∧ (firstCue s.cues).map CueRec.num = some n ∨
      optCueOf r.payload = some n ∧ n.valid = true ∧ (findCue s.cues n).isSome = true) :
    ownOpen p r.payload s = .done (s.openAt n) (cueBytes n) := by
  rcases optCue_payload (of_decide_eq_true hx.length) with hpl | ⟨lo, hi, mi, hpl⟩ <;> rw [hpl] at hcue ⊢
  · rcases hcue with ⟨-, hfirst⟩ | ⟨hsome, -⟩
    · obtain ⟨c, hc, rfl⟩ := Option.map_eq_some_iff.1 hfirst
      exact ownOpen_first hh hidle hc
    · cases hsome
  · rcases hcue with ⟨hnone, -⟩ | ⟨hsome, hv, hp⟩
    · cases hnone
    · cases hsome
      obtain ⟨c, hc⟩ := Option.isSome_iff_exists.1 hp
      exact ownOpen_present hh hidle hv hc

/-- Settles O20: the owner writes the position and arms the settling beat; the table being ascending, the first record that passes
a test is the smallest, and the last the largest. -/
theorem openOpensTheShow : Obligations.OpenOpensTheShow := by
  refine ⟨fun s p r n hx hh hidle hcue => ?_, CueNum.lt_iff, fun s hasc => ?_⟩
  · obtain ⟨t, hdone, hports⟩ := completes_of_owner (i := .openShow p) (raised := fun _ => [.opened n]) hx rfl
      (ownOpen_opens hx hh hidle hcue) ((openAt_keeps s n).mono (cs := [.engine, .beat, .ports])) (by decide)
      (fun q => pending_raiseAll _ _ q)
    exact ⟨t, hdone, hports.engine, hports.beat⟩
  · have hpair := cuesAscending_iff.1 hasc.1
    refine ⟨firstCue_smallest hpair, fun n => ⟨?_, ?_, ?_⟩⟩
    · exact find?_smallest hpair _ (fun _ => Iff.rfl)
    · exact find?_smallest hpair _ (fun c => by simp)
    · exact getLast?_filter_largest hpair _ (fun _ => Iff.rfl)

/-! ## GO, test by test (R27, R28) -/

section
variable {p : Port} {s : State} {pl : List Byte}

theorem ownGo_idle (hh : s.arbiter.holder = some p) (hst : s.engine.state = .idle) : ownGo p pl s = .refuse .state [] := by
  simp [ownGo, isHolder_iff.2 hh, hst]

theorem ownGo_held (hh : s.arbiter.holder = some p) (hst : s.engine.state = .held) : ownGo p pl s = .refuse .held [] := by
  simp [ownGo, isHolder_iff.2 hh, hst]

theorem ownGo_plain {n : CueNum} (hh : s.arbiter.holder = some p) (hst : s.engine.state = .ready ∨ s.engine.state = .running)
    (hn : s.engine.standby = some n) : ownGo p [] s = s.goFire p n := by
  rcases hst with hst | hst <;> simp [ownGo, isHolder_iff.2 hh, hst, hn]

theorem ownGo_plain_atEnd (hh : s.arbiter.holder = some p) (hst : s.engine.state = .ready ∨ s.engine.state = .running)
    (hn : s.engine.standby = none) : ownGo p [] s = .refuse .atEnd [] := by
  rcases hst with hst | hst <;> simp [ownGo, isHolder_iff.2 hh, hst, hn]

section
variable {lo hi mi : Byte}

theorem ownGo_outOfRange (hh : s.arbiter.holder = some p) (hst : s.engine.state = .ready ∨ s.engine.state = .running)
    (hv : (cueOf lo hi mi).valid = false) : ownGo p [lo, hi, mi] s = .refuse .range [] := by
  rcases hst with hst | hst <;> simp [ownGo, isHolder_iff.2 hh, hst, hv]

theorem ownGo_cue_atEnd (hh : s.arbiter.holder = some p) (hst : s.engine.state = .ready ∨ s.engine.state = .running)
    (hv : (cueOf lo hi mi).valid = true) (hn : s.engine.standby = none) : ownGo p [lo, hi, mi] s = .refuse .atEnd [] := by
  rcases hst with hst | hst <;> simp [ownGo, isHolder_iff.2 hh, hst, hv, hn]

theorem ownGo_cue {n : CueNum} (hh : s.arbiter.holder = some p) (hst : s.engine.state = .ready ∨ s.engine.state = .running)
    (hv : (cueOf lo hi mi).valid = true) (hn : s.engine.standby = some n) :
    ownGo p [lo, hi, mi] s = if cueOf lo hi mi = n then s.goFire p n else .refuse .stale [] := by
  rcases hst with hst | hst <;> simp [ownGo, isHolder_iff.2 hh, hst, hv, hn]

end

end

/-- Settles O22: the state, then the range of a cue given, then the standby cue against it. -/
theorem goTests : Obligations.GoTests := by
  intro s p r hs hx hh
  have hpayload := optCue_payload (of_decide_eq_true hx.length)
  refine ⟨fun hst => ?state, fun hst => ?held, fun hst hbad => ?range, fun hst hval hnone => ?atEnd,
    fun hst n m hn hv hm hne => ?stale⟩
  case state => exact refuses_of_owner hs hx rfl (ownGo_idle hh hst) rfl
  case held => exact refuses_of_owner hs hx rfl (ownGo_held hh hst) rfl
  case range =>
    obtain ⟨n, hn, hv⟩ := hbad
    rcases hpayload with hpl | ⟨lo, hi, mi, hpl⟩ <;> rw [hpl] at hn <;> cases hn
    exact refuses_of_owner hs hx rfl (hpl ▸ ownGo_outOfRange hh hst hv) rfl
  case atEnd =>
    refine refuses_of_owner hs hx rfl (owner := ownGo) ?_ rfl
    rcases hpayload with hpl | ⟨lo, hi, mi, hpl⟩
    · rw [hpl, ownGo_plain_atEnd hh hst hnone]
    · have hv : (cueOf lo hi mi).valid = true := hval _ (by rw [hpl]; rfl)
      rw [hpl, ownGo_cue_atEnd hh hst hv hnone]
  case stale =>
    rcases hpayload with hpl | ⟨lo, hi, mi, hpl⟩ <;> rw [hpl] at hn <;> cases hn
    refine refuses_of_owner hs hx rfl (owner := ownGo) ?_ rfl
    rw [hpl, ownGo_cue hh hst hv hm, if_neg hne]

/-! ## BACK, test by test (R35, R36) -/

section
variable {p : Port} {s : State} {pl : List Byte}

theorem ownBack_notStarted (hh : s.arbiter.holder = some p) (hst : s.engine.state = .idle ∨ s.engine.state = .ready) :
    ownBack p pl s = .refuse .state [] := by
  rcases hst with hst | hst <;> simp [ownBack, isHolder_iff.2 hh, hst]

theorem ownBack_held (hh : s.arbiter.holder = some p) (hst : s.engine.state = .held) : ownBack p pl s = .refuse .held [] := by
  simp [ownBack, isHolder_iff.2 hh, hst]

theorem ownBack_noCue (hh : s.arbiter.holder = some p) (hst : s.engine.state = .running)
    (hnone : s.engine.current.bind (cueBefore s.cues) = none) : ownBack p pl s = .refuse .noCue [] := by
  simp only [ownBack, isHolder_iff.2 hh, hst, Bool.true_eq_false, if_false, hnone]

theorem ownBack_fires {c : CueRec} (hh : s.arbiter.holder = some p) (hst : s.engine.state = .running)
    (hc : s.engine.current.bind (cueBefore s.cues) = some c) :
    ownBack p pl s = .done (s.fire c.num (.port p) .back) (firedBytes c.num (s.fire c.num (.port p) .back)) := by
  simp only [ownBack, isHolder_iff.2 hh, hst, Bool.true_eq_false, if_false, hc]

end

/-- Settles O25: the state, then the cue before current. -/
theorem backTests : Obligations.BackTests := by
  intro s p r hs hx hh
  refine ⟨fun hst => refuses_of_owner hs hx rfl (ownBack_notStarted hh hst) rfl,
    fun hst => refuses_of_owner hs hx rfl (ownBack_held hh hst) rfl, fun hst hnone => ?_⟩
  exact refuses_of_owner hs hx rfl (ownBack_noCue hh hst hnone) rfl

end Sys2Proof.Machine
end

section
/-! Firings by GO and BACK, and CLOSE: O21, O23, O24, O26 and O28. -/

namespace Sys2Proof.Machine

/-! ## An execution that its owner answers DONE -/

section
variable {s t : State} {p : Port} {k : ReqKind} {r : Request} {pl : List Byte}

theorem exec_done (hx : Executes s p k r) (ho : k.owner p r.payload s = .done t pl) :
    exec (k.command p) s = .next (t.respond p r .done pl).settle := by
  rw [exec_command, serve_done hx ho]

theorem answers_done {bs : List Block} (hx : Executes s p k r) (hk : Keeps bs s t) :
    Answers (t.respond p r .done pl).settle p r .done pl := by
  obtain ⟨-, -, hsync, -⟩ := turn_some hx.turn
  exact answers_respond (hk.sync hsync) r .done pl

/-- The response and the end of the event touch the ports alone, and no cause. -/
theorem respond_settle_only (t : State) (p : Port) (r : Request) (pl : List Byte) :
    OnlyChanges [.ports] t (t.respond p r .done pl).settle := (respond_keeps t p r .done pl).1.trans (settle_only _)

end

/-! ## GO (R28) -/

theorem ownGo_fires {s : State} {p : Port} {r : Request} {n : CueNum} (hx : Executes s p .go r) (hh : s.arbiter.holder = some p)
    (hst : s.engine.state = .ready ∨ s.engine.state = .running) (hn : s.engine.standby = some n)
    (hcue : optCueOf r.payload = none ∨ optCueOf r.payload = some n ∧ n.valid = true) :
    ownGo p r.payload s = s.goFire p n := by
  rcases optCue_payload (of_decide_eq_true hx.length) with hpl | ⟨lo, hi, mi, hpl⟩ <;> rw [hpl] at hcue ⊢
  · exact ownGo_plain hh hst hn
  · rcases hcue with hnone | ⟨hsome, hv⟩
    · cases hnone
    · cases hsome
      rw [ownGo_cue hh hst hv hn, if_pos rfl]

/-- The response to a firing names the fired cue and the cue after it. -/
theorem firedBytes_fire {s : State} (hst : s.engine.state = .ready ∨ s.engine.state = .running) (n : CueNum) (o : Origin)
    (k : FiringKind) : firedBytes n (s.fire n o k) = cueBytes n ++ optCueBytes ((cueAfter s.cues n).map CueRec.num) := by
  rw [firedBytes, (fire_done n o k hst).position]

/-- Settles O23: the owner fires the standby cue, and the firing does what every firing does. -/
theorem goFiresTheStandbyCue : Obligations.GoFiresTheStandbyCue := by
  intro s p r n hx hh hst hn hcue
  have ho := ownGo_fires hx hh hst hn hcue
  refine ⟨_, exec_done (k := .go) hx ho, ?_, ((fire_done n (.port p) .go hst).respond p r .done _).settle⟩
  rw [← firedBytes_fire hst n (.port p) .go]
  exact answers_done hx (fire_keeps s n _ _)

/-- Settles O24: the firing offers its changes, and the answer touches none of them. -/
theorem goAppliesOrDefersItsChanges : Obligations.GoAppliesOrDefersItsChanges := by
  intro s p r n c hlaw hx hh hst hn hcue hc
  refine ⟨_, exec_done (k := .go) hx (ownGo_fires hx hh hst hn hcue), ?_⟩
  exact ((fire_offersDone hlaw hc (.port p) .go (by decide)).respond p r .done _).settle

/-! ## BACK (R36) -/

/-- A BACK removes any FOLLOW entry, recalls the cue's change from each of its group-layers, and completes. -/
theorem fire_back {s : State} {n : CueNum} {c : CueRec} (hc : findCue s.cues n = some c) (o : Origin) :
    s.fire n o .back = (c.body.groupLayers.foldl (fun t gl => t.recall n gl.1 gl.2)
      ((s.movePosition n).withRun s.run.dropFollow)).completeFiring n o .back := by
  have hfollow : (s.movePosition n).setFollow .back = (s.movePosition n).withRun s.run.dropFollow := by
    unfold State.setFollow
    simp only [Option.toList_none, List.append_nil]
    rfl
  unfold State.fire
  rw [hfollow, State.offerChanges, show findCue ((s.movePosition n).withRun s.run.dropFollow).cues n = some c from hc]
  simp only [if_true]

section
variable {s : State} {n : CueNum} {c : CueRec} (hc : findCue s.cues n = some c) (o : Origin)
include hc

theorem fire_back_run : (s.fire n o .back).run = (c.body.groupLayers.foldl (fun t gl => t.recall n gl.1 gl.2)
    ((s.movePosition n).withRun s.run.dropFollow)).run := by
  rw [fire_back hc, (completeFiring_keeps _ _ _ _).1.run]

theorem fire_back_entries : (s.fire n o .back).run.entries = s.run.entries.filter (fun e =>
    !e.isFollow && !c.body.groupLayers.any (fun gl => e.waitsOn gl.1 gl.2)) := by
  rw [fire_back_run hc, recalls_entries _ ((s.movePosition n).withRun s.run.dropFollow) hc]
  show (s.run.entries.filter _).filter _ = _
  rw [List.filter_filter]
  exact List.filter_congr fun e _ => Bool.and_comm _ _

theorem fire_back_applied : AppliedTo (fun g l => (g, l) ∈ c.body.groupLayers) c s (s.fire n o .back) := by
  have happlied := recalls_applied c.body.groupLayers (groupLayers_nodup _) ((s.movePosition n).withRun s.run.dropFollow) hc
  refine happlied.congr (fun _ => rfl) (fun k => ?_)
  rw [fire_back hc, (completeFiring_keeps _ _ _ _).1.head]

theorem fire_back_table (g : GroupId) (l : Layer) :
    (s.fire n o .back).run.table g l =
      (if (g, l) ∈ c.body.groupLayers then { owner := some n, floor := c.body.floor } else s.run.table g l) ∧
    (s.fire n o .back).run.entries.filter (RunEntry.waitsOn g l) =
      (if (g, l) ∈ c.body.groupLayers then [] else s.run.entries.filter (RunEntry.waitsOn g l)) := by
  obtain ⟨htable, hwaits, -⟩ := recalls_run c.body.groupLayers ((s.movePosition n).withRun s.run.dropFollow) hc g l
  rw [fire_back_run hc, htable, hwaits]
  refine ⟨by cases l <;> rfl, ?_⟩
  split
  · rfl
  · exact dropFollow_waiting s.run g l

end

/-- A cue of the table comes after the one before it (R1). -/
theorem cueAfter_of_cueBefore {cues : List CueRec} {m n : CueNum} (hb : (cueBefore cues m).map CueRec.num = some n)
    (hm : (findCue cues m).isSome = true) : (cueAfter cues n).isSome = true := by
  obtain ⟨b, hbefore, rfl⟩ := Option.map_eq_some_iff.1 hb
  obtain ⟨-, hlt⟩ := List.mem_filter.1 (List.mem_of_getLast? hbefore)
  obtain ⟨x, hx, rfl⟩ := findCue_isSome.1 hm
  exact List.find?_isSome.2 ⟨x, hx, hlt⟩

/-- Settles O26: BACK's owner fires the cue before current as a BACK, whose changes are recalled and applied at once. -/
theorem backRecallsTheCueBefore : Obligations.BackRecallsTheCueBefore := by
  intro s p r m n c hx hh hst hm hb hc
  obtain ⟨b, hbefore, hnum⟩ := Option.map_eq_some_iff.1 hb
  have ho : ownBack p r.payload s = .done (s.fire n (.port p) .back) (firedBytes n (s.fire n (.port p) .back)) := by
    rw [← hnum]
    exact ownBack_fires hh hst (by rw [hm]; exact hbefore)
  have hdone := ((fire_done n (.port p) .back (.inr hst)).respond p r .done (firedBytes n (s.fire n (.port p) .back))).settle
  refine ⟨_, exec_done (k := .back) hx ho, ?_, hdone,
    ((back_unskipped s n (.port p)).just nofun).respond p r .done _ |>.settle, fun hp => ?_, fire_back_entries hc _,
    (fire_back_applied hc _).congr (fun _ => rfl) (fun k => ((respond_settle_only _ p r _).head k)), ?_, fun g l => ?_⟩
  · rw [← firedBytes_fire (.inr hst) n (.port p) .back]
    exact answers_done hx (fire_keeps s n _ _)
  · have hafter := cueAfter_of_cueBefore hb hp
    have hend := hdone.endRaised
    rw [if_neg (fun hn => by rw [hn] at hafter; cases hafter)] at hend
    exact ⟨hafter, hend⟩
  · have hmoves := (fire_movesTo hc (.port p) .back).made
    simp only [true_or, decide_true, List.filter_true] at hmoves
    exact (hmoves.frames (respond_keeps _ p r .done _).1 (fun q => (pending_respond _ p r .done _ q).1)
      (fun q => (pending_respond _ p r .done _ q).2)).frames (settle_only _) (fun q => pending_settle _ q) (fun q => by simp)
  · obtain ⟨htable, hwaits⟩ := fire_back_table hc (.port p) g l
    exact ⟨fun hmem => ⟨htable.trans (if_pos hmem), hwaits.trans (if_pos hmem)⟩,
      fun hmem => ⟨htable.trans (if_neg hmem), hwaits.trans (if_neg hmem)⟩⟩

/-! ## CLOSE (R41, R42) -/

section
variable {p : Port} {s : State} {pl : List Byte}

theorem ownClose_idle (hh : s.arbiter.holder = some p) (hst : s.engine.state = .idle) : ownClose p pl s = .refuse .state [] := by
  simp [ownClose, isHolder_iff.2 hh, hst]

theorem ownClose_open (hh : s.arbiter.holder = some p) (hst : s.engine.state ≠ .idle) :
    ownClose p pl s = .done (s.closeDown p) [] := by
  simp [ownClose, isHolder_iff.2 hh, hst]

end

/-- CLOSE clears both slots of each enabled head and leaves a head's state and settings (R42). -/
theorem head_closeDown (s : State) (p : Port) (h : HeadId) (l : Layer) :
    ((s.closeDown p).head h).state = (s.head h).state ∧ ((s.closeDown p).head h).lang = (s.head h).lang ∧
    ((s.closeDown p).head h).group = (s.head h).group ∧ ((s.closeDown p).head h).gap = (s.head h).gap ∧
    ((s.closeDown p).head h).slot l =
      if (s.head h).enabled = true then (((s.head h).slot l).clear none).slot else (s.head h).slot l := by
  have hcore : ((s.closeDown p).head h).core = ((allHeads.foldl State.clearHead s.closePosition).head h).core := by
    unfold State.closeDown
    dsimp only
    rw [(raiseAll_keeps _ _).1.head, (withWatch_keeps _ _).1.head]
  rw [clearHeads_core h allHeads allHeads_nodup, show s.closePosition.head h = s.head h from rfl] at hcore
  rw [← Head.core_state, ← Head.core_lang, ← Head.core_group, ← Head.core_gap, ← Head.core_slot, hcore]
  by_cases hen : (s.head h).enabled = true
  · rw [if_pos ⟨mem_allHeads h, hen⟩, if_pos hen]
    cases l <;> exact ⟨rfl, rfl, rfl, rfl, rfl⟩
  · rw [if_neg (fun hx => hen hx.2), if_neg hen]
    exact ⟨rfl, rfl, rfl, rfl, Head.core_slot _ l⟩

/-- Settles O21: the owner's CLOSE, block by block; its clears are moves that ask for TAKEs and raise OVERRUN alone. -/
theorem closeTakesTheShowDown : Obligations.CloseTakesTheShowDown := by
  intro s p r hx hh
  refine ⟨fun hs hst => refuses_of_owner hs hx rfl (ownClose_idle hh hst) rfl, fun hst => ?_⟩
  obtain ⟨t, hrun, hans, hto, hframe, hports, hpending, -⟩ := done_of_owner (i := .closeShow p) hx rfl (ownClose_open hh hst)
    (closeDown_keeps s p) (by decide)
  have hexec : t = ((s.closeDown p).respond p r .done []).settle := by
    have := exec_done (k := .closeShow) hx (ownClose_open (pl := r.payload) hh hst)
    exact Host.Outcome.next.inj (hrun.symm.trans this)
  have raised (x : Cause) (hx : x ≠ .outOfStep) (ho : x ≠ .overrun) : RaisedJust s t x (if x = .closed then [.closed p] else []) := by
    rw [hexec]
    refine (((closeDown_raises x hx ho s p).just fun r hr => ?_).respond p _ .done []).settle
    split at hr
    next hclosed => rw [List.mem_singleton.1 hr, hclosed]; rfl
    next => cases hr
  refine ⟨t, hrun, hans, hframe, hports, ?_, ?_, fun g l => ?_, ?_, raised .closed (by decide) (by decide), fun x hxs => ?_, ?_,
    fun h l => ?_⟩
  · rw [hto.engine, State.closeDown_engine]
  · rw [hto.run, State.closeDown_run]; rfl
  · rw [hto.run, State.closeDown_run]
    cases l <;> exact vector_get_replicate _ _ _
  · rw [hto.watch, State.closeDown_watch]
  · simp only [List.mem_cons, List.not_mem_nil, or_false, not_or] at hxs
    obtain ⟨hclosed, hover, hout⟩ := hxs
    have := raised x hout hover
    rwa [if_neg hclosed] at this
  · rw [hexec]
    exact ((closeDown_movesTo s p).made.frames (respond_keeps _ p r .done _).1 (fun q => (pending_respond _ p r .done _ q).1)
      (fun q => (pending_respond _ p r .done _ q).2)).frames (settle_only _) (fun q => pending_settle _ q) (fun q => by simp)
  · rw [hto.head h]
    exact head_closeDown s p h l

/-! ## HOLD and RELEASE (R38 to R40) -/

section
variable {p : Port} {s : State} {pl : List Byte}

theorem ownHold_idle (hst : s.engine.state = .idle) : ownHold p pl s = .refuse .state [] := by
  simp [ownHold, hst]

theorem ownHold_held (hst : s.engine.state = .held) : ownHold p pl s = .done s [] := by
  simp [ownHold, hst]

theorem ownHold_open {fr : HeldFrom} (hst : s.engine.state = fr.state) : ownHold p pl s = .done (s.holdFrom fr) [] := by
  cases fr <;> simp [ownHold, hst, HeldFrom.state]

theorem ownRelease_held (hst : s.engine.state = .held) : ownRelease p pl s = .done s.releaseShow [] := if_pos hst

theorem ownRelease_other (hst : s.engine.state ≠ .held) : ownRelease p pl s = .refuse .state [] := if_neg hst

end

theorem endsHeldCount_eq_false {e : Instr} : endsHeldCount e = false ↔ e ≠ .followExpiry ∧ ∀ g l, e ≠ .floorEnd g l := by
  cases e <;> simp [endsHeldCount]

/-- Settles O28: HOLD writes the held-from state and RELEASE takes it back, arms the settling beat and drops the ends of frozen
counts. -/
theorem holdAndReleaseFreezeAndResume : Obligations.HoldAndReleaseFreezeAndResume := by
  refine ⟨fun s p r hs hx => ⟨fun hst => refuses_of_owner hs hx rfl (ownHold_idle hst) rfl,
      fun hst => onlyAnswers_of_owner hs hx rfl (ownHold_held hst), fun fr hst => ?hold⟩,
    fun s p r hs hx => ⟨fun hst => refuses_of_owner hs hx rfl (ownRelease_other hst) rfl, fun hst => ?release⟩⟩
  case hold =>
    obtain ⟨t, hdone, hports⟩ := completes_of_owner (i := .hold p) (raised := fun _ => [.held fr]) hx rfl (ownHold_open hst)
      ((holdFrom_keeps s fr).mono (cs := [.engine, .ports])) (by decide) (fun q => pending_raiseAll _ _ q)
    exact ⟨t, hdone, hports.engine⟩
  case release =>
    obtain ⟨t, hdone, hports⟩ := completes_of_owner (i := .release p) (raised := fun _ => [.released s.engine.heldFrom]) hx rfl
      (ownRelease_held hst) ((releaseShow_keeps s).mono (cs := [.engine, .beat, .due, .ports])) (by decide)
      (fun q => pending_raiseAll _ _ q)
    refine ⟨t, hdone, hports.engine, hports.beat, fun e => ?_⟩
    rw [hports.due]
    show e ∈ s.due.filter _ ↔ _
    rw [List.mem_filter, Bool.not_eq_true', endsHeldCount_eq_false]

end Sys2Proof.Machine
end

section
/-! A port that loses its standing at the Call Arbiter (R127, R130 to R132), and a request refused with a status that locks (R145,
R146): O17 and O36. -/

namespace Sys2Proof.Machine

/-! ## Causes raised one after another on a port -/

/-- The port after these causes have been raised on it, in their order. -/
def PortUnit.raises (u : PortUnit) (rs : List Raise) : PortUnit := rs.foldl PortUnit.raise u

section
variable (u : PortUnit) (rs : List Raise)

theorem PortUnit.raises_keeps : (u.raises rs).SameButFrames u ∧ (u.raises rs).sync = u.sync ∧ (u.raises rs).sending = u.sending := by
  unfold PortUnit.raises
  induction rs generalizing u with
  | nil => exact ⟨⟨rfl, rfl, rfl, rfl, rfl, rfl, rfl, rfl⟩, rfl, rfl⟩
  | cons r rs ih => exact ih (u.raise r)

theorem PortUnit.pending_raises : (u.raises rs).pending = raisedInto u.pending rs := by
  unfold PortUnit.raises raisedInto
  induction rs generalizing u with
  | nil => rfl
  | cons r rs ih => exact ih (u.raise r)

end

theorem mem_raisedInto_of_ne {x : Raise} {rs : List Raise} {pending : List Raise} (hx : x ∈ pending)
    (hne : ∀ r ∈ rs, x.cause ≠ r.cause) : x ∈ raisedInto pending rs := by
  unfold raisedInto
  induction rs generalizing pending with
  | nil => exact hx
  | cons r rs ih =>
    exact ih (mem_putRaise_of_ne hx (hne r List.mem_cons_self)) (fun y hy => hne y (List.mem_cons_of_mem _ hy))

/-! ## Leaving the arbiter -/

/-- What a port's leaving of the arbiter raises on each port: where it held the right, CALL_LOST on it and CALL_GRANTED on the head
of the claim list (R127, R129). -/
def CallArbiter.leaveRaises (a : CallArbiter) (p : Port) (way : CallWay) (x : Port) : List Raise :=
  if a.holder = some p then
    (if x = p then [.callLost way a.claims.head?] else []) ++
      (if a.claims.head? = some x then [.callGranted .passed (some p)] else [])
  else []

theorem port_raiseOn (s : State) (p : Port) (r : Raise) (x : Port) :
    (s.raiseOn p r).port x = (s.port x).raises (if x = p then [r] else []) := by
  by_cases hx : x = p
  · rw [hx, if_pos rfl]
    exact State.port_onPort_self _ _ _
  · rw [if_neg hx]
    exact State.port_onPort_ne _ _ hx

theorem PortUnit.raises_append (u : PortUnit) (rs rs' : List Raise) : u.raises (rs ++ rs') = (u.raises rs).raises rs' :=
  List.foldl_append

theorem port_leaveArbiter (s : State) (p : Port) (way : CallWay) (x : Port) :
    (s.leaveArbiter p way).port x = (s.port x).raises (s.arbiter.leaveRaises p way x) := by
  unfold State.leaveArbiter CallArbiter.leaveRaises
  split
  · unfold State.passRight
    dsimp only
    cases s.arbiter.claims.head? with
    | none =>
      dsimp only
      rw [port_raiseOn, if_neg (show ¬ (none = some x) from nofun), List.append_nil]
      rfl
    | some q =>
      dsimp only
      rw [port_raiseOn, port_raiseOn, PortUnit.raises_append]
      refine congrArg (PortUnit.raises _) (if_congr ?_ rfl rfl)
      rw [Option.some.injEq, eq_comm]
  · rfl

theorem leaveRaises_eq_nil {a : CallArbiter} {p : Port} {way : CallWay} {x : Port}
    (h : a.holder ≠ some p ∨ (x ≠ p ∧ a.claims.head? ≠ some x)) : a.leaveRaises p way x = [] := by
  unfold CallArbiter.leaveRaises
  rcases h with h | ⟨hx, hhead⟩
  · exact if_neg h
  · rw [if_neg hx, if_neg hhead]
    exact ite_self _

/-- What a leaving raises is CALL_LOST or CALL_GRANTED. -/
theorem leaveRaises_cause {a : CallArbiter} {p : Port} {way : CallWay} {x : Port} {r : Raise} (h : r ∈ a.leaveRaises p way x) :
    r.cause = .callLost ∨ r.cause = .callGranted := by
  unfold CallArbiter.leaveRaises at h
  split at h
  · rcases List.mem_append.1 h with h | h
    · split at h
      · rw [List.mem_singleton.1 h]; exact .inl rfl
      · cases h
    · split at h
      · rw [List.mem_singleton.1 h]; exact .inr rfl
      · cases h
  · cases h

theorem callLost_mem_leaves {a : CallArbiter} {p : Port} (hh : a.holder = some p) (way : CallWay) (pending : List Raise) :
    .callLost way a.claims.head? ∈ raisedInto pending (a.leaveRaises p way p) := by
  unfold CallArbiter.leaveRaises
  rw [if_pos hh, if_pos rfl]
  unfold raisedInto
  rw [List.foldl_append]
  refine mem_raisedInto_of_ne (mem_putRaise _ _) fun r hr => ?_
  split at hr
  · rw [List.mem_singleton.1 hr]; nofun
  · cases hr

theorem callGranted_mem_leaves {a : CallArbiter} {p q : Port} (hh : a.holder = some p) (hq : a.claims.head? = some q)
    (way : CallWay) (pending : List Raise) : .callGranted .passed (some p) ∈ raisedInto pending (a.leaveRaises p way q) := by
  unfold CallArbiter.leaveRaises
  rw [if_pos hh, if_pos hq]
  unfold raisedInto
  rw [List.foldl_append]
  exact mem_putRaise _ _

/-! ## A refusal (R145) -/

/-- The port with the refusal recorded and raised. -/
def PortUnit.noted (u : PortUnit) (tag kind : Byte) (st : Status) : PortUnit :=
  ({ u with capture := noteRefusal u.capture tag kind st } : PortUnit).raise (.refusal tag kind st)

/-- The port LOCKED, with the cause raised (R146). -/
def PortUnit.lock (u : PortUnit) (tag kind : Byte) (st : Status) : PortUnit :=
  ({ u with locked := true } : PortUnit).raise (.locked tag kind st)

section
variable (s : State) (p : Port) (tag kind : Byte) (st : Status)

theorem noteRefusal_eq : s.noteRefusal p tag kind st = s.onPort p (fun u => u.noted tag kind st) := by
  unfold State.noteRefusal State.raiseOn
  rw [onPort_onPort]
  rfl

theorem lockPort_eq : s.lockPort p tag kind st = (s.onPort p (fun u => u.lock tag kind st)).leaveArbiter p .lock := by
  unfold State.lockPort State.raiseOn
  rw [onPort_onPort]
  rfl

end

/-- A refusal without a lock is a write of its own port. -/
theorem refuse_eq_noted {s : State} {p : Port} {r : Request} {st : Status} {extra : List Byte}
    (hl : ¬ (st.locks = true ∧ (s.port p).lockPolicy = true)) :
    s.refuse p r st extra = s.onPort p (fun u => (u.noted r.tag r.kind st).make (responseFrame .response r st extra)) := by
  unfold State.refuse State.respond
  dsimp only
  rw [if_neg hl, noteRefusal_eq, onPort_onPort]

theorem refuse_eq_locked {s : State} {p : Port} {r : Request} {st : Status} {extra : List Byte}
    (hl : st.locks = true ∧ (s.port p).lockPolicy = true) : s.refuse p r st extra =
      ((s.onPort p (fun u => (u.noted r.tag r.kind st).lock r.tag r.kind st)).leaveArbiter p .lock).respond p r st extra := by
  unfold State.refuse
  dsimp only
  rw [if_pos hl, noteRefusal_eq, lockPort_eq, onPort_onPort]

theorem PortUnit.capture_noted (u : PortUnit) (tag kind : Byte) (st : Status) :
    (u.noted tag kind st).capture = (match u.capture with
      | none => some { tag := tag, kind := kind, status := st, more := false }
      | some c => some { c with more := true }) := by
  cases h : u.capture <;> simp [PortUnit.noted, noteRefusal, PortUnit.raise, h]

/-- The frames and the other items of a port once its answer has been made and its line has begun to send. -/
theorem PortUnit.answered (u : PortUnit) (f : OutFrame) :
    (u.make f).startSending.frames.getLast? = some f ∧ (u.make f).startSending.capture = u.capture ∧
    (u.make f).startSending.pending = u.pending ∧ (u.make f).startSending.queue = u.queue ∧
    (u.make f).startSending.locked = u.locked := by
  obtain ⟨hlocked, hqueue, hcapture, -⟩ := PortUnit.startSending_keeps_locked (u.make f)
  refine ⟨?_, hcapture, PortUnit.pending_startSending _, hqueue, hlocked⟩
  rw [PortUnit.frames_startSending, PortUnit.frames_make, List.getLast?_append]
  rfl

section
variable {s : State} {p : Port} {r : Request} {st : Status}

/-- The port that is refused, whatever its leaving of the arbiter raises. -/
theorem refuse_port_locked (hsync : (s.port p).sync = none) (hl : st.locks = true ∧ (s.port p).lockPolicy = true) :
    (s.refuse p r st []).settle.port p = (((((s.port p).noted r.tag r.kind st).lock r.tag r.kind st).raises
      (s.arbiter.leaveRaises p .lock p)).make (responseFrame .response r st [])).startSending := by
  rw [refuse_eq_locked hl, State.port_settle, State.respond, State.port_onPort_self, port_leaveArbiter, State.port_onPort_self]
  refine congrArg PortUnit.startSending (PortUnit.answerSync_none ?_)
  exact ((PortUnit.raises_keeps _ _).2.1).trans hsync

theorem refuse_port_other {q : Port} (hl : st.locks = true ∧ (s.port p).lockPolicy = true) (hq : q ≠ p) :
    (s.refuse p r st []).settle.port q =
      ((s.port q).raises (s.arbiter.leaveRaises p .lock q)).answerSync.startSending := by
  rw [refuse_eq_locked hl, State.port_settle, port_respond_ne _ _ _ hq, port_leaveArbiter, State.port_onPort_ne _ _ hq]
  rfl

theorem refuse_arbiter_locked (hl : st.locks = true ∧ (s.port p).lockPolicy = true) :
    (s.refuse p r st []).settle.arbiter = s.arbiter.without p := by
  rw [refuse_eq_locked hl]
  exact State.leaveArbiter_arbiter _ p .lock

/-- A request refused with a status that locks: under lock policy off as any refusal, under lock policy on the port is LOCKED and
leaves the arbiter (R145, R146, R130). -/
theorem refusesAndLocks_of_refuse {i : Instr} (hs : Settled s) (ht : s.turn p = some r) (hlocks : st.locks = true)
    (hi : exec i s = .next (s.refuse p r st []).settle) : RefusesAndLocks i s p r st := by
  obtain ⟨hopen, -, hsync, -, -⟩ := turn_some ht
  by_cases hpol : (s.port p).lockPolicy = true
  case neg =>
    have hl : ¬ (st.locks = true ∧ (s.port p).lockPolicy = true) := fun h => hpol h.2
    obtain ⟨honly, hother, hport⟩ := settle_onPort hs p
      (fun u => (u.noted r.tag r.kind st).make (responseFrame .response r st []))
    rw [← refuse_eq_noted hl] at honly hother hport
    rw [PortUnit.answerSync_none (show (((s.port p).noted r.tag r.kind st).make _).sync = none from hsync)] at hport
    obtain ⟨hans, hcap, hpend, hqueue, hlocked⟩ := ((s.port p).noted r.tag r.kind st).answered (responseFrame .response r st [])
    rw [← hport] at hans hcap hpend hqueue hlocked
    refine ⟨_, hi, hans, hcap.trans (PortUnit.capture_noted _ _ _ _), ?_, hqueue, fun _ => ⟨hlocked.trans hopen, honly, hother⟩,
      fun h => absurd h hpol⟩
    rw [hpend]
    exact mem_putRaise _ _
  case pos =>
    have hl : st.locks = true ∧ (s.port p).lockPolicy = true := ⟨hlocks, hpol⟩
    have harb := refuse_arbiter_locked (s := s) (r := r) hl
    have hport := refuse_port_locked (r := r) hsync hl
    obtain ⟨hans, hcap, hpend, hqueue, hlocked⟩ := ((((s.port p).noted r.tag r.kind st).lock r.tag r.kind st).raises
      (s.arbiter.leaveRaises p .lock p)).answered (responseFrame .response r st [])
    rw [← hport] at hans hcap hpend hqueue hlocked
    obtain ⟨⟨-, -, hqueue', hlocked', -, hcap', -, -⟩, -, -⟩ :=
      PortUnit.raises_keeps (((s.port p).noted r.tag r.kind st).lock r.tag r.kind st) (s.arbiter.leaveRaises p .lock p)
    rw [PortUnit.pending_raises] at hpend
    have stays {x : Raise} (hx : x ∈ (((s.port p).noted r.tag r.kind st).lock r.tag r.kind st).pending)
        (hc : x.cause ≠ .callLost ∧ x.cause ≠ .callGranted) : x ∈ ((s.refuse p r st []).settle.port p).pending := by
      rw [hpend]
      refine mem_raisedInto_of_ne hx fun y hy he => ?_
      rcases leaveRaises_cause hy with h | h <;> rw [h] at he
      · exact hc.1 he
      · exact hc.2 he
    have others {q : Port} (hq : q ≠ p) (h : s.arbiter.holder ≠ some p ∨ s.arbiter.claims.head? ≠ some q) :
        (s.refuse p r st []).settle.port q = s.port q := by
      rw [refuse_port_other hl hq, leaveRaises_eq_nil (h.imp id fun h => ⟨hq, h⟩)]
      exact quiet_of_settled hs q
    refine ⟨_, hi, hans, ?_, stays ?_ ⟨nofun, nofun⟩, ?_, fun h => ?_, fun _ => ⟨?_, stays (mem_putRaise _ _) ⟨nofun, nofun⟩,
      ((refuse_only s p r st []).trans ((settle_only _).mono (by decide))).mono (by decide), ?_, fun hh => ⟨?_, ?_, ?_, fun q hq => ?_, fun q hq hne => ?_⟩, fun hh => ⟨?_, ?_, fun q hq => ?_⟩⟩⟩
    · exact (hcap.trans hcap'.symm).trans (PortUnit.capture_noted _ _ _ _)
    · exact mem_putRaise_of_ne (mem_putRaise _ _) nofun
    · exact hqueue.trans hqueue'.symm
    · rw [hpol] at h; cases h
    · exact hlocked.trans hlocked'.symm
    · rw [harb, CallArbiter.without_roles]
    · rw [harb, CallArbiter.without, if_pos hh]
    · rw [harb, CallArbiter.without, if_pos hh]
    · rw [hpend]; exact callLost_mem_leaves hh .lock _
    · by_cases hqp : q = p
      · subst hqp
        rw [hpend]
        exact callGranted_mem_leaves hh hq .lock _
      · rw [refuse_port_other hl hqp, PortUnit.pending_startSending, PortUnit.pending_answerSync, PortUnit.pending_raises]
        exact callGranted_mem_leaves hh hq .lock _
    · exact others hq (.inr hne)
    · rw [harb, CallArbiter.without, if_neg hh]
    · rw [harb, CallArbiter.without, if_neg hh]
    · exact others hq (.inl hh)

end

/-- Settles O17: an unknown kind and the two checks before the owner refuse with a status that locks. -/
theorem classAndRoleChecksRefuseAndLock : Obligations.ClassAndRoleChecksRefuseAndLock := by
  refine ⟨fun s p r hs ht hd hk => ?unknown, fun s p k r hs ht hd hk => ?_⟩
  case unknown =>
    refine refusesAndLocks_of_refuse hs ht rfl ?_
    show Host.Outcome.next _ = _
    simp only [ht, hd, hk]
    rfl
  have serve_refused {st : Status} (hc : s.checkRequest k p r = some st) :
      exec (k.command p) s = .next (s.refuse p r st []).settle := by
    rw [exec_command]
    unfold State.serve State.execute
    simp only [ht, hd, hk, ReqKind.ofCode_code, and_self, if_true, hc]
  refine ⟨fun hlen => ?form, fun hlen hflag => ?role⟩
  case form => exact refusesAndLocks_of_refuse hs ht rfl (serve_refused (if_pos hlen))
  case role =>
    refine refusesAndLocks_of_refuse hs ht rfl (serve_refused ?_)
    unfold State.checkRequest
    rw [if_neg (by simp [hlen]), if_pos]
    obtain ⟨f, hf, hno⟩ := hflag
    exact List.all_eq_false.2 ⟨f, hf, by simp [State.hasFlag, hno]⟩

/-! ## SET_ROLE (R132) -/

theorem code_portOf {a : Byte} {p : Port} (h : portOf a = some p) : portByte p = a := by
  unfold portOf at h
  split_ifs at h with h0 h1 h2 <;> cases h
  · exact h0.symm
  · exact h1.symm
  · exact h2.symm

theorem code_profileOf {b : Byte} {pr : Profile} (h : profileOf b = some pr) : pr.code = b := by
  unfold profileOf at h
  split_ifs at h with h0 h1 h2 h3 <;> cases h
  · exact h0.symm
  · exact h1.symm
  · exact h2.symm
  · exact h3.symm

theorem code_ringOf {c : Byte} {ri : Ring} (h : ringOf c = some ri) : ri.code = c := by
  unfold ringOf at h
  split_ifs at h with h0 h1 <;> cases h
  · exact h0.symm
  · exact h1.symm

section
variable {p target : Port} {a b c : Byte} {pr : Profile} {ri : Ring} {s : State}

theorem ownSetRole_outOfRange (h : portOf a = none ∨ profileOf b = none ∨ ringOf c = none) :
    ownSetRole p [a, b, c] s = .refuse .range [] := by
  simp only [ownSetRole]
  split
  next ha hb hc => simp [ha, hb, hc] at h
  next => rfl

theorem ownSetRole_open (ha : portOf a = some target) (hb : profileOf b = some pr) (hc : ringOf c = some ri)
    (hst : s.engine.state ≠ .idle) : ownSetRole p [a, b, c] s = .refuse .state [] := by
  simp [ownSetRole, ha, hb, hc, hst]

theorem ownSetRole_idle (ha : portOf a = some target) (hb : profileOf b = some pr) (hc : ringOf c = some ri)
    (hst : s.engine.state = .idle) : ownSetRole p [a, b, c] s = .done (s.setRoleOf target { profile := pr, ring := ri })
      ([a, b, c, optPortByte (s.setRoleOf target { profile := pr, ring := ri }).arbiter.holder] ++
        claimBytes (s.setRoleOf target { profile := pr, ring := ri }).arbiter.claims) := by
  simp [ownSetRole, ha, hb, hc, hst, code_portOf ha, code_profileOf hb, code_ringOf hc]

end

theorem profile_has_call (pr : Profile) : pr.has .call = true ↔ pr ≠ .observer := by cases pr <;> simp [Profile.has]

/-- What SET_ROLE raises: with a profile that has CALL nothing, else what the leaving of the arbiter does. -/
def CallArbiter.roleRaises (a : CallArbiter) (target : Port) (r : Role) : Port → List Raise :=
  if r.profile.has .call = true then fun _ => [] else a.leaveRaises target .role

theorem port_setRoleOf (s : State) (target : Port) (r : Role) (x : Port) :
    (s.setRoleOf target r).port x = (s.port x).raises (s.arbiter.roleRaises target r x) := by
  unfold State.setRoleOf CallArbiter.roleRaises
  dsimp only
  split
  · rfl
  · exact port_leaveArbiter _ target .role x

theorem setRoleOf_arbiter_call {s : State} {target : Port} {r : Role} (h : r.profile.has .call = true) :
    (s.setRoleOf target r).arbiter = { s.arbiter with
      roles := s.arbiter.roles.set target r
      claims := CallArbiter.inOrder { s.arbiter with roles := s.arbiter.roles.set target r } s.arbiter.claims } := by
  unfold State.setRoleOf
  rw [if_pos h]
  rfl

theorem setRoleOf_arbiter_without {s : State} {target : Port} {r : Role} (h : ¬ r.profile.has .call = true) :
    (s.setRoleOf target r).arbiter =
      { s.arbiter.without target with roles := (s.arbiter.without target).roles.set target r } := by
  unfold State.setRoleOf
  rw [if_neg h, State.leaveArbiter_arbiter]
  exact CallArbiter.without_setRole _ _ _

theorem setRoleOf_roles (s : State) (target : Port) (r : Role) :
    (s.setRoleOf target r).arbiter.roles = s.arbiter.roles.set target r := by
  by_cases h : r.profile.has .call = true
  · rw [setRoleOf_arbiter_call h]
  · rw [setRoleOf_arbiter_without h, CallArbiter.without_roles]

/-- Settles O36: the tests, then the role; with CALL the list is put in order, without it the port leaves the arbiter. -/
theorem setRoleGivesTheRole : Obligations.SetRoleGivesTheRole := by
  intro s p r a b c hs hx hpl
  refine ⟨fun hout => refuses_of_owner hs hx rfl (hpl ▸ ownSetRole_outOfRange hout) rfl, fun target pr ri ha hb hc =>
    ⟨fun hst => refuses_of_owner hs hx rfl (hpl ▸ ownSetRole_open ha hb hc hst) rfl, fun hst => ?_⟩⟩
  obtain ⟨t, hdone, harb⟩ := completes_at_arbiter (i := .setRole p)
    (raised := s.arbiter.roleRaises target { profile := pr, ring := ri }) hx rfl (hpl ▸ ownSetRole_idle ha hb hc hst)
    (setRoleOf_keeps s target _) (fun x => by rw [port_setRoleOf, PortUnit.pending_raises])
  rw [← harb] at hdone
  refine ⟨t, _, hdone, by rw [harb, setRoleOf_roles], fun hpr => ?call, fun hpr hh => ?list, fun hpr hh hhead => ?holder⟩
  case call =>
    have hcall := (profile_has_call pr).2 hpr
    rw [harb, setRoleOf_arbiter_call hcall]
    exact ⟨if_pos hcall, rfl, rfl⟩
  case list =>
    have hcall : ¬ pr.has .call = true := fun h => (profile_has_call pr).1 h hpr
    rw [harb, setRoleOf_arbiter_without hcall, CallArbiter.without, if_neg hh]
    exact ⟨(if_neg hcall).trans (funext fun x => leaveRaises_eq_nil (.inl hh)), rfl, rfl⟩
  case holder =>
    have hcall : ¬ pr.has .call = true := fun h => (profile_has_call pr).1 h hpr
    rw [harb, setRoleOf_arbiter_without hcall, CallArbiter.without, if_pos hh]
    refine ⟨rfl, rfl, (if_neg hcall).trans (funext fun x => ?_)⟩
    unfold CallArbiter.leaveRaises
    rw [if_pos hh]
    by_cases hx : x = target
    · rw [if_pos hx, if_pos hx, if_neg (fun h => hhead (hx ▸ h))]; rfl
    · rw [if_neg hx, if_neg hx]; rfl

end Sys2Proof.Machine
end

section
/-! The reads, the port's own requests and the cause sets (R17, R18, R44, R98, R149 to R151, R164 to R166): O41, O52, O53, O54, O55. -/

namespace Sys2Proof.Machine

theorem yesNo_eq_one (b : Bool) : yesNo b = 1 ↔ b = true := by cases b <;> decide

theorem yesNo_cases (b : Bool) : yesNo b = 0 ∨ yesNo b = 1 := by cases b <;> decide

theorem yesNoOf_none {a : Byte} (h0 : a ≠ 0) (h1 : a ≠ 1) : yesNoOf a = none := by
  unfold yesNoOf
  rw [if_neg h0, if_neg h1]

theorem yesNoOf_yesNo (b : Bool) : yesNoOf (yesNo b) = some b := by cases b <;> rfl

/-! ## The reads -/

section
variable {p : Port} {s : State}

theorem ownReadCue_outOfRange {a b c : Byte} (hv : (cueOf a b c).valid = false) : ownReadCue p [a, b, c] s = .refuse .range [] := by
  simp [ownReadCue, hv]

theorem ownReadCue_absent {a b c : Byte} (hv : (cueOf a b c).valid = true) (hn : findCue s.cues (cueOf a b c) = none) :
    ownReadCue p [a, b, c] s = .refuse .noCue [] := by
  simp [ownReadCue, hv, hn]

theorem ownReadCue_present {a b c : Byte} {x : CueRec} (hv : (cueOf a b c).valid = true)
    (hx : findCue s.cues (cueOf a b c) = some x) :
    ownReadCue p [a, b, c] s = .done s (yesNo (s.cueInUse (cueOf a b c)) :: x.bytes) := by
  simp [ownReadCue, hv, hx, findCue_num hx]

theorem ownReadText_outOfRange {a b : Byte} (h : 16383 < nat2 a b) : ownReadText p [a, b] s = .refuse .range [] := by
  simp [ownReadText, h]

theorem ownReadText_absent {a b : Byte} (h : nat2 a b ≤ 16383) (hn : findText s.texts (nat2 a b) = none) :
    ownReadText p [a, b] s = .refuse .noText [] := by
  simp [ownReadText, h.not_gt, hn]

theorem ownReadText_present {a b : Byte} {x : TextRec} (h : nat2 a b ≤ 16383) (hx : findText s.texts (nat2 a b) = some x) :
    ownReadText p [a, b] s = .done s
      ([a, b, byteOf (lineCount x.bytes)] ++ le2 x.refs ++ [yesNo (s.onScreen (nat2 a b))] ++ x.bytes) := by
  simp [ownReadText, h.not_gt, hx, findText_id hx, le2_nat2]

theorem ownReadHead_none {a : Byte} (h : headOf a = none) : ownReadHead p [a] s = .refuse .range [] := by
  simp [ownReadHead, h]

theorem ownReadHead_some {a : Byte} {h : HeadId} (ha : headOf a = some h) : ownReadHead p [a] s = .done s (headBytes s h) := by
  simp [ownReadHead, ha]

theorem ownReadCapture_outOfRange {a : Byte} (h0 : a ≠ 0) (h1 : a ≠ 1) : ownReadCapture p [a] s = .refuse .range [] := by
  simp only [ownReadCapture, if_neg h0, if_neg h1]

end

/-- Settles O41: each read's owner answers with the state as it is, or refuses with a status that does not lock. -/
theorem readsOnlyAnswer : Obligations.ReadsOnlyAnswer := by
  intro s p r hs
  refine ⟨fun hx => onlyAnswers_of_owner hs hx rfl rfl, fun hx => onlyAnswers_of_owner hs hx rfl rfl,
    fun a b c hx hpl => ⟨fun hv => ?_, fun hv hn => ?_, fun x hv hc => ?cue⟩,
    fun a b hx hpl => ⟨fun h => ?_, fun h hn => ?_, fun x h ht => ?text⟩,
    fun a hx hpl => ⟨fun h => ?_, fun h ha => ?_⟩, fun a hx hpl => ⟨fun h0 h1 => ?_, fun h0 => ?_, fun h1 => ?_⟩⟩
  case cue =>
    exact ⟨_, (yesNo_eq_one _).trans cueInUse_iff, yesNo_cases _,
      onlyAnswers_of_owner hs hx rfl (hpl ▸ ownReadCue_present hv hc)⟩
  case text =>
    exact ⟨_, (yesNo_eq_one _).trans onScreen_iff, yesNo_cases _,
      onlyAnswers_of_owner hs hx rfl (hpl ▸ ownReadText_present h ht)⟩
  · exact refuses_of_owner hs hx rfl (hpl ▸ ownReadCue_outOfRange hv) rfl
  · exact refuses_of_owner hs hx rfl (hpl ▸ ownReadCue_absent hv hn) rfl
  · exact refuses_of_owner hs hx rfl (hpl ▸ ownReadText_outOfRange h) rfl
  · exact refuses_of_owner hs hx rfl (hpl ▸ ownReadText_absent h hn) rfl
  · exact refuses_of_owner hs hx rfl (hpl ▸ ownReadHead_none h) rfl
  · exact onlyAnswers_of_owner hs hx rfl (hpl ▸ ownReadHead_some ha)
  · exact refuses_of_owner hs hx rfl (hpl ▸ ownReadCapture_outOfRange h0 h1) rfl
  · exact onlyAnswers_of_owner hs hx rfl (owner := ownReadCapture) (by rw [hpl, h0]; rfl)
  · exact onlyAnswers_of_owner hs hx rfl (owner := ownReadCapture) (by rw [hpl, h1]; rfl)

/-! ## SET_PORT (R149) -/

section
variable {p : Port} {s : State}

theorem ownSetPort_outOfRange {a : Byte} (h0 : a ≠ 0) (h1 : a ≠ 1) : ownSetPort p [a] s = .refuse .range [] := by
  simp [ownSetPort, yesNoOf_none h0 h1]

theorem ownSetPort_policy (b : Bool) :
    ownSetPort p [yesNo b] s = .done (s.onPort p (fun u => { u with lockPolicy := b })) [yesNo b] := by
  simp [ownSetPort, yesNoOf_yesNo]

end

/-- A port after its answer, field by field. -/
theorem PortUnit.fields_of_answered {u v : PortUnit} {f : OutFrame} (h : v = (u.make f).startSending) :
    v.frames = u.frames ++ [f] ∧ u.SameButFrames v ∧ v.sync = u.sync ∧ v.pending = u.pending ∧ v.repeats = u.repeats := by
  subst h
  exact ⟨by rw [PortUnit.frames_startSending, PortUnit.frames_make], ((PortUnit.make_same u f).trans (PortUnit.startSending_same _)).1,
    PortUnit.sync_startSending _, PortUnit.pending_startSending _, PortUnit.repeats_startSending _⟩

theorem answers_of_frames {t : State} {p : Port} {r : Request} {st : Status} {pl : List Byte} {fs : List OutFrame}
    (h : (t.port p).frames = fs ++ [responseFrame .response r st pl]) : Answers t p r st pl := by
  unfold Answers
  rw [h, List.getLast?_append]
  rfl

/-- Settles O53: the owner writes the lock policy of its own port. -/
theorem setPortWritesTheLockPolicy : Obligations.SetPortWritesTheLockPolicy := by
  intro s p r a hs hx hpl
  refine ⟨fun h0 h1 => refuses_of_owner hs hx rfl (hpl ▸ ownSetPort_outOfRange h0 h1) rfl, fun policy ha => ?_⟩
  subst ha
  obtain ⟨hopen, -, hsync, -, -⟩ := turn_some hx.turn
  obtain ⟨t, hrun, honly, hother, hport⟩ := done_onPort_of_owner (i := .setPort p) hs hx rfl
    (show ownSetPort p r.payload s = _ by rw [hpl]; exact ownSetPort_policy policy) hsync
  obtain ⟨hframes, ⟨-, -, hqueue, hlocked, hpolicy, hcap, -, hen⟩, -, hpend, hrep⟩ := PortUnit.fields_of_answered hport
  exact ⟨t, hrun, answers_of_frames hframes, honly, hother, hpolicy, hlocked.trans hopen, hpend, hrep, hqueue, hcap, hen⟩

/-! ## SET_NOTICE, CLEAR_CAUSES and CLEAR_CAPTURE (R164 to R166) -/

section
variable {p : Port} {s : State} {a b c : Byte} {set : CauseSet}

theorem ownSetNotice_outOfRange (h : causeSetOf a b c = none) : ownSetNotice p [a, b, c] s = .refuse .range [] := by
  simp [ownSetNotice, h]

theorem ownSetNotice_set (h : causeSetOf a b c = some set) :
    ownSetNotice p [a, b, c] s = .done (s.onPort p (fun u => u.enable set)) [a, b, c] := by
  simp [ownSetNotice, h, causeSetBytes_causeSetOf h]

theorem ownClearCauses_outOfRange (h : causeSetOf a b c = none) : ownClearCauses p [a, b, c] s = .refuse .range [] := by
  simp [ownClearCauses, h]

theorem ownClearCauses_set (h : causeSetOf a b c = some set) :
    ownClearCauses p [a, b, c] s = .done (s.onPort p (fun u => u.clearCauses set))
      (causeSetBytes ((s.port p).clearCauses set).pendingSet ++ causeSetBytes ((s.port p).clearCauses set).repeats) := by
  simp [ownClearCauses, h]

theorem ownClearCapture_outOfRange {a : Byte} (h0 : a ≠ 0) (h1 : a ≠ 1) : ownClearCapture p [a] s = .refuse .range [] := by
  simp only [ownClearCapture, if_neg h0, if_neg h1]

end

/-- Settles O52: each owner writes its own port alone, but for the link capture, which the Link Controller holds. -/
theorem causeSetAndCaptureRequests : Obligations.CauseSetAndCaptureRequests := by
  refine ⟨fun s p r a b c hs hx hpl => ⟨fun h => ?_, fun set h => ?setNotice⟩,
    fun s p r a b c hs hx hpl => ⟨fun h => ?_, fun set h => ?clearCauses⟩,
    fun s p r a hs hx hpl => ⟨fun h0 h1 => ?_, fun h0 => ?portCapture, fun h1 => ?linkCapture⟩⟩
  case setNotice =>
    obtain ⟨-, -, hsync, -, -⟩ := turn_some hx.turn
    obtain ⟨t, hrun, honly, hother, hport⟩ := done_onPort_of_owner (i := .setNotice p) hs hx rfl
      (show ownSetNotice p r.payload s = _ by rw [hpl]; exact ownSetNotice_set h) hsync
    obtain ⟨hframes, ⟨hrec, -, hqueue, hlocked, hpolicy, hcap, -, hen⟩, -, hpend, hrep⟩ := PortUnit.fields_of_answered hport
    exact ⟨t, hrun, honly, hother, hen, hframes, hpend, hrep, hqueue, hrec, hlocked, hpolicy, hcap⟩
  case clearCauses =>
    obtain ⟨-, -, hsync, -, -⟩ := turn_some hx.turn
    obtain ⟨t, hrun, honly, hother, hport⟩ := done_onPort_of_owner (i := .clearCauses p) hs hx rfl (hpl ▸ ownClearCauses_set h) hsync
    obtain ⟨hframes, hsame, -, hpend, hrep⟩ := PortUnit.fields_of_answered hport
    have hset : (t.port p).pendingSet = ((s.port p).clearCauses set).pendingSet := by
      unfold PortUnit.pendingSet
      rw [hpend]
    refine ⟨t, hrun, honly, hother, fun q => ?_, hpend, hrep, ?_⟩
    · by_cases hq : q = p
      · rw [hq]; exact hsame
      · rw [hother q hq]; exact ⟨rfl, rfl, rfl, rfl, rfl, rfl, rfl, rfl⟩
    · rw [hset, hrep]
      exact hframes
  case portCapture =>
    obtain ⟨-, -, hsync, -, -⟩ := turn_some hx.turn
    obtain ⟨t, hrun, honly, hother, hport⟩ := done_onPort_of_owner (i := .clearCapture p) (owner := ownClearCapture)
      (f := fun u => { u with capture := none }) (pl := portCaptureBytes (s.port p).capture) hs hx rfl (by rw [hpl, h0]; rfl) hsync
    obtain ⟨hframes, ⟨-, -, hqueue, hlocked, hpolicy, hcap, -, hen⟩, -, hpend, hrep⟩ := PortUnit.fields_of_answered hport
    exact ⟨t, hrun, answers_of_frames hframes, honly, hother, hcap, hpend, hrep, hqueue, hlocked, hpolicy, hen⟩
  case linkCapture =>
    obtain ⟨t, hdone, hports⟩ := completes_of_owner (i := .clearCapture p) (owner := ownClearCapture)
      (t := s.withLink { s.link with capture := none }) (pl := linkCaptureBytes s.link.capture) (raised := fun _ => [])
      (bs := [.link, .ports]) hx rfl (by rw [hpl, h1]; rfl) ((withLink_keeps s _).mono) (by decide) (fun _ => rfl)
    exact ⟨t, hdone, hports.link⟩
  · exact refuses_of_owner hs hx rfl (hpl ▸ ownSetNotice_outOfRange (causeSetOf_none h)) rfl
  · exact refuses_of_owner hs hx rfl (hpl ▸ ownClearCauses_outOfRange (causeSetOf_none h)) rfl
  · exact refuses_of_owner hs hx rfl (hpl ▸ ownClearCapture_outOfRange h0 h1) rfl

/-! ## SYNC (R150) -/

theorem startSending_sameButFrames (u : PortUnit) : u.SameButFrames u.startSending := (PortUnit.startSending_same u).1

/-- Settles O54: the SYNC waits for the queue's commands, and the end of the event answers it at once where there is none. -/
theorem syncWaitsForTheQueuedCommands : Obligations.SyncWaitsForTheQueuedCommands := by
  intro s p r hs hx
  obtain ⟨-, -, hsync, -, rs, hqueue⟩ := turn_some hx.turn
  obtain ⟨t, hrun, honly, hother, hport⟩ := wait_onPort_of_owner (i := .sync p) (owner := ownSync) hs hx rfl rfl
  refine ⟨fun hnil => ?_, fun hne => ?_⟩
  · have hanswer : ({ s.port p with sync := some { waiting := s.link.queue.map Command.id, total := s.link.queue.length, unacked := 0 } } :
        PortUnit).answerSync = ({ s.port p with sync := none } : PortUnit).make (responseFrame .response r .done [0, 0]) := by
      simp [PortUnit.answerSync, hqueue, hnil]
      rfl
    rw [hanswer] at hport
    obtain ⟨hframes, hsame, hsync', hpend, hrep⟩ := PortUnit.fields_of_answered hport
    exact ⟨t, hrun, honly, hother, hframes, hsame, hsync'.trans hsync.symm, hpend, hrep⟩
  · have hwait : ({ s.port p with sync := some { waiting := s.link.queue.map Command.id, total := s.link.queue.length, unacked := 0 } } :
        PortUnit).answerSync =
        { s.port p with sync := some { waiting := s.link.queue.map Command.id, total := s.link.queue.length, unacked := 0 } } := by
      simp [PortUnit.answerSync, hqueue, hne]
    rw [hwait] at hport
    refine ⟨t, hrun, honly, hother, ?_, ?_, ?_, ?_⟩ <;> rw [hport]
    · exact startSending_sameButFrames _
    · exact PortUnit.frames_startSending _
    · exact PortUnit.pending_startSending _
    · exact PortUnit.sync_startSending _

/-! ## LIST_CUES (R151) -/

section
variable {p : Port} {s : State} {a b c d : Byte}

theorem ownListCues_outOfRange (h : (cueOf a b c).valid = false ∨ d.toNat = 0 ∨ 64 < d.toNat) :
    ownListCues p [a, b, c, d] s = .refuse .range [] := if_pos h

theorem ownListCues_lists (hv : (cueOf a b c).valid = true) (hlo : 1 ≤ d.toNat) (hhi : d.toNat ≤ 64) :
    ownListCues p [a, b, c, d] s = .wait (s.onPort p (fun u =>
      ({ u with listing := some { left := d.toNat, last := none, made := 0 } } : PortUnit).listNext
        (cueFrom s.cues (cueOf a b c)))) := by
  refine if_neg ?_
  simp only [hv, Bool.true_eq_false, false_or]
  omega

end

/-- Settles O55: the range test, then the first frame of the listing: LISTED, or DONE where no record is left. -/
theorem listCuesBeginsAListing : Obligations.ListCuesBeginsAListing := by
  intro s p r a b c d hs hx hpl
  refine ⟨fun h => refuses_of_owner hs hx rfl (hpl ▸ ownListCues_outOfRange h) rfl, fun hv hlo hhi => ?_⟩
  obtain ⟨-, -, hsync, hlisting, rs, hqueue⟩ := turn_some hx.turn
  obtain ⟨t, hrun, honly, hother, hport⟩ := wait_onPort_of_owner (i := .listCues p) hs hx rfl (hpl ▸ ownListCues_lists hv hlo hhi)
  refine ⟨fun hnone => ?_, fun x hsome => ?_⟩
  · have hnext : ({ s.port p with listing := some { left := d.toNat, last := none, made := 0 } } : PortUnit).listNext
        (cueFrom s.cues (cueOf a b c)) =
        ({ s.port p with listing := none } : PortUnit).make (responseFrame .response r .done [0, 0]) := by
      simp [PortUnit.listNext, hqueue, hnone]
      rfl
    rw [hnext, PortUnit.answerSync_none (by exact hsync)] at hport
    obtain ⟨hframes, hsame, hsync', hpend, hrep⟩ := PortUnit.fields_of_answered hport
    obtain ⟨hrec, hbreak, hqueue', hlocked, hpolicy, hcap, hlist, hen⟩ := hsame
    exact ⟨t, hrun, honly, hother, hframes, ⟨hrec, hbreak, hqueue', hlocked, hpolicy, hcap, hlist.trans hlisting.symm, hen⟩,
      hsync', hpend, hrep⟩
  · have hnext : ({ s.port p with listing := some { left := d.toNat, last := none, made := 0 } } : PortUnit).listNext
        (cueFrom s.cues (cueOf a b c)) =
        ({ s.port p with listing := some { left := d.toNat - 1, last := some x.num, made := 1 } } : PortUnit).make
          (responseFrame .listed r .listed x.bytes) := by
      simp [PortUnit.listNext, hqueue, hsome]
      omega
    rw [hnext, PortUnit.answerSync_none (by exact hsync)] at hport
    obtain ⟨hframes, hsame, -, hpend, -⟩ := PortUnit.fields_of_answered hport
    obtain ⟨-, -, hqueue', -, -, -, hlist, -⟩ := hsame
    exact ⟨t, hrun, honly, hother, hlist, hframes, hqueue', hpend⟩

end Sys2Proof.Machine
end

section
/-! The stores' PUT_CUE, DROP_CUE and DROP_TEXT (R10, R11, R15), and what puts and clears do to a slot (R84, R85): O38, O39, O42. -/

namespace Sys2Proof.Machine

/-! ## PUT_CUE (R10) -/

section
variable {p : Port} {pl : List Byte} {s : State} {c : CueRec}

theorem ownPutCue_adds (h : cueRecOf pl = some c) (ht : ∀ e ∈ c.body.texts, (findText s.texts e.text).isSome = true)
    (hn : findCue s.cues c.num = none) (hlen : s.cues.length < 2048) :
    ownPutCue p pl s = .done (s.addCueRec c) (0 :: le2 (s.addCueRec c).cues.length) := by
  simp [ownPutCue, h, find?_absentText_none ht, hn, Config.maxCues, hlen.not_ge]

theorem ownPutCue_replaces {old : CueRec} (h : cueRecOf pl = some c)
    (ht : ∀ e ∈ c.body.texts, (findText s.texts e.text).isSome = true) (ho : findCue s.cues c.num = some old)
    (hu : ¬ CueInUse s c.num) :
    ownPutCue p pl s = .done (s.replaceCueRec old c) (1 :: le2 (s.replaceCueRec old c).cues.length) := by
  have hfree : s.cueInUse c.num = false := Bool.eq_false_iff.2 (mt cueInUse_iff.1 hu)
  simp [ownPutCue, h, find?_absentText_none ht, ho, hfree]

end

@[simp] theorem State.addCueRec_cues (s : State) (c : CueRec) : (s.addCueRec c).cues = putCueRec c s.cues := rfl
@[simp] theorem State.addCueRec_texts (s : State) (c : CueRec) : (s.addCueRec c).texts = addNames c.names s.texts := rfl
@[simp] theorem State.replaceCueRec_cues (s : State) (old c : CueRec) : (s.replaceCueRec old c).cues = putCueRec c s.cues := rfl
@[simp] theorem State.replaceCueRec_texts (s : State) (old c : CueRec) :
    (s.replaceCueRec old c).texts = addNames c.names (removeNames old.names s.texts) := rfl
@[simp] theorem State.removeCueRec_cues (s : State) (c : CueRec) : (s.removeCueRec c).cues = dropCueRec c.num s.cues := rfl
@[simp] theorem State.removeCueRec_texts (s : State) (c : CueRec) : (s.removeCueRec c).texts = removeNames c.names s.texts := rfl

/-- Settles O38: the record is put at its place, in place of one with its number; the counts follow the names. -/
theorem putCueStoresTheRecord : Obligations.PutCueStoresTheRecord := by
  intro s p r c hasc hx hpl ht
  have hpair := cuesAscending_iff.1 hasc.1
  have hput : cuesAscending (putCueRec c s.cues) = true := cuesAscending_iff.2 (putCueRec_ascending hpair)
  refine ⟨fun hn hlen => ?added, fun old ho hu => ?replaced⟩
  case added =>
    obtain ⟨t, hdone, hports⟩ := completes_of_owner (i := .putCue p) (raised := fun _ => []) hx rfl (ownPutCue_adds hpl ht hn hlen)
      ((addCueRec_keeps s c).mono (cs := [.cues, .texts, .ports])) (by decide) (fun _ => rfl)
    have hcues : t.cues = putCueRec c s.cues := hports.cues
    have hcount := length_putCueRec_new hn
    rw [State.addCueRec_cues, hcount] at hdone
    refine ⟨t, hdone, ?_, fun n hne => ?_, ?_, ?_, ?_⟩
    · rw [hcues]; exact findCue_putCueRec_self hpair
    · rw [hcues]; exact findCue_putCueRec_ne c s.cues hne
    · rw [hcues]; exact hcount
    · rw [hcues]; exact hput
    · rw [hports.texts]; rfl
  case replaced =>
    obtain ⟨t, hdone, hports⟩ := completes_of_owner (i := .putCue p) (raised := fun _ => []) hx rfl (ownPutCue_replaces hpl ht ho hu)
      ((replaceCueRec_keeps s old c).mono (cs := [.cues, .texts, .ports])) (by decide) (fun _ => rfl)
    have hcues : t.cues = putCueRec c s.cues := hports.cues
    have hcount := length_putCueRec_old hpair ho
    rw [State.replaceCueRec_cues, hcount] at hdone
    refine ⟨t, hdone, ?_, fun n hne => ?_, ?_, ?_, ?_⟩
    · rw [hcues]; exact findCue_putCueRec_self hpair
    · rw [hcues]; exact findCue_putCueRec_ne c s.cues hne
    · rw [hcues]; exact hcount
    · rw [hcues]; exact hput
    · rw [hports.texts]
      exact addNames_removeNames _ _ _

/-! ## DROP_CUE and DROP_TEXT (R11, R15) -/

section
variable {p : Port} {s : State}

theorem ownDropCue_outOfRange {a b c : Byte} (hv : (cueOf a b c).valid = false) : ownDropCue p [a, b, c] s = .refuse .range [] := by
  simp [ownDropCue, hv]

theorem ownDropCue_absent {a b c : Byte} (hv : (cueOf a b c).valid = true) (hn : findCue s.cues (cueOf a b c) = none) :
    ownDropCue p [a, b, c] s = .refuse .noCue [] := by
  simp [ownDropCue, hv, hn]

theorem ownDropCue_inUse {a b c : Byte} {x : CueRec} (hv : (cueOf a b c).valid = true)
    (hx : findCue s.cues (cueOf a b c) = some x) (hu : CueInUse s (cueOf a b c)) :
    ownDropCue p [a, b, c] s = .refuse .inUse [] := by
  simp [ownDropCue, hv, hx, findCue_num hx, cueInUse_iff.2 hu]

theorem ownDropCue_drops {a b c : Byte} {x : CueRec} (hv : (cueOf a b c).valid = true)
    (hx : findCue s.cues (cueOf a b c) = some x) (hu : ¬ CueInUse s (cueOf a b c)) :
    ownDropCue p [a, b, c] s = .done (s.removeCueRec x) (le2 (s.removeCueRec x).cues.length) := by
  have hfree : s.cueInUse (cueOf a b c) = false := Bool.eq_false_iff.2 (mt cueInUse_iff.1 hu)
  simp [ownDropCue, hv, hx, findCue_num hx, hfree]

theorem ownDropText_outOfRange {a b : Byte} (h : 16383 < nat2 a b) : ownDropText p [a, b] s = .refuse .range [] := by
  simp [ownDropText, h]

theorem ownDropText_absent {a b : Byte} (h : nat2 a b ≤ 16383) (hn : findText s.texts (nat2 a b) = none) :
    ownDropText p [a, b] s = .refuse .noText [] := by
  simp [ownDropText, h.not_gt, hn]

theorem ownDropText_inUse {a b : Byte} {x : TextRec} (h : nat2 a b ≤ 16383) (hx : findText s.texts (nat2 a b) = some x)
    (hu : x.refs ≠ 0) : ownDropText p [a, b] s = .refuse .inUse [] := by
  simp [ownDropText, h.not_gt, hx, hu]

theorem ownDropText_drops {a b : Byte} {x : TextRec} (h : nat2 a b ≤ 16383) (hx : findText s.texts (nat2 a b) = some x)
    (hu : x.refs = 0) : ownDropText p [a, b] s =
      .done (s.withTexts (dropTextRec (nat2 a b) s.texts)) (storeBytes (dropTextRec (nat2 a b) s.texts)) := by
  simp [ownDropText, h.not_gt, hx, hu]

end

/-- Settles O39: each test is one answer of the owner; what is dropped leaves the ascending list, and a dropped cue's counts fall. -/
theorem dropsRemoveTheRecord : Obligations.DropsRemoveTheRecord := by
  refine ⟨fun s p r a b c hs hx hpl => ⟨fun hv => ?_, fun hv hn => ?_, fun x hv hf => ⟨fun hu => ?_, fun hu => ?dropCue⟩⟩,
    fun s p r a b hs hx hpl => ⟨fun h => ?_, fun h hn => ?_, fun x h hf => ⟨fun hu => ?_, fun hu => ?dropText⟩⟩⟩
  case dropCue =>
    obtain ⟨t, hdone, hports⟩ := completes_of_owner (i := .dropCue p) (raised := fun _ => []) hx rfl
      (show ownDropCue p r.payload s = _ by rw [hpl]; exact ownDropCue_drops hv hf hu)
      ((removeCueRec_keeps s x).mono (cs := [.cues, .texts, .ports])) (by decide) (fun _ => rfl)
    have hcues : t.cues = (s.removeCueRec x).cues := hports.cues
    refine ⟨t, hcues ▸ hdone, ?_, ?_⟩
    · rw [hcues, State.removeCueRec_cues, findCue_num hf]; rfl
    · rw [hports.texts]; rfl
  case dropText =>
    have ho : ownDropText p r.payload s =
        .done (s.withTexts (dropTextRec (nat2 a b) s.texts)) (storeBytes (dropTextRec (nat2 a b) s.texts)) := by
      rw [hpl]
      exact ownDropText_drops h hf hu
    obtain ⟨t, hdone, hports⟩ := completes_of_owner (i := .dropText p) (raised := fun _ => []) hx rfl ho
      ((withTexts_keeps s _).mono (cs := [.texts, .ports])) (by decide) (fun _ => rfl)
    have htexts : t.texts = dropTextRec (nat2 a b) s.texts := hports.texts
    rw [← htexts] at hdone
    exact ⟨t, hdone, htexts⟩
  · exact refuses_of_owner hs hx rfl (hpl ▸ ownDropCue_outOfRange hv) rfl
  · exact refuses_of_owner hs hx rfl (hpl ▸ ownDropCue_absent hv hn) rfl
  · exact refuses_of_owner hs hx rfl (hpl ▸ ownDropCue_inUse hv hf hu) rfl
  · exact refuses_of_owner hs hx rfl (hpl ▸ ownDropText_outOfRange h) rfl
  · exact refuses_of_owner hs hx rfl (hpl ▸ ownDropText_absent h hn) rfl
  · exact refuses_of_owner hs hx rfl (hpl ▸ ownDropText_inUse h hf hu) rfl

/-! ## Puts and clears (R81, R84, R85) -/

theorem startFall_slow {shown : TextPart} (h : shown.fadeOut ≠ 0) (next : Option TextPart) (cue : Option CueNum) :
    startFall shown next cue =
      { slot := .falling shown next shown.fadeOut, asks := [.take shown.fadeOut cue], displaced := none } := if_neg h

/-- A fall of 0 ms ends at once: the next part comes up, or the slot is DARK (R81, R86). -/
theorem startFall_next {shown : TextPart} (h : shown.fadeOut = 0) (t : TextPart) (cue : Option CueNum) :
    startFall shown (some t) cue = { slot := rise t, asks := [.take 0 cue, .put t], displaced := none } := if_pos h

theorem startFall_dark {shown : TextPart} (h : shown.fadeOut = 0) (cue : Option CueNum) :
    startFall shown none cue = { slot := .dark, asks := [.take 0 cue], displaced := none } := if_pos h

/-- Settles O42: a shown text's put and clear are its fall, whose two cases are those of its fade-out. -/
theorem putsAndClearsMoveSlots : Obligations.PutsAndClearsMoveSlots := by
  refine ⟨fun t shown f next => ⟨rfl, fun h => ⟨?_, ?_⟩, fun h => ⟨?_, ?_⟩, rfl, fun h => if_neg h, fun h => if_pos h⟩,
    fun shown f next cue => ⟨rfl, fun h => ⟨?_, ?_⟩, fun h => ⟨?_, ?_⟩, rfl⟩⟩
  · exact startFall_slow h (some t) (some t.cue)
  · exact startFall_slow h (some t) (some t.cue)
  · exact startFall_next h t (some t.cue)
  · exact startFall_next h t (some t.cue)
  · exact startFall_slow h none cue
  · exact startFall_slow h none cue
  · exact startFall_dark h cue
  · exact startFall_dark h cue

end Sys2Proof.Machine
end

section
/-! The counts of the Run Queue run out, and beats are taken: O29, O30 and O31. -/

namespace Sys2Proof.Machine

/-! ## FOLLOW_EXPIRY and FLOOR_END (R34, R51, R52, R55) -/

theorem exec_followExpiry {s : State} (hrun : s.engine.state = .running) : exec .followExpiry s = .next s.expire.settle :=
  congrArg Host.Outcome.next (if_pos hrun)

theorem exec_floorEnd {s : State} (hrun : s.engine.state = .running) (g : GroupId) (l : Layer) :
    exec (.floorEnd g l) s = .next (s.floorEnd g l).settle := congrArg Host.Outcome.next (if_pos hrun)

/-- The floor of one group-layer set to 0 (R52). -/
def State.floorZero (s : State) (g : GroupId) (l : Layer) : State :=
  s.withRun (s.run.setTable g l { s.run.table g l with floor := 0 })

section
variable {s : State} {g : GroupId} {l : Layer}

theorem floorZero_only : OnlyChanges [.run] s (s.floorZero g l) := (withRun_keeps _ _).1

theorem floorZero_entries : (s.floorZero g l).run.entries = s.run.entries := RunQueue.setTable_entries _ _ _ _

theorem floorEnd_free (h : s.run.entries.find? (RunEntry.waitsOn g l) = none) : s.floorEnd g l = s.floorZero g l := by
  unfold State.floorEnd
  rw [show s.run.entries.find? (fun e => e.waitsOn g l) = none from h]
  rfl

/-- The change that waits is applied as a recalled one is: its entry goes, whatever floor remains (R55). -/
theorem floorEnd_waiting {e : RunEntry} (h : s.run.entries.find? (RunEntry.waitsOn g l) = some e) :
    s.floorEnd g l = (s.floorZero g l).recall e.cue g l := by
  unfold State.floorEnd
  rw [show s.run.entries.find? (fun e => e.waitsOn g l) = some e from h]
  rfl

theorem floorZero_table_ne {g' : GroupId} {l' : Layer} (hne : (g', l') ≠ (g, l)) :
    (s.floorZero g l).run.table g' l' = s.run.table g' l' := RunQueue.table_setTable_ne _ _ hne

end

theorem recall_table_ne (s : State) (n : CueNum) {g g' : GroupId} {l l' : Layer} (hne : (g', l') ≠ (g, l)) :
    (s.recall n g l).run.table g' l' = s.run.table g' l' := by
  cases h : findCue s.cues n with
  | some c => rw [recall_run h, RunQueue.table_setTable_ne _ _ hne, dropDeferred_table]
  | none =>
    rw [State.recall, applyChange_absent (s := s.withRun (s.run.dropDeferred g l)) h]
    exact dropDeferred_table _ _ _ _ _

theorem floorEnd_table_ne (s : State) {g g' : GroupId} {l l' : Layer} (hne : (g', l') ≠ (g, l)) :
    (s.floorEnd g l).run.table g' l' = s.run.table g' l' := by
  cases h : s.run.entries.find? (RunEntry.waitsOn g l) with
  | none => rw [floorEnd_free h, floorZero_table_ne hne]
  | some e => rw [floorEnd_waiting h, recall_table_ne _ _ hne, floorZero_table_ne hne]

theorem recall_applied {s : State} {n : CueNum} {c : CueRec} (h : findCue s.cues n = some c) (g : GroupId) (l : Layer) :
    AppliedTo (fun g' l' => g' = g ∧ l' = l) c s (s.recall n g l) := by
  have happlied := recalls_applied [(g, l)] (List.nodup_singleton _) s h
  simp only [List.mem_singleton, Prod.mk.injEq] at happlied
  exact happlied

theorem recall_movesTo {s : State} {n : CueNum} {c : CueRec} (h : findCue s.cues n = some c) (g : GroupId) (l : Layer) :
    MovesTo s (changeMoves s c [(g, l)]) (s.recall n g l) :=
  recalls_movesTo [(g, l)] (List.nodup_singleton _) s h

theorem RunQueue.dropDeferred_entries (r : RunQueue) (g : GroupId) (l : Layer) :
    (r.dropDeferred g l).entries = r.entries.filter (fun e => !e.waitsOn g l) := rfl

theorem MovesMade.settle {s t : State} {ms : List HeadMove} (h : MovesMade s ms t) : MovesMade s ms t.settle :=
  h.frames (settle_only t) (fun q => pending_settle t q) (fun q => by simp)

/-- Settles O29: an expiry fires its cue; a floor end writes a floor of 0 and recalls the waiting change. -/
theorem followExpiryAndFloorEnd : Obligations.FollowExpiryAndFloorEnd := by
  refine ⟨fun s e hrun he => ?expiry, fun s g l hrun => ?floor⟩
  case expiry =>
    exact ⟨_, exec_followExpiry hrun, (expire_done hrun he).settle, fun hlaw c hc => (expire_offersDone hlaw he hc).settle⟩
  case floor =>
    have hkeeps : Keeps [.run, .heads, .texts, .link, .ports] s (s.floorEnd g l).settle :=
      (floorEnd_keeps s g l).trans (settle_keeps _).mono
    have hrunq : (s.floorEnd g l).settle.run = (s.floorEnd g l).run := (settle_only _).run
    refine ⟨_, exec_floorEnd hrun g l, hkeeps.1, hkeeps.ports, fun g' l' hne => ?_, fun hs hfree => ?free,
      fun e c hwait hc => ?waiting⟩
    · rw [hrunq, floorEnd_table_ne s hne]
    case free =>
      rw [floorEnd_free hfree, settle_of_only hs floorZero_only]
      exact ⟨floorZero_only, floorZero_entries, RunQueue.table_setTable_self _ _ _ _⟩
    case waiting =>
      have hc' : findCue (s.floorZero g l).cues e.cue = some c := hc
      have hmoves : MovesTo s (changeMoves s c [(g, l)]) ((s.floorZero g l).recall e.cue g l) :=
        (recall_movesTo hc' g l).ofQuiet (.ofOnly floorZero_only)
      rw [hrunq, floorEnd_waiting hwait, recall_run hc']
      refine ⟨?_, RunQueue.table_setTable_self _ _ _ _, ?_, hmoves.made.settle, fun x hx => ?_⟩
      · rw [RunQueue.setTable_entries, RunQueue.dropDeferred_entries, floorZero_entries]
      · exact (recall_applied hc' g l).congr (fun _ => rfl) (fun k => (settle_only _).head k)
      · simp only [List.mem_cons, List.not_mem_nil, or_false, not_or] at hx
        exact ((Raises.ofOnly floorZero_only x).quietly (recall_raises hx.2 hx.1 _ _ _ _)).unraised.settle

/-! ## What becomes of a beat (R67 to R71) -/

/-- A beat outside the guard is accepted: the guard of the next one counts from it (R68). -/
def State.acceptBeat (s : State) : State := s.withBeat { s.beat with lastAccepted := some s.cardTime }

section
variable {s : State} (hrun : s.engine.state = .running) (src : BeatSource)
include hrun

theorem takeBeat_rejected {a : Nat} (ha : s.beat.lastAccepted = some a) (hg : s.cardTime - a < s.beat.guard) :
    s.takeBeat src = s.raiseAll (.beatReject src (s.cardTime - a)) := by
  unfold State.takeBeat
  rw [beatResult_rejected hrun ha hg]

variable (hg : ∀ a, s.beat.lastAccepted = some a → s.beat.guard ≤ s.cardTime - a)
include hg

theorem takeBeat_settling (hset : s.beat.settling = true) :
    s.takeBeat src = s.withBeat { s.beat with lastAccepted := some s.cardTime, settling := false } := by
  unfold State.takeBeat
  rw [beatResult_settling hrun hg hset]

theorem takeBeat_counted (hset : s.beat.settling = false) : s.takeBeat src = s.acceptBeat.countBeat := by
  unfold State.takeBeat
  rw [beatResult_counted hrun hg hset]
  rfl

end

theorem countBeat_none {s : State} (h : s.run.beatsLeft = none) : s.countBeat = s := by
  simp only [State.countBeat, h]

theorem countBeat_counts {s : State} {n : Nat} (h : s.run.beatsLeft = some n) (hn : 1 < n) :
    s.countBeat = s.withRun (s.run.setBeats (fun _ m => m - 1)) := by
  simp only [State.countBeat, h, if_neg (Nat.not_le.2 hn)]

theorem countBeat_expires {s : State} {n : Nat} (h : s.run.beatsLeft = some n) (hn : n ≤ 1) : s.countBeat = s.expire := by
  simp only [State.countBeat, h, if_pos hn]

theorem beatCounted_setBeats {s t : State} (h : t.run = s.run.setBeats (fun _ m => m - 1)) : BeatCounted s t := by
  refine ⟨?_, by rw [h]; rfl, by rw [h]; rfl⟩
  rw [h]
  refine List.map_congr_left fun e _ => ?_
  cases e with
  | deferred => rfl
  | follow c m full n => cases m <;> rfl

/-- A firing whose start differs in its beats alone has offered its changes from the state before (R51). -/
theorem OffersDone.afterBeat {s s' t : State} {c : CueRec} {o : Origin} (h : OffersDone s' t c o)
    (hb : OnlyChanges [.beat] s s') : OffersDone s t c o :=
  h.base (hb.mono (by decide)) (fun g l => by rw [hb.run]) (fun g l => by rw [hb.run]) (by rw [hb.run])

theorem RunQueueLaw.afterBeat {s : State} (h : RunQueueLaw s) (b : BeatUnit) : RunQueueLaw (s.withBeat b) :=
  ⟨h.1, h.2, h.3, h.4, h.5⟩

/-- The expiry that a beat causes, of a show with any beat settings (R49, R51). -/
theorem expire_afterBeat_offers {s : State} {e : RunEntry} {c : CueRec} (b : BeatUnit) (hlaw : RunQueueLaw s)
    (he : s.run.entries.find? RunEntry.isFollow = some e) (hc : findCue s.cues e.cue = some c) :
    OffersDone s (s.withBeat b).expire c .auto :=
  (expire_offersDone (s := s.withBeat b) (hlaw.afterBeat b) he hc).afterBeat (withBeat_keeps _ _).1

theorem expire_beat (s : State) : s.expire.beat = s.beat := (expire_keeps s).1.beat

/-! ## BEAT_EDGE (R65, R66) -/

/-- An edge moves the line to this level (R65). -/
def State.edgeTo (s : State) (high : Bool) : State := s.withBeat { s.beat with level := high }

section
variable {s : State} {high : Bool}

theorem exec_beatEdge_level (h : s.beat.level = high) : exec (.beatEdge high) s = .next s :=
  congrArg Host.Outcome.next (if_pos h)

theorem exec_beatEdge_unselected (h : s.beat.level ≠ high) (hno : ¬ (s.beat.source = .line ∧ s.beat.edge.selects high = true)) :
    exec (.beatEdge high) s = .next (s.edgeTo high) :=
  congrArg Host.Outcome.next ((if_neg h).trans (if_neg hno))

theorem exec_beatEdge_beat (h : s.beat.level ≠ high) (hsrc : s.beat.source = .line) (hsel : s.beat.edge.selects high = true) :
    exec (.beatEdge high) s = .next ((s.edgeTo high).takeBeat .line).settle :=
  congrArg Host.Outcome.next ((if_neg h).trans (if_pos ⟨hsrc, hsel⟩))

end

/-- Settles O30: an edge writes the level; a selected one under LINE in RUNNING is then a beat, taken by its result. -/
theorem beatEdgesAreBeatsWhenSelected : Obligations.BeatEdgesAreBeatsWhenSelected := by
  intro s high hs
  have hlevel : OnlyChanges [.beat] s (s.edgeTo high) := (withBeat_keeps _ _).1
  refine ⟨exec_beatEdge_level, fun hedge => ⟨fun hno => ?noBeat, fun hsrc hsel hrun => ?beat⟩⟩
  case noBeat =>
    by_cases hbeat : s.beat.source = .line ∧ s.beat.edge.selects high = true
    case neg => exact exec_beatEdge_unselected hedge hbeat
    case pos =>
      obtain ⟨hsrc, hsel⟩ := hbeat
      have hstill : (s.edgeTo high).engine.state ≠ .running := by
        rcases hno with h | h | h
        · exact absurd hsrc h
        · rw [hsel] at h; cases h
        · exact h
      rw [exec_beatEdge_beat hedge hsrc hsel, takeBeat_notRunning hstill, settle_of_only hs hlevel]
      rfl
  case beat =>
    refine ⟨_, exec_beatEdge_beat hedge hsrc hsel, fun a ha hguard => ?rejected, fun hguard hset => ?settling,
      fun hguard hset => ?counted⟩
    case rejected =>
      rw [takeBeat_rejected (s := s.edgeTo high) hrun .line ha hguard]
      have hraise : Keeps [.beat, .ports] s
          ((s.edgeTo high).raiseAll (.beatReject .line (s.cardTime - a))).settle :=
        (withBeat_keeps _ _).mono.trans ((raiseAll_keeps _ _).mono.trans (settle_keeps _).mono)
      exact ⟨hraise.1, hraise.ports, (settle_only _).beat, fun q => by rw [pending_settle, pending_raiseAll]; rfl⟩
    case settling =>
      rw [takeBeat_settling (s := s.edgeTo high) hrun .line hguard hset,
        settle_of_only hs (hlevel.trans (withBeat_keeps _ _).1)]
      exact ⟨hlevel.trans (withBeat_keeps _ _).1, rfl⟩
    case counted =>
      have haccept : OnlyChanges [.beat] s (s.edgeTo high).acceptBeat :=
        hlevel.trans (withBeat_keeps _ _).1
      rw [takeBeat_counted (s := s.edgeTo high) hrun .line hguard hset]
      refine ⟨?_, fun hnone => ?_, fun n hn hlt => ?_, fun n e hn hle he => ?_⟩
      · rw [(settle_only _).beat, (countBeat_keeps _).1.beat]
        rfl
      · rw [countBeat_none (s := (s.edgeTo high).acceptBeat) hnone, settle_of_only hs haccept]
        exact haccept
      · have hcount : OnlyChanges [.beat, .run] s ((s.edgeTo high).acceptBeat.withRun
            ((s.edgeTo high).acceptBeat.run.setBeats (fun _ m => m - 1))) := (haccept.mono (by decide)).trans ((withRun_keeps _ _).1.mono (by decide))
        rw [countBeat_counts (s := (s.edgeTo high).acceptBeat) hn hlt]
        rw [settle_of_only hs hcount]
        exact ⟨hcount, beatsLeft_setBeats hn, beatCounted_setBeats rfl⟩
      · rw [countBeat_expires (s := (s.edgeTo high).acceptBeat) hn hle, (settle_only _).beat,
          expire_beat]
        exact ⟨(expire_done (s := (s.edgeTo high).acceptBeat) hrun he).settle,
          fun hlaw c hc => (expire_afterBeat_offers _ hlaw he hc).settle⟩

/-! ## BEAT (R72) -/

section
variable {s : State} {p : Port} {pl : List Byte} (hh : s.arbiter.holder = some p)
include hh

theorem ownBeat_state (hsrc : s.beat.source ≠ .request) : ownBeat p pl s = .refuse .state [] := by
  simp [ownBeat, isHolder_iff.2 hh, hsrc]

theorem ownBeat_takes (hsrc : s.beat.source = .request) :
    ownBeat p pl s = .done (s.takeBeat .request) (beatBytes s.beatResult) := by
  simp [ownBeat, isHolder_iff.2 hh, hsrc]

theorem ownBeat_notRunning (hsrc : s.beat.source = .request) (hstill : s.engine.state ≠ .running) :
    ownBeat p pl s = .done s [0, 0, 0] := by
  rw [ownBeat_takes hh hsrc, takeBeat_notRunning hstill, State.beatResult, if_pos hstill]
  rfl

variable (hsrc : s.beat.source = .request) (hrun : s.engine.state = .running)
include hsrc hrun

theorem ownBeat_rejected {a : Nat} (ha : s.beat.lastAccepted = some a) (hg : s.cardTime - a < s.beat.guard) :
    ownBeat p pl s = .done (s.raiseAll (.beatReject .request (s.cardTime - a))) (1 :: le2 (s.cardTime - a)) := by
  rw [ownBeat_takes hh hsrc, takeBeat_rejected hrun .request ha hg, beatResult_rejected hrun ha hg]
  rfl

variable (hg : ∀ a, s.beat.lastAccepted = some a → s.beat.guard ≤ s.cardTime - a)
include hg

theorem ownBeat_settling (hset : s.beat.settling = true) :
    ownBeat p pl s = .done (s.withBeat { s.beat with lastAccepted := some s.cardTime, settling := false }) [2, 0, 0] := by
  rw [ownBeat_takes hh hsrc, takeBeat_settling hrun .request hg hset, beatResult_settling hrun hg hset]
  rfl

theorem ownBeat_counted (hset : s.beat.settling = false) :
    ownBeat p pl s = .done s.acceptBeat.countBeat (3 :: le2 (beatsField (s.run.beatsLeft.map (· - 1)))) := by
  rw [ownBeat_takes hh hsrc, takeBeat_counted hrun .request hg hset, beatResult_counted hrun hg hset]
  rfl

end

/-- Settles O31: the source, the show state, and then the beat's result, answered with its value. -/
theorem beatRequestsAreBeats : Obligations.BeatRequestsAreBeats := by
  intro s p r hx hh
  have haccept : Keeps [.beat] s s.acceptBeat := withBeat_keeps _ _
  refine ⟨fun hs hsrc => refuses_of_owner hs hx rfl (ownBeat_state hh hsrc) rfl,
    fun hs hsrc hstill => onlyAnswers_of_owner hs hx rfl (ownBeat_notRunning hh hsrc hstill), fun hsrc hrun =>
      ⟨fun a ha hguard => ?rejected, fun hguard hset => ?settling, fun hguard hset => ?counted⟩⟩
  case rejected =>
    obtain ⟨t, hdone, -⟩ := completes_of_owner (i := .beat p) (raised := fun _ => [.beatReject .request (s.cardTime - a)]) hx rfl
      (ownBeat_rejected hh hsrc hrun ha hguard) (raiseAll_keeps _ _) (by decide) (fun q => pending_raiseAll _ _ q)
    exact ⟨t, hdone⟩
  case settling =>
    obtain ⟨t, hdone, hports⟩ := completes_of_owner (i := .beat p) (raised := fun _ => []) hx rfl
      (ownBeat_settling hh hsrc hrun hguard hset) ((withBeat_keeps _ _).mono (cs := [.beat, .ports])) (by decide) (fun _ => rfl)
    exact ⟨t, hdone, hports.beat⟩
  case counted =>
    have ho := ownBeat_counted (pl := r.payload) hh hsrc hrun hguard hset
    refine ⟨fun hnone => ?none, fun n hn hlt => ?counts, fun n e hn hle he => ?expires⟩
    case none =>
      rw [countBeat_none (s := s.acceptBeat) hnone, hnone] at ho
      obtain ⟨t, hdone, hports⟩ := completes_of_owner (i := .beat p) (raised := fun _ => []) hx rfl ho
        (haccept.mono (cs := [.beat, .ports])) (by decide) (fun _ => rfl)
      exact ⟨t, hdone, hports.beat⟩
    case counts =>
      rw [countBeat_counts (s := s.acceptBeat) hn hlt, hn] at ho
      obtain ⟨t, hdone, hports⟩ := completes_of_owner (i := .beat p) (raised := fun _ => []) hx rfl ho
        ((haccept.mono (cs := [.beat, .run, .ports])).trans (withRun_keeps _ _).mono) (by decide) (fun _ => rfl)
      exact ⟨t, hdone, hports.beat, by rw [hports.run]; exact beatsLeft_setBeats hn, beatCounted_setBeats hports.run⟩
    case expires =>
      have hzero : n - 1 = 0 := Nat.sub_eq_zero_of_le hle
      rw [countBeat_expires (s := s.acceptBeat) hn hle, hn] at ho
      have hbytes : (3 :: le2 (beatsField ((some n).map (· - 1))) : List Byte) = [3, 0, 0] := by
        rw [Option.map_some, hzero]
        rfl
      rw [hbytes] at ho
      have hbeat : (s.acceptBeat.expire.respond p r .done [3, 0, 0]).settle.beat = s.acceptBeat.beat := by
        rw [(respond_settle_only _ p r _).beat, expire_beat]
      refine ⟨_, exec_done (k := .beat) hx ho, answers_done hx ((haccept.mono (cs := [.beat, .engine, .run, .heads, .texts, .link,
        .watch, .ports])).trans (expire_keeps _).mono), hbeat, ?_, fun hlaw c hc => ?_⟩
      · rw [hbeat]
        exact ((expire_done (s := s.acceptBeat) hrun he).respond p r .done _).settle
      · exact ((expire_afterBeat_offers _ hlaw he hc).respond p r .done _).settle

end Sys2Proof.Machine
end

section
/-! Fade ends and the commands that are asked for (R81, R86, R87, R102, R104): O44. -/

namespace Sys2Proof.Machine

/-! ## One command asked for, by the head and the room in the queue -/

/-- Nothing is asked of a head that is not ONLINE or is out of step (R87, R104). -/
def Head.deaf (x : Head) : Prop := x.state ≠ .online ∨ x.outOfStep = true

section
variable {s : State} {h : HeadId} {l : Layer} {a : Ask}

theorem ask_deaf (hd : (s.head h).deaf) : s.ask h l a = s := by
  unfold State.ask
  rcases hd with hd | hd
  · exact if_pos hd
  · rw [hd, if_pos rfl, ite_self]

theorem ask_room (hon : (s.head h).state = .online) (hin : (s.head h).outOfStep = false) (hroom : s.link.queue.length < 64) :
    s.ask h l a = (s.enqueue h (a.body l s.texts)).startLink := by
  unfold State.ask
  rw [if_neg (not_not.2 hon), hin, if_neg Bool.false_ne_true]
  exact if_pos hroom

theorem ask_full (hon : (s.head h).state = .online) (hin : (s.head h).outOfStep = false) (hfull : 64 ≤ s.link.queue.length) :
    s.ask h l a = s.markOutOfStep h := by
  unfold State.ask
  rw [if_neg (not_not.2 hon), hin, if_neg Bool.false_ne_true]
  exact if_neg (Nat.not_lt.2 hfull)

end

/-- A command that joins the queue and the start of the oldest (R102, R106). -/
theorem enqueue_startLink_only (s : State) (h : HeadId) (b : CmdBody) : OnlyChanges [.link] s (s.enqueue h b).startLink :=
  (enqueue_only s h b).trans (startLink_only _)

theorem commands_enqueue_startLink (s : State) (h : HeadId) (b : CmdBody) :
    (s.enqueue h b).startLink.commands = s.commands ++ [(h, b)] := by
  rw [commands_startLink, commands_enqueue]

section
variable {s : State} {h : HeadId}

theorem markOutOfStep_inStep (hin : (s.head h).outOfStep = false) :
    s.markOutOfStep h = (s.setHead h { s.head h with outOfStep := true }).raiseAll (.outOfStep h) := by
  unfold State.markOutOfStep
  rw [hin]
  exact if_neg Bool.false_ne_true

theorem markOutOfStep_outOfStep (hout : (s.head h).outOfStep = true) : s.markOutOfStep h = s := if_pos hout

theorem head_markOutOfStep_self : (s.markOutOfStep h).head h = { s.head h with outOfStep := true } := by
  cases hout : (s.head h).outOfStep with
  | true => rw [markOutOfStep_outOfStep hout, ← hout]
  | false => rw [markOutOfStep_inStep hout, (raiseAll_keeps _ _).1.head, State.head_setHead_self]

theorem head_markOutOfStep_ne {k : HeadId} (hk : k ≠ h) : (s.markOutOfStep h).head k = s.head k := by
  cases hout : (s.head h).outOfStep with
  | true => rw [markOutOfStep_outOfStep hout]
  | false => rw [markOutOfStep_inStep hout, (raiseAll_keeps _ _).1.head, State.head_setHead_ne _ _ hk]

theorem port_markOutOfStep (hin : (s.head h).outOfStep = false) (q : Port) :
    (s.markOutOfStep h).port q = (s.port q).raise (.outOfStep h) := by
  rw [markOutOfStep_inStep hin, port_raiseAll, (setHead_only _ _ _).port]

/-- OUT_OF_STEP is raised where the head was in step (R104). -/
theorem pending_markOutOfStep (q : Port) : ((s.markOutOfStep h).port q).pending =
    raisedInto (s.port q).pending (if (s.head h).outOfStep = true then [] else [.outOfStep h]) := by
  cases hout : (s.head h).outOfStep with
  | true => rw [markOutOfStep_outOfStep hout]; rfl
  | false => rw [port_markOutOfStep hout]; rfl

theorem markOutOfStep_told (hin : (s.head h).outOfStep = false) : Raises .outOfStep [.outOfStep h] s (s.markOutOfStep h) := by
  rw [markOutOfStep_inStep hin]
  exact (Raises.ofOnly (setHead_only s h _) .outOfStep).ofQuiet (.raiseAll _ (.outOfStep h))

end

/-! ## The end of a fade -/

/-- What the end of a fade does: the slot after it, and the text of at most one PUT. -/
def putsMove (after : Slot) (ask : List TextPart) : SlotMove := { slot := after, asks := ask.map Ask.put, displaced := none }

theorem exec_fadeEnd_fading {s : State} {h : HeadId} {l : Layer} {x : Slot} (hx : (s.head h).slot l = x)
    (hf : x.fadeLeft ≠ none) : exec (.fadeEnd h l) s = .next (s.moveSlot h l x.fadeEnd).settle := by
  show execFadeEnd h l s = _
  unfold execFadeEnd
  cases x with
  | rising => rw [hx]
  | falling => rw [hx]
  | lit => exact absurd rfl hf
  | dark => exact absurd rfl hf

theorem exec_fadeEnd_still {s : State} {h : HeadId} {l : Layer}
    (hx : (∃ shown, (s.head h).slot l = .lit shown) ∨ (s.head h).slot l = .dark) : exec (.fadeEnd h l) s = .next s := by
  show execFadeEnd h l s = _
  unfold execFadeEnd
  rcases hx with ⟨shown, hx⟩ | hx <;> rw [hx]

theorem moveSlot_puts (s : State) (h : HeadId) (l : Layer) (after : Slot) (ask : List TextPart) :
    s.moveSlot h l (putsMove after ask) = ask.foldl (fun t n => t.ask h l (.put n)) (s.writeSlot h l after) :=
  List.foldl_map

/-- A state whose slot alone has been written, as the asks see it. -/
theorem head_writeSlot_flags (s : State) (h : HeadId) (l : Layer) (x : Slot) (k : HeadId) :
    ((s.writeSlot h l x).head k).state = (s.head k).state ∧ ((s.writeSlot h l x).head k).outOfStep = (s.head k).outOfStep :=
  (Quiet.writeSlot s h l x).alike.heads k

section
variable {s u : State} {h : HeadId} {l : Layer} {ask : List TextPart}

theorem puts_deaf (hd : (u.head h).deaf) : ask.foldl (fun t n => t.ask h l (.put n)) u = u := by
  induction ask with
  | nil => rfl
  | cons n ask ih => rw [List.foldl_cons, ask_deaf hd, ih]

variable (hlen : ask = [] ∨ ∃ n, ask = [n]) (hon : (u.head h).state = .online) (hin : (u.head h).outOfStep = false)
include hlen hon hin

theorem puts_room (hroom : u.link.queue.length < 64) : (ask.foldl (fun t n => t.ask h l (.put n)) u).commands =
    u.commands ++ ask.map (fun n => (h, .put l (textBytes u.texts n.text) n.fadeIn n.cue)) := by
  rcases hlen with rfl | ⟨n, rfl⟩
  · exact (List.append_nil _).symm
  · exact (congrArg State.commands (ask_room hon hin hroom)).trans (commands_enqueue_startLink _ _ _)

theorem puts_full (hfull : 64 ≤ u.link.queue.length) :
    (ask.foldl (fun t n => t.ask h l (.put n)) u).link = u.link ∧
    ((ask.foldl (fun t n => t.ask h l (.put n)) u).head h).outOfStep = !ask.isEmpty ∧
    (∀ k, k ≠ h → (ask.foldl (fun t n => t.ask h l (.put n)) u).head k = u.head k) ∧
    Raises .outOfStep (ask.map (fun _ => .outOfStep h)) u (ask.foldl (fun t n => t.ask h l (.put n)) u) := by
  rcases hlen with rfl | ⟨n, rfl⟩
  · exact ⟨rfl, hin, fun _ _ => rfl, .refl _ _⟩
  · simp only [List.foldl_cons, List.foldl_nil, ask_full hon hin hfull]
    refine ⟨link_markOutOfStep u h, ?_, fun k hk => head_markOutOfStep_ne hk, markOutOfStep_told hin⟩
    rw [head_markOutOfStep_self]
    rfl

end

/-- The three fades that end: each has its slot after and at most one PUT (R86). -/
theorem fadeEnd_puts {x after : Slot} {ask : List TextPart}
    (h : (∃ shown f, x = .rising shown f ∧ after = .lit shown ∧ ask = []) ∨
      (∃ shown n f, x = .falling shown (some n) f ∧ after = rise n ∧ ask = [n]) ∨
      (∃ shown f, x = .falling shown none f ∧ after = .dark ∧ ask = [])) :
    x.fadeLeft ≠ none ∧ x.fadeEnd = putsMove after ask ∧ (ask = [] ∨ ∃ n, ask = [n]) := by
  rcases h with ⟨shown, f, rfl, rfl, rfl⟩ | ⟨shown, n, f, rfl, rfl, rfl⟩ | ⟨shown, f, rfl, rfl, rfl⟩
  · exact ⟨nofun, rfl, .inl rfl⟩
  · exact ⟨nofun, rfl, .inr ⟨n, rfl⟩⟩
  · exact ⟨nofun, rfl, .inl rfl⟩

/-- A move writes the one slot (R84 to R86). -/
theorem slot_moveSlot (s : State) (h : HeadId) (l : Layer) (m : SlotMove) (k : HeadId) (j : Layer) :
    ((s.moveSlot h l m).head k).slot j = if (k, j) = (h, l) then m.slot else (s.head k).slot j := by
  rw [← Head.core_slot, moveSlot_core]
  by_cases hk : k = h
  case neg => rw [if_neg hk, if_neg (fun he => hk (congrArg Prod.fst he)), Head.core_slot]
  case pos =>
    rw [if_pos hk, hk]
    by_cases hj : j = l
    · rw [hj, Head.slot_setSlot_self, if_pos rfl]
    · rw [Head.slot_setSlot_ne _ _ hj, if_neg (fun he => hj (congrArg Prod.snd he)), Head.core_slot]

/-- A move keeps every head's state and settings. -/
theorem head_moveSlot (s : State) (h : HeadId) (l : Layer) (m : SlotMove) (k : HeadId) :
    ((s.moveSlot h l m).head k).state = (s.head k).state ∧ ((s.moveSlot h l m).head k).lang = (s.head k).lang ∧
    ((s.moveSlot h l m).head k).group = (s.head k).group ∧ ((s.moveSlot h l m).head k).gap = (s.head k).gap := by
  have hcore := moveSlot_core s h l m k
  rw [← Head.core_state, ← Head.core_lang, ← Head.core_group, ← Head.core_gap, hcore]
  split
  next hk => rw [hk]; cases l <;> exact ⟨rfl, rfl, rfl, rfl⟩
  next => exact ⟨rfl, rfl, rfl, rfl⟩

theorem texts_moveSlot (s : State) (h : HeadId) (l : Layer) (after : Slot) (ask : List TextPart) :
    (s.moveSlot h l (putsMove after ask)).texts = s.texts.map (fun x =>
      { x with refs := x.refs + after.names.count x.id - ((s.head h).slot l).names.count x.id }) := by
  rw [moveSlot_puts, (Keeps.foldl (fun t n => ask_keeps t h l (.put n)) ask (s.writeSlot h l after)).1.texts]
  exact removeNames_addNames _ _ _

/-- Settles O44: a fade end is one slot's move with at most one PUT, and each ask is by the head's state and the room. -/
theorem fadeEndsAndAskedCommands : Obligations.FadeEndsAndAskedCommands := by
  refine ⟨fun s h l => ⟨exec_fadeEnd_still, fun after ask hfade => ?fades⟩, fun s h l a =>
    ⟨fun hd => ask_deaf hd, fun hon hin => ⟨fun hroom => ?room, fun hfull => ?full⟩⟩⟩
  case room =>
    rw [ask_room hon hin hroom]
    exact ⟨enqueue_startLink_only _ _ _, commands_enqueue_startLink _ _ _⟩
  case full =>
    rw [ask_full hon hin hfull]
    exact ⟨(markOutOfStep_keeps s h).1, head_markOutOfStep_self, fun k hk => head_markOutOfStep_ne hk,
      port_markOutOfStep hin⟩
  case fades =>
    obtain ⟨hf, hend, hlen⟩ := fadeEnd_puts hfade
    have hkeeps : Keeps [.heads, .texts, .link, .ports] s (s.moveSlot h l (putsMove after ask)).settle :=
      (moveSlot_keeps _ _ _ _).mono.trans (settle_keeps _).mono
    have hports : OnlyChanges [.ports] (s.moveSlot h l (putsMove after ask)) (s.moveSlot h l (putsMove after ask)).settle :=
      settle_only _
    have hhead (k : HeadId) : (s.moveSlot h l (putsMove after ask)).settle.head k =
        (s.moveSlot h l (putsMove after ask)).head k := hports.head k
    obtain ⟨hstate, hout⟩ := head_writeSlot_flags s h l after h
    refine ⟨_, hend ▸ exec_fadeEnd_fading rfl hf, hkeeps.1, hkeeps.ports, ?_, fun k j hne => ?_, fun k => ?_, ?_,
      fun hon hin hroom => ?_, fun hd => ?_, fun hon hin hfull => ?_, (moveSlot_movesTo s h l _).made.settle, fun x hx => ?_⟩
    · rw [hhead, slot_moveSlot, if_pos rfl]
      rfl
    · rw [hhead, slot_moveSlot, if_neg hne]
    · rw [hhead]
      exact head_moveSlot s h l _ k
    · rw [hports.texts, texts_moveSlot]
    · rw [commands_of_link hports.link, moveSlot_puts, puts_room hlen (hstate.trans hon) (hout.trans hin) hroom]
      simp only [(Quiet.writeSlot s h l after).alike.texts]
      rfl
    · rw [hports.link, moveSlot_puts, puts_deaf (by rwa [Head.deaf, hstate, hout])]
      rfl
    · obtain ⟨hlink, hflag, hothers, htold⟩ := puts_full (l := l) hlen (hstate.trans hon) (hout.trans hin) hfull
      rw [hports.link, moveSlot_puts]
      refine ⟨hlink, ?_, fun k hk => ?_, ?_⟩
      · rw [(settle_only _).head, hflag]
      · rw [(settle_only _).head, hothers k hk]
        exact (head_writeSlot_flags s h l after k).2
      · refine (((Raises.ofOnly (writeSlot_keeps s h l after).1 .outOfStep).ofQuiet htold).just fun r hr => ?_).settle
        obtain ⟨n, -, rfl⟩ := List.mem_map.1 hr
        rfl
    · have hraises := moveSlot_raises (x := x) (fun he => hx (List.mem_singleton.2 he)) s h l (putsMove after ask)
      rw [show (if x = .overrun then ((putsMove after ask).displaced.map (fun c => Raise.overrun h l c)).toList else []) = []
        from ite_self _] at hraises
      exact hraises.unraised.settle

end Sys2Proof.Machine
end

section
/-! SET_HEAD and REFRESH_HEAD (R92 to R96, R117): O45, O46 and O47. -/

namespace Sys2Proof.Machine

/-! ## SET_HEAD's fields and settings (R92, R95) -/

/-- A head's language, group and gap policy are written (R95). -/
def State.writeSettings (s : State) (h : HeadId) (lang : Lang) (group : GroupId) (gap : GapPolicy) : State :=
  s.setHead h { s.head h with lang := lang, group := group, gap := gap }

section
variable {s : State} {h : HeadId} {lang : Lang} {group : GroupId} {gap : GapPolicy}

theorem head_writeSettings_self :
    (s.writeSettings h lang group gap).head h = { s.head h with lang := lang, group := group, gap := gap } :=
  State.head_setHead_self _ _ _

theorem head_writeSettings_ne {k : HeadId} (hk : k ≠ h) : (s.writeSettings h lang group gap).head k = s.head k :=
  State.head_setHead_ne _ _ hk

theorem writeSettings_keeps : Keeps [.heads] s (s.writeSettings h lang group gap) := setHead_keeps _ _ _

end

theorem headSettingsOf_some {a b c d e : Byte} {h : HeadId} {on : Bool} {lang : Lang} {group : GroupId} {gap : GapPolicy}
    (ha : headOf a = some h) (hb : yesNoOf b = some on) (hc : eighthOf c = some lang) (hd : eighthOf d = some group)
    (he : gapOf e = some gap) : headSettingsOf a b c d e = some (h, on, lang, group, gap) := by
  simp only [headSettingsOf, ha, hb, hc, hd, he]

theorem headSettingsOf_none {a b c d e : Byte}
    (h : headOf a = none ∨ yesNoOf b = none ∨ eighthOf c = none ∨ eighthOf d = none ∨ gapOf e = none) :
    headSettingsOf a b c d e = none := by
  unfold headSettingsOf
  split
  next ha hb hc hd he => simp [ha, hb, hc, hd, he] at h
  next => rfl

section
variable {p : Port} {s : State} {a b c d e : Byte}

theorem ownSetHead_outOfRange (h : headSettingsOf a b c d e = none) : ownSetHead p [a, b, c, d, e] s = .refuse .range [] := by
  simp only [ownSetHead, h]

variable {h : HeadId} {on : Bool} {lang : Lang} {group : GroupId} {gap : GapPolicy}
  (hf : headSettingsOf a b c d e = some (h, on, lang, group, gap))
include hf

theorem ownSetHead_showOpen (hne : lang ≠ (s.head h).lang ∨ group ≠ (s.head h).group) (hst : s.engine.state ≠ .idle) :
    ownSetHead p [a, b, c, d, e] s = .refuse .state [] := by
  simp only [ownSetHead, hf]
  exact if_pos ⟨hne, hst⟩

theorem ownSetHead_writes (hok : (lang = (s.head h).lang ∧ group = (s.head h).group) ∨ s.engine.state = .idle) :
    ownSetHead p [a, b, c, d, e] s = .done ((s.writeSettings h lang group gap).actOnEnable h on)
      [(((s.writeSettings h lang group gap).actOnEnable h on).head h).state.code] := by
  simp only [ownSetHead, hf]
  refine if_neg fun ⟨hne, hst⟩ => ?_
  rcases hok with ⟨hl, hg⟩ | hidle
  · exact hne.elim (fun h => h hl) (fun h => h hg)
  · exact hst hidle

end

section
variable {s : State} {h : HeadId}

theorem Head.enabled_iff {x : Head} : x.enabled = true ↔ x.state ≠ .absent := decide_eq_true_iff

theorem Head.enabled_eq_false {x : Head} : x.enabled = false ↔ x.state = .absent := by
  rw [Bool.eq_false_iff, Ne, Head.enabled_iff, not_not]

/-- The enable field says what the head is: nothing is done (R92). -/
theorem actOnEnable_same {on : Bool} (h' : (s.head h).enabled = on) : s.actOnEnable h on = s := by
  unfold State.actOnEnable
  rw [h']
  cases on <;> rfl

theorem actOnEnable_on (habs : (s.head h).state = .absent) : s.actOnEnable h true = s.enableHead h :=
  if_pos ⟨rfl, Head.enabled_eq_false.2 habs⟩

theorem actOnEnable_off (hne : (s.head h).state ≠ .absent) : s.actOnEnable h false = s.disableHead h := by
  unfold State.actOnEnable
  rw [if_neg (fun hx => Bool.false_ne_true hx.1), if_pos ⟨rfl, Head.enabled_iff.2 hne⟩]

end

/-- Settles O45: a field out of range is RANGE, a language or group of an open show STATE; else the settings are written. -/
theorem setHeadWritesSettings : Obligations.SetHeadWritesSettings := by
  intro s p r a b c d e hs hx hpl
  refine ⟨fun hbad => refuses_of_owner hs hx rfl (hpl ▸ ownSetHead_outOfRange (headSettingsOf_none hbad)) rfl,
    fun h on lang group gap ha hb hc hd he => ?_⟩
  have hf := headSettingsOf_some ha hb hc hd he
  refine ⟨fun hne hst => refuses_of_owner hs hx rfl (hpl ▸ ownSetHead_showOpen hf hne hst) rfl, fun hok hon => ?_⟩
  have ho : ownSetHead p r.payload s = .done (s.writeSettings h lang group gap) [(s.head h).state.code] := by
    rw [hpl, ownSetHead_writes hf hok, actOnEnable_same (by rw [head_writeSettings_self]; exact hon), head_writeSettings_self]
  obtain ⟨t, hdone, hports⟩ := completes_of_owner (i := .setHead p) (raised := fun _ => []) hx rfl ho
    (writeSettings_keeps.mono (cs := [.heads, .ports])) (by decide) (fun _ => rfl)
  exact ⟨t, hdone, by rw [hports.head, head_writeSettings_self], fun k hk => by rw [hports.head, head_writeSettings_ne hk]⟩

/-! ## A PROBE asked for (R93, R96) -/

section
variable {s : State} {h : HeadId}

theorem askProbe_room (hroom : s.link.queue.length < 64) : s.askProbe h = (s.enqueue h .probe).startLink := if_pos hroom

theorem askProbe_full (hfull : 64 ≤ s.link.queue.length) : s.askProbe h = s.markOutOfStep h := if_neg (Nat.not_lt.2 hfull)

end

/-! ## A head is enabled (R93) -/

/-- An ABSENT head becomes PROBING, in step (R93). -/
def State.startProbing (s : State) (h : HeadId) : State := s.setHead h { s.head h with state := .probing, outOfStep := false }

section
variable {s : State} {h : HeadId}

theorem head_startProbing_self : (s.startProbing h).head h = { s.head h with state := .probing, outOfStep := false } :=
  State.head_setHead_self _ _ _

theorem head_startProbing_ne {k : HeadId} (hk : k ≠ h) : (s.startProbing h).head k = s.head k := State.head_setHead_ne _ _ hk

theorem startProbing_keeps : Keeps [.heads] s (s.startProbing h) := setHead_keeps _ _ _

theorem enableHead_eq : s.enableHead h = (s.startProbing h).askProbe h := rfl

end

/-! ## A head is disabled (R94, R117) -/

/-- No cause is raised, and no request joins or leaves. -/
def CausesKept (s t : State) : Prop := ∀ q, (t.port q).pending = (s.port q).pending ∧
  (t.port q).repeats = (s.port q).repeats ∧ (t.port q).queue = (s.port q).queue

theorem afterLeaving_port (s : State) (q : Port) : s.afterLeaving.port q = s.port q := by
  unfold State.port
  rw [afterLeaving_ports]

theorem causesKept_told {s t : State} (h : t.ports = s.ports) {gone : List Nat} {acked : Bool} :
    CausesKept s (t.commandsLeft gone acked).afterLeaving := by
  intro q
  rw [afterLeaving_port, State.commandsLeft, State.port_onPorts]
  unfold State.port
  rw [h]
  exact ⟨rfl, rfl, rfl⟩

section
variable (s : State) (h : HeadId)

/-- The commands of the other heads. -/
def State.othersCommands (s : State) (h : HeadId) : List (HeadId × CmdBody) :=
  (s.link.queue.filter (fun x => decide (x.head ≠ h))).map (fun x => (x.head, x.body))

theorem link_darken : (s.darken h).link = s.link := (darken_keeps s h).1.link

theorem texts_darken : (s.darken h).texts = s.texts.map (fun x => { x with
    refs := x.refs - (s.head h).baseSlot.names.count x.id - (s.head h).overSlot.names.count x.id }) := by
  have hover : ((s.writeSlot h .base .dark).head h).slot .overlay = (s.head h).overSlot := by
    rw [writeSlot_head, if_pos rfl]
    rfl
  show removeNames (((s.writeSlot h .base .dark).head h).slot .overlay).names
    (addNames [] (removeNames ((s.head h).slot .base).names (addNames [] s.texts))) = _
  rw [hover, removeNames_addNames, removeNames_addNames, List.map_map]
  rfl

theorem textBytes_darken (i : Nat) : textBytes (s.darken h).texts i = textBytes s.texts i :=
  ((Quiet.writeSlot _ h .overlay .dark).alike.texts i).trans ((Quiet.writeSlot s h .base .dark).alike.texts i)

/-- A head's commands leave, and no cause is raised (R117). -/
theorem causesKept_dropHeadCommands : CausesKept s (s.dropHeadCommands h) := by
  unfold State.dropHeadCommands
  dsimp only
  refine iteInduction (fun _ => ?_) (fun _ => iteInduction (fun _ => ?_) (fun _ => ?_))
  · exact fun _ => ⟨rfl, rfl, rfl⟩
  · exact causesKept_told rfl
  · exact causesKept_told rfl

/-- A disabled head is darkened, and its commands leave before a catch-up of the others. -/
theorem disableHead_caughtUp : ∃ y, CaughtUp y (s.disableHead h) ∧ (∀ k, y.head k = (s.darken h).head k) ∧
    y.link.capture = s.link.capture ∧ y.commands = s.othersCommands h := by
  have hlink := link_darken s h
  unfold State.disableHead
  by_cases hgo : ∃ x ∈ (s.darken h).link.queue, x.head = h
  case pos =>
    obtain ⟨z, hz, hdrop⟩ := dropHeadCommands_eq _ _ hgo
    refine ⟨z, hz ▸ afterLeaving_caughtUp z, hdrop.heads, by rw [hdrop.capture, hlink], ?_⟩
    rw [State.commands, hdrop.queue, hlink]
    rfl
  case neg =>
    have hnone : ∀ x ∈ (s.darken h).link.queue, x.head ≠ h := fun x hx he => hgo ⟨x, hx, he⟩
    rw [dropHeadCommands_none _ _ hnone]
    refine ⟨_, .refl _, fun _ => rfl, by rw [hlink], ?_⟩
    rw [hlink] at hnone
    rw [State.commands, hlink, State.othersCommands, List.filter_eq_self.2 fun x hx => decide_eq_true (hnone x hx)]

/-- The disabled head is ABSENT, DARK and in step; another head can only have become in step. -/
theorem head_disableHead_self : (s.disableHead h).head h =
    { s.head h with state := .absent, outOfStep := false, baseSlot := .dark, overSlot := .dark } := by
  obtain ⟨y, hcaught, hheads, -, -⟩ := disableHead_caughtUp s h
  have hy := hheads h
  rw [head_darken, if_pos rfl] at hy
  rcases hcaught.heads h with he | ⟨hout, -⟩
  · rw [he, hy]
  · rw [hy] at hout
    cases hout

theorem head_disableHead_ne {k : HeadId} (hk : k ≠ h) :
    { (s.disableHead h).head k with outOfStep := (s.head k).outOfStep } = s.head k := by
  obtain ⟨y, hcaught, hheads, -, -⟩ := disableHead_caughtUp s h
  have hy := hheads k
  rw [head_darken, if_neg hk] at hy
  rw [← hy]
  rcases hcaught.heads k with he | ⟨-, he⟩ <;> rw [he]

theorem texts_disableHead : (s.disableHead h).texts = (s.darken h).texts := (dropHeadCommands_keeps _ h).1.texts

theorem capture_disableHead : (s.disableHead h).link.capture = s.link.capture := by
  obtain ⟨y, hcaught, -, hcapture, -⟩ := disableHead_caughtUp s h
  rw [hcaught.capture, hcapture]

theorem queue_disableHead : ∀ x ∈ (s.disableHead h).link.queue, x.head ≠ h := by
  obtain ⟨y, hcaught, hheads, -, hcommands⟩ := disableHead_caughtUp s h
  obtain ⟨more, hmore, hactive⟩ := hcaught.joined
  intro x hx he
  have hmem : (x.head, x.body) ∈ (s.disableHead h).commands := List.mem_map_of_mem (f := fun c => (c.head, c.body)) hx
  rw [hmore, hcommands] at hmem
  rcases List.mem_append.1 hmem with hmem | hmem
  · obtain ⟨c, hc, hpair⟩ := List.mem_map.1 hmem
    exact of_decide_eq_true (List.mem_filter.1 hc).2 ((congrArg Prod.fst hpair).trans he)
  · obtain ⟨hout, -⟩ := hactive _ hmem
    rw [hheads, he, head_darken, if_pos rfl] at hout
    cases hout

theorem causesKept_disableHead : CausesKept s (s.disableHead h) := fun q => by
  have hport : (s.darken h).port q = s.port q := (darken_keeps s h).1.port q
  rw [← hport]
  exact causesKept_dropHeadCommands _ h q

end

/-- While the phase is not NONE the queue's front stays, and nothing starts (R106). -/
theorem afterLeaving_front {s : State} (hp : s.link.phase ≠ .none) : s.link.queue <+: s.afterLeaving.link.queue := by
  have hphase : s.catchUp.link.phase ≠ .none := by
    rw [(catchUp_line s).1]
    exact hp
  have hstart : s.catchUp.startLink = s.catchUp := by
    unfold State.startLink
    split
    next hnone _ => exact absurd hnone hphase
    next => rfl
  unfold State.afterLeaving
  rw [hstart]
  exact catchUp_queue s

theorem refreshBody_congr {texts texts' : List TextRec} (h : ∀ i, textBytes texts' i = textBytes texts i) (x : Slot) (l : Layer) :
    refreshBody x l texts' = refreshBody x l texts := by
  unfold refreshBody
  split
  · rw [h]
  · rfl

/-- A catch-up reads of the texts their bytes alone. -/
theorem CatchesUp.ofAlike {s s' t : State} {stay : List (HeadId × CmdBody)} (a : CatchesUp s stay t)
    (hh : ∀ h, s'.head h = s.head h) (hx : ∀ i, textBytes s'.texts i = textBytes s.texts i) : CatchesUp s' stay t := by
  have he : s'.catchUpCommands = s.catchUpCommands := by
    simp only [State.catchUpCommands, hh, refreshBody_congr hx]
  exact ⟨by rw [he]; exact a.commands, fun h => by rw [hh]; exact a.heads h⟩

/-- What the executing request's own answer leaves of the SYNCs that are told: its port has none waiting (R118, R150). -/
theorem SyncsTold.congr {s s' t u : State} {gone : List Nat} {acked : Bool} {p : Port} (h : SyncsTold s' gone acked t)
    (hstart : ∀ q, s'.port q = s.port q) (hs : (s.port p).sync = none) (hu : (u.port p).sync = none)
    (hne : ∀ q, q ≠ p → u.port q = t.port q) : SyncsTold s gone acked u := by
  refine ⟨fun q hq => ?_, fun q w stay left unacked hw hstay hleft hunacked => ?_⟩
  · by_cases hqp : q = p
    · rw [hqp]; exact hu
    · rw [hne q hqp]; exact h.noneBegins q (by rw [hstart]; exact hq)
  · have hqp : q ≠ p := fun he => by rw [he, hs] at hw; cases hw
    have htold := h.told q w stay left unacked (by rw [hstart]; exact hw) hstay hleft hunacked
    unfold Answers at htold ⊢
    rw [hne q hqp]
    rwa [hstart] at htold

theorem LinkGoesOn.congr {s s' t u : State} (h : LinkGoesOn s' t) (hs : s'.link = s.link) (hu : u.link = t.link) :
    LinkGoesOn s u := by
  refine LinkGoesOn.of_link (t := t) ⟨?_, ?_⟩ hu
  · rw [← hs]; exact h.idle
  · rw [← hs]; exact h.starts

/-! ### The link after a disabling -/

section
variable {s : State} {h : HeadId}

/-- The commands of the disabled head leave, whole: the catch-up behind the rest, the SYNCs told, and the frame being sent, a
command in flight or a free link as R117 has them. -/
theorem disableHead_link (hgo : ∃ x ∈ s.link.queue, x.head = h) : ∃ z, CommandsDropped (s.darken h) h z ∧
    s.disableHead h = z.afterLeaving := by
  rw [← link_darken s h] at hgo
  obtain ⟨z, hz, hdrop⟩ := dropHeadCommands_eq _ _ hgo
  exact ⟨z, hdrop, hz⟩

variable {z : State} (hdrop : CommandsDropped (s.darken h) h z)
include hdrop

theorem CommandsDropped.catchesUp : CatchesUp (s.darken h) (s.othersCommands h) z.afterLeaving := by
  have hstay : z.commands = s.othersCommands h := by
    rw [State.commands, hdrop.queue, link_darken]
    rfl
  rw [← hstay]
  exact (afterLeaving_catchesUp z).congr (fun k => (hdrop.heads k).symm) hdrop.texts.symm (fun _ => rfl) rfl

theorem CommandsDropped.told :
    SyncsTold s ((s.link.queue.filter (fun x => decide (x.head = h))).map Command.id) false z.afterLeaving.settle := by
  have hdark (q : Port) : (s.darken h).port q = s.port q := (darken_keeps s h).1.port q
  refine settle_syncsTold (fun q => ?_) (fun q => ?_)
  · rw [afterLeaving_port, hdrop.syncs, hdark, link_darken]
  · rw [afterLeaving_port, hdrop.queues, hdark]

theorem CommandsDropped.goesOnSending {n : Nat} (hp : s.link.phase = .sending n true) :
    z.afterLeaving.link.phase = .sending n true ∧ z.afterLeaving.link.attempts = s.link.attempts ∧
    z.afterLeaving.link.nextSeq = s.link.nextSeq := by
  obtain ⟨hphase, hattempts⟩ := hdrop.tail n (by rw [link_darken]; exact hp)
  obtain ⟨hp', ha', hn'⟩ := afterLeaving_busy (s := z) (by rw [hphase]; nofun)
  exact ⟨hp'.trans hphase, by rw [ha', hattempts, link_darken], by rw [hn', hdrop.nextSeq, link_darken]⟩

theorem CommandsDropped.othersInFlight {x : Command} {rest : List Command} (hq : s.link.queue = x :: rest)
    (hp : s.link.phase ≠ .none) (hx : x.head ≠ h) :
    z.afterLeaving.link.queue.head? = some x ∧ z.afterLeaving.link.phase = s.link.phase ∧
    z.afterLeaving.link.attempts = s.link.attempts ∧ z.afterLeaving.link.nextSeq = s.link.nextSeq := by
  obtain ⟨hphase, hattempts⟩ := hdrop.other x rest (by rw [link_darken]; exact hq) (by rw [link_darken]; exact hp) hx
  rw [link_darken] at hphase hattempts
  have hbusy : z.link.phase ≠ .none := by rw [hphase]; exact hp
  obtain ⟨hp', ha', hn'⟩ := afterLeaving_busy hbusy
  refine ⟨?_, hp'.trans hphase, ha'.trans hattempts, by rw [hn', hdrop.nextSeq, link_darken]⟩
  have hqueue : z.link.queue = x :: rest.filter (fun d => decide (d.head ≠ h)) := by
    rw [hdrop.queue, link_darken, hq, List.filter_cons_of_pos (by simpa using hx)]
  obtain ⟨more, hmore⟩ := afterLeaving_front hbusy
  rw [← hmore, hqueue]
  rfl

theorem CommandsDropped.ownInFlight {x : Command} {rest : List Command} (hq : s.link.queue = x :: rest) (hx : x.head = h) :
    (∀ n, s.link.phase = .sending n false → z.afterLeaving.link.phase = .sending n true ∧
      z.afterLeaving.link.attempts = 0 ∧ z.afterLeaving.link.nextSeq = s.link.nextSeq) ∧
    (∀ n, s.link.phase = .waiting n ∨ s.link.phase = .holding n → LinkGoesOn s z.afterLeaving) := by
  obtain ⟨hsend, hfree⟩ := hdrop.own x rest (by rw [link_darken]; exact hq) hx
  rw [link_darken] at hsend hfree
  have hseq : z.link.nextSeq = s.link.nextSeq := by rw [hdrop.nextSeq, link_darken]
  refine ⟨fun n hp => ?_, fun n hp => ?_⟩
  · obtain ⟨hphase, hattempts⟩ := hsend n hp
    obtain ⟨hp', ha', hn'⟩ := afterLeaving_busy (s := z) (by rw [hphase]; nofun)
    exact ⟨hp'.trans hphase, ha'.trans hattempts, hn'.trans hseq⟩
  · obtain ⟨hphase, hattempts⟩ := hfree n hp
    exact afterLeaving_goesOn hphase hattempts hseq

end

/-- Settles O46: enabling makes the head PROBING and asks for a PROBE; disabling darkens it, takes its commands out, tells the
SYNCs and lets the link go on. -/
theorem setHeadEnablesAndDisables : Obligations.SetHeadEnablesAndDisables := by
  intro s p r a b c d e h on lang group gap hx hpl ha hb hc hd he hok
  have hf := headSettingsOf_some ha hb hc hd he
  have hown : ownSetHead p r.payload s = .done ((s.writeSettings h lang group gap).actOnEnable h on)
      [(((s.writeSettings h lang group gap).actOnEnable h on).head h).state.code] := by
    rw [hpl, ownSetHead_writes hf hok]
  have hstate : ((s.writeSettings h lang group gap).head h).state = (s.head h).state := by rw [head_writeSettings_self]
  have hself := head_writeSettings_self (s := s) (h := h) (lang := lang) (group := group) (gap := gap)
  have hne {k : HeadId} (hk : k ≠ h) := head_writeSettings_ne (s := s) (lang := lang) (group := group) (gap := gap) hk
  have hwrite := writeSettings_keeps (s := s) (h := h) (lang := lang) (group := group) (gap := gap)
  generalize s.writeSettings h lang group gap = v at hown hstate hself hne hwrite
  refine ⟨fun hon habs => ?enable, fun hoff hpresent => ?disable⟩
  case enable =>
    rw [hon, actOnEnable_on (hstate.trans habs), enableHead_eq] at hown
    have hprobing : Keeps [.heads] s (v.startProbing h) := hwrite.trans startProbing_keeps
    have hlength : (v.startProbing h).link.queue.length = s.link.queue.length := by rw [hprobing.1.link]
    refine ⟨fun hroom => ?room, fun hfull => ?full⟩
    case room =>
      rw [askProbe_room (hlength ▸ hroom)] at hown
      have hlink := enqueue_startLink_only (v.startProbing h) h .probe
      rw [hlink.head, head_startProbing_self] at hown
      obtain ⟨t, hdone, hports⟩ := completes_of_owner (i := .setHead p) (raised := fun _ => []) hx rfl hown
        ((hprobing.mono (cs := [.heads, .link, .ports])).trans (Keeps.ofPorts hlink).mono) (by decide)
        (fun q => by rw [hlink.port, hprobing.1.port]; rfl)
      refine ⟨t, hdone, ?_, fun k hk => ?_, ?_⟩
      · rw [hports.head, hlink.head, head_startProbing_self, hself]
      · rw [hports.head, hlink.head, head_startProbing_ne hk, hne hk]
      · rw [commands_of_link hports.link, commands_enqueue_startLink, commands_of_link hprobing.1.link]
    case full =>
      rw [askProbe_full (hlength ▸ hfull), head_markOutOfStep_self, head_startProbing_self] at hown
      obtain ⟨t, hdone, hports⟩ := completes_of_owner (i := .setHead p) (raised := fun _ => [.outOfStep h]) hx rfl hown
        ((hprobing.mono (cs := [.heads, .ports])).trans (markOutOfStep_keeps _ h)) (by decide)
        (fun q => by rw [pending_markOutOfStep, head_startProbing_self, hprobing.1.port]; rfl)
      refine ⟨t, hdone, ?_, fun k hk => ?_⟩
      · rw [hports.head, head_markOutOfStep_self, head_startProbing_self, hself]
      · rw [hports.head, head_markOutOfStep_ne hk, head_startProbing_ne hk, hne hk]
  case disable =>
    replace hown : ownSetHead p r.payload s = .done (v.disableHead h) [0] := by
      rw [hown, hoff, actOnEnable_off (by rw [hstate]; exact hpresent), head_disableHead_self]
      rfl
    have hkeeps : Keeps [.heads, .texts, .link, .ports] s (v.disableHead h) := hwrite.mono.trans (disableHead_keeps v h)
    have hvlink : v.link = s.link := hwrite.1.link
    have hvport (q : Port) : v.port q = s.port q := hwrite.1.port q
    have hvtexts : v.texts = s.texts := hwrite.1.texts
    have hdarkhead (k : HeadId) : (s.setHead h ⟨.absent, lang, group, gap, false, .dark, .dark⟩).head k = (v.darken h).head k := by
      rw [head_darken, hself]
      by_cases hk : k = h
      · rw [hk, State.head_setHead_self, if_pos rfl]
      · rw [State.head_setHead_ne _ _ hk, if_neg hk, hne hk]
    have hports : OnlyChanges [.ports] (v.disableHead h) ((v.disableHead h).respond p r .done [0]).settle :=
      respond_settle_only _ p r _
    have hall : Keeps [.heads, .texts, .link, .ports] s ((v.disableHead h).respond p r .done [0]).settle :=
      hkeeps.trans ((respond_keeps _ p r _ _).mono.trans (settle_keeps _).mono)
    refine ⟨_, exec_done (k := .setHead) hx hown, answers_done hx hkeeps, hall.1, hall.ports, ?_, ?_, ?_, ?_, ?_, ?_, ?_,
      fun k hk => ?_, ?_, ?_, ?_, fun q => ?_, fun hnone => ?_, fun hgo => ?_⟩
    · rw [hports.head, head_disableHead_self]
    · rw [hports.head, head_disableHead_self, hself]
    · rw [hports.head, head_disableHead_self, hself]
    · rw [hports.head, head_disableHead_self, hself]
    · rw [hports.head, head_disableHead_self]
    · rw [hports.head, head_disableHead_self]
    · rw [hports.head, head_disableHead_self]
    · rw [hports.head, ← hne hk]
      exact head_disableHead_ne v h hk
    · rw [hports.texts, texts_disableHead, texts_darken, hself, hvtexts]
    · rw [hports.link]
      exact queue_disableHead v h
    · rw [hports.link, capture_disableHead, hvlink]
    · obtain ⟨hpending, hrepeats, -⟩ := causesKept_disableHead v h q
      obtain ⟨hpending', hrepeats'⟩ := pending_respond (v.disableHead h) p r .done [0] q
      rw [pending_settle, hpending', hpending, hvport]
      refine ⟨rfl, ?_⟩
      rw [State.port_settle, PortUnit.repeats_startSending, PortUnit.repeats_answerSync, hrepeats', hrepeats, hvport]
    · rw [← hvlink, ← link_darken v h] at hnone
      have hdark : v.disableHead h = v.darken h := dropHeadCommands_none _ h hnone
      rw [hdark] at hports ⊢
      refine ⟨by rw [hports.link, link_darken, hvlink], fun k hk => ?_⟩
      rw [hports.head, head_darken, if_neg hk, hne hk]
    · rw [← hvlink] at hgo
      obtain ⟨z, hdrop, hz⟩ := disableHead_link hgo
      rw [hz] at hports hall ⊢
      rw [hports.link, ← hvlink]
      refine ⟨?_, ?_, fun n hp => hdrop.goesOnSending hp, fun x rest hq hp hxh => hdrop.othersInFlight hq hp hxh,
        fun x rest hq hxh => ?_⟩
      · exact (hdrop.catchesUp.ofAlike hdarkhead (fun i => by
          rw [textBytes_darken, hvtexts]; rfl)).congr (fun _ => rfl) rfl hports.head (commands_of_link hports.link)
      · obtain ⟨-, -, hsync, -⟩ := turn_some hx.turn
        refine hdrop.told.congr hvport hsync (hall.sync hsync) (fun q hqp => ?_)
        rw [State.port_settle, port_respond_ne _ _ _ hqp, State.port_settle]
      · obtain ⟨hsend, hfree⟩ := hdrop.ownInFlight hq hxh
        exact ⟨hsend, fun n hp => (hfree n hp).congr hvlink hports.link⟩

/-! ## REFRESH_HEAD (R91, R96, R103) -/

/-- A refresh that fits joins whole, and the head is in step (R103). -/
def State.joinRefresh (s : State) (h : HeadId) : State :=
  ((s.clearOutOfStep h).enqueue h (refreshBody (s.head h).baseSlot .base s.texts)).enqueue h
    (refreshBody (s.head h).overSlot .overlay s.texts)

section
variable {s : State} {h : HeadId}

theorem refreshHead_probing (hst : (s.head h).state = .probing) : s.refreshHead h = s := by
  simp only [State.refreshHead, hst]

theorem queueRefresh_room (hst : (s.head h).state = .online) (hroom : s.link.queue.length ≤ 62) :
    s.queueRefresh h = s.joinRefresh h := by
  unfold State.queueRefresh
  rw [if_neg (not_not.2 hst), if_pos (show s.link.queue.length + 2 ≤ Config.maxCommands from Nat.add_le_add_right hroom 2)]
  rfl

theorem queueRefresh_full (hst : (s.head h).state = .online) (hfull : 62 < s.link.queue.length) :
    s.queueRefresh h = s.markOutOfStep h := by
  unfold State.queueRefresh
  rw [if_neg (not_not.2 hst), if_neg (show ¬ s.link.queue.length + 2 ≤ Config.maxCommands by
    simp only [Config.maxCommands]; omega)]

theorem refreshHead_online (hst : (s.head h).state = .online) : s.refreshHead h = (s.queueRefresh h).startLink := by
  simp only [State.refreshHead, hst]

theorem refreshHead_fault (hst : (s.head h).state = .fault) :
    s.refreshHead h = (s.setHead h { s.head h with state := .probing }).askProbe h := by
  simp only [State.refreshHead, hst]

theorem joinRefresh_keeps : Keeps [.heads, .link] s (s.joinRefresh h) :=
  (setHead_keeps _ _ _).mono.trans ((enqueue_keeps _ _ _).mono.trans (enqueue_keeps _ _ _).mono)

theorem head_joinRefresh (k : HeadId) : (s.joinRefresh h).head k = (s.clearOutOfStep h).head k := rfl

theorem commands_joinRefresh : (s.joinRefresh h).commands = s.commands ++
    [(h, refreshBody (s.head h).baseSlot .base s.texts), (h, refreshBody (s.head h).overSlot .overlay s.texts)] := by
  unfold State.joinRefresh
  rw [commands_enqueue, commands_enqueue, List.append_assoc]
  rfl

variable {p : Port} {a : Byte}

theorem ownRefreshHead_outOfRange (ha : headOf a = none) : ownRefreshHead p [a] s = .refuse .range [] := by
  simp only [ownRefreshHead, ha]

theorem ownRefreshHead_absent (ha : headOf a = some h) (hst : (s.head h).state = .absent) :
    ownRefreshHead p [a] s = .refuse .state [] := by
  simp only [ownRefreshHead, ha]
  exact if_pos hst

theorem ownRefreshHead_present (ha : headOf a = some h) (hst : (s.head h).state ≠ .absent) :
    ownRefreshHead p [a] s = .done (s.refreshHead h) [((s.refreshHead h).head h).state.code] := by
  simp only [ownRefreshHead, ha]
  exact if_neg hst

end

/-- Settles O47: the owner acts by the head's state, and by the room in the queue. -/
theorem refreshHeadActsByState : Obligations.RefreshHeadActsByState := by
  intro s p r a hs hx hpl
  refine ⟨fun ha => refuses_of_owner hs hx rfl (hpl ▸ ownRefreshHead_outOfRange ha) rfl, fun h ha => ?_⟩
  have hown (hst : (s.head h).state ≠ .absent) : ownRefreshHead p r.payload s =
      .done (s.refreshHead h) [((s.refreshHead h).head h).state.code] := by
    rw [hpl, ownRefreshHead_present ha hst]
  refine ⟨fun hst => refuses_of_owner hs hx rfl (hpl ▸ ownRefreshHead_absent ha hst) rfl, fun hst => ?probing,
    fun hst hroom => ?room, fun hst hfull => ?full, fun hst hroom => ?faultRoom, fun hst hfull => ?faultFull⟩
  case probing =>
    have ho := hown (by rw [hst]; nofun)
    rw [refreshHead_probing hst, hst] at ho
    exact onlyAnswers_of_owner hs hx rfl ho
  case room =>
    have ho := hown (by rw [hst]; nofun)
    have hstart : OnlyChanges [.link] (s.joinRefresh h) (s.joinRefresh h).startLink := startLink_only _
    have hself : ((s.joinRefresh h).startLink).head h = { s.head h with outOfStep := false } := by
      rw [hstart.head, head_joinRefresh, State.clearOutOfStep, State.head_setHead_self]
    rw [refreshHead_online hst, queueRefresh_room hst hroom, hself, hst] at ho
    obtain ⟨t, hdone, hports⟩ := completes_of_owner (i := .refreshHead p) (raised := fun _ => []) hx rfl ho
      ((joinRefresh_keeps.trans (startLink_keeps _).mono).mono (cs := [.heads, .link, .ports])) (by decide)
      (fun q => by rw [hstart.port, joinRefresh_keeps.1.port]; rfl)
    refine ⟨t, hdone, by rw [hports.head, hself], fun k hk => ?_, ?_⟩
    · rw [hports.head, hstart.head, head_joinRefresh, State.clearOutOfStep, State.head_setHead_ne _ _ hk]
    · rw [commands_of_link hports.link, commands_startLink, commands_joinRefresh]
  case full =>
    have ho := hown (by rw [hst]; nofun)
    have hstart : OnlyChanges [.link] (s.markOutOfStep h) (s.markOutOfStep h).startLink := startLink_only _
    rw [refreshHead_online hst, queueRefresh_full hst hfull, hstart.head, head_markOutOfStep_self, hst] at ho
    obtain ⟨t, hdone, hports⟩ := completes_of_owner (i := .refreshHead p)
      (raised := fun _ => if (s.head h).outOfStep = true then [] else [.outOfStep h]) hx rfl ho
      (((markOutOfStep_keeps s h).mono (cs := [.heads, .link, .ports])).trans (startLink_keeps _).mono) (by decide)
      (fun q => by rw [hstart.port, pending_markOutOfStep])
    refine ⟨t, hdone, ?_, fun k hk => ?_, ?_⟩
    · rw [hports.head, hstart.head, head_markOutOfStep_self]
    · rw [hports.head, hstart.head, head_markOutOfStep_ne hk]
    · rw [commands_of_link hports.link, commands_startLink, commands_of_link (link_markOutOfStep s h)]
  case faultRoom =>
    have ho := hown (by rw [hst]; nofun)
    have hset : Keeps [.heads] s (s.setHead h { s.head h with state := .probing }) := setHead_keeps _ _ _
    have hstart := enqueue_startLink_only (s.setHead h { s.head h with state := .probing }) h .probe
    rw [refreshHead_fault hst, askProbe_room (by exact hroom), hstart.head, State.head_setHead_self] at ho
    obtain ⟨t, hdone, hports⟩ := completes_of_owner (i := .refreshHead p) (raised := fun _ => []) hx rfl ho
      ((hset.mono (cs := [.heads, .link, .ports])).trans (Keeps.ofPorts hstart).mono) (by decide)
      (fun q => by rw [hstart.port]; rfl)
    refine ⟨t, hdone, ?_, fun k hk => ?_, ?_⟩
    · rw [hports.head, hstart.head, State.head_setHead_self]
    · rw [hports.head, hstart.head, State.head_setHead_ne _ _ hk]
    · rw [commands_of_link hports.link, commands_enqueue_startLink]
      rfl
  case faultFull =>
    have ho := hown (by rw [hst]; nofun)
    rw [refreshHead_fault hst, askProbe_full (by exact hfull), head_markOutOfStep_self, State.head_setHead_self] at ho
    obtain ⟨t, hdone, hports⟩ := completes_of_owner (i := .refreshHead p)
      (raised := fun _ => if (s.head h).outOfStep = true then [] else [.outOfStep h]) hx rfl ho
      (((setHead_keeps _ _ _).mono (cs := [.heads, .ports])).trans (markOutOfStep_keeps _ h)) (by decide)
      (fun q => by rw [pending_markOutOfStep, State.head_setHead_self]; rfl)
    refine ⟨t, hdone, ?_, fun k hk => ?_⟩
    · rw [hports.head, head_markOutOfStep_self, State.head_setHead_self]
    · rw [hports.head, head_markOutOfStep_ne hk, State.head_setHead_ne _ _ hk]

end Sys2Proof.Machine
end

section
/-! The link's own events (R107 to R110, R113, R114, R117): O49 and O50. -/

namespace Sys2Proof.Machine

/-! ## Commands that leave a free link -/

/-- Commands have left and the phase is NONE: every waiting SYNC is told, and nothing has started yet (R109, R113). -/
structure LeftFree (s : State) (gone : List Nat) (acked : Bool) (u : State) : Prop where
  phase : u.link.phase = .none
  attempts : u.link.attempts = 0
  nextSeq : u.link.nextSeq = s.link.nextSeq
  syncs : ∀ q, (u.port q).sync = (s.port q).sync.map (fun w => w.leave gone acked)
  queues : ∀ q, (u.port q).queue = (s.port q).queue

namespace LeftFree
variable {s u v : State} {gone : List Nat} {acked : Bool}

theorem takeOut (s : State) (rest : List Command) (gone : List Nat) (acked : Bool) :
    LeftFree s gone acked (s.takeOut rest .none gone acked) where
  phase := rfl
  attempts := rfl
  nextSeq := rfl
  syncs q := commandsLeft_sync _ _ _ q
  queues q := by rw [State.takeOut, State.commandsLeft, State.port_onPorts]; rfl

theorem andThen (h : LeftFree s gone acked u) (hline : SameLine u v) (hsync : SameSyncs u v) (hports : PortsKeepState u v) :
    LeftFree s gone acked v := by
  obtain ⟨hphase, hattempts, hseq⟩ := hline
  refine ⟨hphase.trans h.phase, hattempts.trans h.attempts, hseq.trans h.nextSeq, fun q => (hsync q).trans (h.syncs q), fun q => ?_⟩
  obtain ⟨-, -, hqueue, -⟩ := hports q
  exact hqueue.trans (h.queues q)

/-- The state before may differ in its heads alone. -/
theorem ofHeads (h : LeftFree v gone acked u) (hv : OnlyChanges [.heads] s v) : LeftFree s gone acked u where
  phase := h.phase
  attempts := h.attempts
  nextSeq := by rw [h.nextSeq, hv.link]
  syncs q := by rw [h.syncs, hv.port]
  queues q := by rw [h.queues, hv.port]

theorem goesOn (h : LeftFree s gone acked u) : LinkGoesOn s u.afterLeaving.settle :=
  (afterLeaving_goesOn h.phase h.attempts h.nextSeq).of_link (settle_only _).link

theorem told (h : LeftFree s gone acked u) : SyncsTold s gone acked u.afterLeaving.settle :=
  settle_syncsTold (fun q => by rw [afterLeaving_port]; exact h.syncs q) (fun q => by rw [afterLeaving_port]; exact h.queues q)

end LeftFree

theorem afterLeaving_settle_catchesUp (u : State) : CatchesUp u u.commands u.afterLeaving.settle :=
  (afterLeaving_catchesUp u).congr (fun _ => rfl) rfl (settle_only _).head (commands_of_link (settle_only _).link)

/-- What follows a leaving raises nothing (R105). -/
theorem Raises.leaving {x : Cause} {rs : List Raise} {s u : State} (h : Raises x rs s u) :
    Raises x rs s u.afterLeaving.settle :=
  (h.quietly (.ofPort (fun q => afterLeaving_port u q) x)).quietly (.settle _ x)

theorem raises_takeOut (x : Cause) (s : State) (rest : List Command) (phase : LinkPhase) (gone : List Nat) (acked : Bool) :
    Raises x [] s (s.takeOut rest phase gone acked) :=
  .ofPorts (fun q => by rw [State.takeOut, State.commandsLeft, State.port_onPorts]; rfl)
    (fun q => by rw [State.takeOut, State.commandsLeft, State.port_onPorts]; rfl) x

theorem sameLine_raiseAll (s : State) (r : Raise) : SameLine s (s.raiseAll r) := ⟨rfl, rfl, rfl⟩

theorem sameLine_queueRefresh (s : State) (h : HeadId) : SameLine s (s.queueRefresh h) := by
  unfold State.queueRefresh
  refine iteInduction (fun _ => ⟨rfl, rfl, rfl⟩) (fun _ => iteInduction (fun _ => ⟨rfl, rfl, rfl⟩) (fun _ => ?_))
  unfold SameLine
  rw [link_markOutOfStep]
  exact ⟨rfl, rfl, rfl⟩

/-! ## LINK_FRAME_SENT (R107, R117) -/

section
variable {s : State}

theorem exec_linkFrameSent_sent {n : Nat} (hp : s.link.phase = .sending n false) :
    exec .linkFrameSent s = .next (s.withLink { s.link with phase := .waiting 5 }) := by
  show execLinkFrameSent s = _
  simp only [execLinkFrameSent, hp]
  rfl

theorem exec_linkFrameSent_tail {n : Nat} (hp : s.link.phase = .sending n true) :
    exec .linkFrameSent s = .next (s.withLink { s.link with phase := .none }).startLink := by
  show execLinkFrameSent s = _
  simp only [execLinkFrameSent, hp]

theorem exec_linkFrameSent_other (hp : ∀ n tail, s.link.phase ≠ .sending n tail) : exec .linkFrameSent s = .next s := by
  show execLinkFrameSent s = _
  unfold execLinkFrameSent
  split
  next h => exact absurd h (hp _ _)
  next h => exact absurd h (hp _ _)
  next => rfl
  next => rfl
  next => rfl

theorem startLink_empty (hp : s.link.phase = .none) (hq : s.link.queue = []) : s.startLink = s := by
  simp only [State.startLink, hp, hq]

theorem startLink_oldest {c : Command} {rest : List Command} (hp : s.link.phase = .none) (hq : s.link.queue = c :: rest) :
    s.startLink = s.withLink { s.link with
      queue := { c with seq := some s.link.nextSeq } :: rest, nextSeq := s.link.nextSeq + 1, attempts := 1,
      phase := .sending c.micros false } := by
  simp only [State.startLink, hp, hq]

end

/-! ## ACKNOWLEDGEMENT (R108, R109) -/

theorem ackedBy_iff {c : Command} {frame : List Byte} :
    c.ackedBy frame = true ↔ ∃ k, c.seq = some k ∧ ackOf frame = some (byteOf c.head.val, k) := by
  unfold Command.ackedBy
  split
  next addr seq n hack hseq =>
    rw [hack, hseq, decide_eq_true_iff]
    constructor
    · rintro ⟨rfl, rfl⟩
      exact ⟨_, rfl, rfl⟩
    · rintro ⟨k, hk, he⟩
      cases hk; cases he
      exact ⟨rfl, rfl⟩
  next hno =>
    refine ⟨nofun, fun ⟨k, hk, he⟩ => absurd hk (hno _ _ _ he)⟩

section
variable {s : State} {frame : List Byte}

theorem exec_acknowledgement_other (hp : ∀ n, s.link.phase ≠ .waiting n) : exec (.acknowledgement frame) s = .next s := by
  show execAcknowledgement frame s = _
  unfold execAcknowledgement
  split
  next h _ => exact absurd h (hp _)
  next => rfl

theorem exec_acknowledgement_waiting {n : Nat} {c : Command} {rest : List Command} (hp : s.link.phase = .waiting n)
    (hq : s.link.queue = c :: rest) :
    exec (.acknowledgement frame) s = .next (if c.ackedBy frame then (s.acknowledged c rest).settle else s) := by
  show execAcknowledgement frame s = _
  simp only [execAcknowledgement, hp, hq]

end

/-- The bytes of a good acknowledgement frame (R174). -/
theorem ackOf_iff {frame : List Byte} {address number : Byte} : ackOf frame = some (address, number) ↔
    ∃ lo hi : Byte, frame = [0xA5, address, number, 0x80, 0, lo, hi] ∧
      (crc16 [address, number, 0x80, 0]).toNat = lo.toNat + 256 * hi.toNat := by
  have crc_iff (bs : List Byte) (lo hi : Byte) : [lo, hi] = crcBytes bs ↔ (crc16 bs).toNat = lo.toNat + 256 * hi.toNat := by
    unfold crcBytes
    constructor
    · intro h
      cases h
      exact (nat2_le2 (crc16 bs).isLt).symm
    · intro h
      rw [h]
      exact (le2_nat2 lo hi).symm
  constructor
  · intro h
    unfold ackOf at h
    split at h
    next sync addr seq kind len lo hi =>
      split_ifs at h with hgood
      obtain ⟨rfl, rfl, rfl, hcrc⟩ := hgood
      cases h
      exact ⟨lo, hi, rfl, (crc_iff _ _ _).1 hcrc⟩
    next => cases h
  · rintro ⟨lo, hi, rfl, hcrc⟩
    exact if_pos ⟨rfl, rfl, rfl, (crc_iff _ _ _).2 hcrc⟩

/-! ### The in-flight command leaves acknowledged -/

theorem markOutOfStep_tells (s : State) (h : HeadId) :
    Raises .outOfStep (if (s.head h).outOfStep = true then [] else [.outOfStep h]) s (s.markOutOfStep h) := by
  cases hout : (s.head h).outOfStep with
  | true => rw [markOutOfStep_outOfStep hout]; exact .refl _ _
  | false => exact markOutOfStep_told hout

theorem capture_queueRefresh (s : State) (h : HeadId) : (s.queueRefresh h).link.capture = s.link.capture := by
  unfold State.queueRefresh
  split_ifs
  · rfl
  · rfl
  · rw [link_markOutOfStep]

/-- The head whose PROBE was answered is ONLINE, and HEAD_ONLINE is raised (R97). -/
def State.putOnline (s : State) (h : HeadId) : State :=
  (s.setHead h { s.head h with state := .online }).raiseAll (.headOnline h)

section
variable {s : State} {h : HeadId}

theorem putOnline_keeps : Keeps [.heads, .ports] s (s.putOnline h) := (setHead_keeps _ _ _).mono.trans (raiseAll_keeps _ _).mono

theorem head_putOnline_self : (s.putOnline h).head h = { s.head h with state := .online } := State.head_setHead_self _ _ _

theorem head_putOnline_ne {k : HeadId} (hk : k ≠ h) : (s.putOnline h).head k = s.head k := State.head_setHead_ne _ _ hk

theorem sameSyncs_putOnline : SameSyncs s (s.putOnline h) := fun q => sameSyncs_raiseAll _ _ q

theorem putOnline_raises (x : Cause) : Raises x (if x = .headOnline then [.headOnline h] else []) s (s.putOnline h) := by
  have hset : Raises x [] s (s.setHead h { s.head h with state := .online }) := .ofOnly (setHead_only _ _ _) x
  by_cases hx : x = .headOnline
  · subst hx
    rw [if_pos rfl]
    exact hset.ofQuiet (.raiseAll _ (.headOnline h))
  · rw [if_neg hx]
    exact hset.quietly (.raiseOther _ (Ne.symm hx))

theorem probeAnswered_probing (hst : (s.head h).state = .probing) : s.probeAnswered h = (s.putOnline h).queueRefresh h := if_pos hst

theorem probeAnswered_other (hst : (s.head h).state ≠ .probing) : s.probeAnswered h = s := if_neg hst

end

theorem CmdBody.kind_eq_probe {b : CmdBody} : b.kind = .probe ↔ b = .probe := by
  cases b <;> simp [CmdBody.kind]

section
variable {s : State} {c : Command} {rest : List Command}

theorem acknowledged_probe (hb : c.body = .probe) (hst : (s.head c.head).state = .probing) : s.acknowledged c rest =
    (((s.takeOut rest .none [c.id] true).putOnline c.head).queueRefresh c.head).afterLeaving := by
  unfold State.acknowledged
  dsimp only
  rw [if_pos (CmdBody.kind_eq_probe.2 hb), probeAnswered_probing (s := s.takeOut rest .none [c.id] true) hst]

theorem acknowledged_other (h : c.body ≠ .probe ∨ (s.head c.head).state ≠ .probing) :
    s.acknowledged c rest = (s.takeOut rest .none [c.id] true).afterLeaving := by
  unfold State.acknowledged
  dsimp only
  rcases h with hb | hst
  · rw [if_neg (fun hk => hb (CmdBody.kind_eq_probe.1 hk))]
  · rw [probeAnswered_other (s := s.takeOut rest .none [c.id] true) hst, ite_self]

/-- Before the catch-up: the state that the acknowledged command has left. -/
theorem acknowledged_leaves : ∃ u, s.acknowledged c rest = u.afterLeaving ∧ LeftFree s [c.id] true u ∧
    u.link.capture = s.link.capture := by
  by_cases h : c.body = .probe ∧ (s.head c.head).state = .probing
  · refine ⟨_, acknowledged_probe h.1 h.2, ?_, ?_⟩
    · have hon : LeftFree s [c.id] true ((s.takeOut rest .none [c.id] true).putOnline c.head) :=
        (LeftFree.takeOut s rest [c.id] true).andThen ⟨rfl, rfl, rfl⟩ sameSyncs_putOnline putOnline_keeps.ports
      exact hon.andThen (sameLine_queueRefresh _ _) (sameSyncs_queueRefresh _ _) (queueRefresh_keeps _ _).ports
    · rw [capture_queueRefresh]
      rfl
  · refine ⟨_, acknowledged_other ?_, .takeOut s rest [c.id] true, rfl⟩
    by_cases hb : c.body = .probe
    · exact .inr fun hst => h ⟨hb, hst⟩
    · exact .inl hb

end

/-- Settles O49: the frame's end opens the window or starts the oldest command; a frame that counts ends the in-flight command. -/
theorem linkFramesAndAcknowledgements : Obligations.LinkFramesAndAcknowledgements := by
  refine ⟨fun s => ⟨fun n => exec_linkFrameSent_sent, fun n hp hq => ?tailAlone, fun n c rest hp hq => ?tail,
    exec_linkFrameSent_other⟩, fun s frame => ⟨exec_acknowledgement_other, fun n c rest hp hq => ⟨fun hno => ?ignored,
      fun k hk hack => ?acknowledged⟩⟩, fun frame address number => ackOf_iff⟩
  case tailAlone => rw [exec_linkFrameSent_tail hp, startLink_empty (s := s.withLink { s.link with phase := .none }) rfl hq]
  case tail =>
    rw [exec_linkFrameSent_tail hp, startLink_oldest (s := s.withLink { s.link with phase := .none }) rfl hq]
    rfl
  case ignored =>
    rw [exec_acknowledgement_waiting hp hq, if_neg]
    intro hacked
    obtain ⟨k, hk, hack⟩ := ackedBy_iff.1 hacked
    exact hno k hk hack
  case acknowledged =>
    have hexec : exec (.acknowledgement frame) s = .next (s.acknowledged c rest).settle := by
      rw [exec_acknowledgement_waiting hp hq, if_pos (ackedBy_iff.2 ⟨k, hk, hack⟩)]
    have hkeeps : Keeps [.heads, .link, .ports] s (s.acknowledged c rest).settle :=
      (acknowledged_keeps s c rest).trans (settle_keeps _).mono
    have hleft : (s.acknowledged c rest).settle.link.capture = s.link.capture ∧ LinkGoesOn s (s.acknowledged c rest).settle ∧
        SyncsTold s [c.id] true (s.acknowledged c rest).settle := by
      obtain ⟨u, hu, hfree, hcapture⟩ := acknowledged_leaves (s := s) (c := c) (rest := rest)
      rw [hu]
      exact ⟨by rw [(settle_only _).link, (afterLeaving_caughtUp u).capture, hcapture], hfree.goesOn, hfree.told⟩
    obtain ⟨hcapture, hgoes, htold⟩ := hleft
    refine ⟨_, hexec, hkeeps.1, hkeeps.ports, hcapture, hgoes, htold, fun hother => ?_, fun hb hst => ?_⟩
    · rw [acknowledged_other hother]
      refine ⟨(afterLeaving_settle_catchesUp (s.takeOut rest .none [c.id] true)).congr (fun _ => rfl) rfl (fun _ => rfl) rfl,
        fun q => ?_⟩
      rw [State.port_settle, PortUnit.pending_startSending, PortUnit.pending_answerSync, PortUnit.repeats_startSending,
        PortUnit.repeats_answerSync, afterLeaving_port, State.takeOut, State.commandsLeft, State.port_onPorts]
      exact ⟨rfl, rfl⟩
    · rw [acknowledged_probe hb hst]
      obtain ⟨w, hw⟩ : ∃ w, w = (s.takeOut rest .none [c.id] true).putOnline c.head := ⟨_, rfl⟩
      have hself : w.head c.head = { s.head c.head with state := .online } := by rw [hw, head_putOnline_self]; rfl
      have hne {j : HeadId} (hj : j ≠ c.head) : w.head j = s.head j := by rw [hw, head_putOnline_ne hj]; rfl
      have hcommands : w.commands = rest.map (fun d => (d.head, d.body)) := by rw [hw]; rfl
      have hlength : w.link.queue.length = rest.length := by rw [← commands_length, hcommands, List.length_map]
      have htexts : w.texts = s.texts := by rw [hw]; rfl
      have hraises (x : Cause) : Raises x (if x = .headOnline then [.headOnline c.head] else []) s w :=
        hw ▸ (raises_takeOut x s rest .none [c.id] true).ofQuiet (putOnline_raises x)
      have hquiet {x : Cause} (hx : x ≠ .outOfStep) : Raises x [] w (w.queueRefresh c.head) := by
        unfold State.queueRefresh
        refine iteInduction (fun _ => .refl x w) (fun _ => iteInduction (fun _ => ?_) (fun _ => markOutOfStep_raises hx w _))
        exact .ofOnly (joinRefresh_keeps (s := w) (h := c.head)).1 x
      rw [← hw]
      refine ⟨?_, fun x hx => ?_, fun hroom => ?_, fun hfull => ?_⟩
      · exact ((hraises .headOnline).quietly (hquiet nofun)).leaving.just fun r hr => by rw [List.mem_singleton.1 hr]; rfl
      · simp only [List.mem_cons, List.not_mem_nil, or_false, not_or] at hx
        have hx' := (hraises x).quietly (hquiet hx.2)
        rw [if_neg hx.1] at hx'
        exact hx'.leaving.unraised
      · have hon : (w.head c.head).state = .online := by rw [hself]
        rw [queueRefresh_room hon (hlength ▸ hroom)]
        refine ⟨?_, ((hraises .outOfStep).quietly (.ofOnly (joinRefresh_keeps (s := w) (h := c.head)).1 _)).leaving.unraised⟩
        have hcatch := afterLeaving_settle_catchesUp (w.joinRefresh c.head)
        rw [commands_joinRefresh, hcommands, hself, htexts] at hcatch
        refine hcatch.congr (fun j => ?_) htexts.symm (fun _ => rfl) rfl
        rw [head_joinRefresh, State.clearOutOfStep]
        by_cases hj : j = c.head
        · rw [hj, State.head_setHead_self, State.head_setHead_self, hself]
        · rw [State.head_setHead_ne _ _ hj, State.head_setHead_ne _ _ hj, hne hj]
      · have hon : (w.head c.head).state = .online := by rw [hself]
        rw [queueRefresh_full hon (hlength ▸ hfull)]
        constructor
        · have hcatch := afterLeaving_settle_catchesUp (w.markOutOfStep c.head)
          rw [commands_of_link (link_markOutOfStep w c.head), hcommands] at hcatch
          refine hcatch.congr (fun j => ?_) ?_ (fun _ => rfl) rfl
          · by_cases hj : j = c.head
            · rw [hj, State.head_setHead_self, head_markOutOfStep_self, hself]
            · rw [State.head_setHead_ne _ _ hj, head_markOutOfStep_ne hj, hne hj]
          · rw [(markOutOfStep_keeps w _).1.texts, htexts]
            rfl
        · have htells := ((hraises .outOfStep).ofQuiet (markOutOfStep_tells w c.head)).leaving
          rw [hself] at htells
          refine htells.just fun r hr => ?_
          split at hr
          · cases hr
          · rw [List.mem_singleton.1 hr]; rfl

end Sys2Proof.Machine
end

section
/-! Timeouts, hold-offs and failed commands (R110, R113, R114): O50. -/

namespace Sys2Proof.Machine

/-! ## The in-flight command fails (R113, R114) -/

/-- The commands that leave with a failed one, by their serial numbers. -/
def failedIds (c : Command) (rest : List Command) : List Nat := c.id :: (alsoRemoved c rest).map Command.id

/-- The failed command has left: its head is FAULT, the capture is filled or marked, and HEAD_FAULT raised (R113). -/
def State.failOut (s : State) (c : Command) (rest : List Command) : State :=
  let t := (s.headFailed c.head c.body.kind).takeOut (stillQueued c rest) .none (failedIds c rest) false
  (t.withLink { t.link with capture := noteFailure t.link.capture c.head c.body s.link.attempts }).raiseAll
    (.headFault c.head c.body.kind s.link.attempts)

section
variable {s : State} {c : Command} {rest : List Command}

theorem failCommand_eq : s.failCommand c rest = (s.failOut c rest).afterLeaving := rfl

theorem headFailed_only (h : HeadId) (k : CmdKind) : OnlyChanges [.heads] s (s.headFailed h k) := (headFailed_keeps s h k).1

theorem failOut_left : LeftFree s (failedIds c rest) false (s.failOut c rest) := by
  have hout : LeftFree s (failedIds c rest) false
      ((s.headFailed c.head c.body.kind).takeOut (stillQueued c rest) .none (failedIds c rest) false) :=
    (LeftFree.takeOut _ (stillQueued c rest) _ false).ofHeads (headFailed_only _ _)
  refine hout.andThen ⟨rfl, rfl, rfl⟩ (fun q => sameSyncs_raiseAll _ _ q) ?_
  exact ((withLink_keeps _ _).mono.trans (raiseAll_keeps _ _).mono (bs := [.link, .ports])).ports

theorem failOut_commands : (s.failOut c rest).commands = (stillQueued c rest).map (fun d => (d.head, d.body)) := rfl

theorem failOut_head (h : HeadId) : (s.failOut c rest).head h = (s.headFailed c.head c.body.kind).head h := rfl

theorem failOut_texts : (s.failOut c rest).texts = s.texts := (headFailed_only c.head c.body.kind).texts

theorem failOut_capture : (s.failOut c rest).link.capture = noteFailure s.link.capture c.head c.body s.link.attempts := by
  show noteFailure (s.headFailed c.head c.body.kind).link.capture _ _ _ = _
  rw [(headFailed_only c.head c.body.kind).link]

theorem failOut_raises (x : Cause) :
    Raises x (if x = .headFault then [.headFault c.head c.body.kind s.link.attempts] else []) s (s.failOut c rest) := by
  have hout := (Raises.ofOnly (headFailed_only (s := s) c.head c.body.kind) x).quietly
    (raises_takeOut x _ (stillQueued c rest) .none (failedIds c rest) false)
  have hnote := hout.quietly (.ofOnly (withLink_keeps _ { ((s.headFailed c.head c.body.kind).takeOut (stillQueued c rest) .none
    (failedIds c rest) false).link with capture := noteFailure ((s.headFailed c.head c.body.kind).takeOut (stillQueued c rest)
      .none (failedIds c rest) false).link.capture c.head c.body s.link.attempts }).1 x)
  by_cases hx : x = .headFault
  · subst hx
    rw [if_pos rfl]
    exact hnote.ofQuiet (.raiseAll _ (.headFault c.head c.body.kind s.link.attempts))
  · rw [if_neg hx]
    exact hnote.quietly (.raiseOther _ (Ne.symm hx))

/-- The catch-up after a failure, behind the commands that stay. -/
theorem failCommand_catchesUp {x : Head} (hx : s.headFailed c.head c.body.kind = s.setHead c.head x) :
    CatchesUp (s.setHead c.head x) ((stillQueued c rest).map (fun d => (d.head, d.body))) (s.failCommand c rest).settle := by
  rw [failCommand_eq, ← failOut_commands (s := s)]
  refine (afterLeaving_settle_catchesUp (s.failOut c rest)).congr (fun h => ?_) ?_ (fun _ => rfl) rfl
  · rw [failOut_head, hx]
  · rw [failOut_texts]
    rfl

theorem failCommand_told : SyncsTold s (failedIds c rest) false (s.failCommand c rest).settle := failOut_left.told

theorem headFailed_screen (hb : c.body ≠ .probe) (hst : (s.head c.head).state = .online) :
    s.headFailed c.head c.body.kind = s.setHead c.head { s.head c.head with state := .fault, outOfStep := false } := by
  unfold State.headFailed
  rw [hst]
  cases hbody : c.body with
  | put => rfl
  | take => rfl
  | probe => exact absurd hbody hb

theorem headFailed_probe (hb : c.body = .probe) (hst : (s.head c.head).state = .probing) :
    s.headFailed c.head c.body.kind = s.setHead c.head { s.head c.head with state := .fault } := by
  unfold State.headFailed
  rw [hst, hb]
  rfl

theorem stillQueued_screen (hb : c.body ≠ .probe) : stillQueued c rest = rest.filter (fun d => decide (d.head ≠ c.head)) :=
  if_neg (fun hk => hb (CmdBody.kind_eq_probe.1 hk))

theorem failedIds_screen (hb : c.body ≠ .probe) :
    failedIds c rest = c.id :: (rest.filter (fun d => decide (d.head = c.head))).map Command.id := by
  unfold failedIds alsoRemoved
  rw [if_neg (fun hk => hb (CmdBody.kind_eq_probe.1 hk))]

theorem stillQueued_probe (hb : c.body = .probe) : stillQueued c rest = rest := if_pos (CmdBody.kind_eq_probe.2 hb)

theorem failedIds_probe (hb : c.body = .probe) : failedIds c rest = [c.id] := by
  unfold failedIds alsoRemoved
  rw [if_pos (CmdBody.kind_eq_probe.2 hb)]
  rfl

end

/-! ## The window and the hold-off (R110) -/

section
variable {s : State} {c : Command} {rest : List Command} (hq : s.link.queue = c :: rest)
include hq

theorem holdOffOver_retries (hmore : s.link.retryLimit = 0 ∨ s.link.attempts < s.link.retryLimit + 1) :
    s.holdOffOver = s.withLink { s.link with
      attempts := min Config.maxAttempts (s.link.attempts + 1), phase := .sending c.micros false } := by
  simp only [State.holdOffOver, hq, usedUp_false hmore, Bool.false_eq_true, if_false]

theorem windowClosed_retries (hmore : s.link.retryLimit = 0 ∨ s.link.attempts < s.link.retryLimit + 1) :
    s.windowClosed = if s.link.holdOff = 0 then s.holdOffOver
      else s.withLink { s.link with phase := .holding s.link.holdOff } := by
  simp only [State.windowClosed, hq, usedUp_false hmore, Bool.false_eq_true, if_false]

variable (hl : s.link.retryLimit ≠ 0) (hused : s.link.retryLimit + 1 ≤ s.link.attempts)
include hl hused

theorem holdOffOver_fails : s.holdOffOver = s.failCommand c rest := by
  simp only [State.holdOffOver, hq, usedUp_true hl hused, if_true]

theorem windowClosed_fails : s.windowClosed = s.failCommand c rest := by
  simp only [State.windowClosed, hq, usedUp_true hl hused, if_true]

end

section
variable {s : State}

theorem exec_ackTimeout_waiting {n : Nat} (hp : s.link.phase = .waiting n) : exec .ackTimeout s = .next s.windowClosed.settle := by
  show execAckTimeout s = _
  simp only [execAckTimeout, hp]

theorem exec_holdOffEnd_holding {n : Nat} (hp : s.link.phase = .holding n) : exec .holdOffEnd s = .next s.holdOffOver.settle := by
  show execHoldOffEnd s = _
  simp only [execHoldOffEnd, hp]

theorem exec_ackTimeout_other (hp : ∀ n, s.link.phase ≠ .waiting n) : exec .ackTimeout s = .next s := by
  show execAckTimeout s = _
  unfold execAckTimeout
  split
  next h => exact absurd h (hp _)
  next => rfl
  next => rfl
  next => rfl

theorem exec_holdOffEnd_other (hp : ∀ n, s.link.phase ≠ .holding n) : exec .holdOffEnd s = .next s := by
  show execHoldOffEnd s = _
  unfold execHoldOffEnd
  split
  next h => exact absurd h (hp _)
  next => rfl
  next => rfl
  next => rfl

end

/-- Settles O50: a window or a hold-off that ends retries the command, or fails it where it is used up. -/
theorem timeoutsRetryOrFail : Obligations.TimeoutsRetryOrFail := by
  refine ⟨fun s c rest hs hq => ⟨fun n hp hmore hhold => ?holds, fun i n hend hmore => ?retries,
    fun i n hend hl hused => ?fails⟩, fun s => ⟨exec_ackTimeout_other, exec_holdOffEnd_other⟩⟩
  case holds =>
    rw [exec_ackTimeout_waiting hp, windowClosed_retries hq hmore, if_neg hhold, settle_of_only hs (withLink_keeps _ _).1]
  case retries =>
    have hexec : exec i s = .next s.holdOffOver.settle := by
      rcases hend with ⟨rfl, hp, hzero⟩ | ⟨rfl, hp⟩
      · rw [exec_ackTimeout_waiting hp, windowClosed_retries hq hmore, if_pos hzero]
      · exact exec_holdOffEnd_holding hp
    rw [hexec, holdOffOver_retries hq hmore, settle_of_only hs (withLink_keeps _ _).1]
    rfl
  case fails =>
    have hexec : exec i s = .next (s.failCommand c rest).settle := by
      rcases hend with ⟨rfl, hp⟩ | ⟨rfl, hp⟩
      · rw [exec_ackTimeout_waiting hp, windowClosed_fails hq hl hused]
      · rw [exec_holdOffEnd_holding hp, holdOffOver_fails hq hl hused]
    have hkeeps : Keeps [.heads, .link, .ports] s (s.failCommand c rest).settle :=
      (failCommand_keeps s c rest).trans (settle_keeps _).mono
    refine ⟨_, hexec, hkeeps.1, hkeeps.ports, ?_, fun x hx => ?_, ?_, failOut_left.goesOn, fun hb hst => ?_, fun hb hst => ?_⟩
    · exact (failOut_raises (s := s) (c := c) (rest := rest) .headFault).leaving.just fun r hr => by rw [List.mem_singleton.1 hr]; rfl
    · have hraises := failOut_raises (s := s) (c := c) (rest := rest) x
      rw [if_neg (fun he => hx (List.mem_singleton.2 he))] at hraises
      exact hraises.leaving.unraised
    · rw [(settle_only _).link, failCommand_eq, (afterLeaving_caughtUp _).capture, failOut_capture]
      cases s.link.capture with
      | none => rfl
      | some x => rfl
    · rw [← failedIds_screen hb, ← stillQueued_screen hb]
      exact ⟨failCommand_catchesUp (headFailed_screen hb hst), failCommand_told⟩
    · have hcatch := failCommand_catchesUp (rest := rest) (headFailed_probe hb hst)
      have htold := failCommand_told (s := s) (c := c) (rest := rest)
      rw [stillQueued_probe hb] at hcatch
      rw [failedIds_probe hb] at htold
      exact ⟨hcatch, htold⟩

end Sys2Proof.Machine
end

section
/-! A caller port's receive line, byte by byte and frame by frame (R138 to R142): O14, O57 and O58. -/

namespace Sys2Proof.Machine

/-! ## An event of one port -/

/-- The event of a port that keeps its SYNC, and whose queue does not begin to fill, ends with the start of a sending. -/
theorem port_onPort_settle {s : State} (hs : Settled s) (p : Port) {f : PortUnit → PortUnit}
    (hsync : (f (s.port p)).sync = (s.port p).sync) (hq : (f (s.port p)).queue ≠ [] → (s.port p).queue ≠ []) :
    (s.onPort p f).settle.port p = (f (s.port p)).startSending := by
  obtain ⟨-, -, hport⟩ := settle_onPort hs p f
  rw [hport, PortUnit.answerSync_waits (quiet_of_settled hs p) hsync hq]

/-- The receiver of a port changes, and nothing else. -/
def State.receiving (s : State) (p : Port) (x : Receiver) : State := s.onPort p (fun u => { u with receiver := x })

section
variable {s : State} {p : Port} {x y : Receiver}

theorem port_receiving : (s.receiving p x).port p = { s.port p with receiver := x } := State.port_onPort_self _ _ _

theorem receiving_onPort (f : PortUnit → PortUnit) :
    (s.receiving p x).onPort p f = s.onPort p (fun u => f { u with receiver := x }) := onPort_onPort s p _ f

theorem receiving_receiving : (s.receiving p x).receiving p y = s.receiving p y := receiving_onPort _

theorem receiving_self (h : (s.port p).receiver = x) : s.receiving p x = s := by
  have hport : s.receiving p x = s.onPort p id := onPort_congr (by rw [← h]; rfl)
  rw [hport]
  cases p <;> rfl

theorem settled_receiving (hs : Settled s) : Settled (s.receiving p x) := by
  refine settled_iff.2 fun q => ?_
  by_cases hq : q = p
  · rw [hq, port_receiving]
    obtain ⟨hline, hwait⟩ := quiet_iff.1 (settled_iff.1 hs p)
    exact quiet_iff.2 ⟨hline, hwait⟩
  · rw [State.receiving, State.port_onPort_ne _ _ hq]
    exact settled_iff.1 hs q

/-- A frame is discarded whatever of it the receiver held (R139). -/
theorem lineError_receiving (w : LineCase) (a b : Option Byte) : (s.receiving p x).lineError p w a b = s.lineError p w a b := by
  rw [lineError_eq, lineError_eq, receiving_onPort]

theorem frameComplete_receiving (tag kind : Byte) (payload : List Byte) (crc : BitVec 16) :
    (s.receiving p x).frameComplete p tag kind payload crc = s.frameComplete p tag kind payload crc := by
  unfold State.frameComplete
  rw [lineError_receiving, lineError_receiving, receiving_onPort]

end

/-! ## One byte (R138) -/

section
variable {s : State} {p : Port} {b : Byte} {good : Bool}

theorem exec_byte_inBreak (hs : Settled s) (hb : (s.port p).inBreak = true) : exec (.callerByteReceived p b good) s = .next s := by
  have hbyte : s.receiveByte p b good = s := if_pos hb
  show Host.Outcome.next (s.receiveByte p b good).settle = _
  rw [hbyte, hs]

variable (hb : (s.port p).inBreak = false)
include hb

theorem receiveByte_hunting (hr : (s.port p).receiver = .hunting) : s.receiveByte p b good =
    if good = true ∧ b = 0xC3 then s.receiving p (.inFrame [] gapTicks) else s := by
  unfold State.receiveByte
  rw [hb, hr]
  rfl

theorem receiveByte_inFrame {got : List Byte} {n : Nat} (hr : (s.port p).receiver = .inFrame got n) :
    s.receiveByte p b good = if good = true then s.frameByte p (got ++ [b]) else s.lineError p .byte got[0]? got[1]? := by
  unfold State.receiveByte
  rw [hb, hr]
  rfl

end

/-! ### The bytes of a frame -/

section
variable {s : State} {p : Port} {tag kind : Byte}

theorem frameByte_tag : s.frameByte p [tag] = s.receiving p (.inFrame [tag] gapTicks) := rfl

theorem frameByte_kind : s.frameByte p [tag, kind] = s.receiving p (.inFrame [tag, kind] gapTicks) := rfl

variable {len : Byte}

theorem maxPayload_not_lt {n : Nat} (h : n ≤ 240) : ¬ Config.maxPayload < n := Nat.not_lt.2 h

theorem frameByte_tooLong (hlen : 240 < len.toNat) (rest : List Byte) :
    s.frameByte p (tag :: kind :: len :: rest) = s.lineError p .length (some tag) (some kind) := if_pos hlen

theorem frameByte_more (hlen : len.toNat ≤ 240) {rest : List Byte} (hrest : rest.length < len.toNat + 2) :
    s.frameByte p (tag :: kind :: len :: rest) = s.receiving p (.inFrame (tag :: kind :: len :: rest) gapTicks) := by
  unfold State.frameByte
  dsimp only
  rw [if_neg (maxPayload_not_lt hlen), if_neg (Nat.not_le.2 hrest)]
  rfl

theorem frameByte_last (hlen : len.toNat ≤ 240) {payload : List Byte} (hpl : payload.length = len.toNat) (lo hi : Byte) :
    s.frameByte p (tag :: kind :: len :: (payload ++ [lo, hi])) =
      s.frameComplete p tag kind payload (BitVec.ofNat 16 (nat2 lo hi)) := by
  unfold State.frameByte
  dsimp only
  rw [if_neg (maxPayload_not_lt hlen), if_pos (by rw [List.length_append, hpl]; exact Nat.le_refl _), ← hpl, List.take_left,
    List.drop_left]

end

theorem afterBytes_cons {s t : State} {p : Port} {b : Byte} (h : exec (.callerByteReceived p b true) s = .next t) (bs : List Byte) :
    s.afterBytes p (b :: bs) = t.afterBytes p bs := by
  rw [State.afterBytes, h]

section
variable {s : State} {p : Port}

/-- A byte inside a frame, in a state that differs from s in the receiver alone. -/
theorem exec_byte_inFrame (hb : (s.port p).inBreak = false) (got : List Byte) (n : Nat) (b : Byte) :
    exec (.callerByteReceived p b true) (s.receiving p (.inFrame got n)) =
      .next ((s.receiving p (.inFrame got n)).frameByte p (got ++ [b])).settle := by
  show Host.Outcome.next ((s.receiving p (.inFrame got n)).receiveByte p b true).settle = _
  rw [receiveByte_inFrame (by rw [port_receiving]; exact hb) (by rw [port_receiving]), if_pos rfl]

variable (hs : Settled s) (hb : (s.port p).inBreak = false)
include hs hb

/-- A byte that completes nothing joins the bytes held. -/
theorem exec_byte_joins {got : List Byte} {n : Nat} {b : Byte}
    (hmore : ∀ t : State, t.frameByte p (got ++ [b]) = t.receiving p (.inFrame (got ++ [b]) gapTicks)) :
    exec (.callerByteReceived p b true) (s.receiving p (.inFrame got n)) =
      .next (s.receiving p (.inFrame (got ++ [b]) gapTicks)) := by
  rw [exec_byte_inFrame hb, hmore, receiving_receiving, settled_receiving hs]

/-- The bytes after the length byte: the rest of the payload and the CRC (R138, R168). -/
theorem afterBytes_payload {tag kind len : Byte} {payload : List Byte} (hlen : len.toNat ≤ 240) (hpl : payload.length = len.toNat)
    (lo hi : Byte) (done rest : List Byte) (hsplit : done ++ rest = payload) :
    (s.receiving p (.inFrame (tag :: kind :: len :: done) gapTicks)).afterBytes p (rest ++ [lo, hi]) =
      some (s.frameComplete p tag kind payload (BitVec.ofNat 16 (nat2 lo hi))).settle := by
  have join {before : List Byte} {b : Byte} (hshort : before.length < payload.length + 1) (more : List Byte) :
      (s.receiving p (.inFrame (tag :: kind :: len :: before) gapTicks)).afterBytes p (b :: more) =
        (s.receiving p (.inFrame (tag :: kind :: len :: (before ++ [b])) gapTicks)).afterBytes p more :=
    have hfits : (before ++ [b]).length < len.toNat + 2 := by
      rw [List.length_append, List.length_singleton, ← hpl]
      omega
    afterBytes_cons (exec_byte_joins hs hb fun t => frameByte_more hlen hfits) more
  induction rest generalizing done with
  | nil =>
    rw [List.append_nil] at hsplit
    rw [List.nil_append, join (by rw [hsplit]; omega), hsplit]
    have hlast := exec_byte_inFrame hb (tag :: kind :: len :: (payload ++ [lo])) gapTicks hi
    rw [List.cons_append, List.cons_append, List.cons_append, List.append_assoc, List.singleton_append,
      frameByte_last hlen hpl, frameComplete_receiving] at hlast
    rw [afterBytes_cons hlast]
    rfl
  | cons b rest ih =>
    have hshort : done.length < payload.length + 1 := by
      rw [← hsplit, List.length_append]
      omega
    rw [List.cons_append, join hshort]
    exact ih (done ++ [b]) (by rw [List.append_assoc, List.singleton_append, hsplit])

end

theorem exec_frameReceived {s : State} {p : Port} (hb : (s.port p).inBreak = false) (tag kind : Byte) (payload : List Byte)
    (crc : BitVec 16) : exec (.frameReceived p tag kind payload crc) s = .next (s.frameComplete p tag kind payload crc).settle := by
  refine congrArg Host.Outcome.next (if_neg ?_)
  rw [hb]
  exact Bool.false_ne_true

/-- Settles O14: each byte before the last joins the receiver, and the last completes the frame with the CRC it carries. -/
theorem receiverAssemblesFrames : Obligations.ReceiverAssemblesFrames := by
  intro s p tag kind payload hs hb hr hlen
  refine ⟨_, exec_frameReceived hb tag kind payload _, ?_⟩
  have hcount : (byteOf payload.length).toNat = payload.length := toNat_byteOf (by omega)
  have hlen' : (byteOf payload.length).toNat ≤ 240 := by rw [hcount]; exact hlen
  have hstart : exec (.callerByteReceived p 0xC3#8 true) s = .next (s.receiving p (.inFrame [] gapTicks)) := by
    show Host.Outcome.next (s.receiveByte p 0xC3#8 true).settle = _
    rw [receiveByte_hunting hb hr, if_pos ⟨rfl, rfl⟩, settled_receiving hs]
  unfold frameBytes le2
  rw [List.cons_append, List.cons_append, List.cons_append, List.cons_append, afterBytes_cons hstart,
    afterBytes_cons (exec_byte_joins hs hb fun t => frameByte_tag),
    afterBytes_cons (exec_byte_joins hs hb fun t => frameByte_kind),
    afterBytes_cons (exec_byte_joins hs hb fun t => frameByte_more hlen' (rest := []) (Nat.succ_pos _))]
  have hrest := afterBytes_payload hs hb (tag := tag) (kind := kind) hlen' hcount.symm
    (byteOf (frameCrc tag kind payload).toNat) (byteOf ((frameCrc tag kind payload).toNat / 256)) [] payload rfl
  rw [crc_readsBack] at hrest
  exact hrest

/-! ## A frame is discarded (R139) -/

/-- The Port Unit with the frame begun discarded and LINE_ERROR raised. -/
def PortUnit.discards (u : PortUnit) (why : LineCase) (tag kind : Option Byte) : PortUnit :=
  ({ u with receiver := .hunting } : PortUnit).raise (.lineError why tag kind)

/-- A discarded frame changes the receiver, the cause sets and the frames of its port alone. -/
theorem lineError_settle {s : State} (hs : Settled s) (p : Port) (why : LineCase) (tag kind : Option Byte) :
    OnlyChanges [.ports] s (s.lineError p why tag kind).settle ∧ OtherPortsSame p s (s.lineError p why tag kind).settle ∧
    (s.lineError p why tag kind).settle.port p = ((s.port p).discards why tag kind).startSending := by
  rw [lineError_eq]
  obtain ⟨honly, hothers, -⟩ := settle_onPort hs p (fun u => ({ u with receiver := .hunting } : PortUnit).raise
    (.lineError why tag kind))
  exact ⟨honly, hothers, port_onPort_settle hs p rfl id⟩

/-- What is left of a port that has discarded a frame. -/
theorem discards_fields (u : PortUnit) (why : LineCase) (tag kind : Option Byte) :
    (u.discards why tag kind).startSending.receiver = .hunting ∧ (u.discards why tag kind).startSending.queue = u.queue ∧
    (u.discards why tag kind).startSending.listing = u.listing ∧
    (u.discards why tag kind).startSending.pending = putRaise (.lineError why tag kind) u.pending := by
  obtain ⟨hqueue, hreceiver, -, -, -, -, hlisting, -⟩ := PortUnit.startSending_fields (u.discards why tag kind)
  exact ⟨hreceiver, hqueue, hlisting, PortUnit.pending_startSending _⟩

theorem discarded_of_lineError {i : Instr} {s : State} {p : Port} {why : LineCase} {tag kind : Option Byte} (hs : Settled s)
    (h : exec i s = .next (s.lineError p why tag kind).settle) :
    ∃ t, exec i s = .next t ∧ OnlyChanges [.ports] s t ∧ OtherPortsSame p s t ∧
      (t.port p).receiver = .hunting ∧ (t.port p).queue = (s.port p).queue ∧
      (t.port p).pending = putRaise (.lineError why tag kind) (s.port p).pending := by
  obtain ⟨honly, hothers, hport⟩ := lineError_settle hs p why tag kind
  obtain ⟨hreceiver, hqueue, -, hpending⟩ := discards_fields (s.port p) why tag kind
  exact ⟨_, h, honly, hothers, by rw [hport, hreceiver], by rw [hport, hqueue], by rw [hport, hpending]⟩

section
variable {s : State} {p : Port}

theorem exec_frameGapTimeout_hunting (hr : (s.port p).receiver = .hunting) : exec (.frameGapTimeout p) s = .next s := by
  show execFrameGapTimeout p s = _
  simp only [execFrameGapTimeout, hr]

theorem exec_frameGapTimeout_inFrame {got : List Byte} {n : Nat} (hr : (s.port p).receiver = .inFrame got n) :
    exec (.frameGapTimeout p) s = .next (s.lineError p .gap got[0]? got[1]?).settle := by
  show execFrameGapTimeout p s = _
  simp only [execFrameGapTimeout, hr]

end

/-- Settles O57: the receiver by its state, and the discards of R139. -/
theorem receiverTakesAndDiscardsBytes : Obligations.ReceiverTakesAndDiscardsBytes := by
  intro s p b good hs
  refine ⟨exec_byte_inBreak hs, fun hb => ⟨fun hr hno => ?ignored, fun hr hstart hgood => ?start,
    fun got n hr hbad => discarded_of_lineError hs ?badByte, fun tag kind n hr hgood hlen => discarded_of_lineError hs ?tooLong⟩,
    exec_frameGapTimeout_hunting, fun got n hr => discarded_of_lineError hs (exec_frameGapTimeout_inFrame hr)⟩
  case ignored =>
    have hnot : ¬ (good = true ∧ b = 0xC3) := fun ⟨hg, h3⟩ => by
      rcases hno with h | h
      · exact h h3
      · rw [hg] at h; cases h
    show Host.Outcome.next (s.receiveByte p b good).settle = _
    rw [receiveByte_hunting hb hr, if_neg hnot, hs]
  case start =>
    refine ⟨s.receiving p (.inFrame [] gapTicks), gapTicks, ?_, onPort_only _ _ _, fun q hq => State.port_onPort_ne _ _ hq,
      port_receiving⟩
    show Host.Outcome.next (s.receiveByte p b good).settle = _
    rw [receiveByte_hunting hb hr, if_pos ⟨hgood, hstart⟩, settled_receiving hs]
  case badByte =>
    show Host.Outcome.next (s.receiveByte p b good).settle = _
    rw [receiveByte_inFrame hb hr, if_neg (by rw [hbad]; exact Bool.false_ne_true)]
  case tooLong =>
    show Host.Outcome.next (s.receiveByte p b good).settle = _
    rw [receiveByte_inFrame hb hr, if_pos hgood]
    exact congrArg (fun t : State => Host.Outcome.next t.settle) (frameByte_tooLong hlen [])

end Sys2Proof.Machine
end

section
/-! Frames that complete on a caller port, and UNLOCK (R141, R142, R148, R152): O58 and O60. -/

namespace Sys2Proof.Machine

namespace PortUnit

/-! ## The cut of a listing (R152) -/

theorem cutListing_empty {u : PortUnit} (hq : u.queue = []) : u.cutListing = u := by
  unfold cutListing
  split
  next hcons => rw [hq] at hcons; cases hcons
  next => rfl

variable (u : PortUnit)

/-- The cut answers a listing; it leaves the rest of the port alone, and is no immediate answer. -/
theorem cutListing_same : u.cutListing.receiver = u.receiver ∧ u.cutListing.queue = u.queue ∧ u.cutListing.locked = u.locked ∧
    u.cutListing.capture = u.capture ∧ u.cutListing.pending = u.pending ∧ u.cutListing.sync = u.sync ∧
    u.cutListing.frames.filter OutFrame.isImmediate = u.frames.filter OutFrame.isImmediate := by
  cases hl : u.listing with
  | none => rw [cutListing_none hl]; exact ⟨rfl, rfl, rfl, rfl, rfl, rfl, rfl⟩
  | some x =>
    cases hq : u.queue with
    | nil =>
      rw [cutListing_empty hq]
      exact ⟨rfl, hq, rfl, rfl, rfl, rfl, rfl⟩
    | cons r rest =>
      rw [cutListing_some hl hq]
      refine ⟨rfl, hq, rfl, rfl, rfl, rfl, ?_⟩
      rw [frames_make, List.filter_append]
      exact List.append_nil _

theorem cutListing_receiver (x : Receiver) :
    ({ u with receiver := x } : PortUnit).cutListing = { u.cutListing with receiver := x } := by
  rcases Option.eq_none_or_eq_some u.listing with hl | ⟨y, hl⟩
  · rw [cutListing_none hl, cutListing_none (u := { u with receiver := x }) hl]
  · by_cases hq : u.queue = []
    · rw [cutListing_empty hq, cutListing_empty (u := { u with receiver := x }) hq]
    · obtain ⟨r, rest, hq⟩ := List.exists_cons_of_ne_nil hq
      rw [cutListing_some hl hq, cutListing_some (u := { u with receiver := x }) hl hq]
      rfl

theorem immediateFull_congr {u v : PortUnit}
    (h : v.frames.filter OutFrame.isImmediate = u.frames.filter OutFrame.isImmediate) : v.immediateFull = u.immediateFull := by
  unfold immediateFull
  rw [h]

theorem immediateFull_cutListing : u.cutListing.immediateFull = u.immediateFull := by
  obtain ⟨-, -, -, -, -, -, himmediate⟩ := u.cutListing_same
  exact immediateFull_congr himmediate

/-! ## The frames when a cause is raised (R163) -/

theorem immediate_putNotice (r : Raise) (out : List OutFrame) :
    (putNotice r out).filter OutFrame.isImmediate = out.filter OutFrame.isImmediate := by
  unfold putNotice
  split
  · rw [List.filter_map]
    have hsame : (OutFrame.isImmediate ∘ fun f => if f.noticeOf r.cause = true then OutFrame.notice r else f) =
        OutFrame.isImmediate := by
      funext f
      cases f with
      | notice x => simp only [Function.comp_apply]; split <;> rfl
      | answer => rfl
    rw [hsame]
    conv_rhs => rw [← List.map_id (out.filter OutFrame.isImmediate)]
    refine List.map_congr_left fun f hf => ?_
    cases f with
    | notice => cases (List.mem_filter.1 hf).2
    | answer => rfl
  · rw [List.filter_append]
    exact List.append_nil _

theorem immediate_raise (r : Raise) :
    (u.raise r).frames.filter OutFrame.isImmediate = u.frames.filter OutFrame.isImmediate := by
  show (u.sending.toList ++ (u.raise r).outgoing).filter _ = (u.sending.toList ++ u.outgoing).filter _
  rw [List.filter_append, List.filter_append]
  unfold raise
  dsimp only
  split
  · rw [immediate_putNotice]
  · rfl

/-! ## A frame that is no UNLOCK (R141, R142) -/

variable (tag kind : Byte) (payload : List Byte)

theorem joined_room (h : u.queue.length < 8) : u.joined tag kind payload = { u.cutListing with
    queue := u.queue ++ [{ tag := tag, kind := kind, payload := payload, drop := false }] } := by
  obtain ⟨-, hqueue, -⟩ := u.cutListing_same
  unfold joined
  dsimp only
  rw [hqueue, if_neg (Nat.not_le.2 h)]

theorem joined_full (h : 8 ≤ u.queue.length) : u.joined tag kind payload =
    (if u.immediateFull = true then u.cutListing else u.cutListing.make (.answer .immediate tag kind [0x0E])).raise
      (.busy tag kind) := by
  obtain ⟨-, hqueue, -⟩ := u.cutListing_same
  unfold joined
  dsimp only
  rw [hqueue, if_pos h, immediateFull_cutListing]
  split <;> rfl

/-! ## UNLOCK, after the cut (R148) -/

theorem unlocked_full (h : u.immediateFull = true) : u.unlocked tag payload = u.raise (.busy tag 0x14) := if_pos h

variable (h : u.immediateFull = false)
include h

theorem unlocked_form {payload : List Byte} (hpl : payload.length ≠ 1) :
    u.unlocked tag payload = (u.noted tag 0x14 .form).make (.answer .immediate tag 0x14 [2]) := by
  unfold unlocked
  rw [h, if_neg Bool.false_ne_true]
  split
  next => exact absurd rfl hpl
  next => rfl

theorem unlocked_normal (discard : Byte) (hl : u.locked = false) :
    u.unlocked tag [discard] = u.make (.answer .immediate tag 0x14 [0, 0, 0]) := by
  unfold unlocked
  rw [h, hl]
  rfl

theorem unlocked_locked (discard : Byte) (hl : u.locked = true) : u.unlocked tag [discard] =
    (if discard = 0 then { u with locked := false } else ({ u with locked := false } : PortUnit).markHeld).make
      (.answer .immediate tag 0x14 [0, 1, byteOf u.heldCount]) := by
  unfold unlocked
  rw [h, hl]
  rfl

omit h

theorem markHeld_all (h : u.frames.any OutFrame.answersOldest = false) :
    u.markHeld.queue = u.queue.map (fun r => { r with drop := true }) := by
  unfold markHeld
  rw [h]
  rfl

theorem markHeld_behind (h : u.frames.any OutFrame.answersOldest = true) :
    u.markHeld.queue = u.queue.take 1 ++ (u.queue.drop 1).map (fun r => { r with drop := true }) := by
  unfold markHeld
  rw [h]
  rfl

theorem markHeld_queue_ne_nil (h : u.markHeld.queue ≠ []) : u.queue ≠ [] := by
  intro hq
  refine h ?_
  cases ha : u.frames.any OutFrame.answersOldest with
  | false => rw [u.markHeld_all ha, hq]; rfl
  | true => rw [u.markHeld_behind ha, hq]; rfl

theorem mem_frames_make {f g : OutFrame} (hf : f ∈ u.frames) : f ∈ (u.make g).frames := by
  rw [frames_make]
  exact List.mem_append_left _ hf

/-- An UNLOCK keeps the receiver, the listing, a SYNC and the answers made; it fills no queue. -/
theorem unlocked_keeps : (u.unlocked tag payload).receiver = u.receiver ∧ (u.unlocked tag payload).listing = u.listing ∧
    (u.unlocked tag payload).sync = u.sync ∧ ((u.unlocked tag payload).queue ≠ [] → u.queue ≠ []) ∧
    ∀ f ∈ u.frames, (∀ x, f ≠ .notice x) → f ∈ (u.unlocked tag payload).frames := by
  cases hfull : u.immediateFull with
  | true =>
    rw [u.unlocked_full tag payload hfull]
    exact ⟨rfl, rfl, rfl, id, fun f hf hn => mem_frames_raise hf hn⟩
  | false =>
    by_cases hlen : payload.length = 1
    case neg =>
      rw [u.unlocked_form tag hfull hlen]
      exact ⟨rfl, rfl, rfl, id, fun f hf hn => mem_frames_make _ (mem_frames_raise hf hn)⟩
    case pos =>
      obtain ⟨discard, rfl⟩ := List.length_eq_one_iff.1 hlen
      cases hl : u.locked with
      | false =>
        rw [u.unlocked_normal tag hfull discard hl]
        exact ⟨rfl, rfl, rfl, id, fun f hf _ => mem_frames_make _ hf⟩
      | true =>
        rw [u.unlocked_locked tag hfull discard hl]
        split
        · exact ⟨rfl, rfl, rfl, id, fun f hf _ => mem_frames_make _ hf⟩
        · obtain ⟨hreceiver, hlisting, -, -, -, hframes, hsync⟩ := ({ u with locked := false } : PortUnit).markHeld_fields
          exact ⟨hreceiver, hlisting, hsync, markHeld_queue_ne_nil { u with locked := false },
            fun f hf _ => mem_frames_make _ (hframes ▸ hf)⟩

/-- A frame that is no UNLOCK keeps the receiver and the answers made, and leaves the listing cut. -/
theorem joined_keeps : (u.joined tag kind payload).receiver = u.receiver ∧
    (u.joined tag kind payload).listing = u.cutListing.listing ∧
    ∀ f ∈ u.cutListing.frames, (∀ x, f ≠ .notice x) → f ∈ (u.joined tag kind payload).frames := by
  obtain ⟨hreceiver, -⟩ := u.cutListing_same
  by_cases h : u.queue.length < 8
  · rw [u.joined_room tag kind payload h]
    exact ⟨hreceiver, rfl, fun f hf _ => hf⟩
  · rw [u.joined_full tag kind payload (Nat.le_of_not_lt h)]
    split
    · exact ⟨hreceiver, rfl, fun f hf hn => mem_frames_raise hf hn⟩
    · exact ⟨hreceiver, rfl, fun f hf hn => mem_frames_raise (mem_frames_make _ hf) hn⟩

/-- The receiver hunts again. -/
def hunts : PortUnit := { u with receiver := .hunting }

theorem cutListing_hunts : u.hunts.cutListing = u.cutListing.hunts := u.cutListing_receiver .hunting

end PortUnit

/-! ## A complete frame (R139, R141) -/

section
variable {s : State} {p : Port} {tag kind : Byte} {payload : List Byte}

theorem frameComplete_badCrc {crc : BitVec 16} (hlen : payload.length ≤ 240) (hcrc : crc ≠ frameCrc tag kind payload) :
    s.frameComplete p tag kind payload crc = s.lineError p .crc (some tag) (some kind) := by
  unfold State.frameComplete
  rw [if_neg (maxPayload_not_lt hlen), if_pos hcrc]

theorem frameComplete_good (hlen : payload.length ≤ 240) :
    s.frameComplete p tag kind payload (frameCrc tag kind payload) =
      (s.onPort p PortUnit.hunts).goodFrame p tag kind payload := by
  unfold State.frameComplete
  rw [if_neg (maxPayload_not_lt hlen), if_neg (not_not.2 rfl)]
  rfl

theorem frameComplete_joins (hlen : payload.length ≤ 240) (hk : kind ≠ 0x14) :
    s.frameComplete p tag kind payload (frameCrc tag kind payload) =
      s.onPort p (fun u => u.hunts.joined tag kind payload) := by
  rw [frameComplete_good hlen, goodFrame_eq _ _ _ _ _ hk, onPort_onPort]

theorem unlock_unlocks : (s.onPort p PortUnit.hunts).goodFrame p tag 0x14 payload =
    s.onPort p (fun u => u.cutListing.hunts.unlocked tag payload) := by
  rw [goodFrame_unlock, onPort_onPort]
  simp only [PortUnit.cutListing_hunts]

theorem exec_unlock (hb : (s.port p).inBreak = false) : exec (.unlock p tag payload) s =
    .next ((s.onPort p PortUnit.hunts).goodFrame p tag 0x14 payload).settle := by
  refine congrArg Host.Outcome.next (if_neg ?_)
  rw [hb]
  exact Bool.false_ne_true

theorem exec_frameReceived_unlock (hlen : payload.length ≤ 240) :
    exec (.frameReceived p tag 0x14 payload (frameCrc tag 0x14 payload)) s = exec (.unlock p tag payload) s := by
  cases hb : (s.port p).inBreak with
  | false => rw [exec_frameReceived hb, exec_unlock hb, frameComplete_good hlen]
  | true =>
    have hframe : exec (.frameReceived p tag 0x14 payload (frameCrc tag 0x14 payload)) s = .next s :=
      congrArg Host.Outcome.next (if_pos hb)
    rw [hframe]
    exact (congrArg Host.Outcome.next (if_pos hb)).symm

/-- The port after a frame that is no UNLOCK: its end of the event may answer a SYNC that waits for nothing. -/
theorem answered_fields (u : PortUnit) : u.answerSync.startSending.receiver = u.receiver ∧
    u.answerSync.startSending.queue = u.queue ∧ u.answerSync.startSending.listing = u.listing ∧
    u.answerSync.startSending.pending = u.pending ∧ ∀ f ∈ u.frames, f ∈ u.answerSync.startSending.frames := by
  obtain ⟨hqueue, hreceiver, -, -, -, -, hlisting, -⟩ := u.answerSync.startSending_fields
  obtain ⟨hqueue', hreceiver', -, -, -, -, hlisting', -⟩ := u.answerSync_fields
  refine ⟨hreceiver.trans hreceiver', hqueue.trans hqueue', hlisting.trans hlisting', ?_, fun f hf => ?_⟩
  · rw [PortUnit.pending_startSending, PortUnit.pending_answerSync]
  · rw [PortUnit.frames_startSending]
    exact PortUnit.mem_frames_answerSync hf

end

theorem mem_cutListing {u : PortUnit} {x : Listing} {r : Request} {rest : List Request} (hl : u.listing = some x)
    (hq : u.queue = r :: rest) : .answer .response r.tag r.kind [0x10, byteOf x.made] ∈ u.cutListing.frames := by
  rw [PortUnit.cutListing_some hl hq, PortUnit.frames_make]
  exact List.mem_append_right _ (List.mem_singleton_self _)

/-- Settles O58: a bad CRC discards the frame, UNLOCK is taken at once, another frame joins or finds the queue full. -/
theorem framesJoinTheRequestQueue : Obligations.FramesJoinTheRequestQueue := by
  refine ⟨fun s p tag kind payload crc hs hb hlen => ?frame, fun s p tag payload hlen => exec_frameReceived_unlock hlen,
    fun u => ⟨PortUnit.cutListing_none, fun x r rest => PortUnit.cutListing_some⟩⟩
  case frame =>
    refine ⟨_, exec_frameReceived hb tag kind payload crc, ?_⟩
    by_cases hcrc : crc = frameCrc tag kind payload
    case neg =>
      rw [frameComplete_badCrc hlen hcrc]
      obtain ⟨honly, hothers, hport⟩ := lineError_settle hs p .crc (some tag) (some kind)
      obtain ⟨hreceiver, hqueue, hlisting, hpending⟩ := discards_fields (s.port p) .crc (some tag) (some kind)
      rw [hport]
      exact ⟨honly, hothers, hreceiver, fun _ => ⟨hqueue, hlisting, hpending⟩, fun h => absurd h hcrc, fun h => absurd h hcrc⟩
    case pos =>
    rw [hcrc]
    by_cases hk : kind = 0x14
    case pos =>
      rw [hk, frameComplete_good hlen, unlock_unlocks]
      obtain ⟨honly, hothers, hport⟩ := settle_onPort hs p (fun u => u.cutListing.hunts.unlocked tag payload)
      obtain ⟨hreceiver, -, hlisting, -, hframes⟩ := answered_fields ((s.port p).cutListing.hunts.unlocked tag payload)
      obtain ⟨hreceiver', hlisting', -, -, hframes'⟩ := (s.port p).cutListing.hunts.unlocked_keeps tag payload
      rw [hport]
      refine ⟨honly, hothers, hreceiver.trans hreceiver', fun h => absurd rfl h, fun _ h => absurd rfl h,
        fun _ x r rest hl hq => ⟨(hlisting.trans hlisting').trans ?_, hframes _ (hframes' _ (mem_cutListing hl hq) nofun)⟩⟩
      show (s.port p).cutListing.listing = none
      rw [PortUnit.cutListing_some hl hq]
      rfl
    case neg =>
      rw [frameComplete_joins hlen hk]
      obtain ⟨honly, hothers, hport⟩ := settle_onPort hs p (fun u => u.hunts.joined tag kind payload)
      obtain ⟨hreceiver, hqueue, hlisting, hpending, hframes⟩ := answered_fields ((s.port p).hunts.joined tag kind payload)
      obtain ⟨hreceiver', hlisting', hframes'⟩ := (s.port p).hunts.joined_keeps tag kind payload
      rw [PortUnit.cutListing_hunts] at hlisting' hframes'
      obtain ⟨-, -, -, -, hpendingCut, hsyncCut, himmediate⟩ := (s.port p).cutListing_same
      rw [hport]
      refine ⟨honly, hothers, hreceiver.trans hreceiver', fun h => absurd rfl h, fun _ _ => ⟨fun hroom => ?room, fun hfull => ?full⟩,
        fun _ x r rest hl hq => ⟨(hlisting.trans hlisting').trans ?_, hframes _ (hframes' _ (mem_cutListing hl hq) nofun)⟩⟩
      case room =>
        have hjoined := (s.port p).hunts.joined_room tag kind payload hroom
        rw [PortUnit.cutListing_hunts] at hjoined
        refine ⟨by rw [hqueue, hjoined]; rfl, by rw [hpending, hjoined]; exact hpendingCut, fun hnosync => ?_⟩
        have hsync : ((s.port p).hunts.joined tag kind payload).sync = none := by
          rw [hjoined]
          exact hsyncCut.trans hnosync
        rw [PortUnit.answerSync_none hsync, PortUnit.frames_startSending, hjoined]
        rfl
      case full =>
        have hjoined := (s.port p).hunts.joined_full tag kind payload hfull
        rw [PortUnit.cutListing_hunts] at hjoined
        have hwaits : ((s.port p).hunts.joined tag kind payload).answerSync = (s.port p).hunts.joined tag kind payload := by
          refine PortUnit.answerSync_waits (quiet_of_settled hs p) ?_ (fun _ hnil => ?_)
          · rw [hjoined]
            split <;> exact hsyncCut
          · rw [hnil] at hfull
            cases hfull
        refine ⟨?_, ?_, ?_⟩
        · rw [hqueue, hjoined]
          obtain ⟨-, hqueueCut, -⟩ := (s.port p).cutListing_same
          split <;> exact hqueueCut
        · rw [hpending, hjoined, PortUnit.pending_raise, ← hpendingCut]
          split <;> rfl
        · rw [hwaits, PortUnit.frames_startSending, hjoined, PortUnit.immediate_raise, ← himmediate]
          show _ = _ ++ if (s.port p).hunts.immediateFull = true then [] else _
          split
          · exact (List.append_nil _).symm
          · rw [PortUnit.frames_make, List.filter_append]
            rfl
      · show (s.port p).cutListing.listing = none
        rw [PortUnit.cutListing_some hl hq]
        rfl

/-! ## UNLOCK and DROPPED (R148) -/

/-- An UNLOCK is one event of its port, which answers no SYNC. -/
theorem unlock_settle {s : State} (hs : Settled s) (p : Port) (tag : Byte) (payload : List Byte) :
    OnlyChanges [.ports] s ((s.onPort p PortUnit.hunts).goodFrame p tag 0x14 payload).settle ∧
    OtherPortsSame p s ((s.onPort p PortUnit.hunts).goodFrame p tag 0x14 payload).settle ∧
    ((s.onPort p PortUnit.hunts).goodFrame p tag 0x14 payload).settle.port p =
      ((s.port p).cutListing.hunts.unlocked tag payload).startSending := by
  rw [unlock_unlocks]
  obtain ⟨honly, hothers, -⟩ := settle_onPort hs p (fun u => u.cutListing.hunts.unlocked tag payload)
  obtain ⟨-, -, hsync, hqueue, -⟩ := (s.port p).cutListing.hunts.unlocked_keeps tag payload
  obtain ⟨-, hqueueCut, -, -, -, hsyncCut, -⟩ := (s.port p).cutListing_same
  exact ⟨honly, hothers, port_onPort_settle hs p (hsync.trans hsyncCut) fun h => hqueueCut ▸ hqueue h⟩

/-- The fields and the frames of a port whose line has begun to send. -/
theorem PortUnit.sent_fields (u : PortUnit) : u.startSending.receiver = u.receiver ∧ u.startSending.listing = u.listing ∧
    u.startSending.locked = u.locked ∧ u.startSending.queue = u.queue ∧ u.startSending.capture = u.capture ∧
    u.startSending.pending = u.pending ∧ u.startSending.frames = u.frames := by
  obtain ⟨hqueue, hreceiver, hlocked, -, hcapture, -, hlisting, -⟩ := u.startSending_fields
  exact ⟨hreceiver, hlisting, hlocked, hqueue, hcapture, u.pending_startSending, u.frames_startSending⟩

theorem exec_dropped {s : State} {p : Port} {r : Request} (ht : s.turn p = some r) (hd : r.drop = true) :
    exec (.dropped p) s = .next (s.respond p r .dropped []).settle := by
  show execDropped p s = _
  simp only [execDropped, ht, hd, if_true]

/-- Settles O60: UNLOCK by the room for its answer, its length and the lock; a marked request is answered DROPPED. -/
theorem unlockReleasesAndDropped : Obligations.UnlockReleasesAndDropped := by
  refine ⟨fun s p tag payload u hs hb hu => ?unlock, fun s p r hs ht hd => ?dropped⟩
  case dropped =>
    obtain ⟨-, -, hsync, -⟩ := turn_some ht
    obtain ⟨honly, hothers, -⟩ := settle_onPort hs p (fun u => u.make (responseFrame .response r .dropped []))
    obtain ⟨hframes, hsame, -, hpending, -⟩ := PortUnit.fields_of_answered
      (port_onPort_settle hs p (f := fun u => u.make (responseFrame .response r .dropped [])) rfl id)
    exact ⟨_, exec_dropped ht hd, honly, hothers, hsame, hpending, hframes⟩
  case unlock =>
    subst hu
    obtain ⟨honly, hothers, hport⟩ := unlock_settle hs p tag payload
    obtain ⟨-, hqueueCut, hlockedCut, hcaptureCut, hpendingCut, -, himmediateCut⟩ := (s.port p).cutListing_same
    obtain ⟨hreceiver, hlisting, -⟩ := (s.port p).cutListing.hunts.unlocked_keeps tag payload
    have hfull : (s.port p).cutListing.hunts.immediateFull = (s.port p).immediateFull := (s.port p).immediateFull_cutListing
    obtain ⟨hreceiver', hlisting', hlocked, hqueue, hcapture, hpending, hframes⟩ :=
      ((s.port p).cutListing.hunts.unlocked tag payload).sent_fields
    refine ⟨_, exec_unlock hb, honly, hothers, ?_⟩
    rw [hport, hlocked, hqueue, hcapture, hpending, hframes]
    refine ⟨hreceiver'.trans hreceiver, hlisting'.trans hlisting, fun hno => ?noRoom, fun hroom => ⟨fun hlen => ?form,
      fun discard hpl => ?taken⟩⟩
    case noRoom =>
      rw [PortUnit.unlocked_full _ _ _ (hfull.trans hno)]
      refine ⟨hlockedCut, hqueueCut, hcaptureCut, ?_, ?_⟩
      · rw [PortUnit.pending_raise, ← hpendingCut]
        rfl
      · rw [PortUnit.immediate_raise]
        exact himmediateCut
    case form =>
      rw [PortUnit.unlocked_form _ _ (hfull.trans hroom) hlen]
      refine ⟨hlockedCut, hqueueCut, mem_putRaise _ _, ?_, ?_⟩
      · rw [← hcaptureCut]
        exact PortUnit.capture_noted (s.port p).cutListing.hunts tag 0x14 .form
      · rw [PortUnit.frames_make, List.getLast?_concat]
    case taken =>
      subst hpl
      cases hl : (s.port p).locked with
      | false =>
        rw [PortUnit.unlocked_normal _ _ (hfull.trans hroom) discard (hlockedCut.trans hl)]
        exact ⟨hlockedCut.trans hl, hpendingCut, hcaptureCut,
          fun _ => ⟨hqueueCut, PortUnit.frames_make _ _⟩, nofun⟩
      | true =>
        obtain ⟨w, hw⟩ : ∃ w, w = ({ (s.port p).cutListing.hunts with locked := false } : PortUnit) := ⟨_, rfl⟩
        obtain ⟨-, -, hpendingMark, hcaptureMark, hlockedMark, hframesMark, -⟩ := w.markHeld_fields
        have hpendingW : w.pending = (s.port p).pending := by rw [hw]; exact hpendingCut
        have hcaptureW : w.capture = (s.port p).capture := by rw [hw]; exact hcaptureCut
        have hqueueW : w.queue = (s.port p).queue := by rw [hw]; exact hqueueCut
        have hlockedW : w.locked = false := by rw [hw]
        have hframesW : w.frames = (s.port p).cutListing.frames := by rw [hw]; rfl
        rw [PortUnit.unlocked_locked _ _ (hfull.trans hroom) discard (hlockedCut.trans hl), ← hw]
        by_cases hd : discard = 0
        · rw [if_pos hd]
          exact ⟨hlockedW, hpendingW, hcaptureW, nofun, fun _ =>
            ⟨by rw [PortUnit.frames_make, hframesW]; rfl, fun _ => hqueueW, fun h => absurd hd h, fun h => absurd hd h⟩⟩
        · rw [if_neg hd]
          refine ⟨hlockedMark.trans hlockedW, hpendingMark.trans hpendingW, hcaptureMark.trans hcaptureW, nofun, fun _ =>
            ⟨by rw [PortUnit.frames_make, hframesMark, hframesW]; rfl, fun h => absurd h hd, fun _ hnone => ?_, fun _ hsome => ?_⟩⟩
          · rw [← hframesW] at hnone
            rw [← hqueueW]
            exact w.markHeld_all hnone
          · rw [← hframesW] at hsome
            rw [← hqueueW]
            exact w.markHeld_behind hsome

end Sys2Proof.Machine
end

section
/-! Frames sent and line breaks on a caller port (R140, R143, R151 to R153): O56 and O59. -/

namespace Sys2Proof.Machine

/-! ## A frame has been sent -/

namespace PortUnit
variable (u : PortUnit) (next : Option CueRec)

/-- The transmit line is free again. -/
def lineFree : PortUnit := { u with sending := none, sendLeft := 0 }

/-- What the end of this frame does to its port (R143, R151). -/
def afterSent (f : OutFrame) : PortUnit :=
  match f with
  | .answer .response _ _ _ => { u.lineFree with queue := u.queue.tail }
  | .answer .listed _ _ _ => u.lineFree.listNext next
  | .answer .orphan _ _ _ => u.lineFree
  | .answer .immediate _ _ _ => u.lineFree
  | .notice _ => u.lineFree

theorem listNext_none (h : u.listing = none) : u.listNext next = u := by
  simp only [listNext, h]

theorem listNext_keeps : (u.listNext next).sync = u.sync ∧ (u.listNext next).pending = u.pending ∧
    (u.listNext next).queue = u.queue := by
  unfold listNext
  split
  · split
    · split <;> exact ⟨rfl, rfl, rfl⟩
    · exact ⟨rfl, rfl, rfl⟩
  · exact ⟨rfl, rfl, rfl⟩

theorem afterSent_keeps (f : OutFrame) : (u.afterSent next f).sync = u.sync ∧ (u.afterSent next f).pending = u.pending ∧
    ((u.afterSent next f).queue ≠ [] → u.queue ≠ []) := by
  cases f with
  | notice => exact ⟨rfl, rfl, id⟩
  | answer sort tag kind payload =>
    cases sort with
    | response => exact ⟨rfl, rfl, fun h hnil => h (congrArg List.tail hnil)⟩
    | listed =>
      obtain ⟨hsync, hpending, hqueue⟩ := u.lineFree.listNext_keeps next
      exact ⟨hsync, hpending, fun h hnil => h (hqueue.trans hnil)⟩
    | orphan => exact ⟨rfl, rfl, id⟩
    | immediate => exact ⟨rfl, rfl, id⟩

section
variable {u} {r : Request} {rest : List Request} {k : Listing} (hl : u.listing = some k) (hq : u.queue = r :: rest)
include hl hq

/-- The listing goes on: the next record is made (R151). -/
theorem listNext_record {c : CueRec} {m : Nat} (hm : k.left = m + 1) : u.listNext (some c) =
    ({ u with listing := some { left := m, last := some c.num, made := k.made + 1 } } : PortUnit).make
      (responseFrame .listed r .listed c.bytes) := by
  simp only [listNext, hl, hq, hm, Nat.add_one_ne_zero, if_false, Nat.add_sub_cancel]

/-- The listing ends: its final DONE is made (R151). -/
theorem listNext_ends {next : Option CueRec} (h : next = none ∨ k.left = 0) : u.listNext next =
    ({ u with listing := none } : PortUnit).make (responseFrame .response r .done [byteOf k.made, yesNo next.isSome]) := by
  cases next with
  | none => simp only [listNext, hl, hq]; rfl
  | some c =>
    have hzero : k.left = 0 := h.resolve_left nofun
    simp only [listNext, hl, hq, hzero, if_true]
    rfl

end

end PortUnit

section
variable {s : State} {p : Port}

theorem frameSent_none (h : (s.port p).sending = none) : s.frameSent p = s := by
  simp only [State.frameSent, h]

theorem frameSent_some {f : OutFrame} (h : (s.port p).sending = some f) :
    s.frameSent p = s.onPort p (fun u => u.afterSent (s.nextListed p) f) := by
  have hnext : (s.onPort p PortUnit.lineFree).nextListed p = s.nextListed p := by
    unfold State.nextListed
    rw [State.port_onPort_self]
    rfl
  simp only [State.frameSent, h]
  cases f with
  | notice => rfl
  | answer sort tag kind payload =>
    cases sort with
    | response => exact onPort_onPort _ _ _ _
    | listed =>
      show (s.onPort p PortUnit.lineFree).onPort p (fun u => u.listNext ((s.onPort p PortUnit.lineFree).nextListed p)) = _
      rw [hnext, onPort_onPort]
      rfl
    | orphan => rfl
    | immediate => rfl

theorem nextListed_some {left made : Nat} {n : CueNum} (h : (s.port p).listing = some { left := left, last := some n, made := made }) :
    s.nextListed p = cueAfter s.cues n := by
  simp only [State.nextListed, h]

end

/-- Settles O56: the end of a frame is one event of its port, by the sort of the frame. -/
theorem sentFramesMoveThePort : Obligations.SentFramesMoveThePort := by
  intro s p hs
  refine ⟨fun hnone => ?none, fun f hf => ?some⟩
  case none =>
    show Host.Outcome.next (s.frameSent p).settle = _
    rw [frameSent_none hnone, hs]
  case some =>
    obtain ⟨honly, hothers, -⟩ := settle_onPort hs p (fun u => u.afterSent (s.nextListed p) f)
    obtain ⟨hsync, hpending, hqueue⟩ := (s.port p).afterSent_keeps (s.nextListed p) f
    have hport := port_onPort_settle hs p (f := fun u => u.afterSent (s.nextListed p) f) hsync hqueue
    obtain ⟨-, hlisting', -, hqueue', -, hpending', hframes'⟩ := ((s.port p).afterSent (s.nextListed p) f).sent_fields
    have hexec : exec (.callerFrameSent p) s = .next (s.onPort p (fun u => u.afterSent (s.nextListed p) f)).settle := by
      show Host.Outcome.next (s.frameSent p).settle = _
      rw [frameSent_some hf]
    refine ⟨_, hexec, honly, hothers, ?_⟩
    rw [hport, hpending', PortUnit.sync_startSending, hqueue', hframes', hlisting']
    refine ⟨hpending, hsync, fun tag k pl hresponse => ?response, fun tag k pl hother => ?other,
      fun tag k pl r rest left n made hlisted hq hl => ?listed⟩
    case response =>
      subst hresponse
      exact ⟨rfl, rfl⟩
    case other =>
      have hfree : (s.port p).afterSent (s.nextListed p) f = (s.port p).lineFree := by
        rcases hother with rfl | rfl | ⟨x, rfl⟩ | ⟨rfl, hnone⟩
        · rfl
        · rfl
        · rfl
        · exact PortUnit.listNext_none _ _ hnone
      rw [hfree]
      exact ⟨rfl, rfl, rfl⟩
    case listed =>
      subst hlisted
      have hlist : (s.port p).afterSent (s.nextListed p) (.answer .listed tag k pl) =
          (s.port p).lineFree.listNext (cueAfter s.cues n) := by
        rw [nextListed_some hl]
        rfl
      obtain ⟨-, -, hqueueList⟩ := (s.port p).lineFree.listNext_keeps (cueAfter s.cues n)
      rw [hlist]
      refine ⟨hqueueList, fun x m hx hm => ?_, fun hend => ?_⟩
      · rw [hx, PortUnit.listNext_record (u := (s.port p).lineFree) hl hq hm, PortUnit.frames_make]
        exact ⟨rfl, rfl⟩
      · rw [PortUnit.listNext_ends (u := (s.port p).lineFree) hl hq hend, PortUnit.frames_make]
        exact ⟨rfl, rfl⟩

/-! ## Spacing discards the frame begun (R140) -/

namespace PortUnit
variable {u : PortUnit}

theorem startSending_busy {f : OutFrame} (h : u.sending = some f) : u.startSending = u := by
  simp only [startSending, h]

theorem startSending_idle (h : u.outgoing = []) : u.startSending = u := by
  unfold startSending
  split
  next hcons => rw [h] at hcons; cases hcons
  next => rfl

theorem startSending_first {f : OutFrame} {fs : List OutFrame} (hfree : u.sending = none) (h : u.outgoing = f :: fs) :
    u.startSending.sending = some f := by
  simp only [startSending, hfree, h]

/-- A settled port with a free line has no frame made. -/
theorem outgoing_of_settled (hu : u.answerSync.startSending = u) (hfree : u.sending = none) : u.outgoing = [] := by
  obtain ⟨hline, -⟩ := quiet_iff.1 hu
  exact hline hfree

variable (why : LineCase) (tag kind : Option Byte)

theorem discards_outgoing : (u.discards why tag kind).outgoing =
    if hasCause u.enabled .lineError = true then putNotice (.lineError why tag kind) u.outgoing else u.outgoing := rfl

end PortUnit

/-- A frame begun is discarded as a bad byte or as a gap (R140). -/
def spacingCase (n : Nat) : LineCase := if Config.breakIsBadByte n then .byte else .gap

theorem spacingCase_cases (n : Nat) : spacingCase n = .byte ∨ spacingCase n = .gap := by
  unfold spacingCase
  split
  · exact .inl rfl
  · exact .inr rfl

section
variable {s : State} {p : Port}

theorem spacingDiscard_hunting (hr : (s.port p).receiver = .hunting) : s.spacingDiscard p = s := by
  simp only [State.spacingDiscard, hr]

theorem spacingDiscard_inFrame {got : List Byte} {n : Nat} (hr : (s.port p).receiver = .inFrame got n) :
    s.spacingDiscard p =
      (s.lineError p (spacingCase s.choices) got[0]? got[1]?).settle.withChoices (s.choices + 1) := by
  simp only [State.spacingDiscard, hr]
  rfl

/-- What the discard changes beside its port: the model's count of free choices. -/
theorem spacingDiscard_frame (hs : Settled s) : Settled (s.spacingDiscard p) ∧
    OnlyChanges [.ports, .choices] s (s.spacingDiscard p) ∧ OtherPortsSame p s (s.spacingDiscard p) ∧
    ((s.port p).receiver = .hunting → (s.spacingDiscard p).choices = s.choices) := by
  cases hr : (s.port p).receiver with
  | hunting =>
    rw [spacingDiscard_hunting hr]
    exact ⟨hs, .refl _ _, fun _ _ => rfl, fun _ => rfl⟩
  | inFrame got n =>
    rw [spacingDiscard_inFrame hr]
    obtain ⟨honly, hothers, -⟩ := lineError_settle hs p (spacingCase s.choices) got[0]? got[1]?
    have hchoices (t : State) (n : Nat) : OnlyChanges [.choices] t (t.withChoices n) := (withChoices_keeps t n).1
    exact ⟨settle_of_only (settle_settled _) (hchoices _ _), (honly.mono (by decide)).trans ((hchoices _ _).mono (by decide)),
      hothers, nofun⟩

theorem port_spacingDiscard_inFrame (hs : Settled s) {got : List Byte} {n : Nat} (hr : (s.port p).receiver = .inFrame got n) :
    (s.spacingDiscard p).port p =
      ((s.port p).discards (spacingCase s.choices) got[0]? got[1]?).startSending := by
  obtain ⟨-, -, hport⟩ := lineError_settle hs p (spacingCase s.choices) got[0]? got[1]?
  rw [spacingDiscard_inFrame hr]
  exact hport

/-- The lock policy and the notice enable set are kept (R153). -/
theorem spacingDiscard_settings (hs : Settled s) : ((s.spacingDiscard p).port p).lockPolicy = (s.port p).lockPolicy ∧
    ((s.spacingDiscard p).port p).enabled = (s.port p).enabled := by
  cases hr : (s.port p).receiver with
  | hunting => rw [spacingDiscard_hunting hr]; exact ⟨rfl, rfl⟩
  | inFrame got n =>
    rw [port_spacingDiscard_inFrame hs hr]
    obtain ⟨-, -, -, hpolicy, -, henabled, -⟩ :=
      ((s.port p).discards (spacingCase s.choices) got[0]? got[1]?).startSending_fields
    exact ⟨hpolicy, henabled⟩

/-- A frame being sent goes on. -/
theorem spacingDiscard_sending {f : OutFrame} (hs : Settled s) (hf : (s.port p).sending = some f) :
    ((s.spacingDiscard p).port p).sending = some f := by
  cases hr : (s.port p).receiver with
  | hunting => rw [spacingDiscard_hunting hr, hf]
  | inFrame got n =>
    rw [port_spacingDiscard_inFrame hs hr,
      PortUnit.startSending_busy (u := (s.port p).discards (spacingCase s.choices) got[0]? got[1]?) hf]
    exact hf

/-- A free line stays free where no NOTICE is made. -/
theorem spacingDiscard_free (hs : Settled s) (hfree : (s.port p).sending = none)
    (hquiet : (s.port p).receiver = .hunting ∨ hasCause (s.port p).enabled .lineError = false) :
    ((s.spacingDiscard p).port p).sending = none := by
  cases hr : (s.port p).receiver with
  | hunting => rw [spacingDiscard_hunting hr, hfree]
  | inFrame got n =>
    have hdisabled : hasCause (s.port p).enabled .lineError = false := hquiet.resolve_left (by rw [hr]; nofun)
    rw [port_spacingDiscard_inFrame hs hr, PortUnit.startSending_idle]
    · exact hfree
    · rw [PortUnit.discards_outgoing, hdisabled, PortUnit.outgoing_of_settled (settled_iff.1 hs p) hfree]
      rfl

/-- A free line begins the NOTICE of the discard (R140, R142). -/
theorem spacingDiscard_notice (hs : Settled s) (hfree : (s.port p).sending = none)
    (hon : hasCause (s.port p).enabled .lineError = true) {got : List Byte} {n : Nat} (hr : (s.port p).receiver = .inFrame got n) :
    ((s.spacingDiscard p).port p).sending = some (.notice (.lineError (spacingCase s.choices) got[0]? got[1]?)) := by
  rw [port_spacingDiscard_inFrame hs hr]
  refine PortUnit.startSending_first (fs := []) hfree ?_
  rw [PortUnit.discards_outgoing, hon, PortUnit.outgoing_of_settled (settled_iff.1 hs p) hfree]
  rfl

end

/-! ## The port reset (R131, R153) -/

theorem CallArbiter.without_holder {a : CallArbiter} {p : Port} (h : a.holder = some p) :
    (a.without p).holder = a.claims.head? ∧ (a.without p).claims = a.claims.tail := by
  unfold CallArbiter.without
  rw [if_pos h]
  exact ⟨rfl, rfl⟩

theorem CallArbiter.without_other {a : CallArbiter} {p : Port} (h : a.holder ≠ some p) :
    (a.without p).holder = a.holder ∧ (a.without p).claims = a.claims.filter (fun x => decide (x ≠ p)) := by
  unfold CallArbiter.without
  rw [if_neg h]
  exact ⟨rfl, rfl⟩

section
variable (s : State) (p : Port)

theorem portReset_arbiter : (s.portReset p).settle.arbiter = s.arbiter.without p := by
  rw [(settle_only _).arbiter]
  exact State.leaveArbiter_arbiter _ p .portReset

theorem portReset_settle_only : OnlyChanges [.ports, .arbiter] s (s.portReset p).settle :=
  ((portReset_only s p).mono (by decide)).trans ((settle_only _).mono (by decide))

/-- The port reset, and what its leaving of the arbiter raises on it. -/
theorem portReset_port : (s.portReset p).settle.port p =
    ((s.port p).afterBreak.raises (s.arbiter.leaveRaises p .portReset p)).startSending := by
  rw [State.port_settle, State.portReset, port_leaveArbiter, State.port_onPort_self]
  refine congrArg PortUnit.startSending (PortUnit.answerSync_none ?_)
  obtain ⟨-, hsync, -⟩ := PortUnit.raises_keeps (s.port p).afterBreak (s.arbiter.leaveRaises p .portReset p)
  exact hsync

theorem portReset_other {q : Port} (hq : q ≠ p) : (s.portReset p).settle.port q =
    ((s.port q).raises (s.arbiter.leaveRaises p .portReset q)).answerSync.startSending := by
  rw [State.port_settle, State.portReset, port_leaveArbiter, State.port_onPort_ne _ _ hq]
  rfl

/-- What a leaving raises on the port that leaves: two causes at most, and neither twice. -/
theorem leaveRaises_self (a : CallArbiter) (way : CallWay) : a.leaveRaises p way p = [] ∨
    a.leaveRaises p way p = [.callLost way a.claims.head?] ∨
    a.leaveRaises p way p = [.callLost way a.claims.head?, .callGranted .passed (some p)] := by
  unfold CallArbiter.leaveRaises
  split
  · rw [if_pos rfl]
    split
    · exact .inr (.inr rfl)
    · exact .inr (.inl rfl)
  · exact .inl rfl

theorem repeats_afterBreak (u : PortUnit) (a : CallArbiter) (way : CallWay) :
    (u.afterBreak.raises (a.leaveRaises p way p)).repeats = 0 := by
  have hlost : (u.afterBreak.raise (.callLost way a.claims.head?)).repeats = 0 := PortUnit.repeats_raise rfl
  rcases leaveRaises_self p a way with h | h | h
  · rw [h]; rfl
  · rw [h]; exact hlost
  · rw [h]; exact (PortUnit.repeats_raise (u := u.afterBreak.raise (.callLost way a.claims.head?)) rfl).trans hlost

/-- A frame being sent runs out, and a new NOTICE waits behind it. -/
theorem portReset_sending {f : OutFrame} (hf : (s.port p).sending = some f) :
    ((s.portReset p).settle.port p).sending = some f.orphaned := by
  obtain ⟨-, -, hsending⟩ := PortUnit.raises_keeps (s.port p).afterBreak (s.arbiter.leaveRaises p .portReset p)
  have hbreak : (s.port p).afterBreak.sending = some f.orphaned := congrArg (Option.map OutFrame.orphaned) hf
  rw [portReset_port, PortUnit.startSending_busy (hsending.trans hbreak), hsending, hbreak]

/-- A port that does not hold the right is reset and raises nothing. -/
theorem portReset_port_other (hh : s.arbiter.holder ≠ some p) : (s.portReset p).settle.port p = (s.port p).afterBreak := by
  rw [portReset_port, leaveRaises_eq_nil (.inl hh)]
  exact PortUnit.startSending_idle rfl

theorem leaveRaises_passed {a : CallArbiter} {way : CallWay} (hh : a.holder = some p) (hp : a.claims.head? ≠ some p) :
    a.leaveRaises p way p = [.callLost way a.claims.head?] := by
  unfold CallArbiter.leaveRaises
  rw [if_pos hh, if_pos rfl, if_neg hp]
  rfl

theorem leaveRaises_heir {a : CallArbiter} {way : CallWay} {q : Port} (hh : a.holder = some p) (hq : a.claims.head? = some q)
    (hne : q ≠ p) : a.leaveRaises p way q = [.callGranted .passed (some p)] := by
  unfold CallArbiter.leaveRaises
  rw [if_pos hh, if_neg hne, if_pos hq]
  rfl

end

section
variable {s : State} {p : Port}

theorem exec_lineBreak_again (hb : (s.port p).inBreak = true) : exec (.lineBreak p) s = .next s :=
  congrArg Host.Outcome.next (if_pos hb)

theorem exec_lineBreak (hb : (s.port p).inBreak = false) :
    exec (.lineBreak p) s = .next ((s.spacingDiscard p).portReset p).settle :=
  congrArg Host.Outcome.next (if_neg (by rw [hb]; exact Bool.false_ne_true))

theorem exec_lineReturns (hb : (s.port p).inBreak = true) : exec (.lineReturnsToMarking p) s =
    .next (s.onPort p (fun u => { u with inBreak := false, receiver := .hunting })) :=
  congrArg Host.Outcome.next (if_pos hb)

theorem exec_lineReturns_marking (hb : (s.port p).inBreak = false) : exec (.lineReturnsToMarking p) s = .next s :=
  congrArg Host.Outcome.next (if_neg (by rw [hb]; exact Bool.false_ne_true))

end

/-- Settles O59: the spacing discards a frame begun, and the port reset that follows leaves the arbiter. -/
theorem lineBreaksResetThePort : Obligations.LineBreaksResetThePort := by
  intro s p hs
  refine ⟨fun hb => ⟨exec_lineBreak_again hb, _, exec_lineReturns hb, onPort_only _ _ _,
    fun q hq => State.port_onPort_ne _ _ hq, State.port_onPort_self _ _ _⟩,
    fun hb => ⟨exec_lineReturns_marking hb, _, exec_lineBreak hb, ?_⟩⟩
  obtain ⟨hsettled, honly, hothers, hchoices⟩ := spacingDiscard_frame (p := p) hs
  obtain ⟨hpolicy, henabled⟩ := spacingDiscard_settings (p := p) hs
  have hsending {f : OutFrame} := spacingDiscard_sending (p := p) (f := f) hs
  have hfree := spacingDiscard_free (p := p) hs
  have hnotice := fun hf hon got n => spacingDiscard_notice (p := p) hs hf hon (got := got) (n := n)
  have harbiter : (s.spacingDiscard p).arbiter = s.arbiter := honly.arbiter
  generalize s.spacingDiscard p = v at *
  have hreset := portReset_settle_only v p
  obtain ⟨⟨hreceiver, hbreak, hqueue, hlocked, hpolicy', hcapture, hlisting, henabled'⟩, hsync, -⟩ :=
    PortUnit.raises_keeps (v.port p).afterBreak (v.arbiter.leaveRaises p .portReset p)
  obtain ⟨hqueueS, hreceiverS, hlockedS, hpolicyS, hcaptureS, henabledS, hlistingS, hbreakS⟩ :=
    ((v.port p).afterBreak.raises (v.arbiter.leaveRaises p .portReset p)).startSending_fields
  rw [← portReset_port] at hqueueS hreceiverS hlockedS hpolicyS hcaptureS henabledS hlistingS hbreakS
  have hthird (q : Port) (hqp : q ≠ p) (hq : v.arbiter.leaveRaises p .portReset q = []) :
      (v.portReset p).settle.port q = s.port q := by
    rw [portReset_other v p hqp, hq, ← hothers q hqp]
    exact settled_iff.1 hsettled q
  refine ⟨(honly.mono (by decide)).trans (hreset.mono (by decide)), hreceiverS.trans hreceiver.symm, hbreakS.trans hbreak.symm,
    hqueueS.trans hqueue.symm, hlockedS.trans hlocked.symm, hpolicyS.trans (hpolicy'.symm.trans hpolicy),
    hcaptureS.trans hcapture.symm, hlistingS.trans hlisting.symm, ?_, henabledS.trans (henabled'.symm.trans henabled), ?_, ?_,
    fun hr => hreset.choices.trans (hchoices hr), fun f hf => portReset_sending v p (hsending hf), fun hf hquiet hh => ?_,
    fun hf hon got n hr => ?_, fun hh => ?_, fun hh hhead => ?_⟩
  · rw [portReset_port, PortUnit.sync_startSending, hsync]
    rfl
  · rw [portReset_port, PortUnit.repeats_startSending, repeats_afterBreak]
  · rw [portReset_arbiter, CallArbiter.without_roles, harbiter]
  · rw [portReset_port_other v p (harbiter ▸ hh)]
    exact congrArg (Option.map OutFrame.orphaned) (hfree hf hquiet)
  · rw [portReset_sending v p (hnotice hf hon got n hr)]
    rcases spacingCase_cases s.choices with hcase | hcase <;> rw [hcase]
    · exact .inl rfl
    · exact .inr rfl
  · obtain ⟨hholder, hclaims⟩ := CallArbiter.without_other (a := v.arbiter) (harbiter ▸ hh)
    rw [portReset_port_other v p (harbiter ▸ hh), portReset_arbiter, hholder, hclaims, harbiter]
    exact ⟨rfl, rfl, rfl, rfl, fun q hqp => hthird q hqp (leaveRaises_eq_nil (.inl (harbiter ▸ hh)))⟩
  · have hh' : v.arbiter.holder = some p := by rw [harbiter]; exact hh
    obtain ⟨hholder, hclaims⟩ := CallArbiter.without_holder hh'
    rw [portReset_arbiter, hholder, hclaims, harbiter]
    refine ⟨?_, rfl, rfl, fun q hq => ?_, fun q hqp hq => hthird q hqp (leaveRaises_eq_nil (.inr ⟨hqp, by rw [harbiter]; exact hq⟩))⟩
    · rw [portReset_port, PortUnit.pending_startSending, PortUnit.pending_raises,
        leaveRaises_passed p hh' (by rw [harbiter]; exact hhead), harbiter]
      rfl
    · have hqp : q ≠ p := fun he => hhead (he ▸ hq)
      rw [portReset_other v p hqp, PortUnit.pending_startSending, PortUnit.pending_answerSync, PortUnit.pending_raises,
        leaveRaises_heir p hh' (by rw [harbiter]; exact hq) hqp, hothers q hqp]
      rfl

end Sys2Proof.Machine
end
